-- ==== Sys2Proof/Word.lean ====
section
/-!
DEFINITION. The machine words: an 8-bit byte, the 64-bit word (XLEN = 64, rule R6) and the 5-bit register index (R121).
-/

namespace Sys2Proof

/-- One byte of memory (R80). -/
abbrev Byte := BitVec 8

/-- An XLEN-bit integer: a raw address, an integer register value, a CSR (R6). -/
abbrev Word := BitVec 64

/-- The index of a general register, 0 to 31 (R121). -/
abbrev Reg := BitVec 5

end Sys2Proof
end

