-- ==== Sys2Proof/Syntax.lean ====
section
/-!
DEFINITION. The instructions: one constructor per row of spec/opcode_table.json. A constructor carries EVERY field of its word, the fields the spec calls unused included (R132): decode ignores them, but `mtinst` and `mtval` report the word itself (R148, R352; log 32).
-/

namespace Sys2Proof

/-- An instruction of the opcode table. Operand names are the spec's (R121 to R127, R281). -/
inductive Instr where
  -- Capstone, `funct3 = 001` group (R130)
  | revoke (rd rs1 rs2 : Reg)
  | shrink (rd rs1 rs2 : Reg)
  | tighten (rd rs1 : Reg) (imm : BitVec 5)
  | delin (rd rs1 rs2 : Reg)
  | lcc (rd rs1 : Reg) (imm : BitVec 5)
  | scc (rd rs1 rs2 : Reg)
  | split (rd rs1 rs2 : Reg)
  | seal (rd rs1 rs2 : Reg)
  | mrev (rd rs1 rs2 : Reg)
  | init (rd rs1 rs2 : Reg)
  | movc (rd rs1 rs2 : Reg)
  | drop (rd rs1 rs2 : Reg)
  | cincoffset (rd rs1 rs2 : Reg)
  | capenter (rd rs1 rs2 : Reg)
  | call (rd rs1 rs2 : Reg)
  | ret (rd rs1 rs2 : Reg)
  -- Capstone, the other `funct3` values (R131)
  | shrinkto (rd rs1 : Reg) (imm : BitVec 12)
  | cincoffsetimm (rd rs1 : Reg) (imm : BitVec 12)
  | ldc (rd rs1 : Reg) (imm : BitVec 12)
  | stc (rs1 rs2 : Reg) (imm : BitVec 12)
  | cjalr (rd rs1 : Reg) (imm : BitVec 12)
  | cbnz (rd rs1 : Reg) (imm : BitVec 12)
  | ccsrrw (rd rs1 : Reg) (imm : BitVec 12)
  -- upper immediates and jumps (R283 to R286)
  | lui (rd : Reg) (imm : BitVec 20)
  | auipc (rd : Reg) (imm : BitVec 20)
  | jal (rd : Reg) (imm : BitVec 21)
  | jalr (rd rs1 : Reg) (imm : BitVec 12)
  -- branches (R287 to R292); `imm` is the byte offset, bit 0 clear
  | beq (rs1 rs2 : Reg) (imm : BitVec 13)
  | bne (rs1 rs2 : Reg) (imm : BitVec 13)
  | blt (rs1 rs2 : Reg) (imm : BitVec 13)
  | bge (rs1 rs2 : Reg) (imm : BitVec 13)
  | bltu (rs1 rs2 : Reg) (imm : BitVec 13)
  | bgeu (rs1 rs2 : Reg) (imm : BitVec 13)
  -- loads and stores (R293 to R304)
  | lb (rd rs1 : Reg) (imm : BitVec 12)
  | lh (rd rs1 : Reg) (imm : BitVec 12)
  | lw (rd rs1 : Reg) (imm : BitVec 12)
  | ld (rd rs1 : Reg) (imm : BitVec 12)
  | lbu (rd rs1 : Reg) (imm : BitVec 12)
  | lhu (rd rs1 : Reg) (imm : BitVec 12)
  | lwu (rd rs1 : Reg) (imm : BitVec 12)
  | sb (rs1 rs2 : Reg) (imm : BitVec 12)
  | sh (rs1 rs2 : Reg) (imm : BitVec 12)
  | sw (rs1 rs2 : Reg) (imm : BitVec 12)
  | sd (rs1 rs2 : Reg) (imm : BitVec 12)
  -- register-immediate arithmetic (R305 to R313)
  | addi (rd rs1 : Reg) (imm : BitVec 12)
  | slti (rd rs1 : Reg) (imm : BitVec 12)
  | sltiu (rd rs1 : Reg) (imm : BitVec 12)
  | xori (rd rs1 : Reg) (imm : BitVec 12)
  | ori (rd rs1 : Reg) (imm : BitVec 12)
  | andi (rd rs1 : Reg) (imm : BitVec 12)
  | slli (rd rs1 : Reg) (shamt : BitVec 6)
  | srli (rd rs1 : Reg) (shamt : BitVec 6)
  | srai (rd rs1 : Reg) (shamt : BitVec 6)
  -- register-register arithmetic (R314 to R323)
  | add (rd rs1 rs2 : Reg)
  | sub (rd rs1 rs2 : Reg)
  | sll (rd rs1 rs2 : Reg)
  | slt (rd rs1 rs2 : Reg)
  | sltu (rd rs1 rs2 : Reg)
  | xor (rd rs1 rs2 : Reg)
  | srl (rd rs1 rs2 : Reg)
  | sra (rd rs1 rs2 : Reg)
  | or (rd rs1 rs2 : Reg)
  | and (rd rs1 rs2 : Reg)
  -- the 32-bit forms (R339 to R347)
  | addiw (rd rs1 : Reg) (imm : BitVec 12)
  | slliw (rd rs1 : Reg) (shamt : BitVec 5)
  | srliw (rd rs1 : Reg) (shamt : BitVec 5)
  | sraiw (rd rs1 : Reg) (shamt : BitVec 5)
  | addw (rd rs1 rs2 : Reg)
  | subw (rd rs1 rs2 : Reg)
  | sllw (rd rs1 rs2 : Reg)
  | srlw (rd rs1 rs2 : Reg)
  | sraw (rd rs1 rs2 : Reg)
  -- fence and system (R324 to R329, R336)
  | fence (rd rs1 : Reg) (fm pred succ : BitVec 4)
  | ecall
  | ebreak
  | sret
  | mret
  | wfi
  | sfenceVma (rs1 rs2 : Reg)
  -- Zicsr (R330 to R335)
  | csrrw (rd : Reg) (csr : BitVec 12) (rs1 : Reg)
  | csrrs (rd : Reg) (csr : BitVec 12) (rs1 : Reg)
  | csrrc (rd : Reg) (csr : BitVec 12) (rs1 : Reg)
  | csrrwi (rd : Reg) (csr : BitVec 12) (uimm : BitVec 5)
  | csrrsi (rd : Reg) (csr : BitVec 12) (uimm : BitVec 5)
  | csrrci (rd : Reg) (csr : BitVec 12) (uimm : BitVec 5)
deriving DecidableEq, Repr

end Sys2Proof
end

