-- ==== Sys2Proof/WellFormed.lean ====
section
/-!
DEFINITION. Which terms of `Instr` are instructions: the fields are as wide as the word's, so the one thing left to check is that a branch or jump offset is a multiple of 2, since its bit 0 is not encoded (R281).
-/

namespace Sys2Proof

/-- Bit 0 of a B-type offset is the implied 0 of R281. -/
def branchOffsetOk (imm : BitVec 13) : Bool := !imm.getLsbD 0

/-- Bit 0 of a J-type offset is the implied 0 of R281. -/
def jumpOffsetOk (imm : BitVec 21) : Bool := !imm.getLsbD 0

/-- The well-formed instructions (R281). -/
def Instr.wellFormed : Instr → Bool
  | .beq _ _ imm => branchOffsetOk imm
  | .bne _ _ imm => branchOffsetOk imm
  | .blt _ _ imm => branchOffsetOk imm
  | .bge _ _ imm => branchOffsetOk imm
  | .bltu _ _ imm => branchOffsetOk imm
  | .bgeu _ _ imm => branchOffsetOk imm
  | .jal _ imm => jumpOffsetOk imm
  | .revoke .. => true
  | .shrink .. => true
  | .tighten .. => true
  | .delin .. => true
  | .lcc .. => true
  | .scc .. => true
  | .split .. => true
  | .seal .. => true
  | .mrev .. => true
  | .init .. => true
  | .movc .. => true
  | .drop .. => true
  | .cincoffset .. => true
  | .capenter .. => true
  | .call .. => true
  | .ret .. => true
  | .shrinkto .. => true
  | .cincoffsetimm .. => true
  | .ldc .. => true
  | .stc .. => true
  | .cjalr .. => true
  | .cbnz .. => true
  | .ccsrrw .. => true
  | .lui .. => true
  | .auipc .. => true
  | .jalr .. => true
  | .lb .. => true
  | .lh .. => true
  | .lw .. => true
  | .ld .. => true
  | .lbu .. => true
  | .lhu .. => true
  | .lwu .. => true
  | .sb .. => true
  | .sh .. => true
  | .sw .. => true
  | .sd .. => true
  | .addi .. => true
  | .slti .. => true
  | .sltiu .. => true
  | .xori .. => true
  | .ori .. => true
  | .andi .. => true
  | .slli .. => true
  | .srli .. => true
  | .srai .. => true
  | .add .. => true
  | .sub .. => true
  | .sll .. => true
  | .slt .. => true
  | .sltu .. => true
  | .xor .. => true
  | .srl .. => true
  | .sra .. => true
  | .or .. => true
  | .and .. => true
  | .addiw .. => true
  | .slliw .. => true
  | .srliw .. => true
  | .sraiw .. => true
  | .addw .. => true
  | .subw .. => true
  | .sllw .. => true
  | .srlw .. => true
  | .sraw .. => true
  | .fence .. => true
  | .ecall => true
  | .ebreak => true
  | .sret => true
  | .mret => true
  | .wfi => true
  | .sfenceVma .. => true
  | .csrrw .. => true
  | .csrrs .. => true
  | .csrrc .. => true
  | .csrrwi .. => true
  | .csrrsi .. => true
  | .csrrci .. => true

end Sys2Proof
end

