-- ==== Sys2Proof/Decode.lean ====
section
/-!
DEFINITION. Decoding and encoding (30_encoding.md; R280, R281; spec/opcode_table.json). `decode` is total on any bytes and rejects by name; every rejected word raises Illegal instruction (2) (R133, R144, R349). `encode` writes a word from the same tables.
-/

namespace Sys2Proof

/-- Why bytes are no instruction. Every one of these is Illegal instruction (2) when fetched (R144). -/
inductive DecodeError where
  /-- fewer than four bytes: no whole word (R120) -/
  | truncated
  /-- the two low bits are not `11`: a 16-bit encoding, which the hardware lacks (R120) -/
  | compressed
  /-- a major opcode that is not in R280 -/
  | unknownOpcode
  /-- a `funct3` no rule assigns under its opcode (R280) -/
  | unknownFunct3
  /-- a `funct7` (or a shift's upper bits) no rule assigns (R133, R281) -/
  | unknownFunct7
  /-- a `funct3 = 000` SYSTEM word that is none of the assigned ones (R349) -/
  | unknownSystem
deriving DecidableEq, Repr

namespace Decode

/-- `insn[6:0]` (R121). -/
def opcode (w : BitVec 32) : BitVec 7 := w.extractLsb' 0 7
/-- `insn[11:7]` (R121). -/
def rd (w : BitVec 32) : Reg := w.extractLsb' 7 5
/-- `insn[14:12]` (R121). -/
def funct3 (w : BitVec 32) : BitVec 3 := w.extractLsb' 12 3
/-- `insn[19:15]` (R121). -/
def rs1 (w : BitVec 32) : Reg := w.extractLsb' 15 5
/-- `insn[24:20]` (R121); also the RI-type immediate (R125) and the 5-bit shift amount (R281). -/
def rs2 (w : BitVec 32) : Reg := w.extractLsb' 20 5
/-- `insn[31:25]` (R121). -/
def funct7 (w : BitVec 32) : BitVec 7 := w.extractLsb' 25 7
/-- `insn[31:26]`: the fixed bits of the 6-bit shift-immediate forms (R281). -/
def funct6 (w : BitVec 32) : BitVec 6 := w.extractLsb' 26 6
/-- `insn[25:20]`: the 6-bit shift amount (R281). -/
def shamt6 (w : BitVec 32) : BitVec 6 := w.extractLsb' 20 6
/-- The I-type immediate (R123); also a CSR number (R330). -/
def immI (w : BitVec 32) : BitVec 12 := w.extractLsb' 20 12
/-- The S-type immediate (R124). -/
def immS (w : BitVec 32) : BitVec 12 := w.extractLsb' 25 7 ++ w.extractLsb' 7 5
/-- The B-type byte offset (R281). -/
def immB (w : BitVec 32) : BitVec 13 :=
  w.extractLsb' 31 1 ++ w.extractLsb' 7 1 ++ w.extractLsb' 25 6 ++ w.extractLsb' 8 4 ++ 0#1
/-- The U-type immediate (R281). -/
def immU (w : BitVec 32) : BitVec 20 := w.extractLsb' 12 20
/-- The J-type byte offset (R281). -/
def immJ (w : BitVec 32) : BitVec 21 :=
  w.extractLsb' 31 1 ++ w.extractLsb' 12 8 ++ w.extractLsb' 20 1 ++ w.extractLsb' 21 10 ++ 0#1
/-- `insn[31:28]`, FENCE's `fm` (R326). -/
def fenceMode (w : BitVec 32) : BitVec 4 := w.extractLsb' 28 4
/-- `insn[27:24]`, FENCE's `pred` (R326). -/
def fencePred (w : BitVec 32) : BitVec 4 := w.extractLsb' 24 4
/-- `insn[23:20]`, FENCE's `succ` (R326). -/
def fenceSucc (w : BitVec 32) : BitVec 4 := w.extractLsb' 20 4

/-- The `funct3 = 001` group of custom-2, by `funct7` (R130, R133). -/
def capGroup (w : BitVec 32) : Except DecodeError Instr :=
  match funct7 w with
  | 0#7 => .ok (.revoke (rd w) (rs1 w) (rs2 w))
  | 1#7 => .ok (.shrink (rd w) (rs1 w) (rs2 w))
  | 2#7 => .ok (.tighten (rd w) (rs1 w) (rs2 w))
  | 3#7 => .ok (.delin (rd w) (rs1 w) (rs2 w))
  | 4#7 => .ok (.lcc (rd w) (rs1 w) (rs2 w))
  | 5#7 => .ok (.scc (rd w) (rs1 w) (rs2 w))
  | 6#7 => .ok (.split (rd w) (rs1 w) (rs2 w))
  | 7#7 => .ok (.seal (rd w) (rs1 w) (rs2 w))
  | 8#7 => .ok (.mrev (rd w) (rs1 w) (rs2 w))
  | 9#7 => .ok (.init (rd w) (rs1 w) (rs2 w))
  | 10#7 => .ok (.movc (rd w) (rs1 w) (rs2 w))
  | 11#7 => .ok (.drop (rd w) (rs1 w) (rs2 w))
  | 12#7 => .ok (.cincoffset (rd w) (rs1 w) (rs2 w))
  | 13#7 => .ok (.capenter (rd w) (rs1 w) (rs2 w))
  | 32#7 => .ok (.call (rd w) (rs1 w) (rs2 w))
  | 33#7 => .ok (.ret (rd w) (rs1 w) (rs2 w))
  | _ => .error .unknownFunct7

/-- custom-2, by `funct3` (R128, R131): all eight values are taken. -/
def custom2 (w : BitVec 32) : Except DecodeError Instr :=
  match funct3 w with
  | 0#3 => .ok (.shrinkto (rd w) (rs1 w) (immI w))
  | 1#3 => capGroup w
  | 2#3 => .ok (.cincoffsetimm (rd w) (rs1 w) (immI w))
  | 3#3 => .ok (.ldc (rd w) (rs1 w) (immI w))
  | 4#3 => .ok (.stc (rs1 w) (rs2 w) (immS w))
  | 5#3 => .ok (.cjalr (rd w) (rs1 w) (immI w))
  | 6#3 => .ok (.cbnz (rd w) (rs1 w) (immI w))
  | _ => .ok (.ccsrrw (rd w) (rs1 w) (immI w))

/-- BRANCH (R280). -/
def branch (w : BitVec 32) : Except DecodeError Instr :=
  match funct3 w with
  | 0#3 => .ok (.beq (rs1 w) (rs2 w) (immB w))
  | 1#3 => .ok (.bne (rs1 w) (rs2 w) (immB w))
  | 4#3 => .ok (.blt (rs1 w) (rs2 w) (immB w))
  | 5#3 => .ok (.bge (rs1 w) (rs2 w) (immB w))
  | 6#3 => .ok (.bltu (rs1 w) (rs2 w) (immB w))
  | 7#3 => .ok (.bgeu (rs1 w) (rs2 w) (immB w))
  | _ => .error .unknownFunct3

/-- LOAD (R143, R280). -/
def load (w : BitVec 32) : Except DecodeError Instr :=
  match funct3 w with
  | 0#3 => .ok (.lb (rd w) (rs1 w) (immI w))
  | 1#3 => .ok (.lh (rd w) (rs1 w) (immI w))
  | 2#3 => .ok (.lw (rd w) (rs1 w) (immI w))
  | 3#3 => .ok (.ld (rd w) (rs1 w) (immI w))
  | 4#3 => .ok (.lbu (rd w) (rs1 w) (immI w))
  | 5#3 => .ok (.lhu (rd w) (rs1 w) (immI w))
  | 6#3 => .ok (.lwu (rd w) (rs1 w) (immI w))
  | _ => .error .unknownFunct3

/-- STORE (R143, R280). -/
def store (w : BitVec 32) : Except DecodeError Instr :=
  match funct3 w with
  | 0#3 => .ok (.sb (rs1 w) (rs2 w) (immS w))
  | 1#3 => .ok (.sh (rs1 w) (rs2 w) (immS w))
  | 2#3 => .ok (.sw (rs1 w) (rs2 w) (immS w))
  | 3#3 => .ok (.sd (rs1 w) (rs2 w) (immS w))
  | _ => .error .unknownFunct3

/-- OP-IMM (R280); the shift forms fix `insn[31:26]` (R281). -/
def opImm (w : BitVec 32) : Except DecodeError Instr :=
  match funct3 w with
  | 0#3 => .ok (.addi (rd w) (rs1 w) (immI w))
  | 1#3 =>
    match funct6 w with
    | 0#6 => .ok (.slli (rd w) (rs1 w) (shamt6 w))
    | _ => .error .unknownFunct7
  | 2#3 => .ok (.slti (rd w) (rs1 w) (immI w))
  | 3#3 => .ok (.sltiu (rd w) (rs1 w) (immI w))
  | 4#3 => .ok (.xori (rd w) (rs1 w) (immI w))
  | 5#3 =>
    match funct6 w with
    | 0#6 => .ok (.srli (rd w) (rs1 w) (shamt6 w))
    | 16#6 => .ok (.srai (rd w) (rs1 w) (shamt6 w))
    | _ => .error .unknownFunct7
  | 6#3 => .ok (.ori (rd w) (rs1 w) (immI w))
  | _ => .ok (.andi (rd w) (rs1 w) (immI w))

/-- OP with `funct7 = 0000000` (R314 to R323). -/
def opPlain (w : BitVec 32) : Except DecodeError Instr :=
  match funct3 w with
  | 0#3 => .ok (.add (rd w) (rs1 w) (rs2 w))
  | 1#3 => .ok (.sll (rd w) (rs1 w) (rs2 w))
  | 2#3 => .ok (.slt (rd w) (rs1 w) (rs2 w))
  | 3#3 => .ok (.sltu (rd w) (rs1 w) (rs2 w))
  | 4#3 => .ok (.xor (rd w) (rs1 w) (rs2 w))
  | 5#3 => .ok (.srl (rd w) (rs1 w) (rs2 w))
  | 6#3 => .ok (.or (rd w) (rs1 w) (rs2 w))
  | _ => .ok (.and (rd w) (rs1 w) (rs2 w))

/-- OP with `funct7 = 0100000`: `sub` and `sra` only (R315, R321). -/
def opAlt (w : BitVec 32) : Except DecodeError Instr :=
  match funct3 w with
  | 0#3 => .ok (.sub (rd w) (rs1 w) (rs2 w))
  | 5#3 => .ok (.sra (rd w) (rs1 w) (rs2 w))
  | _ => .error .unknownFunct7

/-- OP, by `funct7` (R280). -/
def op (w : BitVec 32) : Except DecodeError Instr :=
  match funct7 w with
  | 0#7 => opPlain w
  | 32#7 => opAlt w
  | _ => .error .unknownFunct7

/-- OP-IMM-32 (R339 to R342). -/
def opImm32 (w : BitVec 32) : Except DecodeError Instr :=
  match funct3 w with
  | 0#3 => .ok (.addiw (rd w) (rs1 w) (immI w))
  | 1#3 =>
    match funct7 w with
    | 0#7 => .ok (.slliw (rd w) (rs1 w) (rs2 w))
    | _ => .error .unknownFunct7
  | 5#3 =>
    match funct7 w with
    | 0#7 => .ok (.srliw (rd w) (rs1 w) (rs2 w))
    | 32#7 => .ok (.sraiw (rd w) (rs1 w) (rs2 w))
    | _ => .error .unknownFunct7
  | _ => .error .unknownFunct3

/-- OP-32 (R343 to R347). -/
def op32 (w : BitVec 32) : Except DecodeError Instr :=
  match funct7 w with
  | 0#7 =>
    match funct3 w with
    | 0#3 => .ok (.addw (rd w) (rs1 w) (rs2 w))
    | 1#3 => .ok (.sllw (rd w) (rs1 w) (rs2 w))
    | 5#3 => .ok (.srlw (rd w) (rs1 w) (rs2 w))
    | _ => .error .unknownFunct3
  | 32#7 =>
    match funct3 w with
    | 0#3 => .ok (.subw (rd w) (rs1 w) (rs2 w))
    | 5#3 => .ok (.sraw (rd w) (rs1 w) (rs2 w))
    | _ => .error .unknownFunct3
  | _ => .error .unknownFunct7

/-- The words of the operand-free system instructions (R324 to R329) and the `sfence.vma` pattern (R336), under `funct3 = 000`. -/
def systemPlain (w : BitVec 32) : Except DecodeError Instr :=
  if w = 0x00000073#32 then .ok .ecall
  else if w = 0x00100073#32 then .ok .ebreak
  else if w = 0x10200073#32 then .ok .sret
  else if w = 0x30200073#32 then .ok .mret
  else if w = 0x10500073#32 then .ok .wfi
  else if funct7 w = 9#7 ∧ rd w = 0#5 then .ok (.sfenceVma (rs1 w) (rs2 w))
  else .error .unknownSystem

/-- SYSTEM (R280, R330 to R335). -/
def system (w : BitVec 32) : Except DecodeError Instr :=
  match funct3 w with
  | 0#3 => systemPlain w
  | 1#3 => .ok (.csrrw (rd w) (immI w) (rs1 w))
  | 2#3 => .ok (.csrrs (rd w) (immI w) (rs1 w))
  | 3#3 => .ok (.csrrc (rd w) (immI w) (rs1 w))
  | 5#3 => .ok (.csrrwi (rd w) (immI w) (rs1 w))
  | 6#3 => .ok (.csrrsi (rd w) (immI w) (rs1 w))
  | 7#3 => .ok (.csrrci (rd w) (immI w) (rs1 w))
  | _ => .error .unknownFunct3

/-- JALR (R286): `funct3` must be 000. -/
def jumpReg (w : BitVec 32) : Except DecodeError Instr :=
  match funct3 w with
  | 0#3 => .ok (.jalr (rd w) (rs1 w) (immI w))
  | _ => .error .unknownFunct3

/-- MISC-MEM (R326): `fence` only; `fence.i` is not implemented (R280). -/
def miscMem (w : BitVec 32) : Except DecodeError Instr :=
  match funct3 w with
  | 0#3 => .ok (.fence (rd w) (rs1 w) (fenceMode w) (fencePred w) (fenceSucc w))
  | _ => .error .unknownFunct3

/-- One instruction word, by major opcode (R280). -/
def word (w : BitVec 32) : Except DecodeError Instr :=
  match opcode w with
  | 0x37#7 => .ok (.lui (rd w) (immU w))
  | 0x17#7 => .ok (.auipc (rd w) (immU w))
  | 0x6f#7 => .ok (.jal (rd w) (immJ w))
  | 0x67#7 => jumpReg w
  | 0x63#7 => branch w
  | 0x03#7 => load w
  | 0x23#7 => store w
  | 0x13#7 => opImm w
  | 0x33#7 => op w
  | 0x1b#7 => opImm32 w
  | 0x3b#7 => op32 w
  | 0x0f#7 => miscMem w
  | 0x73#7 => system w
  | 0x5b#7 => custom2 w
  | o => if o.extractLsb' 0 2 = 3#2 then .error .unknownOpcode else .error .compressed

end Decode

/-- The 32-bit word of four bytes, the first byte the least significant (R120). -/
def wordOfBytes (b0 b1 b2 b3 : Byte) : BitVec 32 := b3 ++ b2 ++ b1 ++ b0

/-- The four bytes of a word in memory order (R120). -/
def bytesOfWord (w : BitVec 32) : List Byte :=
  [w.extractLsb' 0 8, w.extractLsb' 8 8, w.extractLsb' 16 8, w.extractLsb' 24 8]

/-- Decode the instruction at the head of a byte sequence; answers it with the bytes after it (R120). -/
def decode : List Byte → Except DecodeError (Instr × List Byte)
  | b0 :: b1 :: b2 :: b3 :: rest => (Decode.word (wordOfBytes b0 b1 b2 b3)).map fun i => (i, rest)
  | _ => .error .truncated

/-- The instruction the decoder reads from the table word `w` (bit 0 the least significant bit of the first byte; the bits above `nbits` are 0). -/
def decodeTableWord (nbits w : Nat) : Option Instr :=
  match decode (bytesOfWord (BitVec.ofNat 32 (w % 2 ^ nbits))) with
  | .ok (i, _) => some i
  | .error _ => none

namespace Encode

/-- R-type (R122); also RI-type, with the immediate in the `rs2` field (R125). -/
def rType (funct7 : BitVec 7) (rs2 rs1 : Reg) (funct3 : BitVec 3) (rd : Reg) (opcode : BitVec 7) : BitVec 32 :=
  funct7 ++ rs2 ++ rs1 ++ funct3 ++ rd ++ opcode

/-- I-type (R123). -/
def iType (imm : BitVec 12) (rs1 : Reg) (funct3 : BitVec 3) (rd : Reg) (opcode : BitVec 7) : BitVec 32 :=
  imm ++ rs1 ++ funct3 ++ rd ++ opcode

/-- S-type (R124). -/
def sType (imm : BitVec 12) (rs2 rs1 : Reg) (funct3 : BitVec 3) (opcode : BitVec 7) : BitVec 32 :=
  imm.extractLsb' 5 7 ++ rs2 ++ rs1 ++ funct3 ++ imm.extractLsb' 0 5 ++ opcode

/-- B-type (R281). -/
def bType (imm : BitVec 13) (rs2 rs1 : Reg) (funct3 : BitVec 3) (opcode : BitVec 7) : BitVec 32 :=
  imm.extractLsb' 12 1 ++ imm.extractLsb' 5 6 ++ rs2 ++ rs1 ++ funct3
    ++ imm.extractLsb' 1 4 ++ imm.extractLsb' 11 1 ++ opcode

/-- U-type (R281). -/
def uType (imm : BitVec 20) (rd : Reg) (opcode : BitVec 7) : BitVec 32 := imm ++ rd ++ opcode

/-- J-type (R281). -/
def jType (imm : BitVec 21) (rd : Reg) (opcode : BitVec 7) : BitVec 32 :=
  imm.extractLsb' 20 1 ++ imm.extractLsb' 1 10 ++ imm.extractLsb' 11 1 ++ imm.extractLsb' 12 8
    ++ rd ++ opcode

/-- The 6-bit shift-immediate forms (R281). -/
def shiftType (funct6 shamt : BitVec 6) (rs1 : Reg) (funct3 : BitVec 3) (rd : Reg) : BitVec 32 :=
  funct6 ++ shamt ++ rs1 ++ funct3 ++ rd ++ 0x13#7

end Encode

open Encode in
/-- The word of an instruction (R122 to R131, R280, R281). -/
def encode : Instr → BitVec 32
  | .revoke rd rs1 rs2 => rType 0 rs2 rs1 1 rd 0x5b
  | .shrink rd rs1 rs2 => rType 1 rs2 rs1 1 rd 0x5b
  | .tighten rd rs1 imm => rType 2 imm rs1 1 rd 0x5b
  | .delin rd rs1 rs2 => rType 3 rs2 rs1 1 rd 0x5b
  | .lcc rd rs1 imm => rType 4 imm rs1 1 rd 0x5b
  | .scc rd rs1 rs2 => rType 5 rs2 rs1 1 rd 0x5b
  | .split rd rs1 rs2 => rType 6 rs2 rs1 1 rd 0x5b
  | .seal rd rs1 rs2 => rType 7 rs2 rs1 1 rd 0x5b
  | .mrev rd rs1 rs2 => rType 8 rs2 rs1 1 rd 0x5b
  | .init rd rs1 rs2 => rType 9 rs2 rs1 1 rd 0x5b
  | .movc rd rs1 rs2 => rType 10 rs2 rs1 1 rd 0x5b
  | .drop rd rs1 rs2 => rType 11 rs2 rs1 1 rd 0x5b
  | .cincoffset rd rs1 rs2 => rType 12 rs2 rs1 1 rd 0x5b
  | .capenter rd rs1 rs2 => rType 13 rs2 rs1 1 rd 0x5b
  | .call rd rs1 rs2 => rType 32 rs2 rs1 1 rd 0x5b
  | .ret rd rs1 rs2 => rType 33 rs2 rs1 1 rd 0x5b
  | .shrinkto rd rs1 imm => iType imm rs1 0 rd 0x5b
  | .cincoffsetimm rd rs1 imm => iType imm rs1 2 rd 0x5b
  | .ldc rd rs1 imm => iType imm rs1 3 rd 0x5b
  | .stc rs1 rs2 imm => sType imm rs2 rs1 4 0x5b
  | .cjalr rd rs1 imm => iType imm rs1 5 rd 0x5b
  | .cbnz rd rs1 imm => iType imm rs1 6 rd 0x5b
  | .ccsrrw rd rs1 imm => iType imm rs1 7 rd 0x5b
  | .lui rd imm => uType imm rd 0x37
  | .auipc rd imm => uType imm rd 0x17
  | .jal rd imm => jType imm rd 0x6f
  | .jalr rd rs1 imm => iType imm rs1 0 rd 0x67
  | .beq rs1 rs2 imm => bType imm rs2 rs1 0 0x63
  | .bne rs1 rs2 imm => bType imm rs2 rs1 1 0x63
  | .blt rs1 rs2 imm => bType imm rs2 rs1 4 0x63
  | .bge rs1 rs2 imm => bType imm rs2 rs1 5 0x63
  | .bltu rs1 rs2 imm => bType imm rs2 rs1 6 0x63
  | .bgeu rs1 rs2 imm => bType imm rs2 rs1 7 0x63
  | .lb rd rs1 imm => iType imm rs1 0 rd 0x03
  | .lh rd rs1 imm => iType imm rs1 1 rd 0x03
  | .lw rd rs1 imm => iType imm rs1 2 rd 0x03
  | .ld rd rs1 imm => iType imm rs1 3 rd 0x03
  | .lbu rd rs1 imm => iType imm rs1 4 rd 0x03
  | .lhu rd rs1 imm => iType imm rs1 5 rd 0x03
  | .lwu rd rs1 imm => iType imm rs1 6 rd 0x03
  | .sb rs1 rs2 imm => sType imm rs2 rs1 0 0x23
  | .sh rs1 rs2 imm => sType imm rs2 rs1 1 0x23
  | .sw rs1 rs2 imm => sType imm rs2 rs1 2 0x23
  | .sd rs1 rs2 imm => sType imm rs2 rs1 3 0x23
  | .addi rd rs1 imm => iType imm rs1 0 rd 0x13
  | .slti rd rs1 imm => iType imm rs1 2 rd 0x13
  | .sltiu rd rs1 imm => iType imm rs1 3 rd 0x13
  | .xori rd rs1 imm => iType imm rs1 4 rd 0x13
  | .ori rd rs1 imm => iType imm rs1 6 rd 0x13
  | .andi rd rs1 imm => iType imm rs1 7 rd 0x13
  | .slli rd rs1 shamt => shiftType 0 shamt rs1 1 rd
  | .srli rd rs1 shamt => shiftType 0 shamt rs1 5 rd
  | .srai rd rs1 shamt => shiftType 16 shamt rs1 5 rd
  | .add rd rs1 rs2 => rType 0 rs2 rs1 0 rd 0x33
  | .sub rd rs1 rs2 => rType 32 rs2 rs1 0 rd 0x33
  | .sll rd rs1 rs2 => rType 0 rs2 rs1 1 rd 0x33
  | .slt rd rs1 rs2 => rType 0 rs2 rs1 2 rd 0x33
  | .sltu rd rs1 rs2 => rType 0 rs2 rs1 3 rd 0x33
  | .xor rd rs1 rs2 => rType 0 rs2 rs1 4 rd 0x33
  | .srl rd rs1 rs2 => rType 0 rs2 rs1 5 rd 0x33
  | .sra rd rs1 rs2 => rType 32 rs2 rs1 5 rd 0x33
  | .or rd rs1 rs2 => rType 0 rs2 rs1 6 rd 0x33
  | .and rd rs1 rs2 => rType 0 rs2 rs1 7 rd 0x33
  | .addiw rd rs1 imm => iType imm rs1 0 rd 0x1b
  | .slliw rd rs1 shamt => rType 0 shamt rs1 1 rd 0x1b
  | .srliw rd rs1 shamt => rType 0 shamt rs1 5 rd 0x1b
  | .sraiw rd rs1 shamt => rType 32 shamt rs1 5 rd 0x1b
  | .addw rd rs1 rs2 => rType 0 rs2 rs1 0 rd 0x3b
  | .subw rd rs1 rs2 => rType 32 rs2 rs1 0 rd 0x3b
  | .sllw rd rs1 rs2 => rType 0 rs2 rs1 1 rd 0x3b
  | .srlw rd rs1 rs2 => rType 0 rs2 rs1 5 rd 0x3b
  | .sraw rd rs1 rs2 => rType 32 rs2 rs1 5 rd 0x3b
  | .fence rd rs1 fm pred succ => iType (fm ++ pred ++ succ) rs1 0 rd 0x0f
  | .ecall => 0x00000073
  | .ebreak => 0x00100073
  | .sret => 0x10200073
  | .mret => 0x30200073
  | .wfi => 0x10500073
  | .sfenceVma rs1 rs2 => rType 9 rs2 rs1 0 0 0x73
  | .csrrw rd csr rs1 => iType csr rs1 1 rd 0x73
  | .csrrs rd csr rs1 => iType csr rs1 2 rd 0x73
  | .csrrc rd csr rs1 => iType csr rs1 3 rd 0x73
  | .csrrwi rd csr uimm => iType csr uimm 5 rd 0x73
  | .csrrsi rd csr uimm => iType csr uimm 6 rd 0x73
  | .csrrci rd csr uimm => iType csr uimm 7 rd 0x73

end Sys2Proof
end

