-- ==== Sys2Proof/Config.lean ====
section
/-!
DEFINITION. What an implementation fixes (R7, R8) and the free values: values the spec leaves open after an instruction that goes on. An opaque constant has no body, so no proof can see its value.
-/

namespace Sys2Proof.Config

/-- `RESET_VECTOR` (R402): implementation-defined, a multiple of 4. DESIGN CHOICE (log 1): the address the spec's own sample programs start at. -/
def resetVector : Word := 0x1000

/-- `INIT_CODE_BASE` (R233): implementation-defined, no relation to the others may be assumed (log 9). -/
opaque initCodeBase : Word

/-- `INIT_CODE_END` (R233), exclusive (log 9). -/
opaque initCodeEnd : Word

/-- `INIT_DATA_BASE` (R233) (log 9). -/
opaque initDataBase : Word

/-- `INIT_DATA_END` (R233), exclusive (log 9). -/
opaque initDataEnd : Word

/-- The result of an integer load that R84 calls undefined: any value of the load's width, drawn afresh at each read. The first argument is the state's draw counter, the second the address (log 11). -/
opaque undefinedLoad : Nat → Word → Word

/-- `CIC_READ` (R43, D8): what a CSR read of `cic` returns, an open value that may differ at every read. The first argument is the state's draw counter, the second the content of `cic` (log 10). -/
opaque cicRead : Nat → Word → Word

/-- `RAISES_RESOURCE_EXC` (R353, D30): where an implementation with finite resources raises exception 30, a predicate over the state and the instruction word, consulted for every instruction that runs in C-mode but those whose rule says that no exception is raised (log 13). -/
opaque raisesResourceExc {σ : Type} : σ → BitVec 32 → Bool

end Sys2Proof.Config
end

