-- ==== Sys2Proof/Machine/State.lean ====
section
/-!
DEFINITION. The machine's state as plain data (R20), the reasons a step can stop, and the state after reset (R400 to R408).
-/

namespace Sys2Proof.Machine

/-- The privilege level: mode IDs 0, 1, 3 (R22). Mode ID 3 is M-mode or C-mode, by `CAPSTONE_EN`. Mode ID 2 is not used. -/
inductive Priv where
  | user
  | supervisor
  | machine
deriving DecidableEq, Repr

/-- The type of a capability (R23, R25; C6: there are six). -/
inductive CapType where
  | linear
  | nonLinear
  | revocation
  | uninitialised
  | sealed
  | sealedReturn
deriving DecidableEq, Repr

/-- A capability (R23 to R26) with its creation stamp `born` (R28). `last` is the spec's `end`: the address of the region's last byte, inclusive. Every field is kept whatever the type (D10). -/
structure Cap where
  valid  : Bool
  type   : CapType
  cursor : Word
  base   : Word
  last   : Word
  perms  : BitVec 3
  async  : Bool
  reg    : Reg
  born   : Nat
deriving DecidableEq, Repr

/-- `cnull`: every field zero (R10). -/
def cnull : Cap :=
  { valid := false, type := .linear, cursor := 0, base := 0, last := 0, perms := 0,
    async := false, reg := 0, born := 0 }

/-- What a register, a CCSR, the `pc` or a memory slot holds: an integer or a capability (R10). -/
inductive Value where
  | int (v : Word)
  | cap (c : Cap)
deriving DecidableEq, Repr

/-- The capability control and status registers (R38). -/
structure Ccsrs where
  ctvec    : Value
  cih      : Value
  cepc     : Value
  cscratch : Value
  cpmp     : Vector Value 16
deriving DecidableEq, Repr

/-- The 64-bit CSRs: those of the base ISA (R36, R37, R57) and the four added ones (R40). -/
structure Csrs where
  mstatus   : Word
  medeleg   : Word
  mideleg   : Word
  mip       : Word
  mie       : Word
  mcause    : Word
  mtval     : Word
  mtval2    : Word
  mtinst    : Word
  mtvec     : Word
  mscratch  : Word
  mepc      : Word
  stvec     : Word
  scause    : Word
  stval     : Word
  sepc      : Word
  sscratch  : Word
  satp      : Word
  cis       : Word
  cid       : Word
  cic       : Word
  offsetmmu : Word
deriving DecidableEq, Repr

/-- What the run has last stored over a byte; a byte without a mark is as the image left it (R82, R104). -/
inductive Mark where
  /-- the last store over the byte was an integer store: defined, but not to be fetched (R104) -/
  | intStored
  /-- the last store over the byte was a capability store: undefined for integer loads (R82) -/
  | capStored
deriving DecidableEq, Repr

/-- Memory (R80 to R82): the bytes, the capability slots (by slot address) and the per-byte marks, each a list with strictly rising keys. An unlisted byte reads 0 (log 6); an unlisted slot is an integer slot; an unlisted mark means no store of the run. -/
structure Memory where
  bytes : List Host.Cell
  caps  : List (Nat × Cap)
  marks : List (Nat × Mark)
deriving DecidableEq, Repr

/-- A range of addresses that is not memory: `[first, last]`. -/
structure Hole where
  first : Nat
  last  : Nat
deriving DecidableEq, Repr

/-- The platform's parameters that a proof quantifies over (R8): they never change. -/
structure Platform where
  /-- the addresses where `is_mem` is false (R80, D25) -/
  holes : List Hole
  /-- `DATA_END_ADJ` of R93 (D3): `true` is 1 -/
  dataEndAdj : Bool
  /-- whether the implementation may raise exception 30 at all (R353, D30) -/
  finiteResources : Bool
deriving DecidableEq, Repr

/-- The six interrupt lines (R351): bits 1, 3, 5, 7, 9, 11 of `mip`, `mie`, `mideleg`, `cis`, `cid`. -/
inductive Irq where
  | supervisorSoftware
  | machineSoftware
  | supervisorTimer
  | machineTimer
  | supervisorExternal
  | machineExternal
deriving DecidableEq, Repr

/-- An event of the environment: `IrqSet(x)` or `IrqClear(x)` (R371). -/
inductive IrqEvent where
  | set (line : Irq)
  | clear (line : Irq)
deriving DecidableEq, Repr

/-- The whole machine (R20). `draws` and `inputs` are the MODEL's own fields: the counter that keys the free values (log 12) and the environment's events, one list per instruction boundary (log 16). `plat` holds the platform's constants. -/
structure State where
  /-- `x[1]` to `x[31]`: `x[i]` at index `i - 1`; `x[0]` has no storage (R32) -/
  regs       : Vector Value 31
  pc         : Value
  priv       : Priv
  capstoneEn : Bool
  ccsr       : Ccsrs
  csr        : Csrs
  /-- `rev_clock` (R28) -/
  revClock   : Nat
  mem        : Memory
  draws      : Nat
  inputs     : List (List IrqEvent)
  plat       : Platform
deriving DecidableEq, Repr

/-- Why the machine is stuck: the spec gives no successor state. -/
inductive Fault where
  /-- A trap into C-mode with `ctvec` and `pc` both integers (R361, D33). Raised by taking a trap or a V-interrupt. Safe. -/
  | trapBothIntegers
  /-- A byte of a context region is not memory (R375 section 4, D42). Raised by CALL, RETURN and H-interrupt delivery. Safe. -/
  | contextNotMemory
  /-- A context region whose base is not 16-byte aligned, for which the slot primitives have no meaning (R85, R87). No capability SEAL makes has such a base (log 20). Raised by CALL, RETURN and H-interrupt delivery. Safe. -/
  | contextMisaligned
  /-- A saved privilege level of 2 in a domain context (R378, D19). Raised by an asynchronous RETURN. Safe. -/
  | badSavedPriv
  /-- `mstatus.MPP` holds 2, which no write can put there (R52, log 22). Raised by MRET. Safe. -/
  | illegalMpp
deriving DecidableEq, Repr

/-- Why the model refuses to step: the spec declares it outside the modelled subset. -/
inductive Refusal where
  /-- an instruction without a meaning (none is left) -/
  | notModelled (mnemonic : String)
  /-- S-mode or U-mode with `CAPSTONE_EN = 1`: the access check through `cpmp` is in no source (R382, D38). Raised by `step`, and by the loads and stores. Safe. -/
  | lowPrivUnderCapstone
  /-- S-mode or U-mode with `satp` MODE not Bare: address translation is out of scope (R383, D38). Raised by `step`, and by the loads and stores. Safe. -/
  | translationUnmodelled
deriving DecidableEq, Repr

/-- The CSRs right after reset (R405, R406): `mstatus` has UXL = SXL = 2 and every writable field 0; every other CSR is 0 (logs 4, 5). -/
def Csrs.reset : Csrs :=
  { mstatus := 0xa00000000, medeleg := 0, mideleg := 0, mip := 0, mie := 0, mcause := 0, mtval := 0,
    mtval2 := 0, mtinst := 0, mtvec := 0, mscratch := 0, mepc := 0, stvec := 0, scause := 0, stval := 0,
    sepc := 0, sscratch := 0, satp := 0, cis := 0, cid := 0, cic := 0, offsetmmu := 0 }

/-- The CCSRs right after reset: `cnull` (R404, log 3). -/
def Ccsrs.reset : Ccsrs :=
  { ctvec := .cap cnull, cih := .cap cnull, cepc := .cap cnull, cscratch := .cap cnull,
    cpmp := Vector.replicate 16 (.cap cnull) }

/-- The default platform: every address is memory (D25), `DATA_END_ADJ = 0` (D3), exception 30 never (D30). -/
def Platform.default : Platform := { holes := [], dataEndAdj := false, finiteResources := false }

/-- The machine right after reset (R400 to R408): M-mode, `CAPSTONE_EN = 0`, an integer `pc`, no capability in memory; general registers `Int(0)` (log 2). -/
def State.reset : State :=
  { regs := Vector.replicate 31 (.int 0), pc := .int Config.resetVector, priv := .machine,
    capstoneEn := false, ccsr := Ccsrs.reset, csr := Csrs.reset, revClock := 0,
    mem := { bytes := [], caps := [], marks := [] }, draws := 0, inputs := [],
    plat := Platform.default }

end Sys2Proof.Machine
end

