-- ==== Sys2Proof/Machine/Table.lean ====
section
/-!
DEFINITION. Finite tables with natural-number keys, held as lists of pairs with strictly rising keys: the one canonical form of the memory's three lists.
-/

namespace Sys2Proof.Machine

/-- What a table holds at a key. -/
def tableGet {α : Type} (k : Nat) : List (Nat × α) → Option α
  | [] => none
  | e :: t => if e.1 = k then some e.2 else if e.1 < k then tableGet k t else none

/-- Put a value at a key, keeping the keys rising. -/
def tableSet {α : Type} (k : Nat) (v : α) : List (Nat × α) → List (Nat × α)
  | [] => [(k, v)]
  | e :: t =>
    if e.1 < k then e :: tableSet k v t
    else if e.1 = k then (k, v) :: t
    else (k, v) :: e :: t

/-- Remove a key. -/
def tableErase {α : Type} (k : Nat) : List (Nat × α) → List (Nat × α)
  | [] => []
  | e :: t =>
    if e.1 < k then e :: tableErase k t
    else if e.1 = k then t
    else e :: t

/-- Change every value in place. -/
def tableMap {α : Type} (f : α → α) (t : List (Nat × α)) : List (Nat × α) :=
  t.map fun e => (e.1, f e.2)

/-- The canonical form: keys strictly rising. -/
abbrev TableSorted {α : Type} (t : List (Nat × α)) : Prop := t.Pairwise fun a b => a.1 < b.1

end Sys2Proof.Machine
end

