-- ==== Sys2Proof/Machine/Memory.lean ====
section
/-!
DEFINITION. The memory primitives (R84 to R89). They check nothing: the instruction rules check first.
-/

namespace Sys2Proof.Machine

/-- The platform's `is_mem(addr)` (R80, D25). -/
def Platform.isMem (p : Platform) (a : Word) : Bool :=
  !p.holes.any fun h => decide (h.first ≤ a.toNat) && decide (a.toNat ≤ h.last)

/-- Are the `n` bytes from `a` memory? Addresses wrap modulo 2^64 (R13). -/
def Platform.isMemRange (p : Platform) (a : Word) : Nat → Bool
  | 0 => true
  | n + 1 => p.isMem a && p.isMemRange (a + 1) n

/-- `byte[a]` (R82); an unlisted byte reads 0 (log 6). -/
def Memory.byte (m : Memory) (a : Word) : Byte := (tableGet a.toNat m.bytes).getD 0

/-- What the run last stored over the byte (R82, R104). -/
def Memory.mark (m : Memory) (a : Word) : Option Mark := tableGet a.toNat m.marks

/-- `def[a]` (R82): is the byte defined for an integer load? -/
def Memory.defined (m : Memory) (a : Word) : Bool := decide (m.mark a ≠ some .capStored)

/-- Are the `n` bytes from `a` all defined (R84)? -/
def Memory.definedRange (m : Memory) (a : Word) : Nat → Bool
  | 0 => true
  | n + 1 => m.defined a && m.definedRange (a + 1) n

/-- May the `n` bytes from `a` be fetched: defined, and not stored by an instruction of the run (R90, R104, R350)? -/
def Memory.fetchable (m : Memory) (a : Word) : Nat → Bool
  | 0 => true
  | n + 1 => decide (m.mark a = none) && m.fetchable (a + 1) n

/-- The slot that holds an address: `addr & ~15` (R86). -/
def slotOf (a : Word) : Word := a &&& ~~~(15 : Word)

/-- `slotcap[s]` of the slot holding `a` (R82). -/
def Memory.slotCap (m : Memory) (a : Word) : Option Cap := tableGet (slotOf a).toNat m.caps

/-- The `n` bytes from `a` as a little-endian number (R84, R92). -/
def Memory.rawInt (m : Memory) (a : Word) : Nat → Nat
  | 0 => 0
  | n + 1 => (m.byte a).toNat + 256 * m.rawInt (a + 1) n

/-- `MemReadInt(addr, n)` (R84): the little-endian integer when every byte is defined; otherwise an undefined value of `n` bytes, a free value keyed by the draw counter (log 11). -/
def Memory.readInt (m : Memory) (draw : Nat) (a : Word) (n : Nat) : Word :=
  if m.definedRange a n then BitVec.ofNat 64 (m.rawInt a n)
  else BitVec.ofNat 64 ((Config.undefinedLoad draw a).toNat % 2 ^ (8 * n))

/-- `MemReadSlot(addr)` (R85), `addr` a multiple of 16. -/
def Memory.readSlot (m : Memory) (draw : Nat) (a : Word) : Value :=
  match m.slotCap a with
  | some c => .cap c
  | none => .int (m.readInt draw a 8)

/-- Set one byte: zero bytes are not listed, so that equal memories are equal lists. -/
def Memory.setByte (m : Memory) (a : Word) (b : Byte) : Memory :=
  { m with bytes := if b = 0 then tableErase a.toNat m.bytes else tableSet a.toNat b m.bytes }

/-- Store one byte as an integer: the value, `def[a] <- true`, and the slot holding it becomes an integer slot (R86). -/
def Memory.storeByte (m : Memory) (a : Word) (b : Byte) : Memory :=
  { m.setByte a b with
    marks := tableSet a.toNat .intStored m.marks
    caps := tableErase (slotOf a).toNat m.caps }

/-- Store the low `n` bytes of `v` from `a` upward, little-endian (R86, R92). -/
def Memory.storeBytes (m : Memory) (a : Word) (v : Word) : Nat → Memory
  | 0 => m
  | n + 1 => (m.storeByte a (v.setWidth 8)).storeBytes (a + 1) (v >>> 8) n

/-- `MemWriteInt(addr, n, v)` (R86): the bytes, and the slot holding `addr` becomes an integer slot. Every access of the spec is aligned with `n <= 8`, so it lies in one slot. -/
def Memory.writeInt (m : Memory) (a : Word) (n : Nat) (v : Word) : Memory := m.storeBytes a v n

/-- Make the `n` bytes from `a` undefined for integer loads (R87); their bytes are no longer observable (R83) and are left unlisted. -/
def Memory.undefine (m : Memory) (a : Word) : Nat → Memory
  | 0 => m
  | n + 1 =>
    Memory.undefine { m.setByte a 0 with marks := tableSet a.toNat .capStored m.marks } (a + 1) n

/-- `MemWriteSlot(addr, v)` (R87, R88, D41), `addr` a multiple of 16: a capability fills the slot and leaves its 16 bytes undefined; an integer is stored as 8 bytes. -/
def Memory.writeSlot (m : Memory) (a : Word) : Value → Memory
  | .cap c =>
    let m' := m.undefine (slotOf a) 16
    { m' with caps := tableSet (slotOf a).toNat c m'.caps }
  | .int v => m.writeInt a 8 v

/-- How many bytes an access of the slot touches: 16 for a capability, 8 for an integer (R85, R87, R88). -/
def Value.slotBytes : Value → Nat
  | .cap _ => 16
  | .int _ => 8

/-- Change every capability held in memory in place: no store, so no mark changes (R175). -/
def Memory.mapCaps (m : Memory) (f : Cap → Cap) : Memory := { m with caps := tableMap f m.caps }

/-- The memory's canonical form: rising keys below 2^64, no listed zero byte, no listed byte under a capability store, capability slots aligned and their 16 bytes undefined. -/
abbrev Memory.wf (m : Memory) : Prop :=
  TableSorted m.bytes ∧ TableSorted m.caps ∧ TableSorted m.marks ∧
  (∀ e ∈ m.bytes, e.1 < 2 ^ 64 ∧ e.2 ≠ 0 ∧ tableGet e.1 m.marks ≠ some .capStored) ∧
  (∀ e ∈ m.caps, e.1 < 2 ^ 64 ∧ e.1 % 16 = 0 ∧
    ∀ i < 16, tableGet (e.1 + i) m.marks = some .capStored) ∧
  (∀ e ∈ m.marks, e.1 < 2 ^ 64)

end Sys2Proof.Machine
end

