-- ==== Sys2Proof/Machine/Caps.lean ====
section
/-!
DEFINITION. Capabilities and values: their predicates, orders and field codes (R12, R14, R23 to R28, R93).
-/

namespace Sys2Proof.Machine

/-- The privilege level as a mode ID (R22). -/
def Priv.code : Priv → BitVec 2
  | .user => 0
  | .supervisor => 1
  | .machine => 3

/-- The privilege level of a mode ID; 2 is not a mode (R22). -/
def Priv.ofCode (b : BitVec 2) : Option Priv :=
  if b = 0 then some .user else if b = 1 then some .supervisor else if b = 3 then some .machine else none

/-- The `type` field's value (R23). -/
def CapType.code : CapType → Word
  | .linear => 0
  | .nonLinear => 1
  | .revocation => 2
  | .uninitialised => 3
  | .sealed => 4
  | .sealedReturn => 5

/-- `isInt(v)` (R10). -/
def Value.isInt : Value → Bool
  | .int _ => true
  | .cap _ => false

/-- `isCap(v)` (R10). -/
def Value.isCap : Value → Bool
  | .int _ => false
  | .cap _ => true

/-- `ival(v)` (R12): the integer a base instruction sees. -/
def Value.ival : Value → Word
  | .int n => n
  | .cap c => if c.type = .sealed then c.base else c.cursor

/-- The address a `pc` value names: the integer, or the capability's cursor (R35). -/
def Value.address : Value → Word
  | .int a => a
  | .cap c => c.cursor

/-- `pc.cursor <- a` (R16); for an integer `pc`, `pc <- Int(a)` (R35). -/
def Value.withCursor (a : Word) : Value → Value
  | .int _ => .int a
  | .cap c => .cap { c with cursor := a }

/-- What a CCSR keeps after CCSRRW has read it (R230): a non-linear capability stays, anything else leaves `cnull`. -/
def Value.afterRead : Value → Value
  | .cap c => if c.type = .nonLinear then .cap c else .cap cnull
  | .int _ => .cap cnull

/-- Does moving the value out of a location clear that location: a capability whose type is not 1 (R107)? -/
def Value.movesOut : Value → Bool
  | .cap c => decide (c.type ≠ .nonLinear)
  | .int _ => false

/-- `p <=p q` (R14, R24): every permission of `p` is in `q`. -/
def permLe (p q : BitVec 3) : Bool := p &&& q == p

/-- `perm_r(c)` (R14). -/
def Cap.canRead (c : Cap) : Bool := permLe 4 c.perms

/-- `perm_w(c)` (R14). -/
def Cap.canWrite (c : Cap) : Bool := permLe 2 c.perms

/-- `perm_x(c)` (R14). -/
def Cap.canExecute (c : Cap) : Bool := permLe 1 c.perms

/-- Types 0 and 1, the ones whose `perms` govern access (R94). -/
def Cap.isPlain (c : Cap) : Bool := decide (c.type = .linear ∨ c.type = .nonLinear)

/-- Types 0, 1 and 3: the ones with bounds and permissions that can be shrunk or tightened (R166, R167, R169). -/
def Cap.isBounded (c : Cap) : Bool :=
  decide (c.type = .linear ∨ c.type = .nonLinear ∨ c.type = .uninitialised)

/-- `aliases(c, d)` (R27): the closed regions meet. -/
def Cap.overlaps (c d : Cap) : Bool :=
  decide (max c.base.toNat d.base.toNat ≤ min c.last.toNat d.last.toNat)

/-- `c <t d` (R28) for two revocation capabilities. -/
def Cap.createdBefore (c d : Cap) : Bool := c.overlaps d && decide (c.born < d.born)

/-- `InBoundsLin(c, EA, size)` (R93), compared as unbounded integers: `base <= EA` and `EA <= end - size + DATA_END_ADJ`. -/
def Cap.inBoundsLin (p : Platform) (c : Cap) (ea : Word) (size : Nat) : Bool :=
  decide (c.base.toNat ≤ ea.toNat) &&
    decide (ea.toNat + size ≤ c.last.toNat + (if p.dataEndAdj then 1 else 0))

/-- `InBoundsSR(c, EA, size)` (R93): `EA` in `[base + 48, base + 1024 - size]`, compared as unbounded integers. -/
def Cap.inBoundsSR (c : Cap) (ea : Word) (size : Nat) : Bool :=
  decide (c.base.toNat + 48 ≤ ea.toNat) && decide (ea.toNat + size ≤ c.base.toNat + 1024)

/-- `EA` of R93: the cursor plus the sign-extended offset, modulo 2^64. -/
def Cap.effectiveAddress (c : Cap) (imm : BitVec 12) : Word := c.cursor + imm.signExtend 64

/-- Is an address a multiple of `n` (R95)? -/
def alignedTo (a : Word) (n : Nat) : Bool := a.toNat % n == 0

/-- `CihVacant` (R39, C9): an integer, or a capability with `valid = 0`. -/
def Value.vacant : Value → Bool
  | .int _ => true
  | .cap c => !c.valid

end Sys2Proof.Machine
end

