-- ==== Sys2Proof/Machine/Flags.lean ====
section
/-!
DEFINITION. The fields of the status registers and what a write to each CSR may change (R41, R42, R51 to R55, R337, R338). The ISA has no condition codes (R58).
-/

namespace Sys2Proof.Machine

/-- One bit of a word. -/
def bitOf (w : Word) (n : Nat) : Bool := w.getLsbD n

/-- The word with one bit set to `b`. -/
def withBit (w : Word) (n : Nat) (b : Bool) : Word :=
  if b then w ||| ((1 : Word) <<< n) else w &&& ~~~((1 : Word) <<< n)

/-- The bits of `v` where `mask` is 1, of `old` elsewhere: how read-only bits keep their value. -/
def merge (mask old v : Word) : Word := (old &&& ~~~mask) ||| (v &&& mask)

/-- The bit of an interrupt line (R351). -/
def Irq.bit : Irq → Nat
  | .supervisorSoftware => 1
  | .machineSoftware => 3
  | .supervisorTimer => 5
  | .machineTimer => 7
  | .supervisorExternal => 9
  | .machineExternal => 11

/-- The base priority order 11, 3, 7, 9, 1, 5 (R372, R375). -/
def Irq.byPriority : List Irq :=
  [.machineExternal, .machineSoftware, .machineTimer, .supervisorExternal, .supervisorSoftware,
    .supervisorTimer]

/-- The six implemented interrupt bits, 0xAAA (R53, D36). -/
def irqMask : Word := 0xaaa

/-- The supervisor interrupt bits 1, 5, 9 (R53, R338). -/
def sIrqMask : Word := 0x222

/-- `mstatus.SIE` (R52). -/
def mstatusSIE : Nat := 1
/-- `mstatus.MIE` (R52). -/
def mstatusMIE : Nat := 3
/-- `mstatus.SPIE` (R52). -/
def mstatusSPIE : Nat := 5
/-- `mstatus.MPIE` (R52). -/
def mstatusMPIE : Nat := 7
/-- `mstatus.SPP` (R52). -/
def mstatusSPP : Nat := 8
/-- `mstatus.MPRV` (R52). -/
def mstatusMPRV : Nat := 17
/-- `mstatus.TVM` (R52). -/
def mstatusTVM : Nat := 20
/-- `mstatus.TW` (R52). -/
def mstatusTW : Nat := 21
/-- `mstatus.TSR` (R52). -/
def mstatusTSR : Nat := 22

/-- `mstatus.MPP`, bits [12:11] (R52). -/
def mpp (ms : Word) : BitVec 2 := ms.extractLsb' 11 2

/-- `mstatus` with MPP replaced. -/
def withMpp (ms : Word) (p : BitVec 2) : Word := merge 0x1800 ms (p.setWidth 64 <<< 11)

/-- The writable fields of `mstatus` but MPP: SIE, MIE, SPIE, MPIE, SPP, MPRV, SUM, MXR, TVM, TW, TSR (R52). -/
def mstatusMask : Word := 0x7e01aa

/-- What `mstatus` reads outside its writable fields: UXL = SXL = 2, all else 0 (R52). -/
def mstatusFixed : Word := 0xa00000000

/-- A value as `mstatus` can hold it, MPP given: the writable fields of `v`, the fixed bits, the MPP (R52). -/
def mstatusOf (v : Word) (p : BitVec 2) : Word :=
  withMpp ((v &&& mstatusMask) ||| mstatusFixed) p

/-- A CSR write of `mstatus`: MPP is WARL, a write of 2 leaves it (R52). -/
def writeMstatus (old v : Word) : Word := mstatusOf v (if mpp v = 2 then mpp old else mpp v)

/-- `legal(ms & ~(3 << 38))` of a context load: bits [39:38] of the image never reach the live register; an image MPP of 2 loads as 0 (R51, R376). -/
def loadMstatus (v : Word) : Word := mstatusOf v (if mpp v = 2 then 0 else mpp v)

/-- The image of `mstatus` in a saved context: bits [39:38] are the privilege level (R51). -/
def mstatusImage (ms : Word) (p : Priv) : Word :=
  (ms &&& ~~~((3 : Word) <<< 38)) ||| (p.code.setWidth 64 <<< 38)

/-- The privilege level of a saved image (R51). -/
def imagePriv (v : Word) : BitVec 2 := v.extractLsb' 38 2

/-- `medeleg`: bits 11 and 24 to 30 are read-only 0 (R55, R350). -/
def legalMedeleg (v : Word) : Word := v &&& ~~~(0x7f000800 : Word)

/-- A CSR write of `mip`: SSIP, STIP, SEIP are writable, MSIP, MTIP, MEIP are not (R53). -/
def writeMip (old v : Word) : Word := merge sIrqMask old v

/-- A CSR write of `mtvec`: MODE 2 and 3 are not accepted and leave MODE unchanged (R337). -/
def writeMtvec (old v : Word) : Word := if bitOf v 1 then merge (~~~(3 : Word)) old v else v

/-- `mepc`: bits [1:0] read 0 (R337). -/
def legalMepc (v : Word) : Word := v &&& ~~~(3 : Word)

/-- The bits of `mstatus` that `sstatus` shows: SIE, SPIE, SPP, SUM, MXR, UXL, SD (R338). -/
def sstatusView : Word := 0x80000003000c0122

/-- The bits of `mstatus` that a write of `sstatus` changes: SIE, SPIE, SPP, SUM, MXR (R52, R338; log 25). -/
def sstatusMask : Word := 0xc0122

/-- The saved-pc form of an address: `pc & ~3` (R362, R363). -/
def savedPc (a : Word) : Word := a &&& ~~~(3 : Word)

/-- A trap vector register's target: BASE, plus 4 times the code for an interrupt when MODE is 1 (R337, R362, R363). -/
def vectorTarget (tvec : Word) (interrupt : Bool) (code : Word) : Word :=
  let base := tvec &&& ~~~(3 : Word)
  if interrupt && (tvec &&& 3 == 1) then base + 4 * code else base

/-- `(interrupt << 63) | code` (R54, R360). -/
def causeWord (interrupt : Bool) (code : Word) : Word :=
  if interrupt then code ||| ((1 : Word) <<< 63) else code

/-- `mstatus` after a trap into mode ID 3: MPIE <- MIE, MIE <- 0, MPP <- priv (R360, R362). -/
def trapMstatus (ms : Word) (p : Priv) : Word :=
  withMpp (withBit (withBit ms mstatusMPIE (bitOf ms mstatusMIE)) mstatusMIE false) p.code

/-- `mstatus` after a trap into S-mode: SPIE <- SIE, SIE <- 0, SPP <- priv (R363). -/
def trapSstatus (ms : Word) (p : Priv) : Word :=
  withBit (withBit (withBit ms mstatusSPIE (bitOf ms mstatusSIE)) mstatusSIE false) mstatusSPP
    (decide (p = .supervisor))

/-- `mstatus` after MRET to `p`: MIE <- MPIE, MPIE <- 1, MPP <- 0, MPRV <- 0 unless `p` is mode ID 3 (R265, R327). -/
def mretMstatus (ms : Word) (p : Priv) : Word :=
  let ms1 := withMpp (withBit (withBit ms mstatusMIE (bitOf ms mstatusMPIE)) mstatusMPIE true) 0
  if p = .machine then ms1 else withBit ms1 mstatusMPRV false

/-- `mstatus` after SRET: SIE <- SPIE, SPIE <- 1, SPP <- 0, MPRV <- 0 (R328). -/
def sretMstatus (ms : Word) : Word :=
  withBit (withBit (withBit (withBit ms mstatusSIE (bitOf ms mstatusSPIE)) mstatusSPIE true)
    mstatusSPP false) mstatusMPRV false

/-- Is an `mstatus` value one the register can hold (R52): the fixed bits as they read, MPP not 2? -/
def mstatusLegal (ms : Word) : Bool := decide (mstatusOf ms (mpp ms) = ms) && decide (mpp ms ≠ 2)

end Sys2Proof.Machine
end

