-- ==== Sys2Proof/Machine/Operands.lean ====
section
/-!
DEFINITION. Reading and writing the general registers in every operand form (R11, R31 to R33), and the plain updates of the state's parts.
-/

namespace Sys2Proof.Machine

/-- In C-mode: mode ID 3 with `CAPSTONE_EN = 1` (R22). -/
def State.inCMode (s : State) : Bool := s.capstoneEn && decide (s.priv = .machine)

/-- The stored value of `x[r]`, for `r` other than 0 (R31). -/
def State.stored (s : State) (r : Reg) : Value :=
  s.regs[r.toNat - 1]'(by have := r.isLt; omega)

/-- `x[r]` where a capability is expected: `x[0]` reads as `cnull`, any other register as it is (R11, R32). -/
def State.capValue (s : State) (r : Reg) : Value := if r = 0 then .cap cnull else s.stored r

/-- `x[r]` where an integer is expected: `x[0]` reads as `Int(0)`, any other register as it is (R11, R32). -/
def State.intValue (s : State) (r : Reg) : Value := if r = 0 then .int 0 else s.stored r

/-- `ival(x[r])` (R12): what a base instruction reads. -/
def State.ival (s : State) (r : Reg) : Word := (s.intValue r).ival

/-- The capability in `x[r]`, if `isCap(x[r])` (R160 item 6). -/
def State.capOf? (s : State) (r : Reg) : Option Cap :=
  match s.capValue r with
  | .cap c => some c
  | .int _ => none

/-- The integer in `x[r]`, if `isInt(x[r])` (R160 item 6). -/
def State.intOf? (s : State) (r : Reg) : Option Word :=
  match s.intValue r with
  | .int v => some v
  | .cap _ => none

/-- `x[r] <- v`; a write to `x[0]` is discarded (R11, R32). -/
def State.setReg (s : State) (r : Reg) (v : Value) : State :=
  if r = 0 then s
  else { s with regs := s.regs.set (r.toNat - 1) v (by have := r.isLt; omega) }

/-- Replace the program counter. -/
def State.setPc (s : State) (v : Value) : State := { s with pc := v }

/-- Replace the memory. -/
def State.setMem (s : State) (m : Memory) : State := { s with mem := m }

/-- Replace the CSRs. -/
def State.setCsr (s : State) (c : Csrs) : State := { s with csr := c }

/-- Replace the CCSRs. -/
def State.setCcsr (s : State) (c : Ccsrs) : State := { s with ccsr := c }

/-- Replace the privilege level. -/
def State.setPriv (s : State) (p : Priv) : State := { s with priv := p }

/-- Advance the counter that keys the free values: the next free value is a new one (log 12). -/
def State.draw (s : State) : State := { s with draws := s.draws + 1 }

/-- Advance `rev_clock` (R28). -/
def State.tickRevClock (s : State) : State := { s with revClock := s.revClock + 1 }

/-- Rewrite the capability held in `x[r]`, leaving its kind; nothing happens for `x[0]` (R11: `x[i].f <- v`). -/
def State.modifyCap (s : State) (r : Reg) (f : Cap → Cap) : State :=
  match s.stored r with
  | .cap c => s.setReg r (.cap (f c))
  | .int _ => s

/-- The micro-operation `movc(rd, rs1)` (R161): copy the value, and leave `cnull` behind a capability whose type is not 1. -/
def State.movc (s : State) (rd rs1 : Reg) : State :=
  if rs1 = rd then s
  else
    let v := s.capValue rs1
    let s1 := s.setReg rd v
    if v.movesOut then s1.setReg rs1 (.cap cnull) else s1

/-- The end of an instruction that does not assign `pc`: `pc.cursor <- pc.cursor + 4` (R35). -/
def State.advance (s : State) : State := s.setPc (s.pc.withCursor (s.pc.address + 4))

end Sys2Proof.Machine
end

