-- ==== Sys2Proof/Machine/Ops.lean ====
section
/-!
DEFINITION. The operations every meaning shares: raising an exception, TAKING it (R352, R356, R360, R362, R363), returning from one (R265, R327, R328), and ending an instruction.
-/

namespace Sys2Proof.Machine

/-- What a step answers. -/
abbrev Outcome := Host.Outcome State Fault Refusal

/-- The synchronous exceptions the machine can raise (R350). -/
inductive Exc where
  | instrMisaligned
  | instrAccess
  | illegal
  | breakpoint
  | loadMisaligned
  | loadAccess
  | storeMisaligned
  | storeAccess
  | ecallU
  | ecallS
  | ecallM
  | operandType
  | invalidCap
  | capType
  | capPerms
  | outOfBound
  | illegalValue
  | resources
deriving DecidableEq, Repr

/-- The exception codes (R350). -/
def Exc.code : Exc → Word
  | .instrMisaligned => 0
  | .instrAccess => 1
  | .illegal => 2
  | .breakpoint => 3
  | .loadMisaligned => 4
  | .loadAccess => 5
  | .storeMisaligned => 6
  | .storeAccess => 7
  | .ecallU => 8
  | .ecallS => 9
  | .ecallM => 11
  | .operandType => 24
  | .invalidCap => 25
  | .capType => 26
  | .capPerms => 27
  | .outOfBound => 28
  | .illegalValue => 29
  | .resources => 30

/-- `mtval` (R352): the address for codes 0, 1 and 4 to 7, the instruction word for code 2, otherwise 0. -/
def Exc.tval (e : Exc) (addr : Word) (insn : BitVec 32) : Word :=
  match e with
  | .instrMisaligned => addr
  | .instrAccess => addr
  | .illegal => insn.setWidth 64
  | .loadMisaligned => addr
  | .loadAccess => addr
  | .storeMisaligned => addr
  | .storeAccess => addr
  | .breakpoint => 0
  | .ecallU => 0
  | .ecallS => 0
  | .ecallM => 0
  | .operandType => 0
  | .invalidCap => 0
  | .capType => 0
  | .capPerms => 0
  | .outOfBound => 0
  | .illegalValue => 0
  | .resources => 0

/-- `mtinst` (R148, R352): the instruction word for codes 24 to 30, 0 for the base codes. -/
def Exc.tinst (e : Exc) (insn : BitVec 32) : Word := if 24 ≤ e.code then insn.setWidth 64 else 0

/-- Why an instruction does not run to its end: it raises an exception (with the address R352 reports), it is stuck, or the model refuses. -/
inductive Stop where
  | raise (e : Exc) (addr : Word)
  | stuck (f : Fault)
  | decline (r : Refusal)
deriving DecidableEq, Repr

/-- A check of an instruction's exception list: go on when the condition holds (R160 item 3). -/
def require (ok : Bool) (e : Exc) (addr : Word := 0) : Except Stop Unit :=
  if ok then .ok () else .error (.raise e addr)

/-- Unexpected operand type (24) unless `x[r]` is a capability (R160 item 6). -/
def requireCap (s : State) (r : Reg) : Except Stop Cap :=
  match s.capOf? r with
  | some c => .ok c
  | none => .error (.raise .operandType 0)

/-- Unexpected operand type (24) unless `x[r]` is an integer (R160 item 6). -/
def requireInt (s : State) (r : Reg) : Except Stop Word :=
  match s.intOf? r with
  | some v => .ok v
  | none => .error (.raise .operandType 0)

/-- Trap entry into C-mode (R360). Case A: `ctvec` is a capability; case B: only `pc` is; case C: neither, and the machine is stuck (R361). -/
def takeTrapC (interrupt : Bool) (code tval tval2 tinst : Word) (s : State) : Except Fault State :=
  let csr := { s.csr with
    mcause := causeWord interrupt code, mtval := tval, mtval2 := tval2, mtinst := tinst
    mstatus := trapMstatus s.csr.mstatus s.priv }
  match s.ccsr.ctvec, s.pc with
  | .cap t, pc =>
    .ok ((((s.setCcsr { s.ccsr with
      cepc := pc
      ctvec := if t.type = .nonLinear then .cap t else .int t.cursor }).setPc (.cap t)).setCsr
        csr).setPriv .machine)
  | .int t, .cap p =>
    .ok ((((s.setCcsr { s.ccsr with cepc := .int p.cursor }).setPc
      (.cap { p with cursor := t })).setCsr csr).setPriv .machine)
  | .int _, .int _ => .error .trapBothIntegers

/-- Trap entry into M-mode with `CAPSTONE_EN = 0` (R362). -/
def takeTrapM (interrupt : Bool) (code tval tval2 tinst : Word) (s : State) : State :=
  ((s.setCsr { s.csr with
    mepc := savedPc s.pc.address
    mcause := causeWord interrupt code, mtval := tval, mtval2 := tval2, mtinst := tinst
    mstatus := trapMstatus s.csr.mstatus s.priv }).setPc
      (.int (vectorTarget s.csr.mtvec interrupt code))).setPriv .machine

/-- Trap entry into S-mode (R363). -/
def takeTrapS (interrupt : Bool) (code tval : Word) (s : State) : State :=
  ((s.setCsr { s.csr with
    sepc := savedPc s.pc.address
    scause := causeWord interrupt code, stval := tval
    mstatus := trapSstatus s.csr.mstatus s.priv }).setPc
      (.int (vectorTarget s.csr.stvec interrupt code))).setPriv .supervisor

/-- A trap into mode ID 3: C-mode or M-mode, by `CAPSTONE_EN` (R356). -/
def takeTrapTop (interrupt : Bool) (code tval tval2 tinst : Word) (s : State) : Except Fault State :=
  if s.capstoneEn then takeTrapC interrupt code tval tval2 tinst s
  else .ok (takeTrapM interrupt code tval tval2 tinst s)

/-- Is exception `code` delegated to S-mode here: raised below mode ID 3 with its `medeleg` bit set (R356)? -/
def delegated (s : State) (code : Word) : Bool :=
  decide (s.priv ≠ .machine) && bitOf s.csr.medeleg code.toNat

/-- Take a synchronous exception (R356): in S-mode when delegated, otherwise in mode ID 3, with the data of R352. `insn` is the word that raised it. -/
def takeException (e : Exc) (addr : Word) (insn : BitVec 32) (s : State) : Except Fault State :=
  if delegated s e.code then .ok (takeTrapS false e.code (e.tval addr insn) s)
  else takeTrapTop false e.code (e.tval addr insn) 0 (e.tinst insn) s

/-- What a trap that may be stuck answers. -/
def trapOutcome : Except Fault State → Outcome
  | .ok s => .next s
  | .error f => .fault f

/-- Turn a stop into what the step answers; `s` is the state before the instruction, which an exception leaves as it was (R355). -/
def stopOutcome (insn : BitVec 32) (s : State) : Stop → Outcome
  | .raise e addr => trapOutcome (takeException e addr insn s)
  | .stuck f => .fault f
  | .decline r => .refused r

/-- End an instruction: its next state, or what its stop answers (R16, R355). -/
def finish (i : Instr) (s : State) : Except Stop State → Outcome
  | .ok s' => .next s'
  | .error e => stopOutcome (encode i) s e

/-- The mode check of the 22 C-mode instructions (R140): Illegal instruction (2) before any operand is examined. -/
def requireCMode (s : State) : Except Stop Unit := require s.inCMode .illegal

/-- Insufficient system resources (30), where an implementation with finite resources chooses to raise it (R353, D30), in C-mode only (R350; log 13). -/
def requireResources (i : Instr) (s : State) : Except Stop Unit :=
  require (!(s.inCMode && s.plat.finiteResources && Config.raisesResourceExc s (encode i))) .resources

/-- A C-mode instruction that raises nothing but its mode check and its own list (R140, R142): MOVC (R161). -/
def cModeOp (i : Instr) (s : State) (body : Except Stop State) : Outcome :=
  finish i s (do
    requireCMode s
    body)

/-- A C-mode instruction: the mode check, the implementation's resource check, then the rule's own list and effect (R142, R160 item 9). -/
def capstoneOp (i : Instr) (s : State) (body : Except Stop State) : Outcome :=
  cModeOp i s (do
    requireResources i s
    body)

/-- A base instruction that may raise exceptions of its own in C-mode (R241, R249, R263, R264): the implementation's resource check before them, in C-mode (R353). -/
def adjustedOp (i : Instr) (s : State) (body : Except Stop State) : Outcome :=
  finish i s (do
    requireResources i s
    body)

/-- MRET in M-mode (R327). -/
def returnM (p : Priv) (s : State) : State :=
  ((s.setCsr { s.csr with mstatus := mretMstatus s.csr.mstatus p }).setPc (.int s.csr.mepc)).setPriv p

/-- The `ctvec` that MRET leaves (R265): an integer `ctvec` takes the `pc` capability back with the original cursor. -/
def mretCtvec (s : State) : Value :=
  match s.ccsr.ctvec with
  | .int t => s.pc.withCursor t
  | .cap c => .cap c

/-- R265's `lent`: the `pc` capability has moved to `ctvec` and left `pc`. -/
def mretLent (s : State) : Bool := s.ccsr.ctvec.isInt && s.pc.movesOut

/-- The `pc` that MRET in C-mode leaves (R265). -/
def mretPc (p : Priv) (s : State) : Value :=
  match s.ccsr.cepc with
  | .cap c => .cap c
  | .int a => if p = .machine ∧ mretLent s = false then s.pc.withCursor a else .int a

/-- The `cepc` that MRET in C-mode leaves (R265): moved, not copied, unless non-linear. -/
def mretCepc (s : State) : Value :=
  match s.ccsr.cepc with
  | .cap c => if c.type = .nonLinear then .cap c else .int c.cursor
  | .int a => .int a

/-- MRET in C-mode, also called CRET (R265). -/
def returnC (p : Priv) (s : State) : State :=
  (((s.setCcsr { s.ccsr with ctvec := mretCtvec s, cepc := mretCepc s }).setPc (mretPc p s)).setCsr
    { s.csr with mstatus := mretMstatus s.csr.mstatus p }).setPriv p

/-- SRET (R328). -/
def returnS (s : State) : State :=
  ((s.setCsr { s.csr with mstatus := sretMstatus s.csr.mstatus }).setPc (.int s.csr.sepc)).setPriv
    (if bitOf s.csr.mstatus mstatusSPP then .supervisor else .user)

end Sys2Proof.Machine
end

