-- ==== Sys2Proof/Machine/Arith.lean ====
section
/-!
DEFINITION. Register-immediate and register-register arithmetic and the 32-bit (W) forms: the same in every mode (R268, R305 to R323, R339 to R347). Sources are read through `ival`, results are written as `Int` (R282).
-/

namespace Sys2Proof.Machine

/-- The shared shape: `x[rd] <- Int(result)`, then the next instruction (R282). -/
def writeResult (s : State) (rd : Reg) (result : Word) : State := (s.setReg rd (.int result)).advance

/-- The number 1 or 0 of a comparison (R306). -/
def truth (b : Bool) : Word := if b then 1 else 0

/-- `w(v) = sext_32(v[31:0])` (45_base_rv64i.md section 8). -/
def sextW (v : BitVec 32) : Word := v.signExtend 64

/-- `v[31:0]`. -/
def lowW (v : Word) : BitVec 32 := v.setWidth 32

/-- The shift amount of a 64-bit shift by register: `b[5:0]` (R316). -/
def amount6 (b : Word) : Nat := (b.setWidth 6).toNat

/-- The shift amount of a 32-bit shift by register: `b[4:0]` (R345). -/
def amount5 (b : Word) : Nat := (b.setWidth 5).toNat

/-- `addi` (R305). -/
def execAddi (rd rs1 : Reg) (imm : BitVec 12) (s : State) : Outcome :=
  finish (.addi rd rs1 imm) s (.ok (writeResult s rd (s.ival rs1 + imm.signExtend 64)))

/-- `slti` (R306). -/
def execSlti (rd rs1 : Reg) (imm : BitVec 12) (s : State) : Outcome :=
  finish (.slti rd rs1 imm) s (.ok (writeResult s rd (truth ((s.ival rs1).slt (imm.signExtend 64)))))

/-- `sltiu` (R307). -/
def execSltiu (rd rs1 : Reg) (imm : BitVec 12) (s : State) : Outcome :=
  finish (.sltiu rd rs1 imm) s (.ok (writeResult s rd (truth ((s.ival rs1).ult (imm.signExtend 64)))))

/-- `xori` (R308). -/
def execXori (rd rs1 : Reg) (imm : BitVec 12) (s : State) : Outcome :=
  finish (.xori rd rs1 imm) s (.ok (writeResult s rd (s.ival rs1 ^^^ imm.signExtend 64)))

/-- `ori` (R309). -/
def execOri (rd rs1 : Reg) (imm : BitVec 12) (s : State) : Outcome :=
  finish (.ori rd rs1 imm) s (.ok (writeResult s rd (s.ival rs1 ||| imm.signExtend 64)))

/-- `andi` (R310). -/
def execAndi (rd rs1 : Reg) (imm : BitVec 12) (s : State) : Outcome :=
  finish (.andi rd rs1 imm) s (.ok (writeResult s rd (s.ival rs1 &&& imm.signExtend 64)))

/-- `slli` (R311). -/
def execSlli (rd rs1 : Reg) (shamt : BitVec 6) (s : State) : Outcome :=
  finish (.slli rd rs1 shamt) s (.ok (writeResult s rd (s.ival rs1 <<< shamt.toNat)))

/-- `srli` (R312). -/
def execSrli (rd rs1 : Reg) (shamt : BitVec 6) (s : State) : Outcome :=
  finish (.srli rd rs1 shamt) s (.ok (writeResult s rd (s.ival rs1 >>> shamt.toNat)))

/-- `srai` (R313). -/
def execSrai (rd rs1 : Reg) (shamt : BitVec 6) (s : State) : Outcome :=
  finish (.srai rd rs1 shamt) s (.ok (writeResult s rd ((s.ival rs1).sshiftRight shamt.toNat)))

/-- `add` (R314). -/
def execAdd (rd rs1 rs2 : Reg) (s : State) : Outcome :=
  finish (.add rd rs1 rs2) s (.ok (writeResult s rd (s.ival rs1 + s.ival rs2)))

/-- `sub` (R315). -/
def execSub (rd rs1 rs2 : Reg) (s : State) : Outcome :=
  finish (.sub rd rs1 rs2) s (.ok (writeResult s rd (s.ival rs1 - s.ival rs2)))

/-- `sll` (R316). -/
def execSll (rd rs1 rs2 : Reg) (s : State) : Outcome :=
  finish (.sll rd rs1 rs2) s (.ok (writeResult s rd (s.ival rs1 <<< amount6 (s.ival rs2))))

/-- `slt` (R317). -/
def execSlt (rd rs1 rs2 : Reg) (s : State) : Outcome :=
  finish (.slt rd rs1 rs2) s (.ok (writeResult s rd (truth ((s.ival rs1).slt (s.ival rs2)))))

/-- `sltu` (R318). -/
def execSltu (rd rs1 rs2 : Reg) (s : State) : Outcome :=
  finish (.sltu rd rs1 rs2) s (.ok (writeResult s rd (truth ((s.ival rs1).ult (s.ival rs2)))))

/-- `xor` (R319). -/
def execXor (rd rs1 rs2 : Reg) (s : State) : Outcome :=
  finish (.xor rd rs1 rs2) s (.ok (writeResult s rd (s.ival rs1 ^^^ s.ival rs2)))

/-- `srl` (R320). -/
def execSrl (rd rs1 rs2 : Reg) (s : State) : Outcome :=
  finish (.srl rd rs1 rs2) s (.ok (writeResult s rd (s.ival rs1 >>> amount6 (s.ival rs2))))

/-- `sra` (R321). -/
def execSra (rd rs1 rs2 : Reg) (s : State) : Outcome :=
  finish (.sra rd rs1 rs2) s (.ok (writeResult s rd ((s.ival rs1).sshiftRight (amount6 (s.ival rs2)))))

/-- `or` (R322). -/
def execOr (rd rs1 rs2 : Reg) (s : State) : Outcome :=
  finish (.or rd rs1 rs2) s (.ok (writeResult s rd (s.ival rs1 ||| s.ival rs2)))

/-- `and` (R323). -/
def execAnd (rd rs1 rs2 : Reg) (s : State) : Outcome :=
  finish (.and rd rs1 rs2) s (.ok (writeResult s rd (s.ival rs1 &&& s.ival rs2)))

/-- `addiw` (R339). -/
def execAddiw (rd rs1 : Reg) (imm : BitVec 12) (s : State) : Outcome :=
  finish (.addiw rd rs1 imm) s (.ok (writeResult s rd (sextW (lowW (s.ival rs1 + imm.signExtend 64)))))

/-- `slliw` (R340). -/
def execSlliw (rd rs1 : Reg) (shamt : BitVec 5) (s : State) : Outcome :=
  finish (.slliw rd rs1 shamt) s (.ok (writeResult s rd (sextW (lowW (s.ival rs1) <<< shamt.toNat))))

/-- `srliw` (R341). -/
def execSrliw (rd rs1 : Reg) (shamt : BitVec 5) (s : State) : Outcome :=
  finish (.srliw rd rs1 shamt) s (.ok (writeResult s rd (sextW (lowW (s.ival rs1) >>> shamt.toNat))))

/-- `sraiw` (R342). -/
def execSraiw (rd rs1 : Reg) (shamt : BitVec 5) (s : State) : Outcome :=
  finish (.sraiw rd rs1 shamt) s (.ok (writeResult s rd ((sextW (lowW (s.ival rs1))).sshiftRight shamt.toNat)))

/-- `addw` (R343). -/
def execAddw (rd rs1 rs2 : Reg) (s : State) : Outcome :=
  finish (.addw rd rs1 rs2) s (.ok (writeResult s rd (sextW (lowW (s.ival rs1 + s.ival rs2)))))

/-- `subw` (R344). -/
def execSubw (rd rs1 rs2 : Reg) (s : State) : Outcome :=
  finish (.subw rd rs1 rs2) s (.ok (writeResult s rd (sextW (lowW (s.ival rs1 - s.ival rs2)))))

/-- `sllw` (R345). -/
def execSllw (rd rs1 rs2 : Reg) (s : State) : Outcome :=
  finish (.sllw rd rs1 rs2) s (.ok (writeResult s rd (sextW (lowW (s.ival rs1) <<< amount5 (s.ival rs2)))))

/-- `srlw` (R346). -/
def execSrlw (rd rs1 rs2 : Reg) (s : State) : Outcome :=
  finish (.srlw rd rs1 rs2) s (.ok (writeResult s rd (sextW (lowW (s.ival rs1) >>> amount5 (s.ival rs2)))))

/-- `sraw` (R347). -/
def execSraw (rd rs1 rs2 : Reg) (s : State) : Outcome :=
  finish (.sraw rd rs1 rs2) s (.ok (writeResult s rd ((sextW (lowW (s.ival rs1))).sshiftRight (amount5 (s.ival rs2)))))

end Sys2Proof.Machine
end

