-- ==== Sys2Proof/Machine/Context.lean ====
section
/-!
DEFINITION. The context image in memory and the procedures that save, restore and scrub it (R50, R51, R376 to R379). The accesses consult no capability (D42).
-/

namespace Sys2Proof.Machine

/-- The eight C-effective registers (R49), `mstatus` as its image (R51). -/
structure CEff where
  pc       : Value
  ctvec    : Value
  cscratch : Value
  mstatus  : Word
  mideleg  : Word
  medeleg  : Word
  mip      : Word
  mie      : Word
deriving DecidableEq, Repr

/-- The whole domain-scoped context (R47, R50). -/
structure Domain where
  ceff      : CEff
  offsetmmu : Word
  cpmp      : Vector Value 16
  cepc      : Value
  regs      : Vector Value 31
  mcause    : Word
  mtval     : Word
  mtval2    : Word
  mtinst    : Word
  stvec     : Word
  scause    : Word
  stval     : Word
  sepc      : Word
  sscratch  : Word
  satp      : Word
deriving DecidableEq, Repr

/-- Bytes of a C-effective context (R50). -/
def ceffBytes : Nat := 88

/-- Bytes of a domain-scoped context (R50). -/
def domainBytes : Nat := 944

/-- The address `off` bytes into the region at `B` (R50). -/
def ctxAt (B : Word) (off : Nat) : Word := B + BitVec.ofNat 64 off

/-- Store values into successive 16-byte slots with `MemWriteSlot` (R50). -/
def Memory.writeSlots (m : Memory) (a : Word) : List Value → Memory
  | [] => m
  | v :: vs => (m.writeSlot a v).writeSlots (a + 16) vs

/-- Store words into successive 8-byte places with `MemWriteInt` (R50). -/
def Memory.writeWords (m : Memory) (a : Word) : List Word → Memory
  | [] => m
  | v :: vs => (m.writeInt a 8 v).writeWords (a + 8) vs

/-- The C-effective registers as they are saved (R376). -/
def State.ceff (s : State) : CEff :=
  { pc := s.pc, ctvec := s.ccsr.ctvec, cscratch := s.ccsr.cscratch
    mstatus := mstatusImage s.csr.mstatus s.priv
    mideleg := s.csr.mideleg, medeleg := s.csr.medeleg, mip := s.csr.mip, mie := s.csr.mie }

/-- The domain-scoped registers as they are saved (R377). -/
def State.domain (s : State) : Domain :=
  { ceff := s.ceff, offsetmmu := s.csr.offsetmmu, cpmp := s.ccsr.cpmp, cepc := s.ccsr.cepc
    regs := s.regs, mcause := s.csr.mcause, mtval := s.csr.mtval, mtval2 := s.csr.mtval2
    mtinst := s.csr.mtinst, stvec := s.csr.stvec, scause := s.csr.scause, stval := s.csr.stval
    sepc := s.csr.sepc, sscratch := s.csr.sscratch, satp := s.csr.satp }

/-- `ReadCEff(B)` (R376). -/
def Memory.readCEff (m : Memory) (draw : Nat) (B : Word) : CEff :=
  { pc := m.readSlot draw B
    ctvec := m.readSlot draw (ctxAt B 16)
    cscratch := m.readSlot draw (ctxAt B 32)
    mstatus := m.readInt draw (ctxAt B 48) 8
    mideleg := m.readInt draw (ctxAt B 56) 8
    medeleg := m.readInt draw (ctxAt B 64) 8
    mip := m.readInt draw (ctxAt B 72) 8
    mie := m.readInt draw (ctxAt B 80) 8 }

/-- Read a domain context, every register of R50's layout (R378). -/
def Memory.readDomain (m : Memory) (draw : Nat) (B : Word) : Domain :=
  { ceff := m.readCEff draw B
    offsetmmu := m.readInt draw (ctxAt B 88) 8
    cpmp := Vector.ofFn fun k => m.readSlot draw (ctxAt B (96 + 16 * k.val))
    cepc := m.readSlot draw (ctxAt B 352)
    regs := Vector.ofFn fun i => m.readSlot draw (ctxAt B (368 + 16 * i.val))
    mcause := m.readInt draw (ctxAt B 864) 8
    mtval := m.readInt draw (ctxAt B 872) 8
    mtval2 := m.readInt draw (ctxAt B 880) 8
    mtinst := m.readInt draw (ctxAt B 888) 8
    stvec := m.readInt draw (ctxAt B 896) 8
    scause := m.readInt draw (ctxAt B 904) 8
    stval := m.readInt draw (ctxAt B 912) 8
    sepc := m.readInt draw (ctxAt B 920) 8
    sscratch := m.readInt draw (ctxAt B 928) 8
    satp := m.readInt draw (ctxAt B 936) 8 }

/-- `SaveCEff(B)` (R376): the first 88 bytes of the layout. -/
def Memory.saveCEff (m : Memory) (B : Word) (e : CEff) : Memory :=
  (m.writeSlots B [e.pc, e.ctvec, e.cscratch]).writeWords (ctxAt B 48)
    [e.mstatus, e.mideleg, e.medeleg, e.mip, e.mie]

/-- `SaveDomain(B)` (R377): the 944 bytes of the layout. -/
def Memory.saveDomain (m : Memory) (B : Word) (d : Domain) : Memory :=
  (((m.saveCEff B d.ceff).writeWords (ctxAt B 88) [d.offsetmmu]).writeSlots (ctxAt B 96)
    (d.cpmp.toList ++ d.cepc :: d.regs.toList)).writeWords (ctxAt B 864)
      [d.mcause, d.mtval, d.mtval2, d.mtinst, d.stvec, d.scause, d.stval, d.sepc, d.sscratch, d.satp]

/-- Leave `cnull` in each of the `n` slots from `a` that holds a capability whose type is not 1 (R378, D20). -/
def Memory.clearMoved (m : Memory) (a : Word) : Nat → Memory
  | 0 => m
  | n + 1 =>
    let m1 :=
      match m.slotCap a with
      | some c => if c.type = CapType.nonLinear then m else m.writeSlot a (.cap cnull)
      | none => m
    m1.clearMoved (a + 16) n

/-- `InstallCEff` (R376): the eight registers, each CSR word filtered as its fields allow, `mip` in all six bits; the mode becomes C. -/
def State.installCEff (s : State) (e : CEff) : State :=
  { s with
    pc := e.pc
    priv := .machine
    ccsr := { s.ccsr with ctvec := e.ctvec, cscratch := e.cscratch }
    csr := { s.csr with
      mstatus := loadMstatus e.mstatus
      mideleg := e.mideleg
      medeleg := legalMedeleg e.medeleg
      mip := e.mip &&& irqMask
      mie := e.mie &&& irqMask } }

/-- The register writes of `LoadDomain` (R378), the privilege level apart. -/
def State.installDomain (s : State) (d : Domain) : State :=
  { s with
    regs := d.regs
    pc := d.ceff.pc
    ccsr := { s.ccsr with
      ctvec := d.ceff.ctvec, cscratch := d.ceff.cscratch, cepc := d.cepc, cpmp := d.cpmp }
    csr := { s.csr with
      mstatus := loadMstatus d.ceff.mstatus
      mideleg := d.ceff.mideleg
      medeleg := legalMedeleg d.ceff.medeleg
      mip := d.ceff.mip &&& irqMask
      mie := d.ceff.mie &&& irqMask
      offsetmmu := d.offsetmmu
      mcause := d.mcause, mtval := d.mtval, mtval2 := d.mtval2, mtinst := d.mtinst
      stvec := d.stvec, scause := d.scause, stval := d.stval, sepc := d.sepc
      sscratch := d.sscratch, satp := d.satp } }

/-- `Scrub` (R379, D18): the domain-scoped registers that are not C-effective. -/
def State.scrub (s : State) : State :=
  { s with
    regs := Vector.replicate 31 (.int 0)
    ccsr := { s.ccsr with cepc := .cap cnull, cpmp := Vector.replicate 16 (.cap cnull) }
    csr := { s.csr with
      offsetmmu := 0, mcause := 0, mtval := 0, mtval2 := 0, mtinst := 0, stvec := 0, scause := 0
      stval := 0, sepc := 0, sscratch := 0, satp := 0 } }

/-- The context region can be accessed: a 16-byte-aligned base (log 20), every byte of it memory (D42); otherwise the machine is stuck. -/
def contextReady (s : State) (B : Word) (size : Nat) : Except Fault Unit :=
  if !alignedTo B 16 then .error .contextMisaligned
  else if !s.plat.isMemRange B size then .error .contextNotMemory
  else .ok ()

/-- `SwapCEff(B)` (R376): the eight registers and the 88 bytes trade places, everything read first. -/
def State.swapCEff (s : State) (B : Word) : Except Fault State := do
  contextReady s B ceffBytes
  .ok (((s.setMem (s.mem.saveCEff B s.ceff)).installCEff (s.mem.readCEff s.draws B)).draw)

/-- `SaveCEff` and `LoadDomain` as one exchange (R217, R378): read the 944 bytes, save the C-effective registers, clear the moved capabilities of the remaining slots, install. A saved privilege of 2 is stuck (D19). -/
def State.exchangeDomain (s : State) (B : Word) : Except Fault State := do
  contextReady s B domainBytes
  let d := s.mem.readDomain s.draws B
  match Priv.ofCode (imagePriv d.ceff.mstatus) with
  | none => .error .badSavedPriv
  | some p =>
    .ok ((((s.setMem ((s.mem.saveCEff B s.ceff).clearMoved (ctxAt B 96) 48)).installDomain
      d).setPriv p).draw)

/-- A procedure that may be stuck, inside an instruction. -/
def orStuck {α : Type} : Except Fault α → Except Stop α
  | .ok a => .ok a
  | .error f => .error (.stuck f)

end Sys2Proof.Machine
end

