-- ==== Sys2Proof/Machine/CapControl.lean ====
section
/-!
DEFINITION. Control flow with capabilities (42_cap_control_flow.md): CJALR, CBNZ, CALL, RETURN. The capability put into `pc` is checked by the next fetch, not here (R210).
-/

namespace Sys2Proof.Machine

/-- CJALR (R211): jump to a capability and link with the old `pc`. -/
def execCjalr (rd rs1 : Reg) (imm : BitVec 12) (s : State) : Outcome :=
  capstoneOp (.cjalr rd rs1 imm) s do
    let c ← requireCap s rs1
    let link := s.pc.withCursor (s.pc.address + 4)
    let s1 := (s.setReg rd link).setPc (.cap { c with cursor := c.cursor + imm.signExtend 64 })
    .ok (if rs1 ≠ rd ∧ c.type ≠ .nonLinear then s1.setReg rs1 (.cap cnull) else s1)

/-- CBNZ (R212): jump to the capability in `x[rd]` if `x[rs1]` is not zero. -/
def execCbnz (rd rs1 : Reg) (imm : BitVec 12) (s : State) : Outcome :=
  capstoneOp (.cbnz rd rs1 imm) s do
    let c ← requireCap s rd
    let v ← requireInt s rs1
    if v = 0 then .ok s.advance
    else
      let s1 := s.setPc (.cap { c with cursor := c.cursor + imm.signExtend 64 })
      .ok (if c.type ≠ .nonLinear then s1.setReg rd (.cap cnull) else s1)

/-- `cra`, register 1 (R11). -/
def cra : Reg := 1

/-- `a0`, register 10 (R11). -/
def a0 : Reg := 10

/-- CALL's operand (R214): `x[rs1]`, or `cih` when `rs1` is 0. -/
def callTarget (s : State) (rs1 : Reg) : Value := if rs1 = 0 then s.ccsr.cih else s.stored rs1

/-- CALL's first line (R214): the sealed capability moves to `cra`. -/
def callMove (s : State) (rs1 : Reg) : State :=
  if rs1 = 0 then
    (s.setReg cra s.ccsr.cih).setCcsr { s.ccsr with cih := .cap cnull }
  else s.movc cra rs1

/-- The sealed-return capability that CALL leaves in `cra` (R214). -/
def Cap.called (c : Cap) (rd : Reg) : Cap :=
  { c with type := .sealedReturn, cursor := c.base, reg := rd, async := false }

/-- A CALL operand must be a capability (R214). -/
def requireValueCap : Value → Except Stop Cap
  | .cap c => .ok c
  | .int _ => .error (.raise .operandType 0)

/-- CALL (R214): switch to the domain a sealed capability names. `rs2` is unused; `rd` is recorded, not written. -/
def execCall (rd rs1 rs2 : Reg) (s : State) : Outcome :=
  capstoneOp (.call rd rs1 rs2) s do
    let d ← requireValueCap (callTarget s rs1)
    require d.valid .invalidCap
    require (decide (d.type = .sealed)) .capType
    require (!d.async) .capType
    let s1 ← orStuck ((callMove s rs1).advance.swapCEff d.base)
    .ok (s1.modifyCap cra fun c => c.called rd)

/-- RETURN, synchronous case (R216). -/
def returnSync (rd : Reg) (c : Cap) (entry : Word) (s : State) : Except Stop State := do
  let s0 := s.setReg rd (.cap cnull)
  let s1 ← orStuck ((s0.setPc (s0.pc.withCursor entry)).swapCEff c.base)
  let back : Value := .cap { c with type := .sealed }
  .ok (if c.type = .sealedReturn ∧ c.reg ≠ 0 then s1.setReg c.reg back
    else s1.setCcsr { s1.ccsr with cih := back })

/-- RETURN, asynchronous case (R217): resume the domain an H-interrupt suspended, posting interrupts to it. -/
def returnAsync (rd : Reg) (c : Cap) (entry posted : Word) (s : State) : Except Stop State := do
  let s0 := (s.setCcsr { s.ccsr with cih := .cap { c with type := .sealed, async := false } }).setReg
    rd (.cap cnull)
  let s1 ← orStuck ((s0.setPc (s0.pc.withCursor entry)).exchangeDomain c.base)
  .ok (s1.setCsr { s1.csr with mip := (s1.csr.mip ||| posted) &&& irqMask })

/-- RETURN (R215): return to, or resume, a domain. `x[rs2]` is read through `ival` and used only in the asynchronous case (D31). With `rd = 0` and a capability in `x[rs1]` the list's order gives 24, where the rule's closing remark says 25: the list is followed, the model's choice (log 36, DESIGN CHOICE). -/
def execRet (rd rs1 rs2 : Reg) (s : State) : Outcome :=
  capstoneOp (.ret rd rs1 rs2) s do
    let c ← requireCap s rd
    let entry ← requireInt s rs1
    require c.valid .invalidCap
    require (decide (c.type = .sealed ∨ c.type = .sealedReturn)) .capType
    require (!(decide (c.type = .sealed) && !s.ccsr.cih.vacant)) .capType
    if c.async then returnAsync rd c entry (s.ival rs2) s else returnSync rd c entry s

end Sys2Proof.Machine
end

