-- ==== Sys2Proof/Machine/CapManip.lean ====
section
/-!
DEFINITION. Capability manipulation (40_cap_manipulation.md): MOVC, CINCOFFSET, CINCOFFSETIMM, SCC, LCC, SHRINK, SHRINKTO, SPLIT, TIGHTEN, DELIN, INIT, SEAL, DROP, MREV, REVOKE. The checks stand in the order the rules print them (R160 item 3).
-/

namespace Sys2Proof.Machine

/-- MOVC (R161). `rs2` is unused. -/
def execMovc (rd rs1 rs2 : Reg) (s : State) : Outcome :=
  cModeOp (.movc rd rs1 rs2) s (.ok (s.movc rd rs1).advance)

/-- Types whose cursor may be set: every type but uninitialised and sealed (R162 to R164). -/
def Cap.cursorSettable (c : Cap) : Bool := decide (c.type ≠ .uninitialised ∧ c.type ≠ .sealed)

/-- CINCOFFSET (R162). -/
def execCincoffset (rd rs1 rs2 : Reg) (s : State) : Outcome :=
  capstoneOp (.cincoffset rd rs1 rs2) s do
    let c ← requireCap s rs1
    let val ← requireInt s rs2
    require c.cursorSettable .capType
    .ok ((s.movc rd rs1).modifyCap rd fun d => { d with cursor := d.cursor + val }).advance

/-- CINCOFFSETIMM (R163). -/
def execCincoffsetimm (rd rs1 : Reg) (imm : BitVec 12) (s : State) : Outcome :=
  capstoneOp (.cincoffsetimm rd rs1 imm) s do
    let c ← requireCap s rs1
    require c.cursorSettable .capType
    .ok ((s.movc rd rs1).modifyCap rd fun d =>
      { d with cursor := d.cursor + imm.signExtend 64 }).advance

/-- SCC (R164). -/
def execScc (rd rs1 rs2 : Reg) (s : State) : Outcome :=
  capstoneOp (.scc rd rs1 rs2) s do
    let c ← requireCap s rs1
    let val ← requireInt s rs2
    require c.cursorSettable .capType
    .ok ((s.movc rd rs1).modifyCap rd fun d => { d with cursor := val }).advance

/-- LCC's condition for exception 26 does not hold: the field applies to the type (R165). -/
def lccReadable (c : Cap) (imm : BitVec 5) : Bool :=
  match imm.toNat with
  | 2 => decide (c.type ≠ .sealed)
  | 4 => decide (c.type ≠ .sealed ∧ c.type ≠ .sealedReturn)
  | 5 => decide (c.type ≠ .sealed ∧ c.type ≠ .sealedReturn)
  | 6 => decide (c.type = .sealed ∨ c.type = .sealedReturn)
  | 7 => decide (c.type = .sealedReturn)
  | _ => true

/-- The LCC multiplexing table (R165). -/
def lccField (c : Cap) (imm : BitVec 5) : Word :=
  match imm.toNat with
  | 0 => if c.valid then 1 else 0
  | 1 => c.type.code
  | 2 => c.cursor
  | 3 => c.base
  | 4 => c.last
  | 5 => c.perms.setWidth 64
  | 6 => if c.async then 1 else 0
  | 7 => c.reg.setWidth 64
  | _ => 0

/-- LCC (R165): read one field into an integer register. -/
def execLcc (rd rs1 : Reg) (imm : BitVec 5) (s : State) : Outcome :=
  capstoneOp (.lcc rd rs1 imm) s do
    let c ← requireCap s rs1
    require (lccReadable c imm) .capType
    .ok (s.setReg rd (.int (lccField c imm))).advance

/-- The capability SHRINK leaves: the new bounds, the cursor brought inside them (R166). -/
def Cap.shrunk (c : Cap) (lo hi : Word) : Cap :=
  let cur1 := if c.cursor.toNat < lo.toNat then lo else c.cursor
  let cur2 := if hi.toNat < cur1.toNat then hi else cur1
  { c with base := lo, last := hi, cursor := cur2 }

/-- SHRINK (R166): shrink the bounds in place. -/
def execShrink (rd rs1 rs2 : Reg) (s : State) : Outcome :=
  capstoneOp (.shrink rd rs1 rs2) s do
    let c ← requireCap s rd
    let lo ← requireInt s rs1
    let hi ← requireInt s rs2
    require c.isBounded .capType
    require (decide (lo.toNat < hi.toNat)) .illegalValue
    require (decide (c.base.toNat ≤ lo.toNat ∧ hi.toNat ≤ c.last.toNat)) .illegalValue
    .ok (s.modifyCap rd fun d => d.shrunk lo hi).advance

/-- SHRINKTO (R167): shrink to `imm` bytes from the cursor. -/
def execShrinkto (rd rs1 : Reg) (imm : BitVec 12) (s : State) : Outcome :=
  capstoneOp (.shrinkto rd rs1 imm) s do
    let c ← requireCap s rs1
    require c.isBounded .capType
    require (decide (c.base.toNat ≤ c.cursor.toNat ∧ c.cursor.toNat + imm.toNat ≤ c.last.toNat))
      .illegalValue
    require (!decide (imm = 0 ∧ c.cursor = 0)) .illegalValue
    .ok ((s.movc rd rs1).modifyCap rd fun d =>
      { d with base := d.cursor, last := d.cursor + imm.setWidth 64 - 1 }).advance

/-- The lower part SPLIT leaves in `rs1` (R168). -/
def Cap.splitLow (c : Cap) (val : Word) : Cap := { c with last := val, cursor := c.base }

/-- The upper part SPLIT gives to `rd` (R168). -/
def Cap.splitHigh (c : Cap) (val : Word) : Cap := { c with base := val + 1, cursor := val + 1 }

/-- SPLIT (R168): split a capability in two at an address. With `rs1 = 0` and a capability in `x[rs2]` the list's order gives 24, where the rule's remark on `rs1 = 0` says 25: the list is followed, the model's choice (log 36, DESIGN CHOICE). -/
def execSplit (rd rs1 rs2 : Reg) (s : State) : Outcome :=
  capstoneOp (.split rd rs1 rs2) s do
    let c ← requireCap s rs1
    let val ← requireInt s rs2
    require c.valid .invalidCap
    require c.isPlain .capType
    require (decide (c.base.toNat ≤ val.toNat ∧ val.toNat < c.last.toNat)) .illegalValue
    if rs1 = rd then .ok s.advance
    else .ok ((s.setReg rd (.cap (c.splitHigh val))).setReg rs1 (.cap (c.splitLow val))).advance

/-- TIGHTEN's new permissions (R169): values above 7 clear them all. -/
def tightenPerms (imm : BitVec 5) : BitVec 3 := if 7 < imm.toNat then 0 else imm.setWidth 3

/-- TIGHTEN (R169): reduce permissions. -/
def execTighten (rd rs1 : Reg) (imm : BitVec 5) (s : State) : Outcome :=
  capstoneOp (.tighten rd rs1 imm) s do
    let c ← requireCap s rs1
    require c.isBounded .capType
    require (decide (7 < imm.toNat) || permLe (imm.setWidth 3) c.perms) .illegalValue
    .ok ((s.movc rd rs1).modifyCap rd fun d => { d with perms := tightenPerms imm }).advance

/-- DELIN (R170): make a linear capability non-linear, in place. `rs1` and `rs2` are unused. -/
def execDelin (rd rs1 rs2 : Reg) (s : State) : Outcome :=
  capstoneOp (.delin rd rs1 rs2) s do
    let c ← requireCap s rd
    require (decide (c.type = .linear)) .capType
    .ok (s.modifyCap rd fun d => { d with type := .nonLinear }).advance

/-- INIT (R171): turn a fully written uninitialised capability into a linear one. -/
def execInit (rd rs1 rs2 : Reg) (s : State) : Outcome :=
  capstoneOp (.init rd rs1 rs2) s do
    let c ← requireCap s rs1
    let val ← requireInt s rs2
    require (decide (c.type = .uninitialised)) .capType
    require (decide (c.last.toNat < c.cursor.toNat)) .illegalValue
    .ok ((s.movc rd rs1).modifyCap rd fun d =>
      { d with type := .linear, cursor := d.base + val }).advance

/-- SEAL's last condition (R172): the slot at `base + 16`, where a context keeps `ctvec`, is memory and holds a capability. -/
def sealableSlot (s : State) (base : Word) : Bool :=
  s.plat.isMemRange (base + 16) 16 && (s.mem.slotCap (base + 16)).isSome

/-- SEAL (R172): seal a linear capability over a context region. `rs2` is unused. -/
def execSeal (rd rs1 rs2 : Reg) (s : State) : Outcome :=
  capstoneOp (.seal rd rs1 rs2) s do
    let c ← requireCap s rs1
    require (decide (c.type = .linear)) .capType
    require (permLe 6 c.perms) .capPerms
    require (decide (c.base.toNat + 1024 ≤ c.last.toNat + 1)) .illegalValue
    require (alignedTo c.base 16) .illegalValue
    require (sealableSlot s c.base) .illegalValue
    .ok ((s.movc rd rs1).modifyCap rd fun d => { d with type := .sealed, async := false }).advance

/-- DROP (R173): invalidate a capability in place. `rs2` and `rd` are unused. -/
def execDrop (rd rs1 rs2 : Reg) (s : State) : Outcome :=
  capstoneOp (.drop rd rs1 rs2) s do
    let _ ← requireCap s rs1
    .ok (s.modifyCap rs1 fun d => { d with valid := false }).advance

/-- MREV (R174): make a revocation capability from a linear one, which stays. `rs2` is unused. -/
def execMrev (rd rs1 rs2 : Reg) (s : State) : Outcome :=
  capstoneOp (.mrev rd rs1 rs2) s do
    let c ← requireCap s rs1
    require c.valid .invalidCap
    require (decide (c.type = .linear)) .capType
    .ok ((s.setReg rd (.cap { c with type := .revocation, born := s.revClock })).tickRevClock).advance

/-- Is `c` in REVOKE's set `K` for the revocation capability `r` (R175)? -/
def revokes (r c : Cap) : Bool :=
  c.valid && (if c.type = .revocation then r.createdBefore c else c.overlaps r)

/-- What REVOKE leaves of a capability, wherever it is held (R175). -/
def revokedCap (r c : Cap) : Cap := if revokes r c then { c with valid := false } else c

/-- What REVOKE leaves of a value (R175). -/
def revokedValue (r : Cap) : Value → Value
  | .cap c => .cap (revokedCap r c)
  | .int v => .int v

/-- Every CCSR rewritten (R175, D32). -/
def Ccsrs.map (f : Value → Value) (c : Ccsrs) : Ccsrs :=
  { ctvec := f c.ctvec, cih := f c.cih, cepc := f c.cepc, cscratch := f c.cscratch,
    cpmp := c.cpmp.map f }

/-- The content of every CCSR. -/
def Ccsrs.values (c : Ccsrs) : List Value :=
  [c.ctvec, c.cih, c.cepc, c.cscratch] ++ c.cpmp.toList

/-- Every capability in the system (R175, D32): registers, `pc`, CCSRs and memory slots. -/
def State.allCaps (s : State) : List Cap :=
  (s.regs.toList ++ s.pc :: s.ccsr.values).filterMap (fun v =>
      match v with
      | .cap c => some c
      | .int _ => none)
    ++ s.mem.caps.map Prod.snd

/-- Invalidate every capability of `K`, in place, wherever it is held (R175). -/
def State.revokeAll (s : State) (r : Cap) : State :=
  { s with
    regs := s.regs.map (revokedValue r)
    pc := revokedValue r s.pc
    ccsr := s.ccsr.map (revokedValue r)
    mem := s.mem.mapCaps (revokedCap r) }

/-- REVOKE's last test (R175): nothing but non-linear capabilities was taken back, or the region was never writable. -/
def revokesToLinear (s : State) (r : Cap) : Bool :=
  (s.allCaps.all fun c => !revokes r c || decide (c.type = .nonLinear)) || !r.canWrite

/-- What REVOKE turns the revocation capability into (R175). -/
def revokeResult (s : State) (r : Cap) : Cap :=
  if revokesToLinear s r then { r with type := .linear }
  else { r with type := .uninitialised, cursor := r.base }

/-- REVOKE (R175). `rs2` and `rd` are unused. -/
def execRevoke (rd rs1 rs2 : Reg) (s : State) : Outcome :=
  capstoneOp (.revoke rd rs1 rs2) s do
    let r ← requireCap s rs1
    require r.valid .invalidCap
    require (decide (r.type = .revocation)) .capType
    .ok ((s.revokeAll r).setReg rs1 (.cap (revokeResult s r))).advance

end Sys2Proof.Machine
end

