-- ==== Sys2Proof/Machine/CapMemory.lean ====
section
/-!
DEFINITION. Capability load and store (41_cap_memory.md): LDC and STC.
-/

namespace Sys2Proof.Machine

/-- The capability types LDC and the C-mode loads read through: 0, 1 and a synchronous 5 (R94). -/
def Cap.loadType (c : Cap) : Bool := c.isPlain || decide (c.type = .sealedReturn)

/-- The capability types STC and the C-mode stores write through: 0, 1, 3 and a synchronous 5 (R94). -/
def Cap.storeType (c : Cap) : Bool := c.isBounded || decide (c.type = .sealedReturn)

/-- Not an asynchronous sealed-return capability (R200 item 4). -/
def Cap.notAsync (c : Cap) : Bool := !(decide (c.type = .sealedReturn) && c.async)

/-- The bound a capability of type 5 sets, or nothing for another type (R93). -/
def Cap.inBoundsReturn (c : Cap) (ea : Word) (size : Nat) : Bool :=
  decide (c.type ≠ .sealedReturn) || c.inBoundsSR ea size

/-- The checks that authorise reading `size` bytes at `EA` through a capability, in order (R200 items 2 to 8, R241 items 2 to 8). -/
def authorizeLoad (s : State) (c : Cap) (ea : Word) (size : Nat) : Except Stop Unit := do
  require c.valid .invalidCap
  require c.loadType .capType
  require c.notAsync .capType
  require (!c.isPlain || c.canRead) .capPerms
  require (!c.isPlain || c.inBoundsLin s.plat ea size) .outOfBound
  require (c.inBoundsReturn ea size) .outOfBound
  require (alignedTo ea size) .loadMisaligned ea

/-- The checks that authorise writing `size` bytes at `EA` through a capability, in order (R201 items 2 to 9, R249 items 3 to 10). -/
def authorizeStore (s : State) (c : Cap) (imm : BitVec 12) (ea : Word) (size : Nat) :
    Except Stop Unit := do
  require c.valid .invalidCap
  require c.storeType .capType
  require c.notAsync .capType
  require (!c.isPlain || c.canWrite) .capPerms
  require (!decide (c.type = .uninitialised ∧ imm ≠ 0)) .illegalValue
  require (!c.isBounded || c.inBoundsLin s.plat ea size) .outOfBound
  require (c.inBoundsReturn ea size) .outOfBound
  require (alignedTo ea size) .storeMisaligned ea

/-- LDC's condition 9 does not hold (R200): moving a capability out of the slot is a write to it. -/
def ldcMovePermitted (c : Cap) (v : Value) : Bool := !(v.movesOut && c.isPlain && !c.canWrite)

/-- LDC (R200). -/
def execLdc (rd rs1 : Reg) (imm : BitVec 12) (s : State) : Outcome :=
  capstoneOp (.ldc rd rs1 imm) s do
    let c ← requireCap s rs1
    let ea := c.effectiveAddress imm
    authorizeLoad s c ea 16
    let v := s.mem.readSlot s.draws ea
    require (ldcMovePermitted c v) .capPerms
    require (s.plat.isMemRange ea v.slotBytes) .loadAccess ea
    let s1 := (s.setReg rd v).draw
    .ok (if v.movesOut then s1.setMem (s1.mem.writeSlot ea (.cap cnull)) else s1).advance

/-- What STC does to its two registers (R201): an uninitialised address capability moves 16 bytes on, and a stored capability whose type is not 1 leaves its register. -/
def stcRegisters (s : State) (rs1 rs2 : Reg) (c : Cap) (v : Value) : State :=
  let s1 :=
    if c.type = .uninitialised then s.modifyCap rs1 fun d => { d with cursor := d.cursor + 16 }
    else s
  if v.movesOut then s1.setReg rs2 (.cap cnull) else s1

/-- STC (R201); `rs2 = 0` stores `cnull` (D48). -/
def execStc (rs1 rs2 : Reg) (imm : BitVec 12) (s : State) : Outcome :=
  capstoneOp (.stc rs1 rs2 imm) s do
    let c ← requireCap s rs1
    let ea := c.effectiveAddress imm
    authorizeStore s c imm ea 16
    let v := s.capValue rs2
    require (s.plat.isMemRange ea v.slotBytes) .storeAccess ea
    .ok (stcRegisters (s.setMem (s.mem.writeSlot ea v)) rs1 rs2 c v).advance

end Sys2Proof.Machine
end

