-- ==== Sys2Proof/Machine/CapStatus.lean ====
section
/-!
DEFINITION. Control and status (43_cap_control_status.md): CCSRRW and CAPENTER.
-/

namespace Sys2Proof.Machine

/-- The CCSRs by name (R38). -/
inductive CcsrName where
  | ctvec
  | cih
  | cepc
  | cscratch
  | cpmp (k : Fin 16)
deriving DecidableEq, Repr

/-- The CCSR that an encoding names (R38): 0x000, 0x001, 0x002, 0x004, 0x010 to 0x01f. -/
def CcsrName.ofEncoding (imm : BitVec 12) : Option CcsrName :=
  if imm = 0 then some .ctvec
  else if imm = 1 then some .cih
  else if imm = 2 then some .cepc
  else if imm = 4 then some .cscratch
  else if h : 16 ≤ imm.toNat ∧ imm.toNat < 32 then some (.cpmp ⟨imm.toNat - 16, by omega⟩)
  else none

/-- The content of a CCSR. -/
def Ccsrs.get (c : Ccsrs) : CcsrName → Value
  | .ctvec => c.ctvec
  | .cih => c.cih
  | .cepc => c.cepc
  | .cscratch => c.cscratch
  | .cpmp k => c.cpmp[k]

/-- The CCSRs with one replaced. -/
def Ccsrs.put (c : Ccsrs) (n : CcsrName) (v : Value) : Ccsrs :=
  match n with
  | .ctvec => { c with ctvec := v }
  | .cih => { c with cih := v }
  | .cepc => { c with cepc := v }
  | .cscratch => { c with cscratch := v }
  | .cpmp k => { c with cpmp := c.cpmp.set k v }

/-- The read constraint (R39): only `cih` may not be read. -/
def ccsrReadable (n : CcsrName) : Bool := decide (n ≠ .cih)

/-- The write constraint (R39): only `cih` has one, `CihVacant`. -/
def ccsrWritable (c : Ccsrs) (n : CcsrName) : Bool := decide (n ≠ .cih) || c.cih.vacant

/-- Illegal operand value (29) unless the immediate names a CCSR (R230). -/
def requireCcsr (imm : BitVec 12) : Except Stop CcsrName :=
  match CcsrName.ofEncoding imm with
  | some n => .ok n
  | none => .error (.raise .illegalValue 0)

/-- CCSRRW's effect (R230), operands captured before any write (D7). -/
def ccsrExchange (s : State) (rd rs1 : Reg) (n : CcsrName) (src : Cap) : State :=
  let old := s.ccsr.get n
  let result : Value := if ccsrReadable n then old else .cap cnull
  let left : Value := if ccsrReadable n then old.afterRead else old
  let s1 :=
    if ccsrWritable s.ccsr n then
      let s2 := s.setCcsr (s.ccsr.put n (.cap src))
      if src.type ≠ .nonLinear ∧ rs1 ≠ rd then s2.setReg rs1 (.cap cnull) else s2
    else s.setCcsr (s.ccsr.put n left)
  s1.setReg rd result

/-- CCSRRW (R230): exchange a register with a CCSR. -/
def execCcsrrw (rd rs1 : Reg) (imm : BitVec 12) (s : State) : Outcome :=
  capstoneOp (.ccsrrw rd rs1 imm) s do
    let src ← requireCap s rs1
    let n ← requireCcsr imm
    .ok (ccsrExchange s rd rs1 n src).advance

/-- A capability CAPENTER makes: valid, all permissions, `async` and `reg` 0 (R232). -/
def genesisCap (type : CapType) (cursor base last : Word) (born : Nat) : Cap :=
  { valid := true, type := type, cursor := cursor, base := base, last := last, perms := 7
    async := false, reg := 0, born := born }

/-- CAPENTER's first form, `rs1 = rs2 = 0` (R232): the implementation's code and data regions and the revocation capability over all of memory. -/
def capenterGenesis (s : State) : State :=
  (((s.setPc (.cap (genesisCap .nonLinear s.pc.address Config.initCodeBase
      (Config.initCodeEnd - 1) 0))).setReg 10 (.cap (genesisCap .nonLinear Config.initDataBase
      Config.initDataBase (Config.initDataEnd - 1) 0))).setReg 11
      (.cap (genesisCap .revocation 0 0 (BitVec.allOnes 64) s.revClock))).tickRevClock

/-- CAPENTER's second form (R232): memory cut at `b` and `e`. -/
def capenterCut (s : State) (b e : Word) : State :=
  ((s.setPc (.cap (genesisCap .nonLinear s.pc.address b (e - 1) 0))).setReg 10
      (.cap (genesisCap .nonLinear 0 0 (b - 1) 0))).setReg 11
      (.cap (genesisCap .nonLinear e e (BitVec.allOnes 64) 0))

/-- CAPENTER (R232): enable C-mode, from M-mode only (R140, D13). `rd` is unused. -/
def execCapenter (rd rs1 rs2 : Reg) (s : State) : Outcome :=
  finish (.capenter rd rs1 rs2) s do
    require (!s.capstoneEn) .illegal
    require (decide (s.priv = .machine)) .illegal
    let s1 :=
      if rs1 = 0 ∧ rs2 = 0 then capenterGenesis s else capenterCut s (s.ival rs1) (s.ival rs2)
    .ok ({ s1 with capstoneEn := true } : State).advance

end Sys2Proof.Machine
end

