-- ==== Sys2Proof/Machine/ControlFlow.lean ====
section
/-!
DEFINITION. `lui`, `auipc`, the jumps and the branches: in C-mode they move only `pc.cursor` and check nothing (R254 to R262, R268); outside C-mode a misaligned target raises Instruction address misaligned (R283 to R292).
-/

namespace Sys2Proof.Machine

/-- The U-type offset: `sext_32(imm << 12)` (R281). -/
def upperImm (imm : BitVec 20) : Word := (imm ++ (0 : BitVec 12)).signExtend 64

/-- Move control to `target`: the cursor of `pc` in C-mode (R254); outside it the integer `pc`, whose target must be 4-byte aligned (R285 to R287). -/
def jumpTo (s : State) (target : Word) : Except Stop State :=
  if s.inCMode then .ok (s.setPc (s.pc.withCursor target))
  else if alignedTo target 4 then .ok (s.setPc (.int target))
  else .error (.raise .instrMisaligned target)

/-- A jump that links: the new `pc`, then `x[rd]` with the address after the jump (R261, R262, R285, R286). -/
def jumpAndLink (s : State) (rd : Reg) (target : Word) : Except Stop State := do
  let s1 ← jumpTo s target
  .ok (s1.setReg rd (.int (s.pc.address + 4)))

/-- A branch (R254, R287). -/
def branch (s : State) (taken : Bool) (imm : BitVec 13) : Except Stop State :=
  if taken then jumpTo s (s.pc.address + imm.signExtend 64) else .ok s.advance

/-- `lui` (R283). -/
def execLui (rd : Reg) (imm : BitVec 20) (s : State) : Outcome :=
  finish (.lui rd imm) s (.ok (s.setReg rd (.int (upperImm imm))).advance)

/-- `auipc` (R284, R268). -/
def execAuipc (rd : Reg) (imm : BitVec 20) (s : State) : Outcome :=
  finish (.auipc rd imm) s (.ok (s.setReg rd (.int (s.pc.address + upperImm imm))).advance)

/-- `jal` (R261, R285). -/
def execJal (rd : Reg) (imm : BitVec 21) (s : State) : Outcome :=
  finish (.jal rd imm) s (jumpAndLink s rd (s.pc.address + imm.signExtend 64))

/-- `jalr`'s target (R262, R286): bit 0 cleared. -/
def jalrTarget (s : State) (rs1 : Reg) (imm : BitVec 12) : Word :=
  (s.ival rs1 + imm.signExtend 64) &&& ~~~(1 : Word)

/-- `jalr` (R262, R286). -/
def execJalr (rd rs1 : Reg) (imm : BitVec 12) (s : State) : Outcome :=
  finish (.jalr rd rs1 imm) s (jumpAndLink s rd (jalrTarget s rs1 imm))

/-- `beq` (R255, R287). -/
def execBeq (rs1 rs2 : Reg) (imm : BitVec 13) (s : State) : Outcome :=
  finish (.beq rs1 rs2 imm) s (branch s (decide (s.ival rs1 = s.ival rs2)) imm)

/-- `bne` (R256, R288). -/
def execBne (rs1 rs2 : Reg) (imm : BitVec 13) (s : State) : Outcome :=
  finish (.bne rs1 rs2 imm) s (branch s (decide (s.ival rs1 ≠ s.ival rs2)) imm)

/-- `blt` (R257, R289). -/
def execBlt (rs1 rs2 : Reg) (imm : BitVec 13) (s : State) : Outcome :=
  finish (.blt rs1 rs2 imm) s (branch s ((s.ival rs1).slt (s.ival rs2)) imm)

/-- `bge` (R258, R290). -/
def execBge (rs1 rs2 : Reg) (imm : BitVec 13) (s : State) : Outcome :=
  finish (.bge rs1 rs2 imm) s (branch s (!(s.ival rs1).slt (s.ival rs2)) imm)

/-- `bltu` (R259, R291). -/
def execBltu (rs1 rs2 : Reg) (imm : BitVec 13) (s : State) : Outcome :=
  finish (.bltu rs1 rs2 imm) s (branch s ((s.ival rs1).ult (s.ival rs2)) imm)

/-- `bgeu` (R260, R292). -/
def execBgeu (rs1 rs2 : Reg) (imm : BitVec 13) (s : State) : Outcome :=
  finish (.bgeu rs1 rs2 imm) s (branch s (!(s.ival rs1).ult (s.ival rs2)) imm)

end Sys2Proof.Machine
end

