-- ==== Sys2Proof/Machine/MemAccess.lean ====
section
/-!
DEFINITION. The base loads and stores: in C-mode through a capability (R241 to R253), otherwise at a raw physical address (R293 to R304).
-/

namespace Sys2Proof.Machine

/-- Sign-extension of an `n`-byte value to 64 bits (R241). -/
def signExtendBytes (n : Nat) (v : Word) : Word := (v.setWidth (8 * n)).signExtend 64

/-- How a load extends the `n` bytes it read (R241): signed for `lb lh lw ld`, unsigned for `lbu lhu lwu`. -/
def extendLoad (signed : Bool) (n : Nat) (v : Word) : Word :=
  if signed then signExtendBytes n v else v

/-- `satp` MODE is not Bare (R383). -/
def translationOn (s : State) : Bool := decide (s.csr.satp.extractLsb' 60 4 ≠ 0)

/-- A data access below mode ID 3 is outside the modelled subset with `CAPSTONE_EN = 1` (R382) or with translation on (R383). -/
def requireModelledAccess (s : State) : Except Stop Unit :=
  if s.priv = .machine then .ok ()
  else if s.capstoneEn then .error (.decline .lowPrivUnderCapstone)
  else if translationOn s then .error (.decline .translationUnmodelled)
  else .ok ()

/-- The address of a load in C-mode, authorised (R241); a byte outside memory is an access fault, last (R354). -/
def loadAddressC (s : State) (rs1 : Reg) (imm : BitVec 12) (size : Nat) : Except Stop Word := do
  let c ← requireCap s rs1
  let ea := c.effectiveAddress imm
  authorizeLoad s c ea size
  require (s.plat.isMemRange ea size) .loadAccess ea
  .ok ea

/-- The address of a load outside C-mode (R293). -/
def loadAddressRaw (s : State) (rs1 : Reg) (imm : BitVec 12) (size : Nat) : Except Stop Word := do
  requireModelledAccess s
  let ea := s.ival rs1 + imm.signExtend 64
  require (alignedTo ea size) .loadMisaligned ea
  require (s.plat.isMemRange ea size) .loadAccess ea
  .ok ea

/-- The address of a load, by mode. -/
def loadAddress (s : State) (rs1 : Reg) (imm : BitVec 12) (size : Nat) : Except Stop Word :=
  if s.inCMode then loadAddressC s rs1 imm size else loadAddressRaw s rs1 imm size

/-- A load's effect (R241, R293): `x[rd]` receives the extended bytes. -/
def loadEffect (s : State) (rd : Reg) (ea : Word) (size : Nat) (signed : Bool) : State :=
  ((s.setReg rd (.int (extendLoad signed size (s.mem.readInt s.draws ea size)))).draw).advance

/-- A load (R241, R293). -/
def load (s : State) (rd rs1 : Reg) (imm : BitVec 12) (size : Nat) (signed : Bool) :
    Except Stop State := do
  let ea ← loadAddress s rs1 imm size
  .ok (loadEffect s rd ea size signed)

/-- The address and value of a store in C-mode, authorised (R249); `x[rs2]` must hold an integer. -/
def storeTargetC (s : State) (rs1 rs2 : Reg) (imm : BitVec 12) (size : Nat) :
    Except Stop (Word × Word) := do
  let c ← requireCap s rs1
  let v ← requireInt s rs2
  let ea := c.effectiveAddress imm
  authorizeStore s c imm ea size
  require (s.plat.isMemRange ea size) .storeAccess ea
  .ok (ea, v)

/-- The address and value of a store outside C-mode (R293). -/
def storeTargetRaw (s : State) (rs1 rs2 : Reg) (imm : BitVec 12) (size : Nat) :
    Except Stop (Word × Word) := do
  requireModelledAccess s
  let ea := s.ival rs1 + imm.signExtend 64
  require (alignedTo ea size) .storeMisaligned ea
  require (s.plat.isMemRange ea size) .storeAccess ea
  .ok (ea, s.ival rs2)

/-- The address and value of a store, by mode. -/
def storeTarget (s : State) (rs1 rs2 : Reg) (imm : BitVec 12) (size : Nat) :
    Except Stop (Word × Word) :=
  if s.inCMode then storeTargetC s rs1 rs2 imm size else storeTargetRaw s rs1 rs2 imm size

/-- A store's effect (R249, R293): `MemWriteInt`. -/
def storeEffect (s : State) (ea v : Word) (size : Nat) : State :=
  (s.setMem (s.mem.writeInt ea size v)).advance

/-- A store (R249, R293). -/
def store (s : State) (rs1 rs2 : Reg) (imm : BitVec 12) (size : Nat) : Except Stop State := do
  let (ea, v) ← storeTarget s rs1 rs2 imm size
  .ok (storeEffect s ea v size)

/-- `lb` (R242, R294). -/
def execLb (rd rs1 : Reg) (imm : BitVec 12) (s : State) : Outcome :=
  adjustedOp (.lb rd rs1 imm) s (load s rd rs1 imm 1 true)

/-- `lh` (R243, R295). -/
def execLh (rd rs1 : Reg) (imm : BitVec 12) (s : State) : Outcome :=
  adjustedOp (.lh rd rs1 imm) s (load s rd rs1 imm 2 true)

/-- `lw` (R244, R296). -/
def execLw (rd rs1 : Reg) (imm : BitVec 12) (s : State) : Outcome :=
  adjustedOp (.lw rd rs1 imm) s (load s rd rs1 imm 4 true)

/-- `ld` (R245, R297). -/
def execLd (rd rs1 : Reg) (imm : BitVec 12) (s : State) : Outcome :=
  adjustedOp (.ld rd rs1 imm) s (load s rd rs1 imm 8 true)

/-- `lbu` (R246, R298). -/
def execLbu (rd rs1 : Reg) (imm : BitVec 12) (s : State) : Outcome :=
  adjustedOp (.lbu rd rs1 imm) s (load s rd rs1 imm 1 false)

/-- `lhu` (R247, R299). -/
def execLhu (rd rs1 : Reg) (imm : BitVec 12) (s : State) : Outcome :=
  adjustedOp (.lhu rd rs1 imm) s (load s rd rs1 imm 2 false)

/-- `lwu` (R248, R300). -/
def execLwu (rd rs1 : Reg) (imm : BitVec 12) (s : State) : Outcome :=
  adjustedOp (.lwu rd rs1 imm) s (load s rd rs1 imm 4 false)

/-- `sb` (R250, R301). -/
def execSb (rs1 rs2 : Reg) (imm : BitVec 12) (s : State) : Outcome :=
  adjustedOp (.sb rs1 rs2 imm) s (store s rs1 rs2 imm 1)

/-- `sh` (R251, R302). -/
def execSh (rs1 rs2 : Reg) (imm : BitVec 12) (s : State) : Outcome :=
  adjustedOp (.sh rs1 rs2 imm) s (store s rs1 rs2 imm 2)

/-- `sw` (R252, R303). -/
def execSw (rs1 rs2 : Reg) (imm : BitVec 12) (s : State) : Outcome :=
  adjustedOp (.sw rs1 rs2 imm) s (store s rs1 rs2 imm 4)

/-- `sd` (R253, R304). -/
def execSd (rs1 rs2 : Reg) (imm : BitVec 12) (s : State) : Outcome :=
  adjustedOp (.sd rs1 rs2 imm) s (store s rs1 rs2 imm 8)

end Sys2Proof.Machine
end

