-- ==== Sys2Proof/Machine/System.lean ====
section
/-!
DEFINITION. Environment calls, fence and the privileged instructions (R263 to R267, R324 to R329, R336).
-/

namespace Sys2Proof.Machine

/-- The environment-call exception of the current privilege level (R263, R324). -/
def ecallCause (s : State) : Exc :=
  match s.priv with
  | .user => .ecallU
  | .supervisor => .ecallS
  | .machine => .ecallM

/-- `ecall` (R263, R324). -/
def execEcall (s : State) : Outcome := adjustedOp .ecall s (.error (.raise (ecallCause s) 0))

/-- `ebreak` (R264, R325). -/
def execEbreak (s : State) : Outcome := adjustedOp .ebreak s (.error (.raise .breakpoint 0))

/-- `fence` (R326): no effect on one in-order hart, in every mode. -/
def execFence (rd rs1 : Reg) (fm pred succ : BitVec 4) (s : State) : Outcome :=
  finish (.fence rd rs1 fm pred succ) s (.ok s.advance)

/-- The privilege level that MPP names; 2 names none (R52, log 22). -/
def mppPriv (s : State) : Except Stop Priv :=
  match Priv.ofCode (mpp s.csr.mstatus) with
  | some p => .ok p
  | none => .error (.stuck .illegalMpp)

/-- `mret` (R265, R327): illegal below mode ID 3. -/
def execMret (s : State) : Outcome :=
  finish .mret s do
    require (decide (s.priv = .machine)) .illegal
    let p ← mppPriv s
    .ok (if s.capstoneEn then returnC p s else returnM p s)

/-- Is a supervisor instruction permitted here: M-mode with `CAPSTONE_EN = 0`, or S-mode with its trap bit of `mstatus` clear (R267, R328, R329, R336)? -/
def supervisorPermitted (s : State) (trapBit : Nat) : Bool :=
  match s.priv with
  | .machine => !s.capstoneEn
  | .supervisor => !bitOf s.csr.mstatus trapBit
  | .user => false

/-- `sret` (R267, R328). -/
def execSret (s : State) : Outcome :=
  finish .sret s do
    require (supervisorPermitted s mstatusTSR) .illegal
    .ok (returnS s)

/-- `wfi` (R267, R329): a no-operation where it is permitted (D40). -/
def execWfi (s : State) : Outcome :=
  finish .wfi s do
    require (supervisorPermitted s mstatusTW) .illegal
    .ok s.advance

/-- `sfence.vma` (R267, R336): no effect where it is permitted, since no translation is modelled. -/
def execSfenceVma (rs1 rs2 : Reg) (s : State) : Outcome :=
  finish (.sfenceVma rs1 rs2) s do
    require (supervisorPermitted s mstatusTVM) .illegal
    .ok s.advance

end Sys2Proof.Machine
end

