-- ==== Sys2Proof/Machine/Csr.lean ====
section
/-!
DEFINITION. The CSRs by name: which number names which, where each exists, what a read gives and what a write changes (R36, R37, R40 to R44, R52 to R57, R266, R337, R338).
-/

namespace Sys2Proof.Machine

/-- The CSRs that exist in some mode (R266, R338). -/
inductive CsrName where
  | mstatus
  | misa
  | medeleg
  | mideleg
  | mie
  | mtvec
  | mcounteren
  | mscratch
  | mepc
  | mcause
  | mtval
  | mip
  | mtinst
  | mtval2
  | mvendorid
  | marchid
  | mimpid
  | mhartid
  | sstatus
  | sie
  | stvec
  | scounteren
  | sscratch
  | sepc
  | scause
  | stval
  | sip
  | satp
  | cis
  | cid
  | cic
  | offsetmmu
deriving DecidableEq, Repr

/-- The CSR numbers (R36, R37, R40, R57, R338). -/
def CsrName.ofNumber (n : BitVec 12) : Option CsrName :=
  match n.toNat with
  | 0x300 => some .mstatus
  | 0x301 => some .misa
  | 0x302 => some .medeleg
  | 0x303 => some .mideleg
  | 0x304 => some .mie
  | 0x305 => some .mtvec
  | 0x306 => some .mcounteren
  | 0x340 => some .mscratch
  | 0x341 => some .mepc
  | 0x342 => some .mcause
  | 0x343 => some .mtval
  | 0x344 => some .mip
  | 0x34a => some .mtinst
  | 0x34b => some .mtval2
  | 0xf11 => some .mvendorid
  | 0xf12 => some .marchid
  | 0xf13 => some .mimpid
  | 0xf14 => some .mhartid
  | 0x100 => some .sstatus
  | 0x104 => some .sie
  | 0x105 => some .stvec
  | 0x106 => some .scounteren
  | 0x140 => some .sscratch
  | 0x141 => some .sepc
  | 0x142 => some .scause
  | 0x143 => some .stval
  | 0x144 => some .sip
  | 0x180 => some .satp
  | 0x800 => some .cis
  | 0x801 => some .cid
  | 0x802 => some .cic
  | 0x803 => some .offsetmmu
  | _ => none

/-- The four CSRs the extension adds (R40). -/
def CsrName.added : List CsrName := [.cis, .cid, .cic, .offsetmmu]

/-- The supervisor CSRs but `scounteren` (R266). -/
def CsrName.supervisor : List CsrName :=
  [.sstatus, .sie, .stvec, .sscratch, .sepc, .scause, .stval, .sip, .satp]

/-- The M-mode CSRs that C-mode keeps (R36). -/
def CsrName.kept : List CsrName :=
  [.mstatus, .medeleg, .mideleg, .mie, .mcause, .mtval, .mip, .mtinst, .mtval2]

/-- Does the CSR exist in the current mode (R266, R338, D9)? -/
def csrExists (s : State) (c : CsrName) : Bool :=
  match s.priv with
  | .machine =>
    if s.capstoneEn then
      CsrName.kept.contains c || CsrName.added.contains c || CsrName.supervisor.contains c
    else !CsrName.added.contains c
  | .supervisor =>
    (CsrName.supervisor.contains c || decide (c = .scounteren)) &&
      !(decide (c = .satp) && bitOf s.csr.mstatus mstatusTVM)
  | .user => false

/-- What a CSR read gives (R43, R338): the register, a view, or a constant. -/
def readCsr (s : State) : CsrName → Word
  | .mstatus => s.csr.mstatus
  | .misa => 0x8000000000140100
  | .medeleg => s.csr.medeleg
  | .mideleg => s.csr.mideleg
  | .mie => s.csr.mie
  | .mtvec => s.csr.mtvec
  | .mcounteren => 0
  | .mscratch => s.csr.mscratch
  | .mepc => s.csr.mepc
  | .mcause => s.csr.mcause
  | .mtval => s.csr.mtval
  | .mip => s.csr.mip
  | .mtinst => s.csr.mtinst
  | .mtval2 => s.csr.mtval2
  | .mvendorid => 0
  | .marchid => 0
  | .mimpid => 0
  | .mhartid => 0
  | .sstatus => s.csr.mstatus &&& sstatusView
  | .sie => s.csr.mie &&& sIrqMask &&& s.csr.mideleg
  | .stvec => s.csr.stvec
  | .scounteren => 0
  | .sscratch => s.csr.sscratch
  | .sepc => s.csr.sepc
  | .scause => s.csr.scause
  | .stval => s.csr.stval
  | .sip => s.csr.mip &&& sIrqMask &&& s.csr.mideleg
  | .satp => s.csr.satp
  | .cis => s.csr.cis
  | .cid => s.csr.cid
  | .cic => Config.cicRead s.draws s.csr.cic
  | .offsetmmu => s.csr.offsetmmu

/-- A read of `cic` draws a free value, the next read another (R43, log 10). -/
def noteCsrRead (s : State) (c : CsrName) : State := if c = .cic then s.draw else s

/-- What a CSR write changes, read-only bits keeping their value (R41 to R43, R52 to R57, R337, R338). -/
def writeCsr (c : Csrs) (n : CsrName) (v : Word) : Csrs :=
  match n with
  | .mstatus => { c with mstatus := writeMstatus c.mstatus v }
  | .misa => c
  | .medeleg => { c with medeleg := legalMedeleg v }
  | .mideleg => { c with mideleg := v }
  | .mie => { c with mie := v &&& irqMask }
  | .mtvec => { c with mtvec := writeMtvec c.mtvec v }
  | .mcounteren => c
  | .mscratch => { c with mscratch := v }
  | .mepc => { c with mepc := legalMepc v }
  | .mcause => { c with mcause := v }
  | .mtval => { c with mtval := v }
  | .mip => { c with mip := writeMip c.mip v }
  | .mtinst => { c with mtinst := v }
  | .mtval2 => { c with mtval2 := v }
  | .mvendorid => c
  | .marchid => c
  | .mimpid => c
  | .mhartid => c
  | .sstatus => { c with mstatus := merge sstatusMask c.mstatus v }
  | .sie => { c with mie := merge (sIrqMask &&& c.mideleg) c.mie v }
  | .stvec => { c with stvec := v }
  | .scounteren => c
  | .sscratch => { c with sscratch := v }
  | .sepc => { c with sepc := v }
  | .scause => { c with scause := v }
  | .stval => { c with stval := v }
  | .sip => { c with mip := merge (2 &&& c.mideleg) c.mip v }
  | .satp => { c with satp := v }
  | .cis => { c with cis := v &&& irqMask }
  | .cid => { c with cid := v &&& irqMask }
  | .cic => c
  | .offsetmmu => { c with offsetmmu := v }

/-- The access check of R338: the CSR's privilege `csr[9:8]`, the read-only space `csr[11:10] = 11`, and existence in the current mode; otherwise Illegal instruction (2). -/
def requireCsr (s : State) (csr : BitVec 12) (write : Bool) : Except Stop CsrName :=
  if s.priv.code.toNat < (csr.extractLsb' 8 2).toNat then .error (.raise .illegal 0)
  else if write && decide (csr.extractLsb' 10 2 = 3) then .error (.raise .illegal 0)
  else
    match CsrName.ofNumber csr with
    | some c => if csrExists s c then .ok c else .error (.raise .illegal 0)
    | none => .error (.raise .illegal 0)

/-- The shared shape of the six instructions (R330 to R335): read unless `read` is off, write unless `write` is off, the old value to `x[rd]`. -/
def csrOp (s : State) (rd : Reg) (csr : BitVec 12) (read write : Bool) (new : Word → Word) :
    Except Stop State := do
  let c ← requireCsr s csr write
  let t := readCsr s c
  let s1 := if read then noteCsrRead s c else s
  let s2 := if write then s1.setCsr (writeCsr s.csr c (new t)) else s1
  .ok (s2.setReg rd (.int t)).advance

end Sys2Proof.Machine
end

