-- ==== Sys2Proof/Machine/Zicsr.lean ====
section
/-!
DEFINITION. The six CSR instructions (R330 to R335): the source is read through `ival` (R234, R266).
-/

namespace Sys2Proof.Machine

/-- `csrrw` (R330): always a write; with `rd = 0` the CSR is not read. -/
def execCsrrw (rd : Reg) (csr : BitVec 12) (rs1 : Reg) (s : State) : Outcome :=
  finish (.csrrw rd csr rs1) s (csrOp s rd csr (decide (rd ≠ 0)) true fun _ => s.ival rs1)

/-- `csrrs` (R331): no write when the index `rs1` is 0. -/
def execCsrrs (rd : Reg) (csr : BitVec 12) (rs1 : Reg) (s : State) : Outcome :=
  finish (.csrrs rd csr rs1) s (csrOp s rd csr true (decide (rs1 ≠ 0)) fun t => t ||| s.ival rs1)

/-- `csrrc` (R332): no write when the index `rs1` is 0. -/
def execCsrrc (rd : Reg) (csr : BitVec 12) (rs1 : Reg) (s : State) : Outcome :=
  finish (.csrrc rd csr rs1) s (csrOp s rd csr true (decide (rs1 ≠ 0)) fun t => t &&& ~~~(s.ival rs1))

/-- `csrrwi` (R333). -/
def execCsrrwi (rd : Reg) (csr : BitVec 12) (uimm : BitVec 5) (s : State) : Outcome :=
  finish (.csrrwi rd csr uimm) s (csrOp s rd csr (decide (rd ≠ 0)) true fun _ => uimm.setWidth 64)

/-- `csrrsi` (R334): no write when `uimm` is 0. -/
def execCsrrsi (rd : Reg) (csr : BitVec 12) (uimm : BitVec 5) (s : State) : Outcome :=
  finish (.csrrsi rd csr uimm) s
    (csrOp s rd csr true (decide (uimm ≠ 0)) fun t => t ||| uimm.setWidth 64)

/-- `csrrci` (R335): no write when `uimm` is 0. -/
def execCsrrci (rd : Reg) (csr : BitVec 12) (uimm : BitVec 5) (s : State) : Outcome :=
  finish (.csrrci rd csr uimm) s
    (csrOp s rd csr true (decide (uimm ≠ 0)) fun t => t &&& ~~~(uimm.setWidth 64))

end Sys2Proof.Machine
end

