-- ==== Sys2Proof/Machine/Interrupts.lean ====
section
/-!
DEFINITION. Interrupts: the environment's events (R371), V-interrupts (R372), H-interrupts (R373, R375), and the order in which they are looked at (R374).
-/

namespace Sys2Proof.Machine

/-- The bit of a line set or cleared in a word. -/
def IrqEvent.apply : IrqEvent → Word → Word
  | .set line, w => withBit w line.bit true
  | .clear line, w => withBit w line.bit false

/-- The line an event is about. -/
def IrqEvent.line : IrqEvent → Irq
  | .set line => line
  | .clear line => line

/-- Does an event touch `mip` rather than `cis` (R371)? -/
def routesToMip (c : Csrs) (capstoneEn : Bool) (line : Irq) : Bool :=
  !capstoneEn || bitOf c.cid line.bit

/-- One event of the interrupt controller (R371). -/
def applyEvent (s : State) (e : IrqEvent) : State :=
  if routesToMip s.csr s.capstoneEn e.line then s.setCsr { s.csr with mip := e.apply s.csr.mip }
  else s.setCsr { s.csr with cis := e.apply s.csr.cis }

/-- The boundary between two instructions (R371, R374): the events the environment has for it happen (log 16). -/
def boundary (s : State) : State :=
  match s.inputs with
  | [] => s
  | es :: rest => es.foldl applyEvent { s with inputs := rest }

/-- The bits of `cis` not delegated by `cid` (R373). -/
def pendingH (c : Csrs) : Word := c.cis &&& ~~~c.cid &&& irqMask

/-- The first line, in the base priority order, whose bit is set (R372, R375). -/
def firstLine (w : Word) : Option Irq := Irq.byPriority.find? fun i => bitOf w i.bit

/-- The handler capability, when `cih` holds one that delivery can use (R373). -/
def handlerCap (v : Value) : Option Cap :=
  match v with
  | .cap c => if c.valid ∧ c.type = .sealed ∧ c.async = false then some c else none
  | .int _ => none

/-- `HDeliverable` (R373): the line and the handler capability. -/
def hDeliverable (s : State) : Option (Irq × Cap) :=
  if s.capstoneEn then
    match firstLine (pendingH s.csr), handlerCap s.ccsr.cih with
    | some i, some c => some (i, c)
    | _, _ => none
  else none

/-- The code of an interrupt (R351). -/
def Irq.code (i : Irq) : Word := BitVec.ofNat 64 i.bit

/-- The capability the handler receives in `cra` (R375). -/
def Cap.delivered (c : Cap) : Cap :=
  { c with type := .sealedReturn, cursor := c.base, reg := 0, async := true }

/-- `HDeliver` (R375): save the interrupted domain, scrub, enter the handler domain. -/
def hDeliver (s : State) (i : Irq) (c : Cap) : Except Fault State := do
  contextReady s c.base domainBytes
  let new := s.mem.readCEff s.draws c.base
  let s1 := (s.setMem (s.mem.saveDomain c.base s.domain)).scrub
  let s2 := (s1.installCEff new).draw
  let s3 := s2.setCcsr { s2.ccsr with cih := .cap cnull }
  .ok ((s3.setReg 1 (.cap c.delivered)).setReg 10 (.int i.code))

/-- Enabled and pending interrupts (R372). -/
def pendingEnabled (c : Csrs) : Word := c.mip &&& c.mie &&& irqMask

/-- The interrupt taken into mode ID 3 (R372): undelegated; at mode ID 3 only with MIE set, below it regardless of MIE. -/
def topInterrupt (s : State) : Option Irq :=
  if s.priv = .machine ∧ bitOf s.csr.mstatus mstatusMIE = false then none
  else firstLine (pendingEnabled s.csr &&& ~~~s.csr.mideleg)

/-- The interrupt taken into S-mode (R372): delegated, through the views `sie` and `sip`, from U-mode, or from S-mode with SIE set. -/
def supervisorInterrupt (s : State) : Option Irq :=
  if s.priv = .user ∨ (s.priv = .supervisor ∧ bitOf s.csr.mstatus mstatusSIE = true) then
    firstLine (pendingEnabled s.csr &&& s.csr.mideleg &&& sIrqMask)
  else none

/-- Take a V-interrupt, or a base interrupt outside C-mode, if one qualifies (R372). -/
def vInterrupt (s : State) : Option (Except Fault State) :=
  match topInterrupt s with
  | some i => some (takeTrapTop true i.code 0 0 0 s)
  | none =>
    match supervisorInterrupt s with
    | some i => some (.ok (takeTrapS true i.code 0 s))
    | none => none

end Sys2Proof.Machine
end

