-- ==== Sys2Proof/Machine/Fetch.lean ====
section
/-!
DEFINITION. Fetching an instruction (R90, R91, R104), the states the model refuses (R382, R383), and placing an instruction for the next fetch.
-/

namespace Sys2Proof.Machine

/-- The fetch checks of C-mode, in order (R90): the first four raise Instruction access fault (1), the last Instruction address misaligned (0). -/
def fetchAddressC (s : State) : Except Stop Word :=
  match s.pc with
  | .int a => .error (.raise .instrAccess a)
  | .cap c => do
    require c.valid .instrAccess c.cursor
    require c.isPlain .instrAccess c.cursor
    require c.canExecute .instrAccess c.cursor
    require (decide (c.base.toNat ≤ c.cursor.toNat ∧ c.cursor.toNat + 3 ≤ c.last.toNat)) .instrAccess
      c.cursor
    require (alignedTo c.cursor 4) .instrMisaligned c.cursor
    .ok c.cursor

/-- The fetch address outside C-mode (R91, R95): an address that is not 4-byte aligned raises Instruction address misaligned (0) (log 15). -/
def fetchAddressRaw (s : State) : Except Stop Word := do
  let a := s.pc.address
  require (alignedTo a 4) .instrMisaligned a
  .ok a

/-- Fetch the instruction word (R90, R91): bytes that are not memory, not defined, or stored by an instruction of the run raise Instruction access fault (1) (R104, R350; log 14). -/
def fetch (s : State) : Except Stop (BitVec 32) := do
  let a ← if s.inCMode then fetchAddressC s else fetchAddressRaw s
  require (s.plat.isMemRange a 4 && s.mem.fetchable a 4) .instrAccess a
  .ok (wordOfBytes (s.mem.byte a) (s.mem.byte (a + 1)) (s.mem.byte (a + 2)) (s.mem.byte (a + 3)))

/-- The states outside the modelled subset (R382, R383): looked at before anything else (log 17, 18). -/
def refusal (s : State) : Option Refusal :=
  if s.priv = .machine then none
  else if s.capstoneEn then some .lowPrivUnderCapstone
  else if translationOn s then some .translationUnmodelled
  else none

/-- The event taken before the next fetch, if any (R374): an H-interrupt, else a V-interrupt. -/
def pendingEvent (s : State) : Option (Except Fault State) :=
  match hDeliverable s with
  | some (i, c) => some (hDeliver s i c)
  | none => vInterrupt s

/-- Decode a fetched word; a word that is no instruction raises Illegal instruction (2) (R144). -/
def decodeWord (w : BitVec 32) : Except DecodeError Instr := (decode (bytesOfWord w)).map Prod.fst

/-- Place a byte as the loaded image holds it: defined, stored by no instruction of the run, in an integer slot (R408). -/
def Memory.placeByte (m : Memory) (a : Word) (b : Byte) : Memory :=
  { m.setByte a b with
    marks := tableErase a.toNat m.marks
    caps := tableErase (slotOf a).toNat m.caps }

/-- Place bytes as the loaded image holds them, from `a` upward. -/
def Memory.placeBytes (m : Memory) (a : Word) : List Byte → Memory
  | [] => m
  | b :: bs => (m.placeByte a b).placeBytes (a + 1) bs

end Sys2Proof.Machine
end

