-- ==== Sys2Proof/Machine/Step.lean ====
section
/-!
DEFINITION. One step of the machine (R374): the boundary's events, an interrupt if one is taken, else the fetch, the decoding and the instruction.
-/

namespace Sys2Proof.Machine

/-- Fetch, decode and run the next instruction (R90, R142, R354). -/
def runInstruction (s : State) : Outcome :=
  match fetch s with
  | .error e => stopOutcome 0 s e
  | .ok w =>
    match decodeWord w with
    | .error _ => stopOutcome w s (.raise .illegal 0)
    | .ok i => exec i s

/-- What happens after the boundary (R374). -/
def afterBoundary (s : State) : Outcome :=
  match pendingEvent s with
  | some r => trapOutcome r
  | none => runInstruction s

/-- One step. -/
def step (s : State) : Outcome :=
  match refusal s with
  | some r => .refused r
  | none => afterBoundary (boundary s)

/-- The state with an instruction's bytes placed where the next fetch reads them, as a loaded image holds them (log 1). `nbits` says how many bits of `w` the opcode table gives. -/
def State.withFetchWord (s : State) (nbits w : Nat) : State :=
  s.setMem (s.mem.placeBytes s.pc.address (bytesOfWord (BitVec.ofNat 32 (w % 2 ^ nbits))))

end Sys2Proof.Machine
end

