-- ==== Sys2Proof/Safety.lean ====
section
/-!
DEFINITION. The terms the statements use: what counts as the same registers, memory and control state, what an instruction answers when it completes and when it raises, what a store leaves, and the invariants.
-/

namespace Sys2Proof.Machine

/-! ### What stays as it was -/

/-- Every part of the state but the general registers, `pc`, memory and the draw counter is the same. -/
def SameControl (s t : State) : Prop :=
  t.priv = s.priv ∧ t.capstoneEn = s.capstoneEn ∧ t.ccsr = s.ccsr ∧ t.csr = s.csr ∧
    t.revClock = s.revClock ∧ t.inputs = s.inputs ∧ t.plat = s.plat

/-- Memory at one address is the same: the byte, what was last stored over it (so whether it is defined), and the capability of its slot. -/
def SameAt (s t : State) (a : Word) : Prop :=
  t.mem.byte a = s.mem.byte a ∧ t.mem.mark a = s.mem.mark a ∧ t.mem.slotCap a = s.mem.slotCap a

/-- Memory is the same at every address. -/
def SameMemory (s t : State) : Prop := ∀ a, SameAt s t a

/-- A register file with `x[rd]` replaced; a write to `x[0]` is discarded (R11, R32). -/
def putReg (f : Reg → Value) (rd : Reg) (v : Value) : Reg → Value :=
  fun r => if r = rd ∧ rd ≠ 0 then v else f r

/-- The registers after `x[rd]` received `v` out of `x[rs1]`: a capability whose type is not 1 leaves `cnull` behind, unless it stayed in place (R161). -/
def moveReg (f : Reg → Value) (rd rs1 : Reg) (old : Cap) (v : Value) : Reg → Value :=
  putReg (if rs1 ≠ rd ∧ old.type ≠ .nonLinear then putReg f rs1 (.cap cnull) else f) rd v

/-- The `pc` of the next instruction (R35). -/
def nextPc (s : State) : Value := s.pc.withCursor (s.pc.address + 4)

/-! ### What an instruction answers -/

/-- The instruction completes: its next state has these registers and this `pc`, and everything else as it was. -/
def Reaches (i : Instr) (s : State) (regs : Reg → Value) (pc : Value) : Prop :=
  ∃ t, exec i s = .next t ∧ (∀ r, t.capValue r = regs r) ∧ t.pc = pc ∧ SameControl s t ∧ SameMemory s t

/-- The instruction completes, having changed nothing but registers and moved on. -/
def Completes (i : Instr) (s : State) (regs : Reg → Value) : Prop := Reaches i s regs (nextPc s)

/-- The instruction completes, having written an integer to `x[rd]` and moved on. -/
def Computes (i : Instr) (s : State) (rd : Reg) (v : Word) : Prop :=
  Completes i s (putReg s.capValue rd (.int v))

/-- The instruction raises an exception: what it answers is the trap of that exception, taken from the state as it was before the instruction (R355, R356). -/
def Raises (i : Instr) (s : State) (e : Exc) (addr : Word := 0) : Prop :=
  exec i s = trapOutcome (takeException e addr (encode i) s)

/-! ### Memory -/

/-- Every one of the `n` bytes from `a` is memory (R80). -/
abbrev AllMem (s : State) (a : Word) (n : Nat) : Prop :=
  ∀ k < n, s.plat.isMem (a + BitVec.ofNat 64 k) = true

/-- Every one of the `n` bytes from `a` is defined for an integer load (R82). -/
abbrev AllDefined (s : State) (a : Word) (n : Nat) : Prop :=
  ∀ k < n, s.mem.defined (a + BitVec.ofNat 64 k) = true

/-- The low `n` bytes of `v` are the bytes of memory from `a`, the lowest address the least significant (R84, R92). -/
abbrev BytesAre (s : State) (a : Word) (n : Nat) (v : Word) : Prop :=
  ∀ k < n, v.extractLsb' (8 * k) 8 = s.mem.byte (a + BitVec.ofNat 64 k)

/-- What an integer store of the low `n` bytes of `v` at `a` leaves (R86): the bytes, defined and stored by the run; the slot an integer slot; every other byte and slot as before. -/
def StoredInt (s t : State) (a : Word) (n : Nat) (v : Word) : Prop :=
  BytesAre t a n v ∧ (∀ k < n, t.mem.mark (a + BitVec.ofNat 64 k) = some .intStored) ∧
    (∀ b, (∀ k < n, b ≠ a + BitVec.ofNat 64 k) → t.mem.byte b = s.mem.byte b ∧ t.mem.mark b = s.mem.mark b) ∧
    (∀ b, t.mem.slotCap b = if slotOf b = slotOf a then none else s.mem.slotCap b)

/-- What a capability store at `a` leaves (R87): the slot holds the capability, its bytes are undefined for integer loads; every other byte and slot as before. -/
def StoredCap (s t : State) (a : Word) (c : Cap) : Prop :=
  (∀ b, slotOf b = slotOf a → t.mem.slotCap b = some c ∧ t.mem.defined b = false) ∧
    (∀ b, slotOf b ≠ slotOf a → SameAt s t b)

/-- What a store of a register's value into a slot leaves (R87, R88). -/
def StoredSlot (s t : State) (a : Word) : Value → Prop
  | .cap c => StoredCap s t a c
  | .int v => StoredInt s t a 8 v

/-- A slot holds a value that a context save put there: a capability, or an integer in its first 8 bytes (R50). -/
def SlotHolds (t : State) (a : Word) : Value → Prop
  | .cap c => t.mem.slotCap a = some c
  | .int v => t.mem.slotCap a = none ∧ AllDefined t a 8 ∧ BytesAre t a 8 v

/-- The 8 bytes at `a` hold a word that a context save put there (R50). -/
def WordHolds (t : State) (a : Word) (v : Word) : Prop :=
  t.mem.slotCap a = none ∧ AllDefined t a 8 ∧ BytesAre t a 8 v

/-- Two words agree in every bit but the listed ones. -/
def SameBits (old new : Word) (but : List Nat) : Prop := ∀ n, n ∉ but → bitOf new n = bitOf old n

/-- Two bits of a word, from bit `lo`, hold a privilege level: 0, 1 or 3 (R22). -/
abbrev LevelBits (w : Word) (lo : Nat) (p : Priv) : Prop :=
  bitOf w lo = decide (p ≠ .user) ∧ bitOf w (lo + 1) = decide (p = .machine)

/-- The saved `mstatus` image, bit by bit: bits [39:38] the privilege level, the live register elsewhere (R51). -/
def ImageOf (live : Word) (p : Priv) (image : Word) : Prop :=
  LevelBits image 38 p ∧ SameBits live image [38, 39]

/-- The live `mstatus` that an image loads as, bit by bit: the writable fields of the image, an MPP of 2 as 0, UXL = SXL = 2, every other bit 0, bits [39:38] among them (R51, R52, R376). -/
def LoadedStatus (image live : Word) : Prop :=
  ∀ n, bitOf live n =
    if n ∈ [1, 3, 5, 7, 8, 17, 18, 19, 20, 21, 22] then bitOf image n
    else if n ∈ [11, 12] then bitOf image n && !(bitOf image 12 && !bitOf image 11)
    else decide (n = 33 ∨ n = 35)

/-- A word as `medeleg` holds it, bit by bit: bits 11 and 24 to 30 read 0 (R55). -/
def DelegableBits (v w : Word) : Prop := ∀ n, bitOf w n = (decide (n ≠ 11 ∧ ¬ (24 ≤ n ∧ n ≤ 30)) && bitOf v n)

/-- Every byte outside the `n` bytes from `B` is as before, and so is every slot that holds none of them. -/
def SameOutside (s t : State) (B : Word) (n : Nat) : Prop :=
  (∀ a, ¬ (a - B).toNat < n → t.mem.byte a = s.mem.byte a ∧ t.mem.mark a = s.mem.mark a) ∧
    (∀ a, (∀ k < n, slotOf a ≠ slotOf (B + BitVec.ofNat 64 k)) → t.mem.slotCap a = s.mem.slotCap a)

/-- The 88 bytes at `B` hold the C-effective registers of `s`, with the given `pc` (R50, R51, R376). -/
def CEffSaved (s t : State) (B : Word) (pc : Value) : Prop :=
  SlotHolds t B pc ∧ SlotHolds t (ctxAt B 16) s.ccsr.ctvec ∧ SlotHolds t (ctxAt B 32) s.ccsr.cscratch ∧
    (∃ image, WordHolds t (ctxAt B 48) image ∧ ImageOf s.csr.mstatus s.priv image) ∧
    WordHolds t (ctxAt B 56) s.csr.mideleg ∧ WordHolds t (ctxAt B 64) s.csr.medeleg ∧
    WordHolds t (ctxAt B 72) s.csr.mip ∧ WordHolds t (ctxAt B 80) s.csr.mie

/-- The C-effective registers of `t` are what the region at `B` held in `s`, each CSR through its field rules (R376). -/
def CEffLoaded (s t : State) (B : Word) : Prop :=
  t.pc = s.mem.readSlot s.draws B ∧ t.ccsr.ctvec = s.mem.readSlot s.draws (ctxAt B 16) ∧
    t.ccsr.cscratch = s.mem.readSlot s.draws (ctxAt B 32) ∧
    LoadedStatus (s.mem.readInt s.draws (ctxAt B 48) 8) t.csr.mstatus ∧
    t.csr.mideleg = s.mem.readInt s.draws (ctxAt B 56) 8 ∧
    DelegableBits (s.mem.readInt s.draws (ctxAt B 64) 8) t.csr.medeleg ∧
    t.csr.mie = s.mem.readInt s.draws (ctxAt B 80) 8 &&& 0xaaa

/-- The domain-scoped CSRs outside the C-effective ones (R47). -/
def Csrs.domainOnly (c : Csrs) : List Word :=
  [c.offsetmmu, c.mcause, c.mtval, c.mtval2, c.mtinst, c.stvec, c.scause, c.stval, c.sepc, c.sscratch,
    c.satp]

/-- The hart-scoped CSRs (R46). -/
def Csrs.hartOnly (c : Csrs) : List Word := [c.cis, c.cid, c.cic, c.mtvec, c.mscratch, c.mepc]

/-! ### The forms of the loads and stores -/

/-- A load: its size in bytes, whether it sign-extends, its `funct3` (R241, R293). -/
structure LoadForm where
  instr  : Instr
  size   : Nat
  signed : Bool
  funct3 : BitVec 3

/-- The seven loads (R143). -/
def loadForms (rd rs1 : Reg) (imm : BitVec 12) : List LoadForm :=
  [⟨.lb rd rs1 imm, 1, true, 0⟩, ⟨.lh rd rs1 imm, 2, true, 1⟩, ⟨.lw rd rs1 imm, 4, true, 2⟩,
    ⟨.ld rd rs1 imm, 8, true, 3⟩, ⟨.lbu rd rs1 imm, 1, false, 4⟩, ⟨.lhu rd rs1 imm, 2, false, 5⟩,
    ⟨.lwu rd rs1 imm, 4, false, 6⟩]

/-- A store: its size in bytes, its `funct3` (R249, R293). -/
structure StoreForm where
  instr  : Instr
  size   : Nat
  funct3 : BitVec 3

/-- The four stores (R143). -/
def storeForms (rs1 rs2 : Reg) (imm : BitVec 12) : List StoreForm :=
  [⟨.sb rs1 rs2 imm, 1, 0⟩, ⟨.sh rs1 rs2 imm, 2, 1⟩, ⟨.sw rs1 rs2 imm, 4, 2⟩, ⟨.sd rs1 rs2 imm, 8, 3⟩]

/-- The register value of a load of `n` bytes at `a`: its low bytes are the bytes of memory where those are all defined (otherwise they are free), and it is extended as the form says (R84, R241). -/
def LoadResult (s : State) (a : Word) (n : Nat) (signed : Bool) (v : Word) : Prop :=
  (AllDefined s a n → BytesAre s a n v) ∧
    (if signed then v = (v.setWidth (8 * n)).signExtend 64 else v.toNat < 2 ^ (8 * n))

/-- The bounds of R93 for types 0, 1 and 3, compared as unbounded integers. -/
abbrev InRegion (s : State) (c : Cap) (ea : Word) (n : Nat) : Prop :=
  (c.base.toNat : Int) ≤ ea.toNat ∧
    (ea.toNat : Int) ≤ (c.last.toNat : Int) - n + (if s.plat.dataEndAdj then 1 else 0)

/-- The bounds of R93 for type 5. -/
abbrev InContext (c : Cap) (ea : Word) (n : Nat) : Prop :=
  (c.base.toNat : Int) + 48 ≤ ea.toNat ∧ (ea.toNat : Int) ≤ (c.base.toNat : Int) + 1024 - n

/-- Types 0 and 1. -/
abbrev Cap.Plain (c : Cap) : Prop := c.type = .linear ∨ c.type = .nonLinear

/-- A capability grants a read of `n` bytes at `ea` (R94, R200, R241). -/
abbrev GrantsRead (s : State) (c : Cap) (ea : Word) (n : Nat) : Prop :=
  c.valid = true ∧
    ((c.Plain ∧ permLe 4 c.perms = true ∧ InRegion s c ea n) ∨
      (c.type = .sealedReturn ∧ c.async = false ∧ InContext c ea n))

/-- A capability grants a write of `n` bytes at `ea`, reached with the offset `imm` (R94, R201, R249). -/
abbrev GrantsWrite (s : State) (c : Cap) (imm : BitVec 12) (ea : Word) (n : Nat) : Prop :=
  c.valid = true ∧
    ((c.Plain ∧ permLe 2 c.perms = true ∧ InRegion s c ea n) ∨
      (c.type = .uninitialised ∧ imm = 0 ∧ InRegion s c ea n) ∨
      (c.type = .sealedReturn ∧ c.async = false ∧ InContext c ea n))

/-- `q` where `p` holds, `r` where it does not: one line of an ordered list of conditions (R160 item 3). -/
def IfSo (p q r : Prop) : Prop := (p → q) ∧ (¬ p → r)

/-- The exceptions of a read through a capability, in the order of the rules (R200 items 2 to 8, R241 items 2 to 8); `rest` holds when none of them is raised. -/
def ReadChecks (i : Instr) (s : State) (c : Cap) (ea : Word) (n : Nat) (rest : Prop) : Prop :=
  IfSo (c.valid = false) (Raises i s .invalidCap) <|
  IfSo (¬ (c.Plain ∨ c.type = .sealedReturn)) (Raises i s .capType) <|
  IfSo (c.type = .sealedReturn ∧ c.async = true) (Raises i s .capType) <|
  IfSo (c.Plain ∧ permLe 4 c.perms = false) (Raises i s .capPerms) <|
  IfSo (c.Plain ∧ ¬ InRegion s c ea n) (Raises i s .outOfBound) <|
  IfSo (c.type = .sealedReturn ∧ ¬ InContext c ea n) (Raises i s .outOfBound) <|
  IfSo (ea.toNat % n ≠ 0) (Raises i s .loadMisaligned ea) rest

/-- The exceptions of a write through a capability, in the order of the rules (R201 items 2 to 9, R249 items 3 to 10); `rest` holds when none of them is raised. -/
def WriteChecks (i : Instr) (s : State) (c : Cap) (imm : BitVec 12) (ea : Word) (n : Nat) (rest : Prop) : Prop :=
  IfSo (c.valid = false) (Raises i s .invalidCap) <|
  IfSo (¬ (c.Plain ∨ c.type = .uninitialised ∨ c.type = .sealedReturn)) (Raises i s .capType) <|
  IfSo (c.type = .sealedReturn ∧ c.async = true) (Raises i s .capType) <|
  IfSo (c.Plain ∧ permLe 2 c.perms = false) (Raises i s .capPerms) <|
  IfSo (c.type = .uninitialised ∧ imm ≠ 0) (Raises i s .illegalValue) <|
  IfSo ((c.Plain ∨ c.type = .uninitialised) ∧ ¬ InRegion s c ea n) (Raises i s .outOfBound) <|
  IfSo (c.type = .sealedReturn ∧ ¬ InContext c ea n) (Raises i s .outOfBound) <|
  IfSo (ea.toNat % n ≠ 0) (Raises i s .storeMisaligned ea) rest

/-- `w(v)` of 45_base_rv64i.md section 8, over the integers: the low 32 bits, sign-extended. -/
def signed32 (n : Int) : Word := BitVec.ofInt 64 (BitVec.ofInt 32 n).toInt

/-! ### Revocation -/

/-- `aliases(c, d)` (R27): the closed regions meet. -/
abbrev Aliases (c d : Cap) : Prop := max c.base.toNat d.base.toNat ≤ min c.last.toNat d.last.toNat

/-- `c` is in REVOKE's set `K` for the revocation capability `r` (R175). -/
abbrev TakenBack (r c : Cap) : Prop :=
  c.valid = true ∧
    ((c.type ≠ .revocation ∧ Aliases c r) ∨ (c.type = .revocation ∧ Aliases r c ∧ r.born < c.born))

/-- What REVOKE leaves of a value, wherever it is held: a capability of `K` with `valid` cleared, anything else as it was (R175). -/
def RevokedTo (r : Cap) (v v' : Value) : Prop :=
  match v with
  | .int _ => v' = v
  | .cap c => (TakenBack r c → v' = .cap { c with valid := false }) ∧ (¬ TakenBack r c → v' = v)

/-! ### Traps and the status register -/

/-- What a trap into mode ID 3 records (R360, R362): cause, data, MPIE, MIE, MPP, the privilege level; the registers, memory and everything else are as before. -/
def TrapRecorded (s t : State) (interrupt : Bool) (code tval tval2 tinst : Word) : Prop :=
  t.csr = { s.csr with
    mcause := (if interrupt then 0x8000000000000000 else 0) ||| code
    mtval := tval, mtval2 := tval2, mtinst := tinst
    mstatus := t.csr.mstatus, mepc := t.csr.mepc } ∧
  bitOf t.csr.mstatus 7 = bitOf s.csr.mstatus 3 ∧ bitOf t.csr.mstatus 3 = false ∧
  LevelBits t.csr.mstatus 11 s.priv ∧ SameBits s.csr.mstatus t.csr.mstatus [3, 7, 11, 12] ∧
  t.priv = .machine ∧ t.regs = s.regs ∧ t.mem = s.mem ∧ t.capstoneEn = s.capstoneEn ∧
  t.revClock = s.revClock ∧ t.inputs = s.inputs ∧ t.plat = s.plat ∧
  t.ccsr.cih = s.ccsr.cih ∧ t.ccsr.cscratch = s.ccsr.cscratch ∧ t.ccsr.cpmp = s.ccsr.cpmp

/-- `mstatus` after MRET to `p` (R265, R327). -/
def MretStatus (old new : Word) (p : Priv) : Prop :=
  bitOf new 3 = bitOf old 7 ∧ bitOf new 7 = true ∧ LevelBits new 11 .user ∧
    bitOf new 17 = (if p = .machine then bitOf old 17 else false) ∧ SameBits old new [3, 7, 11, 12, 17]

/-- The state is C-mode, and the implementation raises no exception 30 (R353: its default is never). -/
abbrev CReady (s : State) : Prop := s.inCMode = true ∧ s.plat.finiteResources = false

/-- The implementation raises no exception 30 in this state, which it could in C-mode only (R350, R353: its default is never). -/
abbrev Roomy (s : State) : Prop := s.inCMode = true → s.plat.finiteResources = false

/-! ### What comes before the next instruction -/

/-- The modelled states: mode ID 3, or below it with CAPSTONE_EN = 0 and `satp` MODE Bare (R382, R383). -/
abbrev Modelled (s : State) : Prop :=
  s.priv = .machine ∨ (s.capstoneEn = false ∧ s.csr.satp.extractLsb' 60 4 = 0)

/-- An H-interrupt is delivered: CAPSTONE_EN is 1, a bit of `cis` is set and clear in `cid`, and `cih` holds a valid, synchronous sealed capability (R373). -/
abbrev HQualifies (s : State) : Prop :=
  s.capstoneEn = true ∧ (∃ i : Irq, bitOf s.csr.cis i.bit = true ∧ bitOf s.csr.cid i.bit = false) ∧
    ∃ c, s.ccsr.cih = .cap c ∧ c.valid = true ∧ c.type = .sealed ∧ c.async = false

/-- A line is pending, enabled and not delegated to S-mode (R372). -/
abbrev TopReady (s : State) (i : Irq) : Prop :=
  bitOf s.csr.mip i.bit = true ∧ bitOf s.csr.mie i.bit = true ∧ bitOf s.csr.mideleg i.bit = false

/-- A line is pending, enabled and delegated to S-mode, through the views `sip` and `sie` (R372). -/
abbrev LowReady (s : State) (i : Irq) : Prop :=
  bitOf s.csr.mip i.bit = true ∧ bitOf s.csr.mie i.bit = true ∧ bitOf s.csr.mideleg i.bit = true ∧ i.bit ∈ [1, 5, 9]

/-- No interrupt is taken before the next fetch (R372 to R374): none is delivered to the handler domain; in mode ID 3 MIE is clear or nothing undelegated is ready; below it nothing undelegated is ready, and nothing delegated either, unless S-mode has SIE clear. -/
def NothingTaken (s : State) : Prop :=
  ¬ HQualifies s ∧ (s.priv = .machine → bitOf s.csr.mstatus 3 = false ∨ ∀ i, ¬ TopReady s i) ∧
    (s.priv ≠ .machine → (∀ i, ¬ TopReady s i) ∧
      ((s.priv = .supervisor ∧ bitOf s.csr.mstatus 1 = false) ∨ ∀ i, ¬ LowReady s i))

/-- Nothing comes before the next instruction: the state is modelled, and after the boundary's events no interrupt is taken (R374, R382, R383). -/
abbrev Quiet (s : State) : Prop := Modelled s ∧ NothingTaken (boundary s)

/-- A capability that the fetch checks bar from `pc`: invalid, of another type than 0 and 1, without execute permission, or its cursor out of bounds (R90 items 1 to 4). -/
abbrev Cap.Barred (c : Cap) : Prop :=
  c.valid = false ∨ ¬ c.Plain ∨ permLe 1 c.perms = false ∨
    ¬ ((c.base.toNat : Int) ≤ c.cursor.toNat ∧ (c.cursor.toNat : Int) ≤ (c.last.toNat : Int) - 3)

/-- The four bytes at an address are memory, and no instruction of the run has stored over them (R90, R104). -/
abbrev CodeAt (s : State) (a : Word) : Prop :=
  AllMem s a 4 ∧ ∀ k < 4, s.mem.mark (a + BitVec.ofNat 64 k) = none

/-- A capability that no fetch in C-mode gets an instruction through (R90, R104). -/
abbrev CannotExecute (s : State) (c : Cap) : Prop := c.Barred ∨ c.cursor.toNat % 4 ≠ 0 ∨ ¬ CodeAt s c.cursor

/-- A trap into C-mode would enter a handler that cannot be executed: the capability in `ctvec`, or the one in `pc` with the integer of `ctvec` for its cursor (R360, R361). -/
def UnusableHandler (s : State) : Prop :=
  (∃ d, s.ccsr.ctvec = .cap d ∧ CannotExecute s d) ∨
    ∃ h c, s.ccsr.ctvec = .int h ∧ s.pc = .cap c ∧ CannotExecute s { c with cursor := h }

/-- The next fetch faults, and the handler it traps to cannot be executed either (R361). -/
def Livelocked (s : State) : Prop := UnusableHandler s ∧ ∃ c, s.pc = .cap c ∧ CannotExecute s c

/-- The next fetch reads the four bytes at `a` (R90, R91, R104). -/
def FetchesFrom (s : State) (a : Word) : Prop :=
  a.toNat % 4 = 0 ∧ CodeAt s a ∧
    ((s.inCMode = false ∧ s.pc.address = a) ∨
      (s.inCMode = true ∧ ∃ c, s.pc = .cap c ∧ c.cursor = a ∧ c.valid = true ∧ c.Plain ∧
        permLe 1 c.perms = true ∧ c.base.toNat ≤ a.toNat ∧ a.toNat + 3 ≤ c.last.toNat))

/-- The four bytes at an address, in memory order. -/
def fourBytes (s : State) (a : Word) : List Byte :=
  [s.mem.byte a, s.mem.byte (a + 1), s.mem.byte (a + 2), s.mem.byte (a + 3)]

/-- An interrupt line is the highest-priority one, in the order 11, 3, 7, 9, 1, 5, of those with the property (R372, R375). -/
def Highest (P : Irq → Prop) (i : Irq) : Prop :=
  P i ∧ ∃ before after, [Irq.machineExternal, .machineSoftware, .machineTimer, .supervisorExternal,
    .supervisorSoftware, .supervisorTimer] = before ++ i :: after ∧ ∀ j ∈ before, ¬ P j

/-- A CSR instruction's completion: the CSRs are now `c`, `x[rd]` the old value, everything else as before (R330 to R335). -/
def CsrDone (i : Instr) (s : State) (rd : Reg) (v : Word) (c : Csrs) : Prop :=
  ∃ t, exec i s = .next t ∧ (∀ r, t.capValue r = putReg s.capValue rd (.int v) r) ∧ t.pc = nextPc s ∧
    t.csr = c ∧ t.ccsr = s.ccsr ∧ t.priv = s.priv ∧ t.capstoneEn = s.capstoneEn ∧
    t.revClock = s.revClock ∧ t.inputs = s.inputs ∧ t.plat = s.plat ∧ SameMemory s t

/-- The six CSR instructions with the same operands. -/
def csrForms (rd : Reg) (csr : BitVec 12) (rs1 : Reg) : List Instr :=
  [.csrrw rd csr rs1, .csrrs rd csr rs1, .csrrc rd csr rs1, .csrrwi rd csr rs1, .csrrsi rd csr rs1,
    .csrrci rd csr rs1]

/-- Does the CSR instruction write (R338): always for `csrrw` and `csrrwi`, otherwise when the field is not 0? -/
def csrWrites : Instr → Bool
  | .csrrw .. => true
  | .csrrwi .. => true
  | .csrrs _ _ rs1 => decide (rs1 ≠ 0)
  | .csrrc _ _ rs1 => decide (rs1 ≠ 0)
  | .csrrsi _ _ uimm => decide (uimm ≠ 0)
  | .csrrci _ _ uimm => decide (uimm ≠ 0)
  | _ => false

/-! ### Families -/

/-- The 22 instructions that exist in C-mode only (R140). -/
def cModeOnly : Instr → Bool
  | .revoke .. | .shrink .. | .tighten .. | .delin .. | .lcc .. | .scc .. | .split .. | .seal .. | .mrev ..
  | .init .. | .movc .. | .drop .. | .cincoffset .. | .call .. | .ret .. | .shrinkto .. | .cincoffsetimm ..
  | .ldc .. | .stc .. | .cjalr .. | .cbnz .. | .ccsrrw .. => true
  | _ => false

/-- The instructions for which an implementation may choose to raise exception 30 in C-mode (R160 item 9, R353, log 13): the C-mode instructions but MOVC (R161), the loads and stores, `ecall` and `ebreak`. -/
def mayExhaust : Instr → Bool
  | .movc .. => false
  | .lb .. | .lh .. | .lw .. | .ld .. | .lbu .. | .lhu .. | .lwu .. | .sb .. | .sh .. | .sw .. | .sd .. | .ecall
  | .ebreak => true
  | i => cModeOnly i

/-- The 23 instructions the extension adds (R3). -/
def isCapstone : Instr → Bool
  | .capenter .. => true
  | i => cModeOnly i

/-! ### Invariants and whole-machine properties -/

/-- A property of states that a step keeps: if `step` answers a next state from a state that has it, the next state has it. -/
def KeptByStep (Inv : State → Prop) : Prop := ∀ s t, Inv s → step s = .next t → Inv t

/-- The memory is in its canonical form (R82). -/
abbrev State.MemWf (s : State) : Prop := s.mem.wf

/-- `mstatus` holds a value the register can hold: fixed fields as they read, MPP a legal mode (R52). -/
abbrev State.StatusLegal (s : State) : Prop := mstatusLegal s.csr.mstatus = true

/-- The bits that do not exist read 0 (R41, R42, R53, R55, R337): in `mip`, `mie`, `cis`, `cid` all but the six interrupt bits; in `medeleg` bits 11 and 24 to 30; in `mepc` bits [1:0]; `mtvec` MODE is 0 or 1. -/
abbrev State.CsrsLegal (s : State) : Prop :=
  s.csr.mip &&& ~~~irqMask = 0 ∧ s.csr.mie &&& ~~~irqMask = 0 ∧ s.csr.cis &&& ~~~irqMask = 0 ∧
    s.csr.cid &&& ~~~irqMask = 0 ∧ legalMedeleg s.csr.medeleg = s.csr.medeleg ∧
    legalMepc s.csr.mepc = s.csr.mepc ∧ bitOf s.csr.mtvec 1 = false

/-- Before CAPENTER no register, CCSR or memory slot holds a valid capability, no memory slot holds any, and `pc` is an integer (R35, R141, R409). -/
def State.NoValidCapabilityYet (s : State) : Prop :=
  s.capstoneEn = false →
    s.mem.caps = [] ∧ s.pc.isInt = true ∧ ∀ c ∈ s.allCaps, c.valid = false

/-- A place that can hold a capability (R175, D32): a register, `pc`, a CCSR, a memory slot. -/
inductive Place where
  | reg (r : Reg)
  | pc
  | ctvec
  | cih
  | cepc
  | cscratch
  | cpmp (k : Fin 16)
  | slot (a : Word)
deriving DecidableEq, Repr

/-- The capability of a value, if it is one. -/
def Value.cap? : Value → Option Cap
  | .cap c => some c
  | .int _ => none

/-- The capability a place holds; a slot is named by its own address, a multiple of 16. -/
def State.capAt (s : State) : Place → Option Cap
  | .reg r => s.capOf? r
  | .pc => s.pc.cap?
  | .ctvec => s.ccsr.ctvec.cap?
  | .cih => s.ccsr.cih.cap?
  | .cepc => s.ccsr.cepc.cap?
  | .cscratch => s.ccsr.cscratch.cap?
  | .cpmp k => s.ccsr.cpmp[k].cap?
  | .slot a => if a.toNat % 16 = 0 then s.mem.slotCap a else none

/-- Two valid capabilities in different places, neither a revocation capability, whose regions meet are both non-linear (R107). -/
def State.LinearExclusive (s : State) : Prop :=
  ∀ p q c d, p ≠ q → s.capAt p = some c → s.capAt q = some d → c.valid = true → d.valid = true →
    c.type ≠ .revocation → d.type ≠ .revocation → Aliases c d → c.type = .nonLinear ∧ d.type = .nonLinear

/-- The authority of `c` lies within that of `d`: its region and its permissions (R26, R14). -/
def Cap.within (c d : Cap) : Prop :=
  d.base.toNat ≤ c.base.toNat ∧ c.last.toNat ≤ d.last.toNat ∧ permLe c.perms d.perms = true

end Sys2Proof.Machine
end

