-- ==== Sys2Proof/Certificates/Slice0/Obligations.lean ====
section
/-!
DEFINITION. The statements for the provers, each with the rule of spec/ it formalises.
-/

open Sys2Proof Sys2Proof.Machine

/-! ### Reset and the registers -/

/-- O1 (R400 to R408). What reset leaves, as far as the spec gives it: capability mode off, mode ID 3, an integer `pc` at the 4-byte aligned RESET_VECTOR, no VALID capability in any register or CCSR (an invalid one may be there, and the model's CCSRs hold `cnull`, log 3), `cih` vacant, `cis` 0, MIE and MPRV 0 and `misa` its constant (R406), no interrupt line set, `cid` and `offsetmmu` 0 (R405), `rev_clock` 0, every slot an integer slot and every byte defined. The reset address is the model's (log 1), and that no event comes before the first instruction is its schedule (log 16); `priv`, `cid`, `offsetmmu` and what `cscratch` and `cpmp` hold rest on the spec's decision D26, `rev_clock` on D11. -/
def Obligations.ResetLeavesNoValidCapability : Prop :=
  State.reset.capstoneEn = false ∧ State.reset.priv = .machine ∧
  State.reset.pc = .int Config.resetVector ∧ Config.resetVector.toNat % 4 = 0 ∧
  (∀ r, ∀ c, State.reset.capValue r = .cap c → c.valid = false) ∧
  (∀ v ∈ State.reset.ccsr.values, ∀ c, v = .cap c → c.valid = false) ∧
  State.reset.ccsr.cih.vacant = true ∧ State.reset.csr.cis = 0 ∧
  bitOf State.reset.csr.mstatus 3 = false ∧ bitOf State.reset.csr.mstatus 17 = false ∧
  readCsr State.reset .misa = 0x8000000000140100 ∧ State.reset.csr.mip = 0 ∧
  State.reset.csr.cid = 0 ∧ State.reset.csr.offsetmmu = 0 ∧ State.reset.revClock = 0 ∧
  (∀ a, State.reset.mem.slotCap a = none ∧ State.reset.mem.defined a = true)

/-- O2 (R12, R32). Register 0 reads as `Int(0)` and as `cnull` and discards writes; any other register holding `cnull` is no integer; a written register, and only it, reads as what was written; `ival` is the integer, the cursor, or for a sealed capability the base; a value is vacant in the sense of CihVacant (R39, the spec's decision D6) when it is an integer or an invalid capability. -/
def Obligations.RegisterReadsAndWrites : Prop :=
  (∀ (s : State) (v : Value), s.setReg 0 v = s ∧ s.capOf? 0 = some cnull ∧ s.intOf? 0 = some 0 ∧ s.ival 0 = 0) ∧
  (∀ (s : State) (r : Reg), r ≠ 0 → s.capValue r = .cap cnull → s.intOf? r = none ∧ s.capOf? r = some cnull) ∧
  (∀ (s : State) (r q : Reg) (v : Value), (s.setReg r v).capValue q = putReg s.capValue r v q ∧
    (s.setReg r v).intValue q = putReg s.intValue r v q) ∧
  (∀ (s : State) (r : Reg), r ≠ 0 → (∀ n, s.capValue r = .int n → s.ival r = n) ∧
    (∀ c, s.capValue r = .cap c → s.ival r = if c.type = .sealed then c.base else c.cursor)) ∧
  (∀ n, (Value.int n).vacant = true) ∧ (∀ c, (Value.cap c).vacant = true ↔ c.valid = false)

/-! ### Integer computation: the same in every mode -/

/-- O3 (R305 to R313). The register-immediate instructions: encoding, result in `x[rd]`, nothing else changed but `pc`, in every state. -/
def Obligations.RegisterImmediateArithmetic : Prop :=
  ∀ (s : State) (rd rs1 : Reg) (imm : BitVec 12) (sh : BitVec 6),
  let a := s.ival rs1
  Computes (.addi rd rs1 imm) s rd (BitVec.ofInt 64 (a.toInt + imm.toInt)) ∧
  Computes (.slti rd rs1 imm) s rd (if a.toInt < imm.toInt then 1 else 0) ∧
  Computes (.sltiu rd rs1 imm) s rd (if a.toNat < (BitVec.ofInt 64 imm.toInt).toNat then 1 else 0) ∧
  Computes (.xori rd rs1 imm) s rd (a ^^^ BitVec.ofInt 64 imm.toInt) ∧
  Computes (.ori rd rs1 imm) s rd (a ||| BitVec.ofInt 64 imm.toInt) ∧
  Computes (.andi rd rs1 imm) s rd (a &&& BitVec.ofInt 64 imm.toInt) ∧
  Computes (.slli rd rs1 sh) s rd (BitVec.ofNat 64 (a.toNat * 2 ^ sh.toNat)) ∧
  Computes (.srli rd rs1 sh) s rd (BitVec.ofNat 64 (a.toNat / 2 ^ sh.toNat)) ∧
  Computes (.srai rd rs1 sh) s rd (BitVec.ofInt 64 (a.toInt / 2 ^ sh.toNat)) ∧
  encode (.addi rd rs1 imm) = imm ++ rs1 ++ 0b000#3 ++ rd ++ 0b0010011#7 ∧
  encode (.slti rd rs1 imm) = imm ++ rs1 ++ 0b010#3 ++ rd ++ 0b0010011#7 ∧
  encode (.sltiu rd rs1 imm) = imm ++ rs1 ++ 0b011#3 ++ rd ++ 0b0010011#7 ∧
  encode (.xori rd rs1 imm) = imm ++ rs1 ++ 0b100#3 ++ rd ++ 0b0010011#7 ∧
  encode (.ori rd rs1 imm) = imm ++ rs1 ++ 0b110#3 ++ rd ++ 0b0010011#7 ∧
  encode (.andi rd rs1 imm) = imm ++ rs1 ++ 0b111#3 ++ rd ++ 0b0010011#7 ∧
  encode (.slli rd rs1 sh) = 0b000000#6 ++ sh ++ rs1 ++ 0b001#3 ++ rd ++ 0b0010011#7 ∧
  encode (.srli rd rs1 sh) = 0b000000#6 ++ sh ++ rs1 ++ 0b101#3 ++ rd ++ 0b0010011#7 ∧
  encode (.srai rd rs1 sh) = 0b010000#6 ++ sh ++ rs1 ++ 0b101#3 ++ rd ++ 0b0010011#7

/-- O4 (R314 to R323). The register-register instructions: encoding, result in `x[rd]`, nothing else changed but `pc`, in every state. -/
def Obligations.RegisterRegisterArithmetic : Prop :=
  ∀ (s : State) (rd rs1 rs2 : Reg),
  let a := s.ival rs1
  let b := s.ival rs2
  let sh := b.toNat % 64
  Computes (.add rd rs1 rs2) s rd (BitVec.ofNat 64 (a.toNat + b.toNat)) ∧
  Computes (.sub rd rs1 rs2) s rd (BitVec.ofInt 64 (a.toInt - b.toInt)) ∧
  Computes (.sll rd rs1 rs2) s rd (BitVec.ofNat 64 (a.toNat * 2 ^ sh)) ∧
  Computes (.slt rd rs1 rs2) s rd (if a.toInt < b.toInt then 1 else 0) ∧
  Computes (.sltu rd rs1 rs2) s rd (if a.toNat < b.toNat then 1 else 0) ∧
  Computes (.xor rd rs1 rs2) s rd (a ^^^ b) ∧
  Computes (.srl rd rs1 rs2) s rd (BitVec.ofNat 64 (a.toNat / 2 ^ sh)) ∧
  Computes (.sra rd rs1 rs2) s rd (BitVec.ofInt 64 (a.toInt / 2 ^ sh)) ∧
  Computes (.or rd rs1 rs2) s rd (a ||| b) ∧
  Computes (.and rd rs1 rs2) s rd (a &&& b) ∧
  encode (.add rd rs1 rs2) = 0b0000000#7 ++ rs2 ++ rs1 ++ 0b000#3 ++ rd ++ 0b0110011#7 ∧
  encode (.sub rd rs1 rs2) = 0b0100000#7 ++ rs2 ++ rs1 ++ 0b000#3 ++ rd ++ 0b0110011#7 ∧
  encode (.sll rd rs1 rs2) = 0b0000000#7 ++ rs2 ++ rs1 ++ 0b001#3 ++ rd ++ 0b0110011#7 ∧
  encode (.slt rd rs1 rs2) = 0b0000000#7 ++ rs2 ++ rs1 ++ 0b010#3 ++ rd ++ 0b0110011#7 ∧
  encode (.sltu rd rs1 rs2) = 0b0000000#7 ++ rs2 ++ rs1 ++ 0b011#3 ++ rd ++ 0b0110011#7 ∧
  encode (.xor rd rs1 rs2) = 0b0000000#7 ++ rs2 ++ rs1 ++ 0b100#3 ++ rd ++ 0b0110011#7 ∧
  encode (.srl rd rs1 rs2) = 0b0000000#7 ++ rs2 ++ rs1 ++ 0b101#3 ++ rd ++ 0b0110011#7 ∧
  encode (.sra rd rs1 rs2) = 0b0100000#7 ++ rs2 ++ rs1 ++ 0b101#3 ++ rd ++ 0b0110011#7 ∧
  encode (.or rd rs1 rs2) = 0b0000000#7 ++ rs2 ++ rs1 ++ 0b110#3 ++ rd ++ 0b0110011#7 ∧
  encode (.and rd rs1 rs2) = 0b0000000#7 ++ rs2 ++ rs1 ++ 0b111#3 ++ rd ++ 0b0110011#7

/-- O5 (R339 to R347). The 32-bit (W) instructions: encoding, the sign-extended 32-bit result in `x[rd]`, nothing else changed but `pc`, in every state. -/
def Obligations.WordArithmetic : Prop :=
  ∀ (s : State) (rd rs1 rs2 : Reg) (imm : BitVec 12) (sh : BitVec 5),
  let a := s.ival rs1
  let b := s.ival rs2
  let a32 : Int := a.toNat % 2 ^ 32
  let n := b.toNat % 32
  Computes (.addiw rd rs1 imm) s rd (signed32 (a.toInt + imm.toInt)) ∧
  Computes (.slliw rd rs1 sh) s rd (signed32 (a32 * 2 ^ sh.toNat)) ∧
  Computes (.srliw rd rs1 sh) s rd (signed32 (a32 / 2 ^ sh.toNat)) ∧
  Computes (.sraiw rd rs1 sh) s rd (BitVec.ofInt 64 ((signed32 a32).toInt / 2 ^ sh.toNat)) ∧
  Computes (.addw rd rs1 rs2) s rd (signed32 (a.toInt + b.toInt)) ∧
  Computes (.subw rd rs1 rs2) s rd (signed32 (a.toInt - b.toInt)) ∧
  Computes (.sllw rd rs1 rs2) s rd (signed32 (a32 * 2 ^ n)) ∧
  Computes (.srlw rd rs1 rs2) s rd (signed32 (a32 / 2 ^ n)) ∧
  Computes (.sraw rd rs1 rs2) s rd (BitVec.ofInt 64 ((signed32 a32).toInt / 2 ^ n)) ∧
  encode (.addiw rd rs1 imm) = imm ++ rs1 ++ 0b000#3 ++ rd ++ 0b0011011#7 ∧
  encode (.slliw rd rs1 sh) = 0b0000000#7 ++ sh ++ rs1 ++ 0b001#3 ++ rd ++ 0b0011011#7 ∧
  encode (.srliw rd rs1 sh) = 0b0000000#7 ++ sh ++ rs1 ++ 0b101#3 ++ rd ++ 0b0011011#7 ∧
  encode (.sraiw rd rs1 sh) = 0b0100000#7 ++ sh ++ rs1 ++ 0b101#3 ++ rd ++ 0b0011011#7 ∧
  encode (.addw rd rs1 rs2) = 0b0000000#7 ++ rs2 ++ rs1 ++ 0b000#3 ++ rd ++ 0b0111011#7 ∧
  encode (.subw rd rs1 rs2) = 0b0100000#7 ++ rs2 ++ rs1 ++ 0b000#3 ++ rd ++ 0b0111011#7 ∧
  encode (.sllw rd rs1 rs2) = 0b0000000#7 ++ rs2 ++ rs1 ++ 0b001#3 ++ rd ++ 0b0111011#7 ∧
  encode (.srlw rd rs1 rs2) = 0b0000000#7 ++ rs2 ++ rs1 ++ 0b101#3 ++ rd ++ 0b0111011#7 ∧
  encode (.sraw rd rs1 rs2) = 0b0100000#7 ++ rs2 ++ rs1 ++ 0b101#3 ++ rd ++ 0b0111011#7

/-- O6 (R283, R284). `lui` and `auipc`: encoding and result; `auipc` reads the address of this instruction, the integer `pc` or `pc.cursor`. `auipc` in C-mode rests on the spec's decision D49. -/
def Obligations.UpperImmediates : Prop :=
  ∀ (s : State) (rd : Reg) (imm : BitVec 20),
  Computes (.lui rd imm) s rd (BitVec.ofInt 64 (imm.toInt * 4096)) ∧
  (∀ a, s.pc = .int a → Computes (.auipc rd imm) s rd (BitVec.ofInt 64 (a.toInt + imm.toInt * 4096))) ∧
  (∀ c, s.pc = .cap c →
    Computes (.auipc rd imm) s rd (BitVec.ofInt 64 (c.cursor.toInt + imm.toInt * 4096))) ∧
  encode (.lui rd imm) = imm ++ rd ++ 0b0110111#7 ∧
  encode (.auipc rd imm) = imm ++ rd ++ 0b0010111#7

/-! ### Branches and jumps -/

/-- O7 (R254 to R262). The branches and jumps: encoding; and in C-mode each moves only the cursor of `pc`, checks nothing, and a jump links with the integer `pc.cursor + 4`. -/
def Obligations.BranchesAndJumpsInCMode : Prop :=
  (∀ (rd rs1 rs2 : Reg) (b : BitVec 13) (j : BitVec 21) (imm : BitVec 12),
    let branch (funct3 : BitVec 3) : BitVec 32 := b.extractLsb' 12 1 ++ b.extractLsb' 5 6 ++ rs2 ++ rs1 ++ funct3 ++
      b.extractLsb' 1 4 ++ b.extractLsb' 11 1 ++ 0b1100011#7
    encode (.beq rs1 rs2 b) = branch 0b000 ∧ encode (.bne rs1 rs2 b) = branch 0b001 ∧
    encode (.blt rs1 rs2 b) = branch 0b100 ∧ encode (.bge rs1 rs2 b) = branch 0b101 ∧
    encode (.bltu rs1 rs2 b) = branch 0b110 ∧ encode (.bgeu rs1 rs2 b) = branch 0b111 ∧
    encode (.jal rd j) = j.extractLsb' 20 1 ++ j.extractLsb' 1 10 ++ j.extractLsb' 11 1 ++ j.extractLsb' 12 8 ++ rd ++
      0b1101111#7 ∧
    encode (.jalr rd rs1 imm) = imm ++ rs1 ++ 0b000#3 ++ rd ++ 0b1100111#7) ∧
  ∀ (s : State) (c : Cap), s.inCMode = true → s.pc = .cap c →
  (∀ (rs1 rs2 : Reg) (imm : BitVec 13),
    let a := s.ival rs1
    let b := s.ival rs2
    let goes : Instr → Prop → Prop := fun i taken =>
      (taken → Reaches i s s.capValue (.cap { c with cursor := c.cursor + imm.signExtend 64 })) ∧
      (¬ taken → Reaches i s s.capValue (.cap { c with cursor := c.cursor + 4 }))
    goes (.beq rs1 rs2 imm) (a = b) ∧ goes (.bne rs1 rs2 imm) (a ≠ b) ∧
    goes (.blt rs1 rs2 imm) (a.toInt < b.toInt) ∧ goes (.bge rs1 rs2 imm) (¬ a.toInt < b.toInt) ∧
    goes (.bltu rs1 rs2 imm) (a.toNat < b.toNat) ∧ goes (.bgeu rs1 rs2 imm) (b.toNat ≤ a.toNat)) ∧
  (∀ (rd : Reg) (imm : BitVec 21),
    Reaches (.jal rd imm) s (putReg s.capValue rd (.int (c.cursor + 4)))
      (.cap { c with cursor := c.cursor + imm.signExtend 64 })) ∧
  (∀ (rd rs1 : Reg) (imm : BitVec 12),
    Reaches (.jalr rd rs1 imm) s (putReg s.capValue rd (.int (c.cursor + 4)))
      (.cap { c with cursor := (s.ival rs1 + imm.signExtend 64) &&& ~~~1 }))

/-- O8 (R285 to R292). Outside C-mode a jump or taken branch goes to its target when that is 4-byte aligned, and raises Instruction address misaligned with the target otherwise; a branch not taken just moves on. -/
def Obligations.BranchesAndJumpsOutsideCMode : Prop :=
  ∀ (s : State) (p : Word), s.inCMode = false → s.pc = .int p →
  (∀ (rs1 rs2 : Reg) (imm : BitVec 13),
    let a := s.ival rs1
    let b := s.ival rs2
    let target := p + imm.signExtend 64
    let goes : Instr → Prop → Prop := fun i taken =>
      (taken → target.toNat % 4 = 0 → Reaches i s s.capValue (.int target)) ∧
      (taken → target.toNat % 4 ≠ 0 → Raises i s .instrMisaligned target) ∧
      (¬ taken → Reaches i s s.capValue (.int (p + 4)))
    goes (.beq rs1 rs2 imm) (a = b) ∧ goes (.bne rs1 rs2 imm) (a ≠ b) ∧
    goes (.blt rs1 rs2 imm) (a.toInt < b.toInt) ∧ goes (.bge rs1 rs2 imm) (¬ a.toInt < b.toInt) ∧
    goes (.bltu rs1 rs2 imm) (a.toNat < b.toNat) ∧ goes (.bgeu rs1 rs2 imm) (b.toNat ≤ a.toNat)) ∧
  (∀ (rd : Reg) (imm : BitVec 21),
    let target := p + imm.signExtend 64
    (target.toNat % 4 = 0 → Reaches (.jal rd imm) s (putReg s.capValue rd (.int (p + 4))) (.int target)) ∧
    (target.toNat % 4 ≠ 0 → Raises (.jal rd imm) s .instrMisaligned target)) ∧
  (∀ (rd rs1 : Reg) (imm : BitVec 12),
    let target := (s.ival rs1 + imm.signExtend 64) &&& ~~~1
    (target.toNat % 4 = 0 → Reaches (.jalr rd rs1 imm) s (putReg s.capValue rd (.int (p + 4))) (.int target)) ∧
    (target.toNat % 4 ≠ 0 → Raises (.jalr rd rs1 imm) s .instrMisaligned target))

/-! ### Loads and stores -/

/-- O9 (R241 to R248). The seven loads in C-mode: they complete, with the bytes read extended into `x[rd]` and nothing else changed, where the capability grants the read, the address is aligned and is memory; otherwise the first of the listed exceptions is raised. Where a byte is undefined for an integer load the value is free. -/
def Obligations.LoadsInCMode : Prop :=
  ∀ (s : State) (rd rs1 : Reg) (imm : BitVec 12), CReady s → ∀ f ∈ loadForms rd rs1 imm,
  encode f.instr = imm ++ rs1 ++ f.funct3 ++ rd ++ 0b0000011#7 ∧
  (s.capOf? rs1 = none → Raises f.instr s .operandType) ∧
  (∀ c, s.capOf? rs1 = some c →
    let ea := c.cursor + imm.signExtend 64
    (GrantsRead s c ea f.size → ea.toNat % f.size = 0 → AllMem s ea f.size →
      ∃ v, LoadResult s ea f.size f.signed v ∧ Computes f.instr s rd v) ∧
    ReadChecks f.instr s c ea f.size (¬ AllMem s ea f.size → Raises f.instr s .loadAccess ea))

/-- O10 (R249 to R253). The four stores in C-mode: they complete, with the low bytes of `x[rs2]` at `EA`, the slot an integer slot and nothing else changed, where the capability grants the write, the address is aligned and is memory; otherwise the first of the listed exceptions is raised. -/
def Obligations.StoresInCMode : Prop :=
  ∀ (s : State) (rs1 rs2 : Reg) (imm : BitVec 12), CReady s → ∀ f ∈ storeForms rs1 rs2 imm,
  encode f.instr = imm.extractLsb' 5 7 ++ rs2 ++ rs1 ++ f.funct3 ++ imm.extractLsb' 0 5 ++ 0b0100011#7 ∧
  (s.capOf? rs1 = none → Raises f.instr s .operandType) ∧
  (∀ c, s.capOf? rs1 = some c →
    let ea := c.cursor + imm.signExtend 64
    (s.intOf? rs2 = none → Raises f.instr s .operandType) ∧
    (∀ v, s.intOf? rs2 = some v →
      (s.MemWf → GrantsWrite s c imm ea f.size → ea.toNat % f.size = 0 → AllMem s ea f.size →
        ∃ t, exec f.instr s = .next t ∧ StoredInt s t ea f.size v ∧ t.regs = s.regs ∧ t.pc = nextPc s ∧
          SameControl s t) ∧
      WriteChecks f.instr s c imm ea f.size (¬ AllMem s ea f.size → Raises f.instr s .storeAccess ea)))

/-- O11 (R293 to R304). The loads and stores outside C-mode, at the raw address `ival(x[rs1]) + imm`: M-mode with CAPSTONE_EN = 0, or below it with `satp` MODE Bare. First the misaligned exception, then the access fault. That a misaligned access traps, before the access fault, is the spec's decision D24. -/
def Obligations.LoadsAndStoresOutsideCMode : Prop :=
  ∀ (s : State) (rs1 : Reg) (imm : BitVec 12), s.capstoneEn = false →
  (s.priv = .machine ∨ s.csr.satp.extractLsb' 60 4 = 0) →
  let ea := s.ival rs1 + imm.signExtend 64
  (∀ (rd : Reg), ∀ f ∈ loadForms rd rs1 imm,
    (ea.toNat % f.size = 0 → AllMem s ea f.size →
      ∃ v, LoadResult s ea f.size f.signed v ∧ Computes f.instr s rd v) ∧
    (ea.toNat % f.size ≠ 0 → Raises f.instr s .loadMisaligned ea) ∧
    (ea.toNat % f.size = 0 → ¬ AllMem s ea f.size → Raises f.instr s .loadAccess ea)) ∧
  (∀ (rs2 : Reg), ∀ f ∈ storeForms rs1 rs2 imm,
    (s.MemWf → ea.toNat % f.size = 0 → AllMem s ea f.size →
      ∃ t, exec f.instr s = .next t ∧ StoredInt s t ea f.size (s.ival rs2) ∧ t.regs = s.regs ∧
        t.pc = nextPc s ∧ SameControl s t) ∧
    (ea.toNat % f.size ≠ 0 → Raises f.instr s .storeMisaligned ea) ∧
    (ea.toNat % f.size = 0 → ¬ AllMem s ea f.size → Raises f.instr s .storeAccess ea))

/-- O12 (R84, R85). The two reading primitives: an integer read of defined bytes is their little-endian value, of any others some value of that width; a slot read is the capability of a capability slot, else the integer in its first 8 bytes. A slot is the 16 bytes from a multiple of 16, and every address in it names it. What an undefined load may return is the spec's decision D29 (log 11). -/
def Obligations.MemoryReadPrimitives : Prop :=
  ∀ (s : State) (d : Nat) (a : Word),
  (∀ n, n = 1 ∨ n = 2 ∨ n = 4 ∨ n = 8 →
    (s.mem.readInt d a n).toNat < 2 ^ (8 * n) ∧ (AllDefined s a n → BytesAre s a n (s.mem.readInt d a n))) ∧
  (∀ c, s.mem.slotCap a = some c → s.mem.readSlot d a = .cap c) ∧
  (s.mem.slotCap a = none → s.mem.readSlot d a = .int (s.mem.readInt d a 8)) ∧
  (slotOf a).toNat = a.toNat / 16 * 16 ∧ s.mem.slotCap a = s.mem.slotCap (slotOf a)

/-! ### Capability manipulation -/

/-- O13 (R161). MOVC always completes in C-mode, on every implementation, and raises nothing there: the value is copied, and a capability whose type is not 1 leaves `cnull` behind; `MOVC r, r` changes nothing. The integer source rests on the spec's decision D4. -/
def Obligations.MovcMovesOneCapability : Prop :=
  ∀ (s : State) (rd rs1 rs2 : Reg), s.inCMode = true →
  encode (.movc rd rs1 rs2) = 0b0001010#7 ++ rs2 ++ rs1 ++ 0b001#3 ++ rd ++ 0b1011011#7 ∧
  (rs1 = rd → Completes (.movc rd rs1 rs2) s s.capValue) ∧
  (∀ n, rs1 ≠ rd → s.capValue rs1 = .int n →
    Completes (.movc rd rs1 rs2) s (putReg s.capValue rd (.int n))) ∧
  (∀ c, rs1 ≠ rd → s.capValue rs1 = .cap c →
    Completes (.movc rd rs1 rs2) s (moveReg s.capValue rd rs1 c (.cap c)))

/-- O14 (R162, R163, R164). CINCOFFSET, CINCOFFSETIMM and SCC move the capability to `x[rd]` with its new cursor; wrong operand kinds raise 24, an uninitialised or sealed capability 26. -/
def Obligations.CursorInstructions : Prop :=
  ∀ (s : State) (rd rs1 rs2 : Reg) (imm : BitVec 12), CReady s →
  encode (.cincoffset rd rs1 rs2) = 0b0001100#7 ++ rs2 ++ rs1 ++ 0b001#3 ++ rd ++ 0b1011011#7 ∧
  encode (.cincoffsetimm rd rs1 imm) = imm ++ rs1 ++ 0b010#3 ++ rd ++ 0b1011011#7 ∧
  encode (.scc rd rs1 rs2) = 0b0000101#7 ++ rs2 ++ rs1 ++ 0b001#3 ++ rd ++ 0b1011011#7 ∧
  (s.capOf? rs1 = none → Raises (.cincoffset rd rs1 rs2) s .operandType ∧
    Raises (.cincoffsetimm rd rs1 imm) s .operandType ∧ Raises (.scc rd rs1 rs2) s .operandType) ∧
  (∀ c, s.capOf? rs1 = some c →
    (s.intOf? rs2 = none → Raises (.cincoffset rd rs1 rs2) s .operandType ∧
      Raises (.scc rd rs1 rs2) s .operandType) ∧
    (c.type ≠ .uninitialised → c.type ≠ .sealed →
      Completes (.cincoffsetimm rd rs1 imm) s
        (moveReg s.capValue rd rs1 c (.cap { c with cursor := c.cursor + imm.signExtend 64 })) ∧
      ∀ n, s.intOf? rs2 = some n →
        Completes (.cincoffset rd rs1 rs2) s
          (moveReg s.capValue rd rs1 c (.cap { c with cursor := c.cursor + n })) ∧
        Completes (.scc rd rs1 rs2) s (moveReg s.capValue rd rs1 c (.cap { c with cursor := n }))) ∧
    (c.type = .uninitialised ∨ c.type = .sealed →
      Raises (.cincoffsetimm rd rs1 imm) s .capType ∧
      ∀ n, s.intOf? rs2 = some n → Raises (.cincoffset rd rs1 rs2) s .capType ∧
        Raises (.scc rd rs1 rs2) s .capType))

/-- O15 (R165). LCC reads the selected field into `x[rd]`, 0 for a selector above 7; a field that the type does not have raises 26. -/
def Obligations.LccReadsOneField : Prop :=
  ∀ (s : State) (rd rs1 : Reg) (imm : BitVec 5), CReady s →
  encode (.lcc rd rs1 imm) = 0b0000100#7 ++ imm ++ rs1 ++ 0b001#3 ++ rd ++ 0b1011011#7 ∧
  (s.capOf? rs1 = none → Raises (.lcc rd rs1 imm) s .operandType) ∧
  (∀ c, s.capOf? rs1 = some c →
    let sealedAny := c.type = .sealed ∨ c.type = .sealedReturn
    (imm = 0 → Computes (.lcc rd rs1 imm) s rd (if c.valid then 1 else 0)) ∧
    (imm = 1 → (c.type = .linear → Computes (.lcc rd rs1 imm) s rd 0) ∧
      (c.type = .nonLinear → Computes (.lcc rd rs1 imm) s rd 1) ∧
      (c.type = .revocation → Computes (.lcc rd rs1 imm) s rd 2) ∧
      (c.type = .uninitialised → Computes (.lcc rd rs1 imm) s rd 3) ∧
      (c.type = .sealed → Computes (.lcc rd rs1 imm) s rd 4) ∧
      (c.type = .sealedReturn → Computes (.lcc rd rs1 imm) s rd 5)) ∧
    (imm = 2 → (c.type ≠ .sealed → Computes (.lcc rd rs1 imm) s rd c.cursor) ∧
      (c.type = .sealed → Raises (.lcc rd rs1 imm) s .capType)) ∧
    (imm = 3 → Computes (.lcc rd rs1 imm) s rd c.base) ∧
    (imm = 4 → (¬ sealedAny → Computes (.lcc rd rs1 imm) s rd c.last) ∧
      (sealedAny → Raises (.lcc rd rs1 imm) s .capType)) ∧
    (imm = 5 → (¬ sealedAny → Computes (.lcc rd rs1 imm) s rd (BitVec.ofNat 64 c.perms.toNat)) ∧
      (sealedAny → Raises (.lcc rd rs1 imm) s .capType)) ∧
    (imm = 6 → (sealedAny → Computes (.lcc rd rs1 imm) s rd (if c.async then 1 else 0)) ∧
      (¬ sealedAny → Raises (.lcc rd rs1 imm) s .capType)) ∧
    (imm = 7 → (c.type = .sealedReturn → Computes (.lcc rd rs1 imm) s rd (BitVec.ofNat 64 c.reg.toNat)) ∧
      (c.type ≠ .sealedReturn → Raises (.lcc rd rs1 imm) s .capType)) ∧
    (7 < imm.toNat → Computes (.lcc rd rs1 imm) s rd 0))

/-- O16 (R166). SHRINK sets the bounds in place and brings the cursor inside them. -/
def Obligations.ShrinkSetsBounds : Prop :=
  ∀ (s : State) (rd rs1 rs2 : Reg), CReady s →
  encode (.shrink rd rs1 rs2) = 0b0000001#7 ++ rs2 ++ rs1 ++ 0b001#3 ++ rd ++ 0b1011011#7 ∧
  (s.capOf? rd = none ∨ s.intOf? rs1 = none ∨ s.intOf? rs2 = none →
    Raises (.shrink rd rs1 rs2) s .operandType) ∧
  (∀ c lo hi, s.capOf? rd = some c → s.intOf? rs1 = some lo → s.intOf? rs2 = some hi →
    let bounded := c.Plain ∨ c.type = .uninitialised
    let inside := lo.toNat < hi.toNat ∧ c.base.toNat ≤ lo.toNat ∧ hi.toNat ≤ c.last.toNat
    let cursor := if c.cursor.toNat < lo.toNat then lo else if hi.toNat < c.cursor.toNat then hi else c.cursor
    (bounded → inside → Completes (.shrink rd rs1 rs2) s
      (putReg s.capValue rd (.cap { c with base := lo, last := hi, cursor := cursor }))) ∧
    (¬ bounded → Raises (.shrink rd rs1 rs2) s .capType) ∧
    (bounded → ¬ inside → Raises (.shrink rd rs1 rs2) s .illegalValue))

/-- O17 (R167). SHRINKTO moves the capability to `x[rd]`, shrunk to `imm` bytes from its cursor. The refusal of `imm = 0` at cursor 0 is the spec's decision D12. -/
def Obligations.ShrinktoSetsBounds : Prop :=
  ∀ (s : State) (rd rs1 : Reg) (imm : BitVec 12), CReady s →
  encode (.shrinkto rd rs1 imm) = imm ++ rs1 ++ 0b000#3 ++ rd ++ 0b1011011#7 ∧
  (s.capOf? rs1 = none → Raises (.shrinkto rd rs1 imm) s .operandType) ∧
  (∀ c, s.capOf? rs1 = some c →
    let bounded := c.Plain ∨ c.type = .uninitialised
    let fits := c.base.toNat ≤ c.cursor.toNat ∧ c.cursor.toNat + imm.toNat ≤ c.last.toNat ∧
      ¬ (imm = 0 ∧ c.cursor = 0)
    (bounded → fits → Completes (.shrinkto rd rs1 imm) s (moveReg s.capValue rd rs1 c
      (.cap { c with base := c.cursor, last := BitVec.ofInt 64 (c.cursor.toNat + imm.toNat - 1) }))) ∧
    (¬ bounded → Raises (.shrinkto rd rs1 imm) s .capType) ∧
    (bounded → ¬ fits → Raises (.shrinkto rd rs1 imm) s .illegalValue))

/-- O18 (R168). SPLIT leaves the lower part in `x[rs1]` and gives the upper part to `x[rd]`; with `rs1 = rd` it changes nothing. The order of its list, 24 before 25 with `rs1 = 0` and a capability in `x[rs2]`, is log 36 (DESIGN CHOICE). -/
def Obligations.SplitCutsInTwo : Prop :=
  ∀ (s : State) (rd rs1 rs2 : Reg), CReady s →
  encode (.split rd rs1 rs2) = 0b0000110#7 ++ rs2 ++ rs1 ++ 0b001#3 ++ rd ++ 0b1011011#7 ∧
  (s.capOf? rs1 = none ∨ s.intOf? rs2 = none → Raises (.split rd rs1 rs2) s .operandType) ∧
  (∀ c n, s.capOf? rs1 = some c → s.intOf? rs2 = some n →
    let inside := c.base.toNat ≤ n.toNat ∧ n.toNat < c.last.toNat
    (c.valid = true → c.Plain → inside → rs1 ≠ rd → Completes (.split rd rs1 rs2) s
      (putReg (putReg s.capValue rd (.cap { c with base := n + 1, cursor := n + 1 })) rs1
        (.cap { c with last := n, cursor := c.base }))) ∧
    (c.valid = true → c.Plain → inside → rs1 = rd → Completes (.split rd rs1 rs2) s s.capValue) ∧
    (c.valid = false → Raises (.split rd rs1 rs2) s .invalidCap) ∧
    (c.valid = true → ¬ c.Plain → Raises (.split rd rs1 rs2) s .capType) ∧
    (c.valid = true → c.Plain → ¬ inside → Raises (.split rd rs1 rs2) s .illegalValue))

/-- O19 (R169). TIGHTEN moves the capability to `x[rd]` with fewer permissions; a value above 7 clears them all, and permissions the capability lacks raise 29. -/
def Obligations.TightenOnlyRemovesPermissions : Prop :=
  ∀ (s : State) (rd rs1 : Reg) (imm : BitVec 5), CReady s →
  encode (.tighten rd rs1 imm) = 0b0000010#7 ++ imm ++ rs1 ++ 0b001#3 ++ rd ++ 0b1011011#7 ∧
  (s.capOf? rs1 = none → Raises (.tighten rd rs1 imm) s .operandType) ∧
  (∀ c, s.capOf? rs1 = some c →
    let bounded := c.Plain ∨ c.type = .uninitialised
    let subset := imm.toNat &&& c.perms.toNat = imm.toNat
    (bounded → 7 < imm.toNat →
      Completes (.tighten rd rs1 imm) s (moveReg s.capValue rd rs1 c (.cap { c with perms := 0 }))) ∧
    (bounded → imm.toNat ≤ 7 → subset → Completes (.tighten rd rs1 imm) s
      (moveReg s.capValue rd rs1 c (.cap { c with perms := BitVec.ofNat 3 imm.toNat }))) ∧
    (¬ bounded → Raises (.tighten rd rs1 imm) s .capType) ∧
    (bounded → imm.toNat ≤ 7 → ¬ subset → Raises (.tighten rd rs1 imm) s .illegalValue))

/-- O20 (R170, R173). DELIN turns the linear capability of `x[rd]` non-linear in place; DROP clears `valid` of the capability of `x[rs1]` in place. For register 0 both complete and write nothing. -/
def Obligations.DelinAndDropInPlace : Prop :=
  ∀ (s : State) (rd rs1 rs2 : Reg), CReady s →
  encode (.delin rd rs1 rs2) = 0b0000011#7 ++ rs2 ++ rs1 ++ 0b001#3 ++ rd ++ 0b1011011#7 ∧
  encode (.drop rd rs1 rs2) = 0b0001011#7 ++ rs2 ++ rs1 ++ 0b001#3 ++ rd ++ 0b1011011#7 ∧
  (s.capOf? rd = none → Raises (.delin rd rs1 rs2) s .operandType) ∧
  (∀ c, s.capOf? rd = some c →
    (c.type = .linear → Completes (.delin rd rs1 rs2) s
      (putReg s.capValue rd (.cap { c with type := .nonLinear }))) ∧
    (c.type ≠ .linear → Raises (.delin rd rs1 rs2) s .capType)) ∧
  (s.capOf? rs1 = none → Raises (.drop rd rs1 rs2) s .operandType) ∧
  (∀ c, s.capOf? rs1 = some c → Completes (.drop rd rs1 rs2) s
    (putReg s.capValue rs1 (.cap { c with valid := false })))

/-- O21 (R171). INIT moves an uninitialised capability whose cursor has passed its end to `x[rd]` as a linear one. -/
def Obligations.InitMakesLinear : Prop :=
  ∀ (s : State) (rd rs1 rs2 : Reg), CReady s →
  encode (.init rd rs1 rs2) = 0b0001001#7 ++ rs2 ++ rs1 ++ 0b001#3 ++ rd ++ 0b1011011#7 ∧
  (s.capOf? rs1 = none ∨ s.intOf? rs2 = none → Raises (.init rd rs1 rs2) s .operandType) ∧
  (∀ c n, s.capOf? rs1 = some c → s.intOf? rs2 = some n →
    (c.type = .uninitialised → c.last.toNat < c.cursor.toNat → Completes (.init rd rs1 rs2) s
      (moveReg s.capValue rd rs1 c (.cap { c with type := .linear, cursor := c.base + n }))) ∧
    (c.type ≠ .uninitialised → Raises (.init rd rs1 rs2) s .capType) ∧
    (c.type = .uninitialised → c.cursor.toNat ≤ c.last.toNat → Raises (.init rd rs1 rs2) s .illegalValue))

/-- O22 (R172). SEAL moves a linear read-write capability over at least 1024 bytes, 16-byte aligned, whose slot at `base + 16` holds a capability, to `x[rd]` as a sealed one. -/
def Obligations.SealMakesSealed : Prop :=
  ∀ (s : State) (rd rs1 rs2 : Reg), CReady s →
  encode (.seal rd rs1 rs2) = 0b0000111#7 ++ rs2 ++ rs1 ++ 0b001#3 ++ rd ++ 0b1011011#7 ∧
  (s.capOf? rs1 = none → Raises (.seal rd rs1 rs2) s .operandType) ∧
  (∀ c, s.capOf? rs1 = some c →
    let region := (1024 : Int) ≤ (c.last.toNat : Int) - c.base.toNat + 1 ∧ c.base.toNat % 16 = 0 ∧
      AllMem s (c.base + 16) 16 ∧ s.mem.slotCap (c.base + 16) ≠ none
    (c.type = .linear → permLe 6 c.perms = true → region → Completes (.seal rd rs1 rs2) s
      (moveReg s.capValue rd rs1 c (.cap { c with type := .sealed, async := false }))) ∧
    (c.type ≠ .linear → Raises (.seal rd rs1 rs2) s .capType) ∧
    (c.type = .linear → permLe 6 c.perms = false → Raises (.seal rd rs1 rs2) s .capPerms) ∧
    (c.type = .linear → permLe 6 c.perms = true → ¬ region → Raises (.seal rd rs1 rs2) s .illegalValue))

/-- O23 (R174). MREV puts a new revocation capability, stamped with `rev_clock`, into `x[rd]` and advances `rev_clock`; the linear capability stays, unless `rd = rs1`. -/
def Obligations.MrevStampsRevocation : Prop :=
  ∀ (s : State) (rd rs1 rs2 : Reg), CReady s →
  encode (.mrev rd rs1 rs2) = 0b0001000#7 ++ rs2 ++ rs1 ++ 0b001#3 ++ rd ++ 0b1011011#7 ∧
  (s.capOf? rs1 = none → Raises (.mrev rd rs1 rs2) s .operandType) ∧
  (∀ c, s.capOf? rs1 = some c →
    (c.valid = true → c.type = .linear → ∃ t, exec (.mrev rd rs1 rs2) s = .next t ∧
      (∀ r, t.capValue r =
        putReg s.capValue rd (.cap { c with type := .revocation, born := s.revClock }) r) ∧
      t.pc = nextPc s ∧ t.revClock = s.revClock + 1 ∧ SameControl s { t with revClock := s.revClock } ∧
      SameMemory s t) ∧
    (c.valid = false → Raises (.mrev rd rs1 rs2) s .invalidCap) ∧
    (c.valid = true → c.type ≠ .linear → Raises (.mrev rd rs1 rs2) s .capType))

/-- O24 (R175). REVOKE clears `valid` of every capability of its set, wherever it is held (registers, `pc`, CCSRs, memory slots), touches nothing else, and turns `x[rs1]` linear or uninitialised. What counts as the system is the spec's decision D32. -/
def Obligations.RevokeTakesBackEveryHolder : Prop :=
  ∀ (s : State) (rd rs1 rs2 : Reg), CReady s →
  encode (.revoke rd rs1 rs2) = 0b0000000#7 ++ rs2 ++ rs1 ++ 0b001#3 ++ rd ++ 0b1011011#7 ∧
  (s.capOf? rs1 = none → Raises (.revoke rd rs1 rs2) s .operandType) ∧
  (∀ r, s.capOf? rs1 = some r →
    (r.valid = false → Raises (.revoke rd rs1 rs2) s .invalidCap) ∧
    (r.valid = true → r.type ≠ .revocation → Raises (.revoke rd rs1 rs2) s .capType) ∧
    (r.valid = true → r.type = .revocation → ∃ t, exec (.revoke rd rs1 rs2) s = .next t ∧
      (∀ q, q ≠ rs1 → RevokedTo r (s.capValue q) (t.capValue q)) ∧
      RevokedTo r (nextPc s) t.pc ∧
      RevokedTo r s.ccsr.ctvec t.ccsr.ctvec ∧ RevokedTo r s.ccsr.cih t.ccsr.cih ∧
      RevokedTo r s.ccsr.cepc t.ccsr.cepc ∧ RevokedTo r s.ccsr.cscratch t.ccsr.cscratch ∧
      (∀ k : Fin 16, RevokedTo r s.ccsr.cpmp[k] t.ccsr.cpmp[k]) ∧
      (∀ a, (∀ c, s.mem.slotCap a = some c →
          ∃ c', t.mem.slotCap a = some c' ∧ RevokedTo r (.cap c) (.cap c')) ∧
        (s.mem.slotCap a = none → t.mem.slotCap a = none) ∧
        t.mem.byte a = s.mem.byte a ∧ t.mem.mark a = s.mem.mark a) ∧
      ((∀ c ∈ s.allCaps, TakenBack r c → c.type = .nonLinear) ∨ permLe 2 r.perms = false →
        t.capValue rs1 = .cap { r with type := .linear }) ∧
      ((∃ c ∈ s.allCaps, TakenBack r c ∧ c.type ≠ .nonLinear) → permLe 2 r.perms = true →
        t.capValue rs1 = .cap { r with type := .uninitialised, cursor := r.base }) ∧
      SameControl s { t with ccsr := s.ccsr }))

/-! ### Capability loads and stores -/

/-- O25 (R200). LDC loads the slot at `EA`, capability or integer, into `x[rd]`; a capability whose type is not 1 leaves `cnull` in the slot, for which a plain address capability needs write permission; otherwise the first of the listed exceptions is raised. How many bytes must be memory (8 for an integer slot, 16 for a capability slot) is read from R85 (log 28). -/
def Obligations.LdcMovesOutOfMemory : Prop :=
  ∀ (s : State) (rd rs1 : Reg) (imm : BitVec 12), CReady s →
  let i := Instr.ldc rd rs1 imm
  encode i = imm ++ rs1 ++ 0b011#3 ++ rd ++ 0b1011011#7 ∧
  (s.capOf? rs1 = none → Raises i s .operandType) ∧
  (∀ c, s.capOf? rs1 = some c →
    let ea := c.cursor + imm.signExtend 64
    (GrantsRead s c ea 16 → ea.toNat % 16 = 0 →
      (s.mem.slotCap ea = none → AllMem s ea 8 →
        ∃ v, (AllDefined s ea 8 → BytesAre s ea 8 v) ∧ Computes i s rd v) ∧
      (∀ d, s.mem.slotCap ea = some d → AllMem s ea 16 →
        (d.type = .nonLinear → Completes i s (putReg s.capValue rd (.cap d))) ∧
        (d.type ≠ .nonLinear → (c.Plain → permLe 2 c.perms = true) → s.MemWf →
          ∃ t, exec i s = .next t ∧ (∀ r, t.capValue r = putReg s.capValue rd (.cap d) r) ∧
            t.pc = nextPc s ∧ SameControl s t ∧ StoredCap s t ea cnull))) ∧
    ReadChecks i s c ea 16
      ((s.mem.slotCap ea = none → ¬ AllMem s ea 8 → Raises i s .loadAccess ea) ∧
      (∀ d, s.mem.slotCap ea = some d →
        (d.type ≠ .nonLinear → c.Plain → permLe 2 c.perms = false → Raises i s .capPerms) ∧
        ((d.type ≠ .nonLinear → c.Plain → permLe 2 c.perms = true) → ¬ AllMem s ea 16 →
          Raises i s .loadAccess ea))))

/-- O26 (R201). STC stores `x[rs2]`, capability or integer (`cnull` for register 0), into the slot at `EA`; a capability whose type is not 1 leaves its register; an uninitialised address capability moves 16 bytes on; otherwise the first of the listed exceptions is raised. `rs2 = 0` rests on the spec's decision D48, the 8 bytes of an integer on D41, how many bytes must be memory on log 28. -/
def Obligations.StcMovesIntoMemory : Prop :=
  ∀ (s : State) (rs1 rs2 : Reg) (imm : BitVec 12), CReady s →
  let i := Instr.stc rs1 rs2 imm
  encode i = imm.extractLsb' 5 7 ++ rs2 ++ rs1 ++ 0b100#3 ++ imm.extractLsb' 0 5 ++ 0b1011011#7 ∧
  (s.capOf? rs1 = none → Raises i s .operandType) ∧
  (∀ c, s.capOf? rs1 = some c →
    let ea := c.cursor + imm.signExtend 64
    let v := s.capValue rs2
    let regs := if c.type = .uninitialised then
        putReg s.capValue rs1 (.cap { c with cursor := c.cursor + 16 }) else s.capValue
    (s.MemWf → GrantsWrite s c imm ea 16 → ea.toNat % 16 = 0 → AllMem s ea v.slotBytes →
      ∃ t, exec i s = .next t ∧ StoredSlot s t ea v ∧
        (v.movesOut = true → ∀ r, t.capValue r = putReg regs rs2 (.cap cnull) r) ∧
        (v.movesOut = false → ∀ r, t.capValue r = regs r) ∧
        t.pc = nextPc s ∧ SameControl s t) ∧
    WriteChecks i s c imm ea 16 (¬ AllMem s ea v.slotBytes → Raises i s .storeAccess ea))

/-! ### Jumps to capabilities and domain crossing -/

/-- O27 (R211, R212). CJALR jumps to the capability of `x[rs1]` and links with the old `pc`; CBNZ jumps to the capability of `x[rd]` if `x[rs1]` is not 0. A target whose type is not 1 leaves its register. Outside C-mode CBNZ is an illegal instruction. -/
def Obligations.JumpsToCapabilities : Prop :=
  (∀ (s : State) (rd rs1 : Reg) (imm : BitVec 12), s.inCMode = false → Raises (.cbnz rd rs1 imm) s .illegal) ∧
  ∀ (s : State) (rd rs1 : Reg) (imm : BitVec 12), CReady s →
  encode (.cjalr rd rs1 imm) = imm ++ rs1 ++ 0b101#3 ++ rd ++ 0b1011011#7 ∧
  encode (.cbnz rd rs1 imm) = imm ++ rs1 ++ 0b110#3 ++ rd ++ 0b1011011#7 ∧
  (s.capOf? rs1 = none → Raises (.cjalr rd rs1 imm) s .operandType) ∧
  (∀ c, s.capOf? rs1 = some c →
    Reaches (.cjalr rd rs1 imm) s (moveReg s.capValue rd rs1 c (nextPc s))
      (.cap { c with cursor := c.cursor + imm.signExtend 64 })) ∧
  (s.capOf? rd = none ∨ s.intOf? rs1 = none → Raises (.cbnz rd rs1 imm) s .operandType) ∧
  (∀ c n, s.capOf? rd = some c → s.intOf? rs1 = some n →
    (n = 0 → Completes (.cbnz rd rs1 imm) s s.capValue) ∧
    (n ≠ 0 → c.type = .nonLinear → Reaches (.cbnz rd rs1 imm) s s.capValue
      (.cap { c with cursor := c.cursor + imm.signExtend 64 })) ∧
    (n ≠ 0 → c.type ≠ .nonLinear → Reaches (.cbnz rd rs1 imm) s (putReg s.capValue rd (.cap cnull))
      (.cap { c with cursor := c.cursor + imm.signExtend 64 })))

/-- O28 (R214). CALL: `cra` receives the sealed capability as sealed-return, the caller's C-effective registers (with `pc` after the CALL) and the region's trade places, and nothing else changes; the region must be memory. The saved `mstatus` image, with the privilege level in bits [39:38], and the `mstatus` and `medeleg` that are loaded are given bit by bit (R51, R376). The saved `pc` is the spec's decision D5, `reg` D44, the filtered load D19, the unchecked accesses and the stuck state D42; a misaligned base is left to O44 (log 20). -/
def Obligations.CallSwapsDomains : Prop :=
  ∀ (s : State) (rd rs1 rs2 : Reg), CReady s →
  let i := Instr.call rd rs1 rs2
  let d := if rs1 = 0 then s.ccsr.cih else s.capValue rs1
  encode i = 0b0100000#7 ++ rs2 ++ rs1 ++ 0b001#3 ++ rd ++ 0b1011011#7 ∧
  (∀ n, d = .int n → Raises i s .operandType) ∧
  (∀ c, d = .cap c →
    (c.valid = false → Raises i s .invalidCap) ∧
    (c.valid = true → c.type ≠ .sealed ∨ c.async = true → Raises i s .capType) ∧
    (c.valid = true → c.type = .sealed → c.async = false → c.base.toNat % 16 = 0 →
      (¬ AllMem s c.base 88 → exec i s = .fault .contextNotMemory) ∧
      (AllMem s c.base 88 → s.MemWf →
        ∃ t, exec i s = .next t ∧ CEffLoaded s t c.base ∧
          t.csr.mip = s.mem.readInt s.draws (ctxAt c.base 72) 8 &&& 0xaaa ∧ t.priv = .machine ∧
          CEffSaved s t c.base (nextPc s) ∧ SameOutside s t c.base 88 ∧
          (∀ r, t.capValue r = putReg (putReg s.capValue rs1 (.cap cnull)) 1
            (.cap { c with type := .sealedReturn, cursor := c.base, reg := rd, async := false }) r) ∧
          t.ccsr.cih = (if rs1 = 0 then .cap cnull else s.ccsr.cih) ∧
          t.ccsr.cepc = s.ccsr.cepc ∧ t.ccsr.cpmp = s.ccsr.cpmp ∧
          t.csr.domainOnly = s.csr.domainOnly ∧ t.csr.hartOnly = s.csr.hartOnly ∧
          t.capstoneEn = s.capstoneEn ∧ t.revClock = s.revClock ∧ t.inputs = s.inputs ∧ t.plat = s.plat)))

/-- O29 (R215, R216). RETURN's checks, and its synchronous case: the returning domain's C-effective registers, with `pc.cursor` set to `x[rs1]`, and the region's trade places; the capability goes back sealed to the register the CALL named, or to `cih`. The saved and loaded `mstatus` are given bit by bit (R51, R376). `CihVacant` is the spec's decision D6, the filtered load D19, the stuck state D42; 24 before 25 with `rd = 0` and a capability in `x[rs1]` is log 36 (DESIGN CHOICE); a misaligned base is left to O44 (log 20). -/
def Obligations.ReturnSwapsBack : Prop :=
  ∀ (s : State) (rd rs1 rs2 : Reg), CReady s →
  let i := Instr.ret rd rs1 rs2
  encode i = 0b0100001#7 ++ rs2 ++ rs1 ++ 0b001#3 ++ rd ++ 0b1011011#7 ∧
  (s.capOf? rd = none ∨ s.intOf? rs1 = none → Raises i s .operandType) ∧
  (∀ c entry, s.capOf? rd = some c → s.intOf? rs1 = some entry →
    (c.valid = false → Raises i s .invalidCap) ∧
    (c.valid = true → (c.type ≠ .sealed ∧ c.type ≠ .sealedReturn) ∨
      (c.type = .sealed ∧ s.ccsr.cih.vacant = false) → Raises i s .capType) ∧
    (c.valid = true → c.type = .sealedReturn ∨ (c.type = .sealed ∧ s.ccsr.cih.vacant = true) →
      c.async = false → c.base.toNat % 16 = 0 →
      (¬ AllMem s c.base 88 → exec i s = .fault .contextNotMemory) ∧
      (AllMem s c.base 88 → s.MemWf →
        ∃ t, exec i s = .next t ∧ CEffLoaded s t c.base ∧
          t.csr.mip = s.mem.readInt s.draws (ctxAt c.base 72) 8 &&& 0xaaa ∧ t.priv = .machine ∧
          CEffSaved s t c.base (s.pc.withCursor entry) ∧ SameOutside s t c.base 88 ∧
          (c.type = .sealedReturn → c.reg ≠ 0 →
            (∀ r, t.capValue r = putReg (putReg s.capValue rd (.cap cnull)) c.reg
              (.cap { c with type := .sealed }) r) ∧ t.ccsr.cih = s.ccsr.cih) ∧
          (c.type = .sealed ∨ c.reg = 0 →
            (∀ r, t.capValue r = putReg s.capValue rd (.cap cnull) r) ∧
            t.ccsr.cih = .cap { c with type := .sealed }) ∧
          t.ccsr.cepc = s.ccsr.cepc ∧ t.ccsr.cpmp = s.ccsr.cpmp ∧
          t.csr.domainOnly = s.csr.domainOnly ∧ t.csr.hartOnly = s.csr.hartOnly ∧
          t.capstoneEn = s.capstoneEn ∧ t.revClock = s.revClock ∧ t.inputs = s.inputs ∧ t.plat = s.plat)))

/-- O30 (R217, R378). RETURN's asynchronous case: the handler's C-effective registers are saved, the suspended domain's whole context is loaded, `posted_ints` is or-ed into its `mip`, the capability goes to `cih` sealed, and each slot whose capability was moved out holds `cnull`; every other byte past the 88 saved ones is as before. The saved and loaded `mstatus` are given bit by bit, and bits [39:38] of the image are the privilege level resumed (R51, R376). Moving out of the region is the spec's decision D20, the saved privilege level and the filtered load D19, `posted_ints` D31 and D36. -/
def Obligations.AsynchronousReturnResumes : Prop :=
  ∀ (s : State) (rd rs1 rs2 : Reg) (c : Cap) (entry : Word), CReady s →
  let i := Instr.ret rd rs1 rs2
  let B := c.base
  let image := s.mem.readInt s.draws (ctxAt B 48) 8
  s.capOf? rd = some c → s.intOf? rs1 = some entry → c.valid = true →
  c.type = .sealedReturn ∨ (c.type = .sealed ∧ s.ccsr.cih.vacant = true) → c.async = true →
  B.toNat % 16 = 0 →
  (¬ AllMem s B 944 → exec i s = .fault .contextNotMemory) ∧
  (AllMem s B 944 → bitOf image 38 = false → bitOf image 39 = true → exec i s = .fault .badSavedPriv) ∧
  (∀ p, AllMem s B 944 → LevelBits image 38 p → s.MemWf →
    ∃ t, exec i s = .next t ∧ CEffLoaded s t B ∧ t.priv = p ∧
      t.csr.mip = (s.mem.readInt s.draws (ctxAt B 72) 8 ||| s.ival rs2) &&& 0xaaa ∧
      (∀ r : Reg, r ≠ 0 → t.capValue r = s.mem.readSlot s.draws (ctxAt B (368 + 16 * (r.toNat - 1)))) ∧
      (∀ k : Fin 16, t.ccsr.cpmp[k] = s.mem.readSlot s.draws (ctxAt B (96 + 16 * k.val))) ∧
      t.ccsr.cepc = s.mem.readSlot s.draws (ctxAt B 352) ∧
      t.csr.domainOnly = [88, 864, 872, 880, 888, 896, 904, 912, 920, 928, 936].map
        (fun off => s.mem.readInt s.draws (ctxAt B off) 8) ∧
      t.ccsr.cih = .cap { c with type := .sealed, async := false } ∧
      CEffSaved s t B (s.pc.withCursor entry) ∧
      (∀ k < 48, t.mem.slotCap (ctxAt B (96 + 16 * k)) =
        (s.mem.slotCap (ctxAt B (96 + 16 * k))).map fun d => if d.type = .nonLinear then d else cnull) ∧
      (∀ a, 88 ≤ (a - B).toNat → (a - B).toNat < 864 →
        (((a - B).toNat < 96 ∨ ∀ d, s.mem.slotCap a = some d → d.type = .nonLinear) →
          t.mem.byte a = s.mem.byte a ∧ t.mem.mark a = s.mem.mark a) ∧
        (∀ d, 96 ≤ (a - B).toNat → s.mem.slotCap a = some d → d.type ≠ .nonLinear → t.mem.defined a = false)) ∧
      SameOutside s t B 864 ∧ t.csr.hartOnly = s.csr.hartOnly ∧
      t.capstoneEn = s.capstoneEn ∧ t.revClock = s.revClock ∧ t.inputs = s.inputs ∧ t.plat = s.plat)

/-! ### Control and status -/

/-- O31 (R38, R39, R230). CCSRRW: `ctvec`, `cepc`, `cscratch` and `cpmp[k]` are swapped with the register; `cih` is never read and is written only while it is vacant; an immediate that names no CCSR raises 29. Operands read first is the spec's decision D7; the constraints of `cih`, `cscratch` and `cpmp` are D6 and D8. Each name is its own register. -/
def Obligations.CcsrrwExchanges : Prop :=
  CcsrName.ofEncoding 0 = some .ctvec ∧ CcsrName.ofEncoding 1 = some .cih ∧
  CcsrName.ofEncoding 2 = some .cepc ∧ CcsrName.ofEncoding 4 = some .cscratch ∧
  (∀ k : Fin 16, CcsrName.ofEncoding (BitVec.ofNat 12 (16 + k.val)) = some (.cpmp k)) ∧
  (∀ imm : BitVec 12, imm.toNat = 3 ∨ (4 < imm.toNat ∧ imm.toNat < 16) ∨ 31 < imm.toNat →
    CcsrName.ofEncoding imm = none) ∧
  (∀ c : Ccsrs, c.get .ctvec = c.ctvec ∧ c.get .cih = c.cih ∧ c.get .cepc = c.cepc ∧ c.get .cscratch = c.cscratch ∧
    ∀ k : Fin 16, c.get (.cpmp k) = c.cpmp[k]) ∧
  (∀ (s : State) (rd rs1 : Reg) (imm : BitVec 12), CReady s →
    let i := Instr.ccsrrw rd rs1 imm
    let done (regs : Reg → Value) (after : CcsrName → Value) : Prop :=
      ∃ t, exec i s = .next t ∧ (∀ r, t.capValue r = regs r) ∧ (∀ n, t.ccsr.get n = after n) ∧
        t.pc = nextPc s ∧ SameControl s { t with ccsr := s.ccsr } ∧ SameMemory s t
    encode i = imm ++ rs1 ++ 0b111#3 ++ rd ++ 0b1011011#7 ∧
    (s.capOf? rs1 = none → Raises i s .operandType) ∧
    (∀ src, s.capOf? rs1 = some src →
      (CcsrName.ofEncoding imm = none → Raises i s .illegalValue) ∧
      (∀ n, CcsrName.ofEncoding imm = some n →
        (n ≠ .cih → done (moveReg s.capValue rd rs1 src (s.ccsr.get n))
          (fun m => if m = n then .cap src else s.ccsr.get m)) ∧
        (n = .cih → s.ccsr.cih.vacant = true → done (moveReg s.capValue rd rs1 src (.cap cnull))
          (fun m => if m = n then .cap src else s.ccsr.get m)) ∧
        (n = .cih → s.ccsr.cih.vacant = false → done (putReg s.capValue rd (.cap cnull)) s.ccsr.get))))

/-- O32 (R232). CAPENTER in M-mode sets CAPSTONE_EN and makes the genesis capabilities of its form; with CAPSTONE_EN = 1 or below mode ID 3 it is an illegal instruction. The illegal instruction below mode ID 3, the wrapping bounds and the increment are the spec's decision D13. -/
def Obligations.CapenterMakesGenesis : Prop :=
  ∀ (s : State) (rd rs1 rs2 : Reg),
  let i := Instr.capenter rd rs1 rs2
  let genesis (type : CapType) (cursor base last : Word) (born : Nat) : Cap :=
    { valid := true, type := type, cursor := cursor, base := base, last := last, perms := 7,
      async := false, reg := 0, born := born }
  let done (pc x10 x11 : Cap) (clock : Nat) : Prop :=
    ∃ t, exec i s = .next t ∧ t.pc = .cap pc ∧
      (∀ r, t.capValue r = putReg (putReg s.capValue 10 (.cap x10)) 11 (.cap x11) r) ∧
      t.capstoneEn = true ∧ t.revClock = clock ∧
      SameControl s { t with capstoneEn := s.capstoneEn, revClock := s.revClock } ∧ SameMemory s t
  encode i = 0b0001101#7 ++ rs2 ++ rs1 ++ 0b001#3 ++ rd ++ 0b1011011#7 ∧
  (s.capstoneEn = true ∨ s.priv ≠ .machine → Raises i s .illegal) ∧
  (∀ a, s.capstoneEn = false → s.priv = .machine → s.pc = .int a →
    (rs1 = 0 ∧ rs2 = 0 →
      done (genesis .nonLinear (a + 4) Config.initCodeBase (Config.initCodeEnd - 1) 0)
        (genesis .nonLinear Config.initDataBase Config.initDataBase (Config.initDataEnd - 1) 0)
        (genesis .revocation 0 0 (BitVec.ofInt 64 (-1)) s.revClock) (s.revClock + 1)) ∧
    (¬ (rs1 = 0 ∧ rs2 = 0) →
      done (genesis .nonLinear (a + 4) (s.ival rs1) (s.ival rs2 - 1) 0)
        (genesis .nonLinear 0 0 (s.ival rs1 - 1) 0)
        (genesis .nonLinear (s.ival rs2) (s.ival rs2) (BitVec.ofInt 64 (-1)) 0) s.revClock))

/-- O33 (R330 to R335). The six CSR instructions, where the access check passes: `x[rd]` receives the old value, the CSR the new one through its field rules, and nothing else changes; the set and clear forms with a zero field only read. A read of `cic` gives `CIC_READ`. What `cic` reads is the spec's decision D8 (log 10); the field rules are O35's. -/
def Obligations.CsrInstructionsReadAndWrite : Prop :=
  ∀ (s : State) (rd rs1 : Reg) (csr : BitVec 12) (c : CsrName),
  CsrName.ofNumber csr = some c → csrExists s c = true →
  (csr.extractLsb' 8 2).toNat ≤ s.priv.code.toNat →
  let t := readCsr s c
  let a := s.ival rs1
  let u : Word := BitVec.ofNat 64 rs1.toNat
  encode (.csrrw rd csr rs1) = csr ++ rs1 ++ 0b001#3 ++ rd ++ 0b1110011#7 ∧
  encode (.csrrs rd csr rs1) = csr ++ rs1 ++ 0b010#3 ++ rd ++ 0b1110011#7 ∧
  encode (.csrrc rd csr rs1) = csr ++ rs1 ++ 0b011#3 ++ rd ++ 0b1110011#7 ∧
  encode (.csrrwi rd csr rs1) = csr ++ rs1 ++ 0b101#3 ++ rd ++ 0b1110011#7 ∧
  encode (.csrrsi rd csr rs1) = csr ++ rs1 ++ 0b110#3 ++ rd ++ 0b1110011#7 ∧
  encode (.csrrci rd csr rs1) = csr ++ rs1 ++ 0b111#3 ++ rd ++ 0b1110011#7 ∧
  (csr.extractLsb' 10 2 ≠ 3 →
    CsrDone (.csrrw rd csr rs1) s rd t (writeCsr s.csr c a) ∧
    CsrDone (.csrrwi rd csr rs1) s rd t (writeCsr s.csr c u) ∧
    (rs1 ≠ 0 → CsrDone (.csrrs rd csr rs1) s rd t (writeCsr s.csr c (t ||| a)) ∧
      CsrDone (.csrrc rd csr rs1) s rd t (writeCsr s.csr c (t &&& ~~~a)) ∧
      CsrDone (.csrrsi rd csr rs1) s rd t (writeCsr s.csr c (t ||| u)) ∧
      CsrDone (.csrrci rd csr rs1) s rd t (writeCsr s.csr c (t &&& ~~~u)))) ∧
  (rs1 = 0 → CsrDone (.csrrs rd csr rs1) s rd t s.csr ∧ CsrDone (.csrrc rd csr rs1) s rd t s.csr ∧
    CsrDone (.csrrsi rd csr rs1) s rd t s.csr ∧ CsrDone (.csrrci rd csr rs1) s rd t s.csr)

/-- O34 (R266, R338). Which register each CSR number names, which numbers exist in which mode, and that an access to a higher privilege's CSR, a write of a read-only one, or an access to one that does not exist here is an illegal instruction. The four added CSRs outside C-mode are the spec's decision D9, the absent counters D22. -/
def Obligations.CsrAccessCheck : Prop :=
  let supervisor : List Nat := [0x100, 0x104, 0x105, 0x140, 0x141, 0x142, 0x143, 0x144, 0x180]
  let exist (s : State) (csr : BitVec 12) : Prop := ∃ c, CsrName.ofNumber csr = some c ∧ csrExists s c = true
  (∀ (s : State) (csr : BitVec 12),
    (s.inCMode = true → (exist s csr ↔ csr.toNat ∈ [0x300, 0x302, 0x303, 0x304, 0x342, 0x343, 0x344,
      0x34a, 0x34b, 0x800, 0x801, 0x802, 0x803] ++ supervisor)) ∧
    (s.priv = .machine → s.capstoneEn = false → (exist s csr ↔ csr.toNat ∈ [0x300, 0x301, 0x302, 0x303,
      0x304, 0x305, 0x306, 0x340, 0x341, 0x342, 0x343, 0x344, 0x34a, 0x34b, 0xf11, 0xf12, 0xf13, 0xf14,
      0x106] ++ supervisor)) ∧
    (s.priv = .supervisor → (exist s csr ↔ csr.toNat ∈ 0x106 :: supervisor ∧
      ¬ (csr.toNat = 0x180 ∧ bitOf s.csr.mstatus 20 = true))) ∧
    (s.priv = .user → ¬ exist s csr)) ∧
  (∀ (s : State) (rd rs1 : Reg) (csr : BitVec 12), ∀ i ∈ csrForms rd csr rs1,
    s.priv.code.toNat < (csr.extractLsb' 8 2).toNat ∨ (csrWrites i = true ∧ csr.extractLsb' 10 2 = 3) ∨
      ¬ exist s csr → Raises i s .illegal) ∧
  (∀ x ∈ [((0x300 : BitVec 12), CsrName.mstatus), (0x301, .misa), (0x302, .medeleg), (0x303, .mideleg), (0x304, .mie),
      (0x305, .mtvec), (0x306, .mcounteren), (0x340, .mscratch), (0x341, .mepc), (0x342, .mcause), (0x343, .mtval),
      (0x344, .mip), (0x34a, .mtinst), (0x34b, .mtval2), (0xf11, .mvendorid), (0xf12, .marchid), (0xf13, .mimpid),
      (0xf14, .mhartid), (0x100, .sstatus), (0x104, .sie), (0x105, .stvec), (0x106, .scounteren), (0x140, .sscratch),
      (0x141, .sepc), (0x142, .scause), (0x143, .stval), (0x144, .sip), (0x180, .satp), (0x800, .cis), (0x801, .cid),
      (0x802, .cic), (0x803, .offsetmmu)], CsrName.ofNumber x.1 = some x.2) ∧
  [Priv.user, .supervisor, .machine].map (fun p => p.code.toNat) = [0, 1, 3]

/-- O35 (R41 to R43, R52, R53, R55, R57, R337, R338). What each CSR reads, and what a write of it changes: that register alone, every other CSR as it was. The plain registers read and hold the value written; `misa`, `mcounteren`, `scounteren`, `mvendorid`, `marchid`, `mimpid` and `mhartid` read their constants and a write changes nothing; the registers with fields are given bit by bit (a bit that does not exist reads 0, a read-only bit keeps its value), and so are the views `sstatus`, `sie`, `sip`. What `cic` reads and that a write of it is ignored is the spec's decision D8 (R43, log 10), the six bits of `cis` and `cid` D36; the write masks of `sstatus`, `sie`, `sip`, what a write of a reserved MODE leaves, and that the registers no rule restricts keep all 64 bits are logs 23 and 25. -/
def Obligations.CsrFieldRules : Prop :=
  ∀ (s : State) (v : Word),
  let c := s.csr
  (readCsr s .mideleg = c.mideleg ∧ readCsr s .mcause = c.mcause ∧ readCsr s .mtval = c.mtval ∧
    readCsr s .mtval2 = c.mtval2 ∧ readCsr s .mtinst = c.mtinst ∧ readCsr s .mscratch = c.mscratch ∧
    readCsr s .stvec = c.stvec ∧ readCsr s .sscratch = c.sscratch ∧ readCsr s .sepc = c.sepc ∧
    readCsr s .scause = c.scause ∧ readCsr s .stval = c.stval ∧ readCsr s .satp = c.satp ∧
    readCsr s .offsetmmu = c.offsetmmu ∧ readCsr s .mstatus = c.mstatus ∧ readCsr s .medeleg = c.medeleg ∧
    readCsr s .mie = c.mie ∧ readCsr s .mip = c.mip ∧ readCsr s .mtvec = c.mtvec ∧ readCsr s .mepc = c.mepc ∧
    readCsr s .cis = c.cis ∧ readCsr s .cid = c.cid ∧
    readCsr s .cic = Config.cicRead s.draws c.cic) ∧
  (readCsr s .misa = 0x8000000000140100 ∧
    readCsr s .mcounteren = 0 ∧ readCsr s .scounteren = 0 ∧ readCsr s .mvendorid = 0 ∧ readCsr s .marchid = 0 ∧
    readCsr s .mimpid = 0 ∧ readCsr s .mhartid = 0) ∧
  (∀ n,
    bitOf (readCsr s .sstatus) n = (decide (n ∈ [1, 5, 8, 18, 19, 32, 33, 63]) && bitOf c.mstatus n) ∧
    bitOf (readCsr s .sie) n = (decide (n ∈ [1, 5, 9]) && bitOf c.mie n && bitOf c.mideleg n) ∧
    bitOf (readCsr s .sip) n = (decide (n ∈ [1, 5, 9]) && bitOf c.mip n && bitOf c.mideleg n)) ∧
  (writeCsr c .mideleg v = { c with mideleg := v } ∧ writeCsr c .mcause v = { c with mcause := v } ∧
    writeCsr c .mtval v = { c with mtval := v } ∧ writeCsr c .mtval2 v = { c with mtval2 := v } ∧
    writeCsr c .mtinst v = { c with mtinst := v } ∧ writeCsr c .mscratch v = { c with mscratch := v } ∧
    writeCsr c .stvec v = { c with stvec := v } ∧ writeCsr c .sscratch v = { c with sscratch := v } ∧
    writeCsr c .sepc v = { c with sepc := v } ∧ writeCsr c .scause v = { c with scause := v } ∧
    writeCsr c .stval v = { c with stval := v } ∧ writeCsr c .satp v = { c with satp := v } ∧
    writeCsr c .offsetmmu v = { c with offsetmmu := v }) ∧
  (writeCsr c .cic v = c ∧ writeCsr c .misa v = c ∧ writeCsr c .mcounteren v = c ∧ writeCsr c .scounteren v = c ∧
    writeCsr c .mvendorid v = c ∧ writeCsr c .marchid v = c ∧ writeCsr c .mimpid v = c ∧ writeCsr c .mhartid v = c) ∧
  (∃ w, writeCsr c .mstatus v = { c with mstatus := w } ∧ ∀ n, bitOf w n =
    if n ∈ [1, 3, 5, 7, 8, 17, 18, 19, 20, 21, 22] then bitOf v n
    else if n ∈ [11, 12] then (if bitOf v 11 = false ∧ bitOf v 12 = true then bitOf c.mstatus n else bitOf v n)
    else decide (n = 33 ∨ n = 35)) ∧
  (∃ w, writeCsr c .sstatus v = { c with mstatus := w } ∧ ∀ n, bitOf w n =
    if n ∈ [1, 5, 8, 18, 19] then bitOf v n else bitOf c.mstatus n) ∧
  (∃ w, writeCsr c .mip v = { c with mip := w } ∧ ∀ n, bitOf w n =
    if n ∈ [1, 5, 9] then bitOf v n else bitOf c.mip n) ∧
  (∃ w, writeCsr c .sip v = { c with mip := w } ∧ ∀ n, bitOf w n =
    if n = 1 ∧ bitOf c.mideleg n = true then bitOf v n else bitOf c.mip n) ∧
  (∃ w, writeCsr c .sie v = { c with mie := w } ∧ ∀ n, bitOf w n =
    if n ∈ [1, 5, 9] ∧ bitOf c.mideleg n = true then bitOf v n else bitOf c.mie n) ∧
  (∃ w, (∀ n, bitOf w n = (decide (n ∈ [1, 3, 5, 7, 9, 11]) && bitOf v n)) ∧ writeCsr c .mie v = { c with mie := w } ∧
    writeCsr c .cis v = { c with cis := w } ∧ writeCsr c .cid v = { c with cid := w }) ∧
  (∃ w, writeCsr c .medeleg v = { c with medeleg := w } ∧ DelegableBits v w) ∧
  (∃ w, writeCsr c .mepc v = { c with mepc := w } ∧ ∀ n, bitOf w n = (decide (2 ≤ n) && bitOf v n)) ∧
  (∃ w, writeCsr c .mtvec v = { c with mtvec := w } ∧ ∀ n, bitOf w n =
    if n < 2 ∧ bitOf v 1 = true then bitOf c.mtvec n else bitOf v n)

/-! ### System instructions -/

/-- O36 (R263, R264, R324, R325). `ecall` takes the environment call of its mode, 8, 9 or 11, and `ebreak` the breakpoint, 3: where the trap goes, what it saves, and that each completes by its own trap, in C-mode with a capability `pc` and in M-mode, where the implementation raises no exception 30 (O44). The causes in C-mode and the data of `ebreak` are the spec's decision D34. -/
def Obligations.EcallAndEbreakTrap : Prop :=
  encode .ecall = 0x00000073 ∧ encode .ebreak = 0x00100073 ∧
  (∀ s : State, Roomy s → Raises .ebreak s .breakpoint ∧ (s.priv = .user → Raises .ecall s .ecallU) ∧
    (s.priv = .supervisor → Raises .ecall s .ecallS) ∧ (s.priv = .machine → Raises .ecall s .ecallM)) ∧
  (∀ s : State, Roomy s → s.priv = .machine → ∀ x ∈ [(Instr.ecall, (11 : Word)), (.ebreak, 3)],
    (s.capstoneEn = false → ∃ t, exec x.1 s = .next t ∧ TrapRecorded s t false x.2 0 0 0 ∧
      t.csr.mepc = s.pc.address &&& ~~~3 ∧ t.pc = .int (s.csr.mtvec &&& ~~~3) ∧ t.ccsr = s.ccsr) ∧
    (∀ h, s.capstoneEn = true → s.ccsr.ctvec = .cap h → ∃ t, exec x.1 s = .next t ∧
      TrapRecorded s t false x.2 0 0 0 ∧ t.csr.mepc = s.csr.mepc ∧ t.ccsr.cepc = s.pc ∧ t.pc = .cap h ∧
      t.ccsr.ctvec = (if h.type = .nonLinear then .cap h else .int h.cursor)) ∧
    (∀ h c, s.capstoneEn = true → s.ccsr.ctvec = .int h → s.pc = .cap c → ∃ t, exec x.1 s = .next t ∧
      TrapRecorded s t false x.2 0 0 0 ∧ t.csr.mepc = s.csr.mepc ∧ t.ccsr.cepc = .int c.cursor ∧
      t.pc = .cap { c with cursor := h } ∧ t.ccsr.ctvec = s.ccsr.ctvec))

/-- O37 (R267, R326, R329, R336). `fence` completes with no effect in every state; `wfi` and `sfence.vma` do in M-mode with CAPSTONE_EN = 0 and in S-mode unless TW or TVM is set; in C-mode, in U-mode and with the bit set they are illegal. `wfi` as no-operation is the spec's decision D40, illegal in C-mode D21. -/
def Obligations.FenceAndWaitDoNothing : Prop :=
  ∀ (s : State) (rd rs1 rs2 : Reg) (fm pred succ : BitVec 4),
  encode (.fence rd rs1 fm pred succ) = fm ++ pred ++ succ ++ rs1 ++ 0b000#3 ++ rd ++ 0b0001111#7 ∧
  encode .wfi = 0x10500073 ∧
  encode (.sfenceVma rs1 rs2) = 0b0001001#7 ++ rs2 ++ rs1 ++ 0b000#3 ++ 0#5 ++ 0b1110011#7 ∧
  Completes (.fence rd rs1 fm pred succ) s s.capValue ∧
  (s.priv = .machine ∧ s.capstoneEn = false ∨ s.priv = .supervisor ∧ bitOf s.csr.mstatus 21 = false →
    Completes .wfi s s.capValue) ∧
  (s.priv = .machine ∧ s.capstoneEn = false ∨ s.priv = .supervisor ∧ bitOf s.csr.mstatus 20 = false →
    Completes (.sfenceVma rs1 rs2) s s.capValue) ∧
  (s.inCMode = true ∨ s.priv = .user ∨ s.priv = .supervisor ∧ bitOf s.csr.mstatus 21 = true →
    Raises .wfi s .illegal) ∧
  (s.inCMode = true ∨ s.priv = .user ∨ s.priv = .supervisor ∧ bitOf s.csr.mstatus 20 = true →
    Raises (.sfenceVma rs1 rs2) s .illegal)

/-- O38 (R327, R328). `mret` in M-mode returns to `mepc` and to the level of MPP; `sret` returns to `sepc` and to the level of SPP; below M-mode `mret`, and in C-mode, in U-mode and with TSR set `sret`, are illegal instructions. -/
def Obligations.ReturnsOutsideCMode : Prop :=
  encode .mret = 0x30200073 ∧ encode .sret = 0x10200073 ∧
  (∀ (s : State) (p : Priv), s.priv = .machine → s.capstoneEn = false → LevelBits s.csr.mstatus 11 p →
    ∃ t, exec .mret s = .next t ∧ t.pc = .int s.csr.mepc ∧ t.priv = p ∧
      MretStatus s.csr.mstatus t.csr.mstatus p ∧ t.regs = s.regs ∧ SameMemory s t ∧
      SameControl s { t with priv := s.priv, csr := { t.csr with mstatus := s.csr.mstatus } }) ∧
  (∀ s : State, s.priv = .machine ∧ s.capstoneEn = false ∨
      s.priv = .supervisor ∧ bitOf s.csr.mstatus 22 = false →
    ∃ t, exec .sret s = .next t ∧ t.pc = .int s.csr.sepc ∧
      t.priv = (if bitOf s.csr.mstatus 8 then .supervisor else .user) ∧
      bitOf t.csr.mstatus 1 = bitOf s.csr.mstatus 5 ∧ bitOf t.csr.mstatus 5 = true ∧
      bitOf t.csr.mstatus 8 = false ∧ bitOf t.csr.mstatus 17 = false ∧
      SameBits s.csr.mstatus t.csr.mstatus [1, 5, 8, 17] ∧ t.regs = s.regs ∧ SameMemory s t ∧
      SameControl s { t with priv := s.priv, csr := { t.csr with mstatus := s.csr.mstatus } }) ∧
  (∀ s : State, s.priv ≠ .machine → Raises .mret s .illegal) ∧
  (∀ s : State, s.inCMode = true ∨ s.priv = .user ∨ s.priv = .supervisor ∧ bitOf s.csr.mstatus 22 = true →
    Raises .sret s .illegal)

/-- O39 (R265). MRET in C-mode undoes trap entry: an integer `ctvec` takes the `pc` capability back with its cursor; `pc` comes from `cepc`, moved and not copied; MIE, MPIE, MPP, MPRV and the privilege level as in the base MRET. All but the first of these is the spec's decision D15. -/
def Obligations.MretInCMode : Prop :=
  ∀ (s : State) (c : Cap) (p : Priv), s.inCMode = true → s.pc = .cap c →
  LevelBits s.csr.mstatus 11 p →
  ∃ t, exec .mret s = .next t ∧ t.priv = p ∧ MretStatus s.csr.mstatus t.csr.mstatus p ∧
    (∀ h, s.ccsr.ctvec = .cap h → t.ccsr.ctvec = .cap h) ∧
    (∀ n, s.ccsr.ctvec = .int n → t.ccsr.ctvec = .cap { c with cursor := n }) ∧
    (∀ e, s.ccsr.cepc = .cap e → t.pc = .cap e ∧
      t.ccsr.cepc = (if e.type = .nonLinear then .cap e else .int e.cursor)) ∧
    (∀ n, s.ccsr.cepc = .int n → t.ccsr.cepc = .int n ∧
      (p = .machine ∧ (s.ccsr.ctvec.isCap = true ∨ c.type = .nonLinear) →
        t.pc = .cap { c with cursor := n }) ∧
      (¬ (p = .machine ∧ (s.ccsr.ctvec.isCap = true ∨ c.type = .nonLinear)) → t.pc = .int n)) ∧
    t.regs = s.regs ∧ SameMemory s t ∧
    SameControl s { t with
      priv := s.priv, csr := { t.csr with mstatus := s.csr.mstatus }
      ccsr := { t.ccsr with ctvec := s.ccsr.ctvec, cepc := s.ccsr.cepc } }

/-! ### Traps -/

/-- O40 (R360, R361). Trap entry into C-mode, for exceptions and V-interrupts: case A installs `ctvec` in `pc` and saves `pc` in `cepc`, case B redirects the cursor of `pc` and saves it as an integer, and with both integers the machine is stuck; cause, data and status are recorded and nothing else changes. Which types leave `ctvec` is the spec's decision D50, the stuck case D33. -/
def Obligations.TrapEntryIntoCMode : Prop :=
  ∀ (s : State) (interrupt : Bool) (code tval tval2 tinst : Word),
  let trap := takeTrapC interrupt code tval tval2 tinst s
  (∀ h, s.ccsr.ctvec = .cap h → ∃ t, trap = .ok t ∧ t.ccsr.cepc = s.pc ∧ t.pc = .cap h ∧
    t.ccsr.ctvec = (if h.type = .nonLinear then .cap h else .int h.cursor) ∧
    t.csr.mepc = s.csr.mepc ∧ TrapRecorded s t interrupt code tval tval2 tinst) ∧
  (∀ h c, s.ccsr.ctvec = .int h → s.pc = .cap c → ∃ t, trap = .ok t ∧ t.ccsr.cepc = .int c.cursor ∧
    t.pc = .cap { c with cursor := h } ∧ t.ccsr.ctvec = s.ccsr.ctvec ∧ t.csr.mepc = s.csr.mepc ∧
    TrapRecorded s t interrupt code tval tval2 tinst) ∧
  (∀ h a, s.ccsr.ctvec = .int h → s.pc = .int a → trap = .error .trapBothIntegers)

/-- O41 (R362, R363). Trap entry into M-mode and into S-mode: the saved `pc`, the cause, the status bits, the privilege level, and the vectored target of an interrupt; nothing else changes. -/
def Obligations.TrapEntryOutsideCMode : Prop :=
  ∀ (s : State) (interrupt : Bool) (code tval tval2 tinst : Word),
  let target (tvec : Word) : Word := (if interrupt = true ∧ tvec &&& 3 = 1
    then (tvec &&& ~~~3) + 4 * code else tvec &&& ~~~3)
  (let t := takeTrapM interrupt code tval tval2 tinst s;
    t.csr.mepc = s.pc.address &&& ~~~3 ∧ t.pc = .int (target s.csr.mtvec) ∧ t.ccsr = s.ccsr ∧
    TrapRecorded s t interrupt code tval tval2 tinst) ∧
  (let t := takeTrapS interrupt code tval s;
    t.csr = { s.csr with
      sepc := s.pc.address &&& ~~~3
      scause := (if interrupt then 0x8000000000000000 else 0) ||| code
      stval := tval, mstatus := t.csr.mstatus } ∧
    bitOf t.csr.mstatus 5 = bitOf s.csr.mstatus 1 ∧ bitOf t.csr.mstatus 1 = false ∧
    bitOf t.csr.mstatus 8 = decide (s.priv = .supervisor) ∧
    SameBits s.csr.mstatus t.csr.mstatus [1, 5, 8] ∧ t.priv = .supervisor ∧
    t.pc = .int (target s.csr.stvec) ∧ t.regs = s.regs ∧ SameMemory s t ∧
    SameControl s { t with priv := s.priv, csr := s.csr })

/-- O42 (R350, R352, R356). Which mode takes an exception, with which code and data: S-mode when raised below mode ID 3 with its `medeleg` bit set, otherwise mode ID 3; codes 24 to 30 are never delegated. The data of codes 24 to 30 are the spec's decision D14. -/
def Obligations.ExceptionRoutingAndData : Prop :=
  (∀ (s : State) (e : Exc) (addr : Word) (insn : BitVec 32),
    (s.priv ≠ .machine → bitOf s.csr.medeleg e.code.toNat = true →
      takeException e addr insn s = .ok (takeTrapS false e.code (e.tval addr insn) s)) ∧
    (s.priv = .machine ∨ bitOf s.csr.medeleg e.code.toNat = false →
      (s.capstoneEn = true → takeException e addr insn s =
        takeTrapC false e.code (e.tval addr insn) 0 (e.tinst insn) s) ∧
      (s.capstoneEn = false → takeException e addr insn s =
        .ok (takeTrapM false e.code (e.tval addr insn) 0 (e.tinst insn) s))) ∧
    (s.CsrsLegal → 24 ≤ e.code.toNat → bitOf s.csr.medeleg e.code.toNat = false)) ∧
  [Exc.instrMisaligned, .instrAccess, .illegal, .breakpoint, .loadMisaligned, .loadAccess, .storeMisaligned,
    .storeAccess, .ecallU, .ecallS, .ecallM, .operandType, .invalidCap, .capType, .capPerms, .outOfBound,
    .illegalValue, .resources].map Exc.code =
    [0, 1, 2, 3, 4, 5, 6, 7, 8, 9, 11, 24, 25, 26, 27, 28, 29, 30] ∧
  (∀ (e : Exc) (addr : Word) (insn : BitVec 32),
    (e.code.toNat ∈ [0, 1, 4, 5, 6, 7] → e.tval addr insn = addr) ∧
    (e = .illegal → e.tval addr insn = BitVec.ofNat 64 insn.toNat) ∧
    (e.code.toNat ∉ [0, 1, 2, 4, 5, 6, 7] → e.tval addr insn = 0) ∧
    (e.code.toNat < 24 → e.tinst insn = 0) ∧
    (24 ≤ e.code.toNat → e.tinst insn = BitVec.ofNat 64 insn.toNat))

/-- O43 (R140). The 22 C-mode instructions are illegal in every other mode, before any operand is examined; CAPENTER is illegal with CAPSTONE_EN = 1 and below mode ID 3. CAPENTER below mode ID 3 is the spec's decision D13. -/
def Obligations.CapstoneInstructionsByMode : Prop :=
  (∀ (i : Instr) (s : State), cModeOnly i = true → s.inCMode = false → Raises i s .illegal) ∧
  (∀ (s : State) (rd rs1 rs2 : Reg), s.capstoneEn = true ∨ s.priv ≠ .machine →
    Raises (.capenter rd rs1 rs2) s .illegal) ∧
  (List.length ([Instr.revoke 0 0 0, .shrink 0 0 0, .tighten 0 0 0, .delin 0 0 0, .lcc 0 0 0, .scc 0 0 0,
    .split 0 0 0, .seal 0 0 0, .mrev 0 0 0, .init 0 0 0, .movc 0 0 0, .drop 0 0 0, .cincoffset 0 0 0,
    .call 0 0 0, .ret 0 0 0, .shrinkto 0 0 0, .cincoffsetimm 0 0 0, .ldc 0 0 0, .stc 0 0 0, .cjalr 0 0 0,
    .cbnz 0 0 0, .ccsrrw 0 0 0].filter cModeOnly) = 22)

/-- O44. Where the MODEL stops, or chose: exception 30, where an implementation raises it, comes before every check but the mode check, for every instruction of C-mode whose rule does not say that it raises nothing (log 13); MRET with the level 2 in MPP is stuck (log 22); CALL, RETURN and H-interrupt delivery over a region that is not 16-byte aligned are stuck (log 20); below mode ID 3 neither a step nor a load or store is modelled with CAPSTONE_EN = 1 (log 17) or with address translation on (log 18). -/
def Obligations.StopsTheModelNames : Prop :=
  (∀ (i : Instr) (s : State), mayExhaust i = true → s.inCMode = true → s.plat.finiteResources = true →
    Config.raisesResourceExc s (encode i) = false ∨ Raises i s .resources) ∧
  (∀ s : State, s.priv = .machine → bitOf s.csr.mstatus 11 = false → bitOf s.csr.mstatus 12 = true → exec .mret s = .fault .illegalMpp) ∧
  (∀ (s : State) (rd rs1 rs2 : Reg) (c : Cap), CReady s → c.valid = true → c.base.toNat % 16 ≠ 0 →
    ((if rs1 = 0 then s.ccsr.cih else s.capValue rs1) = .cap c → c.type = .sealed → c.async = false →
      exec (.call rd rs1 rs2) s = .fault .contextMisaligned) ∧
    (∀ entry, s.capOf? rd = some c → s.intOf? rs1 = some entry →
      c.type = .sealedReturn ∨ (c.type = .sealed ∧ s.ccsr.cih.vacant = true) →
      exec (.ret rd rs1 rs2) s = .fault .contextMisaligned) ∧
    ((∃ i : Irq, bitOf (boundary s).csr.cis i.bit = true ∧ bitOf s.csr.cid i.bit = false) →
      s.ccsr.cih = .cap c → c.type = .sealed → c.async = false → step s = .fault .contextMisaligned)) ∧
  (∀ s : State, s.priv ≠ .machine →
    (s.capstoneEn = true → step s = .refused .lowPrivUnderCapstone) ∧
    (s.capstoneEn = false → s.csr.satp.extractLsb' 60 4 ≠ 0 → step s = .refused .translationUnmodelled) ∧
    (∀ (rd rs1 rs2 : Reg) (imm : BitVec 12),
      ∀ i ∈ (loadForms rd rs1 imm).map LoadForm.instr ++ (storeForms rs1 rs2 imm).map StoreForm.instr,
      (s.capstoneEn = true → exec i s = .refused .lowPrivUnderCapstone) ∧
      (s.capstoneEn = false → s.csr.satp.extractLsb' 60 4 ≠ 0 → exec i s = .refused .translationUnmodelled)))

/-! ### Fetch, decode, step -/

/-- O45 (R90, R91, R104). The fetch faults as steps, after the boundary's events (log 16). In C-mode, in their order: an integer, invalid, non-executable or out-of-bounds `pc` raises Instruction access fault, a misaligned cursor Instruction address misaligned, bytes that are not memory or not fetchable (stored by the run, or under a capability store) an access fault. Outside C-mode: a misaligned `pc` Instruction address misaligned (log 15), then bytes that are not memory or not fetchable an access fault. The order and the integer `pc` in C-mode are the spec's decisions D1 and D16; bytes that are not fetchable are D28 and D29 (log 14); a capability `pc` outside C-mode is log 29. -/
def Obligations.FetchFaults : Prop :=
  ∀ (s : State), Quiet s →
  let fails (e : Exc) (a : Word) : Prop := step s = trapOutcome (takeException e a 0 (boundary s))
  (s.inCMode = false → ∀ a : Word, s.pc = .int a ∨ (∃ c, s.pc = .cap c ∧ c.cursor = a) →
    IfSo (a.toNat % 4 ≠ 0) (fails .instrMisaligned a)
      (¬ CodeAt s a → fails .instrAccess a)) ∧
  (s.inCMode = true → ∀ a : Word, s.pc = .int a → fails .instrAccess a) ∧
  (s.inCMode = true → ∀ c : Cap, s.pc = .cap c →
    IfSo c.Barred (fails .instrAccess c.cursor)
      (IfSo (c.cursor.toNat % 4 ≠ 0) (fails .instrMisaligned c.cursor)
        (¬ CodeAt s c.cursor → fails .instrAccess c.cursor)))

/-- O46 (R90, R91, R142, R144, R374). A step runs the instruction whose bytes `pc` addresses: after the boundary's events, when no interrupt is taken and the fetch checks pass, the step is `exec` of the decoded instruction, and an illegal-instruction trap with the word when the bytes decode to nothing; with no event the boundary changes nothing (what it does with events is O50's). The order of boundary, fetch, decode and exec is the spec's decision D17; the schedule of events is log 16. -/
def Obligations.StepRunsTheDecodedInstruction : Prop :=
  (∀ (s : State) (a : Word) (i : Instr), Quiet s →
    FetchesFrom (boundary s) a → decode (fourBytes (boundary s) a) = .ok (i, []) →
    step s = exec i (boundary s)) ∧
  (∀ (s : State) (a : Word) (e : DecodeError), Quiet s →
    FetchesFrom (boundary s) a → decode (fourBytes (boundary s) a) = .error e →
    step s = trapOutcome (takeException .illegal 0
      ((s.mem.byte (a + 3)) ++ (s.mem.byte (a + 2)) ++ (s.mem.byte (a + 1)) ++ (s.mem.byte a)) (boundary s))) ∧
  (∀ s : State, s.inputs = [] → boundary s = s)

/-- O47 (R121 to R131, R280, R281). Decoding an encoded well-formed instruction gives it back, with every operand at every value. -/
def Obligations.DecodeOfEncode : Prop :=
  ∀ i : Instr, i.wellFormed = true → decode (bytesOfWord (encode i)) = .ok (i, [])

/-- O48 (R121 to R131, R280, R281). A word that decodes is the word of the instruction it decodes to, which is well-formed. That no bit of a word is dropped, so that no two words decode to one term of `Instr`, is the MODEL's choice of syntax (log 32, DEDUCED): a term keeps the unused register fields, whose values the spec calls the same instruction (R132, its decision D46), because `mtinst` reports the word. -/
def Obligations.EncodeOfDecode : Prop :=
  ∀ (w : BitVec 32) (i : Instr), decode (bytesOfWord w) = .ok (i, []) → i.wellFormed = true ∧ encode i = w

/-- O49 (R130, R131, R280, R281). Words written out from the spec's encodings, one for each format, decode to what they stand for; the words R144 and R280 name as illegal decode to nothing. -/
def Obligations.WordsOfTheSpecDecode : Prop :=
  decode (bytesOfWord 0x1402935b) = .ok (.movc 6 5 0, []) ∧
  decode (bytesOfWord 0x0402835b) = .ok (.shrinkto 6 5 64, []) ∧
  decode (bytesOfWord 0x0262c05b) = .ok (.stc 5 6 32, []) ∧
  decode (bytesOfWord 0x082293db) = .ok (.lcc 7 5 2, []) ∧
  decode (bytesOfWord 0xfe629ce3) = .ok (.bne 5 6 (BitVec.ofInt 13 (-8)), []) ∧
  decode (bytesOfWord 0x020000ef) = .ok (.jal 1 0x20, []) ∧
  decode (bytesOfWord 0x123452b7) = .ok (.lui 5 0x12345, []) ∧
  decode (bytesOfWord 0x43f35293) = .ok (.srai 5 6 63, []) ∧
  decode (bytesOfWord 0x340312f3) = .ok (.csrrw 5 0x340 6, []) ∧
  decode (bytesOfWord 0x0000100f) = .error .unknownFunct3 ∧
  decode (bytesOfWord 0x00000000) = .error .compressed ∧
  decode (bytesOfWord 0xffffffff) = .error .unknownOpcode

/-! ### Interrupts -/

/-- O50 (R371, R374). Before each step the boundary applies the events that the schedule holds for it, in order, and uses them up (the schedule is log 16); a step is that of the state the boundary leaves. An event of the interrupt controller changes one bit: of `mip` with CAPSTONE_EN = 0 or with the line delegated by `cid`, of `cis` otherwise. The lines are the bits 11, 3, 7, 9, 1, 5. The choice at the moment of the change is the spec's decision D17. -/
def Obligations.BoundaryAppliesTheEvents : Prop :=
  [Irq.machineExternal, .machineSoftware, .machineTimer, .supervisorExternal, .supervisorSoftware,
    .supervisorTimer].map Irq.bit = [11, 3, 7, 9, 1, 5] ∧
  (∀ s : State, s.inputs = [] → boundary s = s) ∧
  (∀ (s : State) (es : List IrqEvent) (rest : List (List IrqEvent)), s.inputs = es :: rest →
    boundary s = es.foldl applyEvent { s with inputs := rest } ∧
    step s = step (es.foldl applyEvent { s with inputs := [] :: rest })) ∧
  ∀ (s : State) (line : Irq) (e : IrqEvent) (on : Bool),
  (e, on) ∈ [(IrqEvent.set line, true), (.clear line, false)] →
  ∃ w : Word, bitOf w line.bit = on ∧
    (s.capstoneEn = false ∨ bitOf s.csr.cid line.bit = true →
      applyEvent s e = s.setCsr { s.csr with mip := w } ∧ SameBits s.csr.mip w [line.bit]) ∧
    (s.capstoneEn = true → bitOf s.csr.cid line.bit = false →
      applyEvent s e = s.setCsr { s.csr with cis := w } ∧ SameBits s.csr.cis w [line.bit])

/-- O51 (R372 to R374). After the boundary's events: when no H-interrupt qualifies (CAPSTONE_EN = 0, no undelegated bit of `cis`, or no valid, synchronous sealed capability in `cih`), the highest-priority enabled, pending, undelegated interrupt is taken before the next fetch: in mode ID 3 with MIE set, below it regardless; a delegated one is taken into S-mode from U-mode, or from S-mode with SIE set, when nothing undelegated is ready. Where nothing qualifies, in mode ID 3, S-mode or U-mode, the step is the instruction's. That a qualifying interrupt is taken at this very boundary is the model's choice (log 16, DESIGN CHOICE: R374 and D17 let it be delayed). The conditions are the spec's decision D39, what is ignored D17; undelegated before delegated is log 35. -/
def Obligations.VInterruptsAreTaken : Prop :=
  ∀ (s : State) (line : Irq), Modelled s →
  let b := boundary s
  (¬ HQualifies b → Highest (TopReady b) line → (b.priv = .machine → bitOf b.csr.mstatus 3 = true) →
    (b.capstoneEn = true → step s = trapOutcome (takeTrapC true (BitVec.ofNat 64 line.bit) 0 0 0 b)) ∧
    (b.capstoneEn = false → step s = .next (takeTrapM true (BitVec.ofNat 64 line.bit) 0 0 0 b))) ∧
  (¬ HQualifies b → (∀ i, ¬ TopReady b i) → Highest (LowReady b) line →
    b.priv = .user ∨ (b.priv = .supervisor ∧ bitOf b.csr.mstatus 1 = true) →
    step s = .next (takeTrapS true (BitVec.ofNat 64 line.bit) 0 b)) ∧
  (NothingTaken b → step s = runInstruction b)

/-- O52 (R373, R375, R377, R379). H-interrupt delivery, after the boundary's events: with a bit of `cis` pending and not delegated and `cih` a valid, synchronous sealed capability, the interrupted domain's whole context is saved in the region, its registers are scrubbed, the handler's C-effective registers are loaded, `cra` receives the sealed-return capability, `a0` the interrupt code, `cih` holds `cnull`, and `cis` is as before. The saved and loaded `mstatus` are given bit by bit (R51, R376). That delivery happens at this very boundary is the model's choice (log 16, DESIGN CHOICE: R374 and D17 let it be delayed). The selection is the spec's decision D17, the filtered load of the CSR words with the privilege level 3 D19, the scrub values D18, the stuck state D42. -/
def Obligations.HInterruptDelivery : Prop :=
  ∀ (s₀ : State) (line : Irq) (c : Cap), s₀.inCMode = true →
  let s := boundary s₀
  Highest (fun i => bitOf s.csr.cis i.bit = true ∧ bitOf s.csr.cid i.bit = false) line →
  s.ccsr.cih = .cap c → c.valid = true → c.type = .sealed → c.async = false → c.base.toNat % 16 = 0 →
  let B := c.base
  (¬ AllMem s B 944 → step s₀ = .fault .contextNotMemory) ∧
  (AllMem s B 944 → s.MemWf →
    ∃ t, step s₀ = .next t ∧ CEffLoaded s t B ∧
      t.csr.mip = s.mem.readInt s.draws (ctxAt B 72) 8 &&& 0xaaa ∧ t.priv = .machine ∧
      (∀ r : Reg, r ≠ 0 → t.capValue r =
        if r = 1 then .cap { c with type := .sealedReturn, cursor := c.base, reg := 0, async := true }
        else if r = 10 then .int (BitVec.ofNat 64 line.bit) else .int 0) ∧
      t.ccsr.cih = .cap cnull ∧ t.ccsr.cepc = .cap cnull ∧ (∀ k : Fin 16, t.ccsr.cpmp[k] = .cap cnull) ∧
      t.csr.domainOnly = List.replicate 11 0 ∧ t.csr.hartOnly = s.csr.hartOnly ∧
      CEffSaved s t B s.pc ∧
      (∀ k : Fin 16, SlotHolds t (ctxAt B (96 + 16 * k.val)) s.ccsr.cpmp[k]) ∧
      SlotHolds t (ctxAt B 352) s.ccsr.cepc ∧
      (∀ r : Reg, r ≠ 0 → SlotHolds t (ctxAt B (368 + 16 * (r.toNat - 1))) (s.capValue r)) ∧
      (∀ x ∈ [88, 864, 872, 880, 888, 896, 904, 912, 920, 928, 936].zip s.csr.domainOnly,
        WordHolds t (ctxAt B x.1) x.2) ∧
      SameOutside s t B 944 ∧
      t.capstoneEn = s.capstoneEn ∧ t.revClock = s.revClock ∧ t.inputs = s.inputs ∧ t.plat = s.plat)

/-! ### The whole machine -/

/-- O53 (R82). Every step keeps the memory's canonical form. The canonical form is the model's own (log 6). -/
def Obligations.MemoryStaysCanonical : Prop := KeptByStep State.MemWf

/-- O54 (R41, R42, R52, R53, R55, R337). Every step keeps the CSRs legal: `mstatus` with its fixed fields and a legal MPP, and no bit set that does not exist. The masks rest on the spec's decision D36 and on logs 23 and 25. -/
def Obligations.CsrsStayLegal : Prop := KeptByStep fun s => s.StatusLegal ∧ s.CsrsLegal

/-- O55 (R141, R409). Every step keeps this: while CAPSTONE_EN is 0 no memory slot holds a capability, `pc` is an integer, and no VALID capability is in the system; registers and CCSRs may hold invalid ones. The rule marks it as derived. -/
def Obligations.NoValidCapabilityBeforeCapenter : Prop := KeptByStep State.NoValidCapabilityYet

/-- O56 (R107, R400 to R409). The four invariants (O53, O54, O55, O60) hold after reset. -/
def Obligations.InvariantsHoldAtReset : Prop :=
  State.reset.MemWf ∧ State.reset.StatusLegal ∧ State.reset.CsrsLegal ∧ State.reset.NoValidCapabilityYet ∧
  State.reset.LinearExclusive

/-- O57 (R34, R160). No step forges authority: once CAPSTONE_EN is 1, every valid capability anywhere in the system after a step lies, in region and permissions, within a valid capability that was in the system before it. It formalises the provenance the rule speaks of. -/
def Obligations.NoStepForgesAuthority : Prop :=
  ∀ s t, s.capstoneEn = true → step s = .next t →
  ∀ c ∈ t.allCaps, c.valid = true → ∃ d ∈ s.allCaps, d.valid = true ∧ c.within d

/-- O58 (R21, R33, R34). Only CAPENTER writes CAPSTONE_EN, setting it in M-mode; a base instruction never puts a capability into a register or a memory slot; no step changes the platform, and a step uses up one boundary's events. The events are the model's schedule (log 16). -/
def Obligations.OnlyCapenterAndCapstoneInstructions : Prop :=
  (∀ i s t, exec i s = .next t → t.capstoneEn = s.capstoneEn ∨
    (∃ rd rs1 rs2, i = .capenter rd rs1 rs2 ∧ s.capstoneEn = false ∧ s.priv = .machine ∧ t.capstoneEn = true)) ∧
  (∀ i s t, isCapstone i = false → s.MemWf → exec i s = .next t →
    (∀ r, t.capValue r = s.capValue r ∨ ∃ v, t.capValue r = .int v) ∧
    (∀ a, t.mem.slotCap a = s.mem.slotCap a ∨ t.mem.slotCap a = none)) ∧
  (∀ s t, step s = .next t → (s.capstoneEn = true → t.capstoneEn = true) ∧ t.plat = s.plat ∧
    t.inputs = s.inputs.tail)

/-- O59 (R361). When the handler cannot run the hart makes no further progress. A trap into C-mode whose handler cannot be executed (the capability in `ctvec`, or the `pc` capability with the integer of `ctvec` for its cursor: invalid, of a wrong type, without execute permission, out of bounds, misaligned, or over bytes that cannot be fetched) leaves a livelocked state. From a livelocked state in C-mode with no interrupt to take and no event to come (log 16) every step is a fetch fault taken into that handler again, overwriting `cepc`, `mcause`, `mtval`, MPP and MPIE and leaving the registers and memory as they were, for ever. The fault is 1, as the rule says, or 0 for a misaligned cursor (R90). What a capability other than a non-linear one leaves in `ctvec` is the spec's decision D50, the order of the checks D1; bytes the run has stored are log 14. -/
def Obligations.UnusableHandlerLivelocks : Prop :=
  (∀ (s t : State) (interrupt : Bool) (code tval tval2 tinst : Word), UnusableHandler s →
    takeTrapC interrupt code tval tval2 tinst s = .ok t → Livelocked t) ∧
  (∀ s : State, s.inCMode = true → s.inputs = [] → NothingTaken s → Livelocked s →
    ∀ n, ∃ (r t : State) (d : Cap), Host.Core.run core n s = .next r ∧ Host.Core.run core (n + 1) s = .next t ∧
      Livelocked r ∧ Livelocked t ∧ r.regs = s.regs ∧ r.mem = s.mem ∧ t.regs = s.regs ∧ t.mem = s.mem ∧
      r.pc = .cap d ∧ CannotExecute r d ∧ t.csr.mtval = d.cursor ∧
      (d.Barred ∨ d.cursor.toNat % 4 = 0 → t.csr.mcause = 1) ∧
      (¬ d.Barred → d.cursor.toNat % 4 ≠ 0 → t.csr.mcause = 0) ∧
      (∀ h, r.ccsr.ctvec = .cap h → t.pc = .cap h ∧ t.ccsr.cepc = .cap d) ∧
      (∀ h, r.ccsr.ctvec = .int h → t.pc = .cap { d with cursor := h } ∧ t.ccsr.cepc = .int d.cursor ∧
        t.ccsr.ctvec = .int h) ∧
      bitOf t.csr.mstatus 3 = false ∧ bitOf t.csr.mstatus 7 = bitOf r.csr.mstatus 3 ∧
      LevelBits t.csr.mstatus 11 .machine)

/-- O60 (R107). Every step keeps this: two valid capabilities in different places (registers, `pc`, CCSRs, memory slots), neither a revocation capability, whose regions meet are both non-linear; so a linear capability aliases no other capability that grants access. It goes with the memory's canonical form and with what holds before CAPENTER. The rule calls it an invariant the rules are meant to keep; D15, D20 and D50 are the spec's decisions that keep it. -/
def Obligations.LinearCapabilitiesStayExclusive : Prop :=
  KeptByStep fun s => s.LinearExclusive ∧ s.MemWf ∧ s.NoValidCapabilityYet
end

