-- ==== Sys2Proof/Laws/Table.lean ====
section
/-!
SUPPORT. The laws of finite tables: reading after writing and erasing, and that both keep the keys rising.
-/

namespace Sys2Proof.Machine

variable {α β : Type}

@[simp] theorem tableGet_nil (k : Nat) : tableGet k ([] : List (Nat × α)) = none := rfl

theorem tableSorted_cons {e : Nat × α} {t : List (Nat × α)} :
    TableSorted (e :: t) ↔ (∀ x ∈ t, e.1 < x.1) ∧ TableSorted t := List.pairwise_cons

/-- A key below every key of a table is not in it. -/
theorem tableGet_none_of_lt {k : Nat} {t : List (Nat × α)} (h : ∀ x ∈ t, k < x.1) : tableGet k t = none := by
  cases t with
  | nil => rfl
  | cons e t =>
    have := h e (by simp)
    simp only [tableGet]
    rw [if_neg (by omega), if_neg (by omega)]

/-- What a table holds at a key is one of its entries. -/
theorem tableGet_mem {k : Nat} {v : α} {t : List (Nat × α)} (h : tableGet k t = some v) : (k, v) ∈ t := by
  induction t with
  | nil => simp at h
  | cons e t ih =>
    simp only [tableGet] at h
    split at h
    · next he => obtain ⟨a, b⟩ := e; simp_all
    · split at h
      · exact List.mem_cons_of_mem _ (ih h)
      · simp at h

/-- In canonical form every entry can be read at its key. -/
theorem tableGet_of_mem {k : Nat} {v : α} {t : List (Nat × α)} (hs : TableSorted t) (h : (k, v) ∈ t) :
    tableGet k t = some v := by
  induction t with
  | nil => simp at h
  | cons e t ih =>
    rw [tableSorted_cons] at hs
    simp only [tableGet]
    rcases List.mem_cons.mp h with rfl | h
    · simp
    · have := hs.1 _ h
      simp only at this
      rw [if_neg (by omega), if_pos this]
      exact ih hs.2 h

theorem mem_tableSet {k : Nat} {v : α} {x : Nat × α} {t : List (Nat × α)} (h : x ∈ tableSet k v t) :
    x = (k, v) ∨ x ∈ t := by
  induction t with
  | nil => simpa [tableSet] using h
  | cons e t ih =>
    simp only [tableSet] at h
    split at h
    · rcases List.mem_cons.mp h with rfl | h
      · simp
      · rcases ih h with h | h <;> simp [h]
    · split at h <;> rcases List.mem_cons.mp h with rfl | h <;> simp_all

theorem mem_tableErase {k : Nat} {x : Nat × α} {t : List (Nat × α)} (h : x ∈ tableErase k t) : x ∈ t := by
  induction t with
  | nil => simp [tableErase] at h
  | cons e t ih =>
    simp only [tableErase] at h
    split at h
    · rcases List.mem_cons.mp h with rfl | h
      · simp
      · exact List.mem_cons_of_mem _ (ih h)
    · split at h
      · exact List.mem_cons_of_mem _ h
      · exact h

theorem mem_tableSet_self (k : Nat) (v : α) (t : List (Nat × α)) : (k, v) ∈ tableSet k v t := by
  induction t with
  | nil => simp [tableSet]
  | cons e t ih =>
    simp only [tableSet]
    split
    · exact List.mem_cons_of_mem _ ih
    · split <;> simp

theorem tableSet_sorted {k : Nat} {v : α} {t : List (Nat × α)} (h : TableSorted t) :
    TableSorted (tableSet k v t) := by
  induction t with
  | nil => simp [tableSet, TableSorted]
  | cons e t ih =>
    rw [tableSorted_cons] at h
    simp only [tableSet]
    split
    · next hlt =>
      rw [tableSorted_cons]
      refine ⟨fun x hx => ?_, ih h.2⟩
      rcases mem_tableSet hx with rfl | hx
      · exact hlt
      · exact h.1 x hx
    · split
      · next he => rw [tableSorted_cons]; exact ⟨fun x hx => he ▸ h.1 x hx, h.2⟩
      · rw [tableSorted_cons, tableSorted_cons]
        refine ⟨fun x hx => ?_, h⟩
        rcases List.mem_cons.mp hx with rfl | hx
        · omega
        · have := h.1 x hx; simp only; omega

theorem tableErase_sorted {k : Nat} {t : List (Nat × α)} (h : TableSorted t) :
    TableSorted (tableErase k t) := by
  induction t with
  | nil => simp [tableErase, TableSorted]
  | cons e t ih =>
    rw [tableSorted_cons] at h
    simp only [tableErase]
    split
    · rw [tableSorted_cons]; exact ⟨fun x hx => h.1 x (mem_tableErase hx), ih h.2⟩
    · split
      · exact h.2
      · rw [tableSorted_cons]; exact h

/-- The value written is read back at its key, and every other key reads as before. -/
theorem tableGet_tableSet {k j : Nat} {v : α} {t : List (Nat × α)} (h : TableSorted t) :
    tableGet j (tableSet k v t) = if j = k then some v else tableGet j t := by
  induction t with
  | nil =>
    simp only [tableSet, tableGet]
    by_cases hj : j = k
    · simp [hj]
    · have : k ≠ j := fun e => hj e.symm
      simp [hj, this]
  | cons e t ih =>
    have hs := tableSorted_cons.mp h
    simp only [tableSet]
    split
    · next hlt =>
      simp only [tableGet, ih hs.2]
      by_cases hj : j = k
      · subst hj; rw [if_neg (by omega), if_pos hlt]; simp
      · simp [hj]
    · split
      · next he =>
        subst he
        simp only [tableGet]
        by_cases hj : j = e.1
        · subst hj; simp
        · have : e.1 ≠ j := fun x => hj x.symm
          simp [hj, this]
      · next h1 h2 =>
        simp only [tableGet]
        by_cases hj : j = k
        · subst hj; simp
        · have : k ≠ j := fun x => hj x.symm
          rw [if_neg this, if_neg hj]
          by_cases hkj : k < j
          · rw [if_pos hkj]
          · rw [if_neg hkj, if_neg (by omega), if_neg (by omega)]

/-- An erased key reads as absent, and every other key reads as before. -/
theorem tableGet_tableErase {k j : Nat} {t : List (Nat × α)} (h : TableSorted t) :
    tableGet j (tableErase k t) = if j = k then none else tableGet j t := by
  induction t with
  | nil => simp [tableErase]
  | cons e t ih =>
    have hs := tableSorted_cons.mp h
    simp only [tableErase]
    split
    · next hlt =>
      simp only [tableGet, ih hs.2]
      by_cases hj : j = k
      · subst hj; rw [if_neg (by omega), if_pos hlt]; simp
      · simp [hj]
    · split
      · next he =>
        subst he
        by_cases hj : j = e.1
        · subst hj; rw [if_pos rfl]; exact tableGet_none_of_lt hs.1
        · have hne : e.1 ≠ j := fun x => hj x.symm
          simp only [tableGet, if_neg hj, if_neg hne]
          split
          · rfl
          · exact tableGet_none_of_lt fun x hx => by have := hs.1 x hx; omega
      · next h1 h2 =>
        by_cases hj : j = k
        · subst hj; simp only [tableGet, if_neg h2, if_neg h1, if_true]
        · rw [if_neg hj]

theorem tableMap_sorted {f : α → α} {t : List (Nat × α)} (h : TableSorted t) : TableSorted (tableMap f t) := by
  simpa [TableSorted, tableMap, List.pairwise_map] using h

theorem tableGet_tableMap (f : α → α) (k : Nat) (t : List (Nat × α)) :
    tableGet k (tableMap f t) = (tableGet k t).map f := by
  induction t with
  | nil => rfl
  | cons e t ih =>
    simp only [tableMap, List.map_cons, tableGet]
    split
    · rfl
    · split
      · exact ih
      · rfl

theorem mem_tableMap {f : α → α} {x : Nat × α} {t : List (Nat × α)} :
    x ∈ tableMap f t ↔ ∃ v, (x.1, v) ∈ t ∧ x.2 = f v := by
  obtain ⟨a, b⟩ := x
  simp only [tableMap, List.mem_map, Prod.exists, Prod.mk.injEq]
  constructor
  · rintro ⟨c, d, h, rfl, rfl⟩; exact ⟨d, h, rfl⟩
  · rintro ⟨v, h, rfl⟩; exact ⟨a, v, h, rfl, rfl⟩

end Sys2Proof.Machine
end

