-- ==== Sys2Proof/Laws/Memory.lean ====
section
/-!
SUPPORT. The laws of memory: reading after writing for bytes, marks and slots, and that every memory operation keeps the canonical form `Memory.wf`.
-/

namespace Sys2Proof.Machine

theorem slotMask_high : ∀ k : Fin 64, ¬ k.val < 4 → (15#64)[k.val] = false := by decide

/-- The slot of an address, as a number. -/
theorem slotOf_toNat (a : Word) : (slotOf a).toNat = a.toNat / 16 * 16 := by
  have h : slotOf a = (a >>> 4) <<< 4 := by
    unfold slotOf
    ext i hi
    simp only [BitVec.getElem_and, BitVec.getElem_not, BitVec.getElem_shiftLeft, BitVec.getElem_ushiftRight]
    by_cases h4 : i < 4
    · have : i = 0 ∨ i = 1 ∨ i = 2 ∨ i = 3 := by omega
      rcases this with rfl | rfl | rfl | rfl <;> simp
    · have h15 : (15#64)[i] = false := by
        exact slotMask_high ⟨i, hi⟩ h4
      have e : 4 + (i - 4) = i := by omega
      simp [h4, h15, e, BitVec.getLsbD_eq_getElem hi]
  rw [h]
  simp only [BitVec.toNat_shiftLeft, BitVec.toNat_ushiftRight, Nat.shiftRight_eq_div_pow, Nat.shiftLeft_eq]
  omega

theorem slotOf_aligned (a : Word) : (slotOf a).toNat % 16 = 0 := by rw [slotOf_toNat]; omega

theorem slotOf_eq_of_aligned {a : Word} (h : a.toNat % 16 = 0) : slotOf a = a := by
  apply BitVec.eq_of_toNat_eq; rw [slotOf_toNat]; omega

theorem slotOf_slotOf (a : Word) : slotOf (slotOf a) = slotOf a := slotOf_eq_of_aligned (slotOf_aligned a)

theorem word_toNat_ne {a b : Word} (h : a ≠ b) : a.toNat ≠ b.toNat := fun e => h (BitVec.eq_of_toNat_eq e)

/-- Adding a small offset to an address. -/
theorem add_offset_toNat (a : Word) (i : Nat) (h : a.toNat + i < 2 ^ 64) :
    (a + BitVec.ofNat 64 i).toNat = a.toNat + i := by
  rw [BitVec.toNat_add, BitVec.toNat_ofNat]; omega

/-! ### Single bytes -/

/-- The three tables of a memory are in canonical form. -/
def Memory.sorted (m : Memory) : Prop := TableSorted m.bytes ∧ TableSorted m.caps ∧ TableSorted m.marks

theorem Memory.wf.sorted {m : Memory} (h : m.wf) : m.sorted := ⟨h.1, h.2.1, h.2.2.1⟩

@[simp] theorem Memory.setByte_marks (m : Memory) (a : Word) (b : Byte) : (m.setByte a b).marks = m.marks := rfl
@[simp] theorem Memory.setByte_caps (m : Memory) (a : Word) (b : Byte) : (m.setByte a b).caps = m.caps := rfl

theorem Memory.setByte_bytes_sorted {m : Memory} (a : Word) (b : Byte) (h : TableSorted m.bytes) :
    TableSorted (m.setByte a b).bytes := by
  simp only [Memory.setByte]; split
  · exact tableErase_sorted h
  · exact tableSet_sorted h

/-- Reading a byte after setting one. -/
theorem Memory.setByte_byte {m : Memory} (a c : Word) (b : Byte) (h : TableSorted m.bytes) :
    (m.setByte a b).byte c = if c = a then b else m.byte c := by
  simp only [Memory.byte, Memory.setByte]
  by_cases hb : b = 0
  · subst hb
    rw [if_pos rfl, tableGet_tableErase h]
    by_cases hc : c = a
    · subst hc; simp
    · rw [if_neg (word_toNat_ne hc), if_neg hc]
  · rw [if_neg hb, tableGet_tableSet h]
    by_cases hc : c = a
    · subst hc; simp
    · rw [if_neg (word_toNat_ne hc), if_neg hc]

theorem Memory.storeByte_sorted {m : Memory} (a : Word) (b : Byte) (h : m.sorted) : (m.storeByte a b).sorted :=
  ⟨m.setByte_bytes_sorted a b h.1, tableErase_sorted h.2.1, tableSet_sorted h.2.2⟩

theorem Memory.storeByte_byte {m : Memory} (a c : Word) (b : Byte) (h : m.sorted) :
    (m.storeByte a b).byte c = if c = a then b else m.byte c := m.setByte_byte a c b h.1

theorem Memory.storeByte_mark {m : Memory} (a c : Word) (b : Byte) (h : m.sorted) :
    (m.storeByte a b).mark c = if c = a then some .intStored else m.mark c := by
  simp only [Memory.mark, Memory.storeByte]
  rw [tableGet_tableSet h.2.2]
  by_cases hc : c = a
  · simp [hc]
  · rw [if_neg (word_toNat_ne hc), if_neg hc]

theorem Memory.storeByte_slotCap {m : Memory} (a c : Word) (b : Byte) (h : m.sorted) :
    (m.storeByte a b).slotCap c = if slotOf c = slotOf a then none else m.slotCap c := by
  simp only [Memory.slotCap, Memory.storeByte]
  rw [tableGet_tableErase h.2.1]
  by_cases hc : slotOf c = slotOf a
  · simp [hc]
  · rw [if_neg (word_toNat_ne hc), if_neg hc]

theorem Memory.storeByte_wf {m : Memory} (a : Word) (b : Byte) (h : m.wf) : (m.storeByte a b).wf := by
  have hs := m.storeByte_sorted a b h.sorted
  refine ⟨hs.1, hs.2.1, hs.2.2, ?_, ?_, ?_⟩
  · intro e he
    have hm : ∀ k, tableGet k (m.storeByte a b).marks =
        if k = a.toNat then some .intStored else tableGet k m.marks := fun k => tableGet_tableSet h.2.2.1
    rw [hm]
    simp only [Memory.storeByte, Memory.setByte] at he
    by_cases hb : b = 0
    · rw [if_pos hb] at he
      obtain ⟨h1, h2, h3⟩ := h.2.2.2.1 e (mem_tableErase he)
      refine ⟨h1, h2, ?_⟩
      split
      · simp
      · exact h3
    · rw [if_neg hb] at he
      rcases mem_tableSet he with rfl | he
      · exact ⟨a.isLt, hb, by simp⟩
      · obtain ⟨h1, h2, h3⟩ := h.2.2.2.1 e he
        refine ⟨h1, h2, ?_⟩
        split
        · simp
        · exact h3
  · intro e he
    have hmem := mem_tableErase he
    obtain ⟨h1, h2, h3⟩ := h.2.2.2.2.1 e hmem
    refine ⟨h1, h2, fun i hi => ?_⟩
    have hne : e.1 ≠ (slotOf a).toNat := by
      intro heq
      have hget := tableGet_tableErase (k := (slotOf a).toNat) (j := e.1) h.2.1
      rw [if_pos heq] at hget
      have := tableGet_of_mem (tableErase_sorted h.2.1) (k := e.1) (v := e.2) he
      rw [this] at hget; simp at hget
    have : e.1 + i ≠ a.toNat := by rw [slotOf_toNat] at hne; omega
    show tableGet (e.1 + i) (tableSet a.toNat .intStored m.marks) = _
    rw [tableGet_tableSet h.2.2.1, if_neg this]
    exact h3 i hi
  · intro e he
    rcases mem_tableSet he with rfl | he
    · exact a.isLt
    · exact h.2.2.2.2.2 e he

/-! ### Integer stores -/

theorem Memory.storeBytes_wf {m : Memory} (a v : Word) (n : Nat) (h : m.wf) : (m.storeBytes a v n).wf := by
  induction n generalizing m a v with
  | zero => exact h
  | succ n ih => exact ih _ _ (m.storeByte_wf a _ h)

theorem Memory.storeBytes_sorted {m : Memory} (a v : Word) (n : Nat) (h : m.sorted) :
    (m.storeBytes a v n).sorted := by
  induction n generalizing m a v with
  | zero => exact h
  | succ n ih => exact ih _ _ (m.storeByte_sorted a _ h)

/-- Is `c` one of the `n` bytes from `a` upward, addresses wrapping modulo 2^64? -/
def inRange (a c : Word) (n : Nat) : Prop := (c - a).toNat < n

theorem inRange_zero (a c : Word) : ¬ inRange a c 0 := by simp [inRange]

theorem sub_next (c a : Word) : c - (a + 1) = (c - a) - 1 := by bv_omega

theorem add_succ_offset (a : Word) (k : Nat) : a + BitVec.ofNat 64 (k + 1) = (a + 1) + BitVec.ofNat 64 k := by
  rw [BitVec.add_assoc]; congr 1
  have one : (1 : Word).toNat = 1 := rfl
  apply BitVec.eq_of_toNat_eq
  simp only [BitVec.toNat_ofNat, BitVec.toNat_add, one]; omega

theorem inRange_succ (a c : Word) (n : Nat) :
    inRange a c (n + 1) ↔ c = a ∨ inRange (a + 1) c n := by
  unfold inRange
  rw [sub_next]
  by_cases h : c = a
  · subst h; simp
  · have h0 : (c - a).toNat ≠ 0 := by
      intro hz
      apply h
      have : c - a = 0 := BitVec.eq_of_toNat_eq (by simpa using hz)
      have := congrArg (· + a) this
      simpa [BitVec.sub_add_cancel] using this
    have : ((c - a) - 1).toNat = (c - a).toNat - 1 := by
      have hl : (1 : Word).toNat = 1 := rfl
      rw [BitVec.toNat_sub, hl]
      have := (c - a).isLt
      omega
    rw [this]
    simp only [h, false_or]
    omega

/-- A byte outside the stored ones reads as before. -/
theorem Memory.storeBytes_byte_outside {m : Memory} (a v c : Word) (n : Nat) (hn : n ≤ 2 ^ 64) (h : m.sorted)
    (hc : ¬ inRange a c n) : (m.storeBytes a v n).byte c = m.byte c := by
  induction n generalizing m a v with
  | zero => rfl
  | succ n ih =>
    rw [inRange_succ, not_or] at hc
    show ((m.storeByte a _).storeBytes (a + 1) _ n).byte c = _
    rw [ih _ _ (by omega) (m.storeByte_sorted a _ h) hc.2, m.storeByte_byte a c _ h, if_neg hc.1]

/-- The mark of a byte outside the stored ones is as before. -/
theorem Memory.storeBytes_mark_outside {m : Memory} (a v c : Word) (n : Nat) (hn : n ≤ 2 ^ 64) (h : m.sorted)
    (hc : ¬ inRange a c n) : (m.storeBytes a v n).mark c = m.mark c := by
  induction n generalizing m a v with
  | zero => rfl
  | succ n ih =>
    rw [inRange_succ, not_or] at hc
    show ((m.storeByte a _).storeBytes (a + 1) _ n).mark c = _
    rw [ih _ _ (by omega) (m.storeByte_sorted a _ h) hc.2, m.storeByte_mark a c _ h, if_neg hc.1]

theorem not_inRange_next (a : Word) (n : Nat) (hn : n < 2 ^ 64) : ¬ inRange (a + 1) a n := by
  unfold inRange
  have : a - (a + 1) = BitVec.allOnes 64 := by rw [sub_next, BitVec.sub_self]; rfl
  rw [this]
  have : (BitVec.allOnes 64).toNat = 2 ^ 64 - 1 := rfl
  omega

/-- The stored bytes read as the bytes of the value, the lowest address the least significant (R86, R92). -/
theorem Memory.storeBytes_byte_inside {m : Memory} (a v : Word) (n k : Nat) (hn : n ≤ 8) (hk : k < n) (h : m.sorted) :
    (m.storeBytes a v n).byte (a + BitVec.ofNat 64 k) = v.extractLsb' (8 * k) 8 := by
  induction n generalizing m a v k with
  | zero => omega
  | succ n ih =>
    show ((m.storeByte a _).storeBytes (a + 1) (v >>> 8) n).byte _ = _
    cases k with
    | zero =>
      have e : a + BitVec.ofNat 64 0 = a := by simp
      rw [e, storeBytes_byte_outside _ _ _ _ (by omega) (m.storeByte_sorted a _ h)
        (not_inRange_next a n (by omega)), m.storeByte_byte a a _ h, if_pos rfl]
      ext i hi
      simp [BitVec.getElem_setWidth, BitVec.getElem_extractLsb']
    | succ k =>
      rw [add_succ_offset, ih _ _ _ (by omega) (by omega) (m.storeByte_sorted a _ h)]
      ext i hi
      simp only [BitVec.getElem_extractLsb', BitVec.getLsbD_ushiftRight]
      congr 1; omega

/-- The stored bytes are marked as integer stores: defined, and not to be fetched (R86, R104). -/
theorem Memory.storeBytes_mark_inside {m : Memory} (a v : Word) (n k : Nat) (hn : n ≤ 8) (hk : k < n) (h : m.sorted) :
    (m.storeBytes a v n).mark (a + BitVec.ofNat 64 k) = some .intStored := by
  induction n generalizing m a v k with
  | zero => omega
  | succ n ih =>
    show ((m.storeByte a _).storeBytes (a + 1) (v >>> 8) n).mark _ = _
    cases k with
    | zero =>
      have e : a + BitVec.ofNat 64 0 = a := by simp
      rw [e, storeBytes_mark_outside _ _ _ _ (by omega) (m.storeByte_sorted a _ h)
        (not_inRange_next a n (by omega)), m.storeByte_mark a a _ h, if_pos rfl]
    | succ k =>
      rw [add_succ_offset, ih _ _ _ (by omega) (by omega) (m.storeByte_sorted a _ h)]

/-- The `n` bytes from `a` lie in one slot. -/
theorem slotOf_add {a : Word} {n k : Nat} (hn : n = 1 ∨ n = 2 ∨ n = 4 ∨ n = 8 ∨ n = 16) (ha : a.toNat % n = 0)
    (hk : k < n) : slotOf (a + BitVec.ofNat 64 k) = slotOf a := by
  have hlt := a.isLt
  have e : (a + BitVec.ofNat 64 k).toNat = a.toNat + k := by
    apply add_offset_toNat
    rcases hn with rfl | rfl | rfl | rfl | rfl <;> omega
  apply BitVec.eq_of_toNat_eq
  rw [slotOf_toNat, slotOf_toNat, e]
  rcases hn with rfl | rfl | rfl | rfl | rfl <;> omega

/-- An integer store leaves every slot that holds none of its bytes alone, and clears the others (R86). -/
theorem Memory.storeBytes_slotCap {m : Memory} (a v c : Word) (n : Nat) (hn : n ≤ 8) (h : m.sorted) :
    (m.storeBytes a v n).slotCap c =
      if ∃ k < n, slotOf c = slotOf (a + BitVec.ofNat 64 k) then none else m.slotCap c := by
  induction n generalizing m a v with
  | zero => simp [Memory.storeBytes]
  | succ n ih =>
    show ((m.storeByte a _).storeBytes (a + 1) (v >>> 8) n).slotCap c = _
    rw [ih _ _ (by omega) (m.storeByte_sorted a _ h), m.storeByte_slotCap a c _ h]
    have e := add_succ_offset a
    by_cases h1 : ∃ k < n, slotOf c = slotOf (a + 1 + BitVec.ofNat 64 k)
    · rw [if_pos h1]
      obtain ⟨k, hk, hc⟩ := h1
      rw [if_pos ⟨k + 1, by omega, by rw [e]; exact hc⟩]
    · rw [if_neg h1]
      by_cases h0 : slotOf c = slotOf a
      · rw [if_pos h0, if_pos ⟨0, by omega, by simpa using h0⟩]
      · rw [if_neg h0, if_neg]
        rintro ⟨k, hk, hc⟩
        cases k with
        | zero => exact h0 (by simpa using hc)
        | succ k => exact h1 ⟨k, by omega, by rw [← e]; exact hc⟩

/-- An aligned integer store touches exactly one slot (R86, R95). -/
theorem Memory.writeInt_slotCap {m : Memory} (a v c : Word) (n : Nat) (hn : n = 1 ∨ n = 2 ∨ n = 4 ∨ n = 8)
    (ha : a.toNat % n = 0) (h : m.sorted) :
    (m.writeInt a n v).slotCap c = if slotOf c = slotOf a then none else m.slotCap c := by
  have hn' : n = 1 ∨ n = 2 ∨ n = 4 ∨ n = 8 ∨ n = 16 := by omega
  rw [Memory.writeInt, m.storeBytes_slotCap a v c n (by omega) h]
  by_cases hc : slotOf c = slotOf a
  · rw [if_pos hc, if_pos ⟨0, by omega, by simpa using hc⟩]
  · rw [if_neg hc, if_neg]
    rintro ⟨k, hk, he⟩
    exact hc (he.trans (slotOf_add hn' ha hk))

theorem Memory.writeInt_wf {m : Memory} (a : Word) (n : Nat) (v : Word) (h : m.wf) : (m.writeInt a n v).wf :=
  m.storeBytes_wf a v n h

/-! ### Capability stores -/

/-- The step of `undefine`. -/
def Memory.undefineByte (m : Memory) (a : Word) : Memory :=
  { m.setByte a 0 with marks := tableSet a.toNat .capStored m.marks }

theorem Memory.undefine_succ (m : Memory) (a : Word) (n : Nat) :
    m.undefine a (n + 1) = (m.undefineByte a).undefine (a + 1) n := rfl

theorem Memory.undefineByte_sorted {m : Memory} (a : Word) (h : m.sorted) : (m.undefineByte a).sorted :=
  ⟨m.setByte_bytes_sorted a 0 h.1, h.2.1, tableSet_sorted h.2.2⟩

theorem Memory.undefineByte_wf {m : Memory} (a : Word) (h : m.wf) : (m.undefineByte a).wf := by
  have hs := m.undefineByte_sorted a h.sorted
  have hm : ∀ k, tableGet k (m.undefineByte a).marks =
      if k = a.toNat then some .capStored else tableGet k m.marks := fun k => tableGet_tableSet h.2.2.1
  refine ⟨hs.1, hs.2.1, hs.2.2, ?_, ?_, ?_⟩
  · intro e he
    rw [hm]
    have he' : e ∈ tableErase a.toNat m.bytes := by simpa [Memory.undefineByte, Memory.setByte] using he
    obtain ⟨h1, h2, h3⟩ := h.2.2.2.1 e (mem_tableErase he')
    have hne : e.1 ≠ a.toNat := by
      intro heq
      have hg := tableGet_tableErase (k := a.toNat) (j := e.1) h.1
      rw [if_pos heq, tableGet_of_mem (tableErase_sorted h.1) (k := e.1) (v := e.2) he'] at hg
      simp at hg
    rw [if_neg hne]
    exact ⟨h1, h2, h3⟩
  · intro e he
    obtain ⟨h1, h2, h3⟩ := h.2.2.2.2.1 e he
    refine ⟨h1, h2, fun i hi => ?_⟩
    rw [hm]; split
    · rfl
    · exact h3 i hi
  · intro e he
    rcases mem_tableSet he with rfl | he
    · exact a.isLt
    · exact h.2.2.2.2.2 e he

theorem Memory.undefine_sorted {m : Memory} (a : Word) (n : Nat) (h : m.sorted) : (m.undefine a n).sorted := by
  induction n generalizing m a with
  | zero => exact h
  | succ n ih => exact ih _ (m.undefineByte_sorted a h)

theorem Memory.undefine_wf {m : Memory} (a : Word) (n : Nat) (h : m.wf) : (m.undefine a n).wf := by
  induction n generalizing m a with
  | zero => exact h
  | succ n ih => exact ih _ (m.undefineByte_wf a h)

@[simp] theorem Memory.undefine_caps (m : Memory) (a : Word) (n : Nat) : (m.undefine a n).caps = m.caps := by
  induction n generalizing m a with
  | zero => rfl
  | succ n ih => rw [m.undefine_succ, ih]; rfl

theorem Memory.undefine_outside {m : Memory} (a c : Word) (n : Nat) (hn : n ≤ 2 ^ 64) (h : m.sorted)
    (hc : ¬ inRange a c n) : (m.undefine a n).byte c = m.byte c ∧ (m.undefine a n).mark c = m.mark c := by
  induction n generalizing m a with
  | zero => exact ⟨rfl, rfl⟩
  | succ n ih =>
    rw [inRange_succ, not_or] at hc
    rw [m.undefine_succ]
    obtain ⟨h1, h2⟩ := ih _ (by omega) (m.undefineByte_sorted a h) hc.2
    rw [h1, h2]
    refine ⟨?_, ?_⟩
    · show (m.setByte a 0).byte c = _
      rw [m.setByte_byte a c 0 h.1, if_neg hc.1]
    · show tableGet c.toNat (tableSet a.toNat .capStored m.marks) = _
      rw [tableGet_tableSet h.2.2, if_neg (word_toNat_ne hc.1)]; rfl

theorem Memory.undefine_inside {m : Memory} (a c : Word) (n : Nat) (hn : n ≤ 2 ^ 64) (h : m.sorted)
    (hc : inRange a c n) : (m.undefine a n).mark c = some .capStored := by
  induction n generalizing m a with
  | zero => exact absurd hc (inRange_zero a c)
  | succ n ih =>
    rw [m.undefine_succ]
    by_cases hr : inRange (a + 1) c n
    · exact ih _ (by omega) (m.undefineByte_sorted a h) hr
    · rw [(undefine_outside (a + 1) c n (by omega) (m.undefineByte_sorted a h) hr).2]
      rw [inRange_succ] at hc
      rcases hc with rfl | hc
      · show tableGet c.toNat (tableSet c.toNat .capStored m.marks) = _
        rw [tableGet_tableSet h.2.2, if_pos rfl]
      · exact absurd hc hr

theorem inRange_slot {s c : Word} (hs : s.toNat % 16 = 0) : inRange s c 16 ↔ slotOf c = s := by
  unfold inRange
  have hl := s.isLt
  have hc := c.isLt
  have e : slotOf c = s ↔ c.toNat / 16 * 16 = s.toNat := by
    rw [← slotOf_toNat]; exact ⟨fun h => by rw [h], fun h => BitVec.eq_of_toNat_eq h⟩
  rw [e, BitVec.toNat_sub]
  omega

@[simp] theorem Memory.writeSlot_cap_caps (m : Memory) (a : Word) (c : Cap) :
    (m.writeSlot a (.cap c)).caps = tableSet (slotOf a).toNat c m.caps := by
  simp only [Memory.writeSlot, Memory.undefine_caps]

theorem Memory.writeSlot_cap_byte (m : Memory) (a q : Word) (c : Cap) :
    (m.writeSlot a (.cap c)).byte q = (m.undefine (slotOf a) 16).byte q := by
  simp only [Memory.writeSlot, Memory.byte]

theorem Memory.writeSlot_cap_mark_eq (m : Memory) (a q : Word) (c : Cap) :
    (m.writeSlot a (.cap c)).mark q = (m.undefine (slotOf a) 16).mark q := by
  simp only [Memory.writeSlot, Memory.mark]

/-- The 16 bytes of a capability store are undefined for integer loads (R87). -/
theorem Memory.writeSlot_cap_mark {m : Memory} (a q : Word) (c : Cap) (h : m.sorted) (hq : slotOf q = slotOf a) :
    (m.writeSlot a (.cap c)).mark q = some .capStored := by
  rw [m.writeSlot_cap_mark_eq]
  exact Memory.undefine_inside _ _ _ (by omega) h (by rw [inRange_slot (slotOf_aligned a)]; exact hq)

/-- Bytes and marks outside the slot of a capability store are as before (R87). -/
theorem Memory.writeSlot_cap_outside {m : Memory} (a q : Word) (c : Cap) (h : m.sorted) (hq : slotOf q ≠ slotOf a) :
    (m.writeSlot a (.cap c)).byte q = m.byte q ∧ (m.writeSlot a (.cap c)).mark q = m.mark q := by
  rw [m.writeSlot_cap_mark_eq, m.writeSlot_cap_byte]
  exact Memory.undefine_outside _ _ _ (by omega) h (by rw [inRange_slot (slotOf_aligned a)]; exact hq)

/-- A stored capability is read back from its slot, every other slot as before (R87). -/
theorem Memory.writeSlot_cap_slotCap {m : Memory} (a q : Word) (c : Cap) (h : m.sorted) :
    (m.writeSlot a (.cap c)).slotCap q = if slotOf q = slotOf a then some c else m.slotCap q := by
  rw [Memory.slotCap, m.writeSlot_cap_caps, tableGet_tableSet h.2.1]
  by_cases hq : slotOf q = slotOf a
  · simp [hq]
  · rw [if_neg (word_toNat_ne hq), if_neg hq]; rfl

theorem Memory.writeSlot_cap_tables (m : Memory) (a : Word) (c : Cap) :
    (m.writeSlot a (.cap c)).bytes = (m.undefine (slotOf a) 16).bytes ∧
      (m.writeSlot a (.cap c)).marks = (m.undefine (slotOf a) 16).marks := by
  simp only [Memory.writeSlot, and_self]

theorem Memory.writeSlot_cap_wf {m : Memory} (a : Word) (c : Cap) (h : m.wf) : (m.writeSlot a (.cap c)).wf := by
  have hw := m.undefine_wf (slotOf a) 16 h
  have hal := slotOf_aligned a
  have hlt := (slotOf a).isLt
  obtain ⟨hb, hm⟩ := m.writeSlot_cap_tables a c
  have hc := m.writeSlot_cap_caps a c
  have hmk : ∀ q, slotOf q = slotOf a → (m.writeSlot a (.cap c)).mark q = some .capStored :=
    fun q hq => m.writeSlot_cap_mark a q c h.sorted hq
  generalize hM : m.writeSlot a (.cap c) = M at *
  generalize hU : m.undefine (slotOf a) 16 = U at *
  have hUc : U.caps = m.caps := by rw [← hU, Memory.undefine_caps]
  unfold Memory.wf
  rw [hb, hm, hc]
  refine ⟨hw.1, tableSet_sorted (hUc ▸ hw.2.1), hw.2.2.1, hw.2.2.2.1, ?_, hw.2.2.2.2.2⟩
  intro e he
  rcases mem_tableSet he with rfl | he
  · refine ⟨hlt, hal, fun i hi => ?_⟩
    have e1 := add_offset_toNat (slotOf a) i (by omega)
    have := hmk (slotOf a + BitVec.ofNat 64 i) (by
      apply BitVec.eq_of_toNat_eq; rw [slotOf_toNat, e1]; omega)
    rw [Memory.mark, e1, hm] at this
    exact this
  · exact hw.2.2.2.2.1 e (hUc ▸ he)

/-- Storing a value into a slot keeps the canonical form (R87, R88). -/
theorem Memory.writeSlot_wf {m : Memory} (a : Word) (v : Value) (h : m.wf) : (m.writeSlot a v).wf := by
  cases v with
  | cap c => exact m.writeSlot_cap_wf a c h
  | int v => exact m.writeInt_wf a 8 v h

/-! ### Integer loads -/

/-- The number of `n` bytes fits in `n` bytes (R84). -/
theorem Memory.rawInt_lt (m : Memory) (a : Word) (n : Nat) : m.rawInt a n < 2 ^ (8 * n) := by
  induction n generalizing a with
  | zero => simp [Memory.rawInt]
  | succ n ih =>
    have h1 := ih (a + 1)
    have h2 := (m.byte a).isLt
    have e : 2 ^ (8 * (n + 1)) = 256 * 2 ^ (8 * n) := by rw [Nat.mul_add, Nat.pow_add]; omega
    rw [Memory.rawInt, e]
    omega

/-- Byte `k` of the number read is the byte of memory at offset `k` (R84, R92). -/
theorem Memory.rawInt_byte (m : Memory) (a : Word) (n k : Nat) (hk : k < n) :
    m.rawInt a n / 2 ^ (8 * k) % 256 = (m.byte (a + BitVec.ofNat 64 k)).toNat := by
  induction n generalizing a k with
  | zero => omega
  | succ n ih =>
    have hb := (m.byte a).isLt
    cases k with
    | zero =>
      have e : a + BitVec.ofNat 64 0 = a := by simp
      rw [e, Memory.rawInt]; simp only [Nat.mul_zero, Nat.pow_zero, Nat.div_one]; omega
    | succ k =>
      have e : 2 ^ (8 * (k + 1)) = 256 * 2 ^ (8 * k) := by rw [Nat.mul_add, Nat.pow_add]; omega
      rw [add_succ_offset, ← ih (a + 1) k (by omega), Memory.rawInt, e, ← Nat.div_div_eq_div_mul]
      congr 2; omega

/-- An integer load of defined bytes: byte `k` of the result is the byte of memory at offset `k` (R84). -/
theorem Memory.readInt_byte (m : Memory) (draw : Nat) (a : Word) (n k : Nat) (hk : k < n) (hn : n ≤ 8)
    (hd : m.definedRange a n = true) :
    (m.readInt draw a n).extractLsb' (8 * k) 8 = m.byte (a + BitVec.ofNat 64 k) := by
  have hlt := m.rawInt_lt a n
  have h64 : 2 ^ (8 * n) ≤ 2 ^ 64 := Nat.pow_le_pow_right (by decide) (by omega)
  apply BitVec.eq_of_toNat_eq
  have e : m.rawInt a n % 2 ^ 64 = m.rawInt a n := Nat.mod_eq_of_lt (by omega)
  rw [Memory.readInt, if_pos hd, BitVec.extractLsb'_toNat, BitVec.toNat_ofNat, Nat.shiftRight_eq_div_pow,
    e, ← m.rawInt_byte a n k hk]

/-- An integer load fits in its bytes, defined or not (R84). -/
theorem Memory.readInt_lt (m : Memory) (draw : Nat) (a : Word) (n : Nat) (hn : n ≤ 8) :
    (m.readInt draw a n).toNat < 2 ^ (8 * n) := by
  have h64 : 2 ^ (8 * n) ≤ 2 ^ 64 := Nat.pow_le_pow_right (by decide) (by omega)
  have hpos : 0 < 2 ^ (8 * n) := Nat.two_pow_pos _
  unfold Memory.readInt
  split
  · have := m.rawInt_lt a n
    rw [BitVec.toNat_ofNat, Nat.mod_eq_of_lt (by omega)]; exact this
  · have := Nat.mod_lt (Config.undefinedLoad draw a).toNat hpos
    rw [BitVec.toNat_ofNat, Nat.mod_eq_of_lt (by omega)]; exact this

/-! ### Capabilities rewritten in place, and the context procedures -/

theorem Memory.mapCaps_wf {m : Memory} (f : Cap → Cap) (h : m.wf) : (m.mapCaps f).wf := by
  refine ⟨h.1, tableMap_sorted h.2.1, h.2.2.1, h.2.2.2.1, ?_, h.2.2.2.2.2⟩
  intro e he
  obtain ⟨v, hv, -⟩ := mem_tableMap.mp he
  exact h.2.2.2.2.1 (e.1, v) hv

theorem Memory.mapCaps_slotCap (m : Memory) (f : Cap → Cap) (a : Word) :
    (m.mapCaps f).slotCap a = (m.slotCap a).map f := tableGet_tableMap f _ _

theorem Memory.writeSlots_wf {m : Memory} (a : Word) (l : List Value) (h : m.wf) : (m.writeSlots a l).wf := by
  induction l generalizing m a with
  | nil => exact h
  | cons v l ih => exact ih _ (m.writeSlot_wf a v h)

theorem Memory.writeWords_wf {m : Memory} (a : Word) (l : List Word) (h : m.wf) : (m.writeWords a l).wf := by
  induction l generalizing m a with
  | nil => exact h
  | cons v l ih => exact ih _ (m.writeInt_wf a 8 v h)

theorem Memory.saveCEff_wf {m : Memory} (B : Word) (e : CEff) (h : m.wf) : (m.saveCEff B e).wf :=
  Memory.writeWords_wf _ _ (m.writeSlots_wf _ _ h)

theorem Memory.saveDomain_wf {m : Memory} (B : Word) (d : Domain) (h : m.wf) : (m.saveDomain B d).wf :=
  Memory.writeWords_wf _ _ (Memory.writeSlots_wf _ _ (Memory.writeWords_wf _ _ (m.saveCEff_wf B d.ceff h)))

theorem Memory.clearMoved_wf {m : Memory} (a : Word) (n : Nat) (h : m.wf) : (m.clearMoved a n).wf := by
  induction n generalizing m a with
  | zero => exact h
  | succ n ih =>
    unfold Memory.clearMoved
    apply ih
    split
    · split
      · exact h
      · exact m.writeSlot_wf a _ h
    · exact h

theorem Memory.placeByte_wf {m : Memory} (a : Word) (b : Byte) (h : m.wf) : (m.placeByte a b).wf := by
  have hm : ∀ k, tableGet k (m.placeByte a b).marks = if k = a.toNat then none else tableGet k m.marks :=
    fun k => tableGet_tableErase h.2.2.1
  refine ⟨m.setByte_bytes_sorted a b h.1, tableErase_sorted h.2.1, tableErase_sorted h.2.2.1, ?_, ?_, ?_⟩
  · intro e he
    rw [hm]
    simp only [Memory.placeByte, Memory.setByte] at he
    by_cases hb : b = 0
    · rw [if_pos hb] at he
      obtain ⟨h1, h2, h3⟩ := h.2.2.2.1 e (mem_tableErase he)
      refine ⟨h1, h2, ?_⟩
      split
      · simp
      · exact h3
    · rw [if_neg hb] at he
      rcases mem_tableSet he with rfl | he
      · exact ⟨a.isLt, hb, by simp⟩
      · obtain ⟨h1, h2, h3⟩ := h.2.2.2.1 e he
        refine ⟨h1, h2, ?_⟩
        split
        · simp
        · exact h3
  · intro e he
    obtain ⟨h1, h2, h3⟩ := h.2.2.2.2.1 e (mem_tableErase he)
    refine ⟨h1, h2, fun i hi => ?_⟩
    have hne : e.1 ≠ (slotOf a).toNat := by
      intro heq
      have hget := tableGet_tableErase (k := (slotOf a).toNat) (j := e.1) h.2.1
      rw [if_pos heq, tableGet_of_mem (tableErase_sorted h.2.1) (k := e.1) (v := e.2) he] at hget
      simp at hget
    have : e.1 + i ≠ a.toNat := by rw [slotOf_toNat] at hne; omega
    rw [hm, if_neg this]
    exact h3 i hi
  · intro e he
    exact h.2.2.2.2.2 e (mem_tableErase he)

/-- Placing an instruction's bytes keeps the canonical form (log 1). -/
theorem Memory.placeBytes_wf {m : Memory} (a : Word) (l : List Byte) (h : m.wf) : (m.placeBytes a l).wf := by
  induction l generalizing m a with
  | nil => exact h
  | cons b l ih => exact ih _ (m.placeByte_wf a b h)

end Sys2Proof.Machine
end

