-- ==== Sys2Proof/Laws/State.lean ====
section
/-!
SUPPORT. One lemma per field per update of the state, so that no proof unfolds a record update, and what a register reads after each update.
-/

namespace Sys2Proof.Machine
@[simp] theorem State.setPc_regs (s : State) (v : Value) : (s.setPc v).regs = s.regs := rfl
@[simp] theorem State.setPc_pc (s : State) (v : Value) : (s.setPc v).pc = v := rfl
@[simp] theorem State.setPc_priv (s : State) (v : Value) : (s.setPc v).priv = s.priv := rfl
@[simp] theorem State.setPc_capstoneEn (s : State) (v : Value) : (s.setPc v).capstoneEn = s.capstoneEn := rfl
@[simp] theorem State.setPc_ccsr (s : State) (v : Value) : (s.setPc v).ccsr = s.ccsr := rfl
@[simp] theorem State.setPc_csr (s : State) (v : Value) : (s.setPc v).csr = s.csr := rfl
@[simp] theorem State.setPc_revClock (s : State) (v : Value) : (s.setPc v).revClock = s.revClock := rfl
@[simp] theorem State.setPc_mem (s : State) (v : Value) : (s.setPc v).mem = s.mem := rfl
@[simp] theorem State.setPc_draws (s : State) (v : Value) : (s.setPc v).draws = s.draws := rfl
@[simp] theorem State.setPc_inputs (s : State) (v : Value) : (s.setPc v).inputs = s.inputs := rfl
@[simp] theorem State.setPc_plat (s : State) (v : Value) : (s.setPc v).plat = s.plat := rfl

@[simp] theorem State.setMem_regs (s : State) (m : Memory) : (s.setMem m).regs = s.regs := rfl
@[simp] theorem State.setMem_pc (s : State) (m : Memory) : (s.setMem m).pc = s.pc := rfl
@[simp] theorem State.setMem_priv (s : State) (m : Memory) : (s.setMem m).priv = s.priv := rfl
@[simp] theorem State.setMem_capstoneEn (s : State) (m : Memory) : (s.setMem m).capstoneEn = s.capstoneEn := rfl
@[simp] theorem State.setMem_ccsr (s : State) (m : Memory) : (s.setMem m).ccsr = s.ccsr := rfl
@[simp] theorem State.setMem_csr (s : State) (m : Memory) : (s.setMem m).csr = s.csr := rfl
@[simp] theorem State.setMem_revClock (s : State) (m : Memory) : (s.setMem m).revClock = s.revClock := rfl
@[simp] theorem State.setMem_mem (s : State) (m : Memory) : (s.setMem m).mem = m := rfl
@[simp] theorem State.setMem_draws (s : State) (m : Memory) : (s.setMem m).draws = s.draws := rfl
@[simp] theorem State.setMem_inputs (s : State) (m : Memory) : (s.setMem m).inputs = s.inputs := rfl
@[simp] theorem State.setMem_plat (s : State) (m : Memory) : (s.setMem m).plat = s.plat := rfl

@[simp] theorem State.setCsr_regs (s : State) (c : Csrs) : (s.setCsr c).regs = s.regs := rfl
@[simp] theorem State.setCsr_pc (s : State) (c : Csrs) : (s.setCsr c).pc = s.pc := rfl
@[simp] theorem State.setCsr_priv (s : State) (c : Csrs) : (s.setCsr c).priv = s.priv := rfl
@[simp] theorem State.setCsr_capstoneEn (s : State) (c : Csrs) : (s.setCsr c).capstoneEn = s.capstoneEn := rfl
@[simp] theorem State.setCsr_ccsr (s : State) (c : Csrs) : (s.setCsr c).ccsr = s.ccsr := rfl
@[simp] theorem State.setCsr_csr (s : State) (c : Csrs) : (s.setCsr c).csr = c := rfl
@[simp] theorem State.setCsr_revClock (s : State) (c : Csrs) : (s.setCsr c).revClock = s.revClock := rfl
@[simp] theorem State.setCsr_mem (s : State) (c : Csrs) : (s.setCsr c).mem = s.mem := rfl
@[simp] theorem State.setCsr_draws (s : State) (c : Csrs) : (s.setCsr c).draws = s.draws := rfl
@[simp] theorem State.setCsr_inputs (s : State) (c : Csrs) : (s.setCsr c).inputs = s.inputs := rfl
@[simp] theorem State.setCsr_plat (s : State) (c : Csrs) : (s.setCsr c).plat = s.plat := rfl

@[simp] theorem State.setCcsr_regs (s : State) (c : Ccsrs) : (s.setCcsr c).regs = s.regs := rfl
@[simp] theorem State.setCcsr_pc (s : State) (c : Ccsrs) : (s.setCcsr c).pc = s.pc := rfl
@[simp] theorem State.setCcsr_priv (s : State) (c : Ccsrs) : (s.setCcsr c).priv = s.priv := rfl
@[simp] theorem State.setCcsr_capstoneEn (s : State) (c : Ccsrs) : (s.setCcsr c).capstoneEn = s.capstoneEn := rfl
@[simp] theorem State.setCcsr_ccsr (s : State) (c : Ccsrs) : (s.setCcsr c).ccsr = c := rfl
@[simp] theorem State.setCcsr_csr (s : State) (c : Ccsrs) : (s.setCcsr c).csr = s.csr := rfl
@[simp] theorem State.setCcsr_revClock (s : State) (c : Ccsrs) : (s.setCcsr c).revClock = s.revClock := rfl
@[simp] theorem State.setCcsr_mem (s : State) (c : Ccsrs) : (s.setCcsr c).mem = s.mem := rfl
@[simp] theorem State.setCcsr_draws (s : State) (c : Ccsrs) : (s.setCcsr c).draws = s.draws := rfl
@[simp] theorem State.setCcsr_inputs (s : State) (c : Ccsrs) : (s.setCcsr c).inputs = s.inputs := rfl
@[simp] theorem State.setCcsr_plat (s : State) (c : Ccsrs) : (s.setCcsr c).plat = s.plat := rfl

@[simp] theorem State.setPriv_regs (s : State) (p : Priv) : (s.setPriv p).regs = s.regs := rfl
@[simp] theorem State.setPriv_pc (s : State) (p : Priv) : (s.setPriv p).pc = s.pc := rfl
@[simp] theorem State.setPriv_priv (s : State) (p : Priv) : (s.setPriv p).priv = p := rfl
@[simp] theorem State.setPriv_capstoneEn (s : State) (p : Priv) : (s.setPriv p).capstoneEn = s.capstoneEn := rfl
@[simp] theorem State.setPriv_ccsr (s : State) (p : Priv) : (s.setPriv p).ccsr = s.ccsr := rfl
@[simp] theorem State.setPriv_csr (s : State) (p : Priv) : (s.setPriv p).csr = s.csr := rfl
@[simp] theorem State.setPriv_revClock (s : State) (p : Priv) : (s.setPriv p).revClock = s.revClock := rfl
@[simp] theorem State.setPriv_mem (s : State) (p : Priv) : (s.setPriv p).mem = s.mem := rfl
@[simp] theorem State.setPriv_draws (s : State) (p : Priv) : (s.setPriv p).draws = s.draws := rfl
@[simp] theorem State.setPriv_inputs (s : State) (p : Priv) : (s.setPriv p).inputs = s.inputs := rfl
@[simp] theorem State.setPriv_plat (s : State) (p : Priv) : (s.setPriv p).plat = s.plat := rfl

@[simp] theorem State.draw_regs (s : State) : (s.draw).regs = s.regs := rfl
@[simp] theorem State.draw_pc (s : State) : (s.draw).pc = s.pc := rfl
@[simp] theorem State.draw_priv (s : State) : (s.draw).priv = s.priv := rfl
@[simp] theorem State.draw_capstoneEn (s : State) : (s.draw).capstoneEn = s.capstoneEn := rfl
@[simp] theorem State.draw_ccsr (s : State) : (s.draw).ccsr = s.ccsr := rfl
@[simp] theorem State.draw_csr (s : State) : (s.draw).csr = s.csr := rfl
@[simp] theorem State.draw_revClock (s : State) : (s.draw).revClock = s.revClock := rfl
@[simp] theorem State.draw_mem (s : State) : (s.draw).mem = s.mem := rfl
@[simp] theorem State.draw_draws (s : State) : (s.draw).draws = s.draws + 1 := rfl
@[simp] theorem State.draw_inputs (s : State) : (s.draw).inputs = s.inputs := rfl
@[simp] theorem State.draw_plat (s : State) : (s.draw).plat = s.plat := rfl

@[simp] theorem State.tickRevClock_regs (s : State) : (s.tickRevClock).regs = s.regs := rfl
@[simp] theorem State.tickRevClock_pc (s : State) : (s.tickRevClock).pc = s.pc := rfl
@[simp] theorem State.tickRevClock_priv (s : State) : (s.tickRevClock).priv = s.priv := rfl
@[simp] theorem State.tickRevClock_capstoneEn (s : State) : (s.tickRevClock).capstoneEn = s.capstoneEn := rfl
@[simp] theorem State.tickRevClock_ccsr (s : State) : (s.tickRevClock).ccsr = s.ccsr := rfl
@[simp] theorem State.tickRevClock_csr (s : State) : (s.tickRevClock).csr = s.csr := rfl
@[simp] theorem State.tickRevClock_revClock (s : State) : (s.tickRevClock).revClock = s.revClock + 1 := rfl
@[simp] theorem State.tickRevClock_mem (s : State) : (s.tickRevClock).mem = s.mem := rfl
@[simp] theorem State.tickRevClock_draws (s : State) : (s.tickRevClock).draws = s.draws := rfl
@[simp] theorem State.tickRevClock_inputs (s : State) : (s.tickRevClock).inputs = s.inputs := rfl
@[simp] theorem State.tickRevClock_plat (s : State) : (s.tickRevClock).plat = s.plat := rfl

@[simp] theorem State.setReg_pc (s : State) (r : Reg) (v : Value) : (s.setReg r v).pc = s.pc := by
  unfold State.setReg; split <;> rfl
@[simp] theorem State.setReg_priv (s : State) (r : Reg) (v : Value) : (s.setReg r v).priv = s.priv := by
  unfold State.setReg; split <;> rfl
@[simp] theorem State.setReg_capstoneEn (s : State) (r : Reg) (v : Value) : (s.setReg r v).capstoneEn = s.capstoneEn := by
  unfold State.setReg; split <;> rfl
@[simp] theorem State.setReg_ccsr (s : State) (r : Reg) (v : Value) : (s.setReg r v).ccsr = s.ccsr := by
  unfold State.setReg; split <;> rfl
@[simp] theorem State.setReg_csr (s : State) (r : Reg) (v : Value) : (s.setReg r v).csr = s.csr := by
  unfold State.setReg; split <;> rfl
@[simp] theorem State.setReg_revClock (s : State) (r : Reg) (v : Value) : (s.setReg r v).revClock = s.revClock := by
  unfold State.setReg; split <;> rfl
@[simp] theorem State.setReg_mem (s : State) (r : Reg) (v : Value) : (s.setReg r v).mem = s.mem := by
  unfold State.setReg; split <;> rfl
@[simp] theorem State.setReg_draws (s : State) (r : Reg) (v : Value) : (s.setReg r v).draws = s.draws := by
  unfold State.setReg; split <;> rfl
@[simp] theorem State.setReg_inputs (s : State) (r : Reg) (v : Value) : (s.setReg r v).inputs = s.inputs := by
  unfold State.setReg; split <;> rfl
@[simp] theorem State.setReg_plat (s : State) (r : Reg) (v : Value) : (s.setReg r v).plat = s.plat := by
  unfold State.setReg; split <;> rfl

@[simp] theorem State.modifyCap_pc (s : State) (r : Reg) (f : Cap → Cap) : (s.modifyCap r f).pc = s.pc := by
  unfold State.modifyCap; split <;> simp
@[simp] theorem State.modifyCap_priv (s : State) (r : Reg) (f : Cap → Cap) : (s.modifyCap r f).priv = s.priv := by
  unfold State.modifyCap; split <;> simp
@[simp] theorem State.modifyCap_capstoneEn (s : State) (r : Reg) (f : Cap → Cap) : (s.modifyCap r f).capstoneEn = s.capstoneEn := by
  unfold State.modifyCap; split <;> simp
@[simp] theorem State.modifyCap_ccsr (s : State) (r : Reg) (f : Cap → Cap) : (s.modifyCap r f).ccsr = s.ccsr := by
  unfold State.modifyCap; split <;> simp
@[simp] theorem State.modifyCap_csr (s : State) (r : Reg) (f : Cap → Cap) : (s.modifyCap r f).csr = s.csr := by
  unfold State.modifyCap; split <;> simp
@[simp] theorem State.modifyCap_revClock (s : State) (r : Reg) (f : Cap → Cap) : (s.modifyCap r f).revClock = s.revClock := by
  unfold State.modifyCap; split <;> simp
@[simp] theorem State.modifyCap_mem (s : State) (r : Reg) (f : Cap → Cap) : (s.modifyCap r f).mem = s.mem := by
  unfold State.modifyCap; split <;> simp
@[simp] theorem State.modifyCap_draws (s : State) (r : Reg) (f : Cap → Cap) : (s.modifyCap r f).draws = s.draws := by
  unfold State.modifyCap; split <;> simp
@[simp] theorem State.modifyCap_inputs (s : State) (r : Reg) (f : Cap → Cap) : (s.modifyCap r f).inputs = s.inputs := by
  unfold State.modifyCap; split <;> simp
@[simp] theorem State.modifyCap_plat (s : State) (r : Reg) (f : Cap → Cap) : (s.modifyCap r f).plat = s.plat := by
  unfold State.modifyCap; split <;> simp

@[simp] theorem State.movc_pc (s : State) (rd rs1 : Reg) : (s.movc rd rs1).pc = s.pc := by
  unfold State.movc; dsimp only; split; · rfl
  split <;> simp
@[simp] theorem State.movc_priv (s : State) (rd rs1 : Reg) : (s.movc rd rs1).priv = s.priv := by
  unfold State.movc; dsimp only; split; · rfl
  split <;> simp
@[simp] theorem State.movc_capstoneEn (s : State) (rd rs1 : Reg) : (s.movc rd rs1).capstoneEn = s.capstoneEn := by
  unfold State.movc; dsimp only; split; · rfl
  split <;> simp
@[simp] theorem State.movc_ccsr (s : State) (rd rs1 : Reg) : (s.movc rd rs1).ccsr = s.ccsr := by
  unfold State.movc; dsimp only; split; · rfl
  split <;> simp
@[simp] theorem State.movc_csr (s : State) (rd rs1 : Reg) : (s.movc rd rs1).csr = s.csr := by
  unfold State.movc; dsimp only; split; · rfl
  split <;> simp
@[simp] theorem State.movc_revClock (s : State) (rd rs1 : Reg) : (s.movc rd rs1).revClock = s.revClock := by
  unfold State.movc; dsimp only; split; · rfl
  split <;> simp
@[simp] theorem State.movc_mem (s : State) (rd rs1 : Reg) : (s.movc rd rs1).mem = s.mem := by
  unfold State.movc; dsimp only; split; · rfl
  split <;> simp
@[simp] theorem State.movc_draws (s : State) (rd rs1 : Reg) : (s.movc rd rs1).draws = s.draws := by
  unfold State.movc; dsimp only; split; · rfl
  split <;> simp
@[simp] theorem State.movc_inputs (s : State) (rd rs1 : Reg) : (s.movc rd rs1).inputs = s.inputs := by
  unfold State.movc; dsimp only; split; · rfl
  split <;> simp
@[simp] theorem State.movc_plat (s : State) (rd rs1 : Reg) : (s.movc rd rs1).plat = s.plat := by
  unfold State.movc; dsimp only; split; · rfl
  split <;> simp

@[simp] theorem State.advance_regs (s : State) : s.advance.regs = s.regs := rfl
@[simp] theorem State.advance_pc (s : State) : s.advance.pc = s.pc.withCursor (s.pc.address + 4) := rfl
@[simp] theorem State.advance_priv (s : State) : s.advance.priv = s.priv := rfl
@[simp] theorem State.advance_capstoneEn (s : State) : s.advance.capstoneEn = s.capstoneEn := rfl
@[simp] theorem State.advance_ccsr (s : State) : s.advance.ccsr = s.ccsr := rfl
@[simp] theorem State.advance_csr (s : State) : s.advance.csr = s.csr := rfl
@[simp] theorem State.advance_revClock (s : State) : s.advance.revClock = s.revClock := rfl
@[simp] theorem State.advance_mem (s : State) : s.advance.mem = s.mem := rfl
@[simp] theorem State.advance_draws (s : State) : s.advance.draws = s.draws := rfl
@[simp] theorem State.advance_inputs (s : State) : s.advance.inputs = s.inputs := rfl
@[simp] theorem State.advance_plat (s : State) : s.advance.plat = s.plat := rfl

@[simp] theorem State.setPc_stored (s : State) (v : Value) (q : Reg) : (s.setPc v).stored q = s.stored q := rfl
@[simp] theorem State.setPc_capValue (s : State) (v : Value) (q : Reg) : (s.setPc v).capValue q = s.capValue q := rfl
@[simp] theorem State.setPc_intValue (s : State) (v : Value) (q : Reg) : (s.setPc v).intValue q = s.intValue q := rfl
@[simp] theorem State.setPc_ival (s : State) (v : Value) (q : Reg) : (s.setPc v).ival q = s.ival q := rfl
@[simp] theorem State.setPc_capOf? (s : State) (v : Value) (q : Reg) : (s.setPc v).capOf? q = s.capOf? q := rfl
@[simp] theorem State.setPc_intOf? (s : State) (v : Value) (q : Reg) : (s.setPc v).intOf? q = s.intOf? q := rfl
@[simp] theorem State.setMem_stored (s : State) (m : Memory) (q : Reg) : (s.setMem m).stored q = s.stored q := rfl
@[simp] theorem State.setMem_capValue (s : State) (m : Memory) (q : Reg) : (s.setMem m).capValue q = s.capValue q := rfl
@[simp] theorem State.setMem_intValue (s : State) (m : Memory) (q : Reg) : (s.setMem m).intValue q = s.intValue q := rfl
@[simp] theorem State.setMem_ival (s : State) (m : Memory) (q : Reg) : (s.setMem m).ival q = s.ival q := rfl
@[simp] theorem State.setMem_capOf? (s : State) (m : Memory) (q : Reg) : (s.setMem m).capOf? q = s.capOf? q := rfl
@[simp] theorem State.setMem_intOf? (s : State) (m : Memory) (q : Reg) : (s.setMem m).intOf? q = s.intOf? q := rfl
@[simp] theorem State.setCsr_stored (s : State) (c : Csrs) (q : Reg) : (s.setCsr c).stored q = s.stored q := rfl
@[simp] theorem State.setCsr_capValue (s : State) (c : Csrs) (q : Reg) : (s.setCsr c).capValue q = s.capValue q := rfl
@[simp] theorem State.setCsr_intValue (s : State) (c : Csrs) (q : Reg) : (s.setCsr c).intValue q = s.intValue q := rfl
@[simp] theorem State.setCsr_ival (s : State) (c : Csrs) (q : Reg) : (s.setCsr c).ival q = s.ival q := rfl
@[simp] theorem State.setCsr_capOf? (s : State) (c : Csrs) (q : Reg) : (s.setCsr c).capOf? q = s.capOf? q := rfl
@[simp] theorem State.setCsr_intOf? (s : State) (c : Csrs) (q : Reg) : (s.setCsr c).intOf? q = s.intOf? q := rfl
@[simp] theorem State.setCcsr_stored (s : State) (c : Ccsrs) (q : Reg) : (s.setCcsr c).stored q = s.stored q := rfl
@[simp] theorem State.setCcsr_capValue (s : State) (c : Ccsrs) (q : Reg) : (s.setCcsr c).capValue q = s.capValue q := rfl
@[simp] theorem State.setCcsr_intValue (s : State) (c : Ccsrs) (q : Reg) : (s.setCcsr c).intValue q = s.intValue q := rfl
@[simp] theorem State.setCcsr_ival (s : State) (c : Ccsrs) (q : Reg) : (s.setCcsr c).ival q = s.ival q := rfl
@[simp] theorem State.setCcsr_capOf? (s : State) (c : Ccsrs) (q : Reg) : (s.setCcsr c).capOf? q = s.capOf? q := rfl
@[simp] theorem State.setCcsr_intOf? (s : State) (c : Ccsrs) (q : Reg) : (s.setCcsr c).intOf? q = s.intOf? q := rfl
@[simp] theorem State.setPriv_stored (s : State) (p : Priv) (q : Reg) : (s.setPriv p).stored q = s.stored q := rfl
@[simp] theorem State.setPriv_capValue (s : State) (p : Priv) (q : Reg) : (s.setPriv p).capValue q = s.capValue q := rfl
@[simp] theorem State.setPriv_intValue (s : State) (p : Priv) (q : Reg) : (s.setPriv p).intValue q = s.intValue q := rfl
@[simp] theorem State.setPriv_ival (s : State) (p : Priv) (q : Reg) : (s.setPriv p).ival q = s.ival q := rfl
@[simp] theorem State.setPriv_capOf? (s : State) (p : Priv) (q : Reg) : (s.setPriv p).capOf? q = s.capOf? q := rfl
@[simp] theorem State.setPriv_intOf? (s : State) (p : Priv) (q : Reg) : (s.setPriv p).intOf? q = s.intOf? q := rfl
@[simp] theorem State.draw_stored (s : State) (q : Reg) : (s.draw).stored q = s.stored q := rfl
@[simp] theorem State.draw_capValue (s : State) (q : Reg) : (s.draw).capValue q = s.capValue q := rfl
@[simp] theorem State.draw_intValue (s : State) (q : Reg) : (s.draw).intValue q = s.intValue q := rfl
@[simp] theorem State.draw_ival (s : State) (q : Reg) : (s.draw).ival q = s.ival q := rfl
@[simp] theorem State.draw_capOf? (s : State) (q : Reg) : (s.draw).capOf? q = s.capOf? q := rfl
@[simp] theorem State.draw_intOf? (s : State) (q : Reg) : (s.draw).intOf? q = s.intOf? q := rfl
@[simp] theorem State.tickRevClock_stored (s : State) (q : Reg) : (s.tickRevClock).stored q = s.stored q := rfl
@[simp] theorem State.tickRevClock_capValue (s : State) (q : Reg) : (s.tickRevClock).capValue q = s.capValue q := rfl
@[simp] theorem State.tickRevClock_intValue (s : State) (q : Reg) : (s.tickRevClock).intValue q = s.intValue q := rfl
@[simp] theorem State.tickRevClock_ival (s : State) (q : Reg) : (s.tickRevClock).ival q = s.ival q := rfl
@[simp] theorem State.tickRevClock_capOf? (s : State) (q : Reg) : (s.tickRevClock).capOf? q = s.capOf? q := rfl
@[simp] theorem State.tickRevClock_intOf? (s : State) (q : Reg) : (s.tickRevClock).intOf? q = s.intOf? q := rfl
@[simp] theorem State.advance_stored (s : State) (q : Reg) : (s.advance).stored q = s.stored q := rfl
@[simp] theorem State.advance_capValue (s : State) (q : Reg) : (s.advance).capValue q = s.capValue q := rfl
@[simp] theorem State.advance_intValue (s : State) (q : Reg) : (s.advance).intValue q = s.intValue q := rfl
@[simp] theorem State.advance_ival (s : State) (q : Reg) : (s.advance).ival q = s.ival q := rfl
@[simp] theorem State.advance_capOf? (s : State) (q : Reg) : (s.advance).capOf? q = s.capOf? q := rfl
@[simp] theorem State.advance_intOf? (s : State) (q : Reg) : (s.advance).intOf? q = s.intOf? q := rfl

@[simp] theorem State.setPc_inCMode (s : State) (v : Value) : (s.setPc v).inCMode = s.inCMode := rfl
@[simp] theorem State.setMem_inCMode (s : State) (m : Memory) : (s.setMem m).inCMode = s.inCMode := rfl
@[simp] theorem State.setCsr_inCMode (s : State) (c : Csrs) : (s.setCsr c).inCMode = s.inCMode := rfl
@[simp] theorem State.setCcsr_inCMode (s : State) (c : Ccsrs) : (s.setCcsr c).inCMode = s.inCMode := rfl
@[simp] theorem State.draw_inCMode (s : State) : (s.draw).inCMode = s.inCMode := rfl
@[simp] theorem State.tickRevClock_inCMode (s : State) : (s.tickRevClock).inCMode = s.inCMode := rfl
@[simp] theorem State.advance_inCMode (s : State) : (s.advance).inCMode = s.inCMode := rfl

@[simp] theorem State.setReg_inCMode (s : State) (r : Reg) (v : Value) : (s.setReg r v).inCMode = s.inCMode := by
  simp [State.inCMode]

@[simp] theorem State.setReg_zero (s : State) (v : Value) : s.setReg 0#5 v = s := rfl

@[simp] theorem State.capValue_zero (s : State) : s.capValue 0#5 = .cap cnull := rfl

@[simp] theorem State.intValue_zero (s : State) : s.intValue 0#5 = .int 0 := rfl

theorem State.capValue_of_ne (s : State) {r : Reg} (h : r ≠ 0) : s.capValue r = s.stored r := if_neg h

theorem State.intValue_of_ne (s : State) {r : Reg} (h : r ≠ 0) : s.intValue r = s.stored r := if_neg h

theorem State.intValue_eq_capValue (s : State) {r : Reg} (h : r ≠ 0) : s.intValue r = s.capValue r := by
  rw [s.intValue_of_ne h, s.capValue_of_ne h]

/-- A written register reads as what was written, every other as before. -/
theorem State.setReg_stored (s : State) {r q : Reg} (v : Value) (hr : r ≠ 0) (hq : q ≠ 0) :
    (s.setReg r v).stored q = if q = r then v else s.stored q := by
  have h1 : r.toNat ≠ 0 := by simpa [BitVec.toNat_eq] using hr
  have h2 : q.toNat ≠ 0 := by simpa [BitVec.toNat_eq] using hq
  simp only [State.setReg, if_neg hr, State.stored, Vector.getElem_set]
  by_cases h : q = r
  · simp [h]
  · have : r.toNat - 1 ≠ q.toNat - 1 := by
      intro e; apply h; apply BitVec.eq_of_toNat_eq; omega
    simp [h, this]

/-- What a register reads as a capability after a write (R11, R32). -/
theorem State.setReg_capValue (s : State) (r q : Reg) (v : Value) :
    (s.setReg r v).capValue q = if q = r ∧ r ≠ 0 then v else s.capValue q := by
  by_cases hr : r = 0
  · subst hr; rw [if_neg (fun h => h.2 rfl)]; rfl
  · by_cases hq : q = 0
    · subst hq; rw [if_neg (fun h => h.2 h.1.symm)]; rfl
    · rw [State.capValue_of_ne _ hq, State.capValue_of_ne _ hq, State.setReg_stored s v hr hq]
      simp only [hr, ne_eq, not_false_iff, and_true]

/-- What a register reads as an integer after a write (R11, R32). -/
theorem State.setReg_intValue (s : State) (r q : Reg) (v : Value) :
    (s.setReg r v).intValue q = if q = r ∧ r ≠ 0 then v else s.intValue q := by
  by_cases hr : r = 0
  · subst hr; rw [if_neg (fun h => h.2 rfl)]; rfl
  · by_cases hq : q = 0
    · subst hq; rw [if_neg (fun h => h.2 h.1.symm)]; rfl
    · rw [State.intValue_of_ne _ hq, State.intValue_of_ne _ hq, State.setReg_stored s v hr hq]
      simp only [hr, ne_eq, not_false_iff, and_true]

/-- Two register files that read alike are equal. -/
theorem State.regs_ext {s t : State} (h : ∀ q, t.capValue q = s.capValue q) : t.regs = s.regs := by
  apply Vector.ext
  intro i hi
  have hq : (BitVec.ofNat 5 (i + 1)).toNat = i + 1 := by simp; omega
  have hne : BitVec.ofNat 5 (i + 1) ≠ 0 := by
    intro e; have := congrArg BitVec.toNat e; rw [hq] at this; simp at this
  have := h (BitVec.ofNat 5 (i + 1))
  rw [State.capValue_of_ne _ hne, State.capValue_of_ne _ hne] at this
  simpa [State.stored, hq] using this

end Sys2Proof.Machine
end

