-- ==== Sys2Proof/Laws/Ops.lean ====
section
/-!
SUPPORT. What each shared operation can answer: the checks of an instruction's exception list, the end of an instruction, taking an exception, and what a move leaves in the registers.
-/

namespace Sys2Proof.Machine

/-! ### The exception monad -/

@[simp] theorem except_ok_bind {ε α β : Type} (a : α) (f : α → Except ε β) : (Except.ok a >>= f) = f a := rfl

@[simp] theorem except_error_bind {ε α β : Type} (e : ε) (f : α → Except ε β) :
    ((Except.error e : Except ε α) >>= f) = .error e := rfl

/-- A sequence that answers has both halves answer. -/
theorem except_bind_ok {ε α β : Type} {x : Except ε α} {f : α → Except ε β} {b : β} (h : (x >>= f) = .ok b) :
    ∃ a, x = .ok a ∧ f a = .ok b := by
  cases x with
  | ok a => exact ⟨a, rfl, h⟩
  | error e => cases h

/-- A sequence that stops stops in one of its halves. -/
theorem except_bind_error {ε α β : Type} {x : Except ε α} {f : α → Except ε β} {e : ε} (h : (x >>= f) = .error e) :
    x = .error e ∨ ∃ a, x = .ok a ∧ f a = .error e := by
  cases x with
  | ok a => exact .inr ⟨a, rfl, h⟩
  | error e' => exact .inl (by cases h; rfl)

/-! ### Checks -/

@[simp] theorem require_true (e : Exc) (a : Word) : require true e a = .ok () := rfl

@[simp] theorem require_false (e : Exc) (a : Word) : require false e a = .error (.raise e a) := rfl

theorem require_of {b : Bool} (h : b = true) (e : Exc) (a : Word) : require b e a = .ok () := by rw [h]; rfl

theorem require_of_not {b : Bool} (h : b = false) (e : Exc) (a : Word) : require b e a = .error (.raise e a) := by
  rw [h]; rfl

theorem require_ok {b : Bool} {e : Exc} {a : Word} {u : Unit} (h : require b e a = .ok u) : b = true := by
  cases b with
  | true => rfl
  | false => cases h

theorem requireCap_some {s : State} {r : Reg} {c : Cap} (h : s.capOf? r = some c) : requireCap s r = .ok c := by
  simp [requireCap, h]

theorem requireCap_none {s : State} {r : Reg} (h : s.capOf? r = none) :
    requireCap s r = .error (.raise .operandType 0) := by simp [requireCap, h]

theorem requireInt_some {s : State} {r : Reg} {v : Word} (h : s.intOf? r = some v) : requireInt s r = .ok v := by
  simp [requireInt, h]

theorem requireInt_none {s : State} {r : Reg} (h : s.intOf? r = none) :
    requireInt s r = .error (.raise .operandType 0) := by simp [requireInt, h]

theorem requireCap_ok {s : State} {r : Reg} {c : Cap} (h : requireCap s r = .ok c) : s.capOf? r = some c := by
  unfold requireCap at h; split at h
  · cases h; assumption
  · cases h

theorem requireInt_ok {s : State} {r : Reg} {v : Word} (h : requireInt s r = .ok v) : s.intOf? r = some v := by
  unfold requireInt at h; split at h
  · cases h; assumption
  · cases h

theorem State.capValue_of_capOf? {s : State} {r : Reg} {c : Cap} (h : s.capOf? r = some c) : s.capValue r = .cap c := by
  unfold State.capOf? at h; split at h
  · cases h; assumption
  · cases h

theorem State.capOf?_of_capValue {s : State} {r : Reg} {c : Cap} (h : s.capValue r = .cap c) : s.capOf? r = some c := by
  simp [State.capOf?, h]

/-- A register is one kind of operand or the other (R160 item 6). -/
theorem State.capOf?_none {s : State} {r : Reg} (h : s.capOf? r = none) : ∃ n, s.capValue r = .int n := by
  unfold State.capOf? at h; split at h
  · cases h
  · exact ⟨_, ‹_›⟩

/-! ### The end of an instruction -/

@[simp] theorem finish_ok (i : Instr) (s t : State) : finish i s (.ok t) = .next t := rfl

@[simp] theorem finish_raise (i : Instr) (s : State) (e : Exc) (a : Word) :
    finish i s (.error (.raise e a)) = trapOutcome (takeException e a (encode i) s) := rfl

@[simp] theorem finish_stuck (i : Instr) (s : State) (f : Fault) : finish i s (.error (.stuck f)) = .fault f := rfl

@[simp] theorem finish_decline (i : Instr) (s : State) (r : Refusal) :
    finish i s (.error (.decline r)) = .refused r := rfl

theorem trapOutcome_next {r : Except Fault State} {t : State} (h : trapOutcome r = .next t) : r = .ok t := by
  cases r with
  | ok s => cases h; rfl
  | error f => cases h

/-- An instruction that answers a next state has either its own effect or an exception taken. -/
theorem finish_next {i : Instr} {s t : State} {r : Except Stop State} (h : finish i s r = .next t) :
    r = .ok t ∨ ∃ e a, r = .error (.raise e a) ∧ takeException e a (encode i) s = .ok t := by
  cases r with
  | ok u => cases h; exact .inl rfl
  | error st =>
    cases st with
    | raise e a => exact .inr ⟨e, a, rfl, trapOutcome_next h⟩
    | stuck f => cases h
    | decline r => cases h

/-- With no exception 30 to raise, the resource check passes (R353). -/
theorem requireResources_ready {s : State} (i : Instr) (h : Roomy s) : requireResources i s = .ok () := by
  cases hc : s.inCMode with
  | false => simp [requireResources, hc]
  | true => simp [requireResources, h hc]

/-- Where the implementation raises exception 30, the resource check raises it (R353). -/
theorem requireResources_raises {s : State} {i : Instr} (hc : s.inCMode = true) (hf : s.plat.finiteResources = true)
    (hr : Config.raisesResourceExc s (encode i) = true) : requireResources i s = .error (.raise .resources 0) := by
  simp [requireResources, hc, hf, hr]

/-- Outside C-mode a C-mode instruction is illegal, whatever its operands (R140). -/
theorem cModeOp_illegal {i : Instr} {s : State} (body : Except Stop State) (h : s.inCMode = false) :
    cModeOp i s body = trapOutcome (takeException .illegal 0 (encode i) s) := by
  simp [cModeOp, requireCMode, h]

theorem capstoneOp_illegal {i : Instr} {s : State} (body : Except Stop State) (h : s.inCMode = false) :
    capstoneOp i s body = trapOutcome (takeException .illegal 0 (encode i) s) := cModeOp_illegal _ h

/-- In C-mode the mode check passes (R140). -/
theorem cModeOp_ready {i : Instr} {s : State} (body : Except Stop State) (h : s.inCMode = true) :
    cModeOp i s body = finish i s body := by
  simp [cModeOp, requireCMode, h]

/-- In C-mode, with no exception 30, a C-mode instruction is its own checks and effect (R160). -/
theorem capstoneOp_ready {i : Instr} {s : State} (body : Except Stop State) (h : CReady s) :
    capstoneOp i s body = finish i s body := by
  rw [capstoneOp, cModeOp_ready _ h.1, requireResources_ready i fun _ => h.2, except_ok_bind]

/-- With no exception 30 to raise, an adjusted base instruction is its own checks and effect. -/
theorem adjustedOp_ready {i : Instr} {s : State} (body : Except Stop State) (h : Roomy s) :
    adjustedOp i s body = finish i s body := by
  rw [adjustedOp, requireResources_ready i h, except_ok_bind]

/-- A C-mode instruction that answers a next state ran in C-mode, or an exception was taken. -/
theorem cModeOp_next {i : Instr} {s t : State} {body : Except Stop State} (h : cModeOp i s body = .next t) :
    (s.inCMode = true ∧ body = .ok t) ∨ ∃ e a, takeException e a (encode i) s = .ok t := by
  rcases finish_next h with h | ⟨e, a, -, h⟩
  · obtain ⟨_, h1, h⟩ := except_bind_ok h
    exact .inl ⟨require_ok h1, h⟩
  · exact .inr ⟨e, a, h⟩

theorem capstoneOp_next {i : Instr} {s t : State} {body : Except Stop State} (h : capstoneOp i s body = .next t) :
    (s.inCMode = true ∧ body = .ok t) ∨ ∃ e a, takeException e a (encode i) s = .ok t := by
  rcases cModeOp_next h with ⟨hc, h⟩ | h
  · obtain ⟨_, -, h⟩ := except_bind_ok h
    exact .inl ⟨hc, h⟩
  · exact .inr h

/-- An adjusted base instruction that answers a next state has its own effect, or an exception was taken. -/
theorem adjustedOp_next {i : Instr} {s t : State} {body : Except Stop State} (h : adjustedOp i s body = .next t) :
    body = .ok t ∨ ∃ e a, takeException e a (encode i) s = .ok t := by
  rcases finish_next h with h | ⟨e, a, -, h⟩
  · obtain ⟨_, -, h⟩ := except_bind_ok h
    exact .inl h
  · exact .inr ⟨e, a, h⟩

/-! ### Taking an exception -/

/-- What no trap changes: registers, memory, `CAPSTONE_EN`, `rev_clock`, inputs, platform, draws, and the CCSRs but `ctvec` and `cepc` (R360, R362, R363). -/
structure TrapFrame (s t : State) : Prop where
  regs : t.regs = s.regs
  mem : t.mem = s.mem
  capstoneEn : t.capstoneEn = s.capstoneEn
  revClock : t.revClock = s.revClock
  inputs : t.inputs = s.inputs
  plat : t.plat = s.plat
  draws : t.draws = s.draws
  cih : t.ccsr.cih = s.ccsr.cih
  cscratch : t.ccsr.cscratch = s.ccsr.cscratch
  cpmp : t.ccsr.cpmp = s.ccsr.cpmp

theorem takeTrapC_frame {b : Bool} {c v v2 i : Word} {s t : State} (h : takeTrapC b c v v2 i s = .ok t) :
    TrapFrame s t := by
  unfold takeTrapC at h; dsimp only at h
  split at h
  · cases h; constructor <;> rfl
  · cases h; constructor <;> rfl
  · cases h

theorem takeTrapTop_frame {b : Bool} {c v v2 i : Word} {s t : State} (h : takeTrapTop b c v v2 i s = .ok t) :
    TrapFrame s t := by
  unfold takeTrapTop at h; split at h
  · exact takeTrapC_frame h
  · cases h; constructor <;> rfl

/-- Taking an exception leaves all this as it was (R355). -/
theorem takeException_frame {e : Exc} {a : Word} {w : BitVec 32} {s t : State} (h : takeException e a w s = .ok t) :
    TrapFrame s t := by
  unfold takeException at h; split at h
  · cases h; constructor <;> rfl
  · exact takeTrapTop_frame h

/-- An exception at mode ID 3 is taken at mode ID 3 (R356). -/
theorem takeException_machine {e : Exc} {a : Word} {w : BitVec 32} {s : State} (h : s.priv = .machine) :
    takeException e a w s = takeTrapTop false e.code (e.tval a w) 0 (e.tinst w) s := by
  simp [takeException, delegated, h]

/-! ### Ranges of addresses -/

/-- Every address of a range, the first one and the rest. -/
theorem range_succ {P : Word → Prop} (a : Word) (n : Nat) :
    (∀ k < n + 1, P (a + BitVec.ofNat 64 k)) ↔ P a ∧ ∀ k < n, P (a + 1 + BitVec.ofNat 64 k) := by
  have e : ∀ k, a + BitVec.ofNat 64 (k + 1) = a + 1 + BitVec.ofNat 64 k := by
    intro k
    rw [BitVec.add_assoc]; congr 1
    have one : (1 : Word).toNat = 1 := rfl
    apply BitVec.eq_of_toNat_eq; simp only [BitVec.toNat_ofNat, BitVec.toNat_add, one]; omega
  constructor
  · intro h
    refine ⟨by simpa using h 0 (by omega), fun k hk => ?_⟩
    rw [← e]; exact h (k + 1) (by omega)
  · rintro ⟨h0, h⟩ k hk
    cases k with
    | zero => simpa using h0
    | succ k => rw [e]; exact h k (by omega)

theorem isMemRange_iff (s : State) (a : Word) (n : Nat) : s.plat.isMemRange a n = true ↔ AllMem s a n := by
  unfold AllMem
  induction n generalizing a with
  | zero => simp [Platform.isMemRange]
  | succ n ih =>
    rw [range_succ (P := fun b => s.plat.isMem b = true), ← ih]
    simp [Platform.isMemRange]

theorem definedRange_iff (s : State) (a : Word) (n : Nat) : s.mem.definedRange a n = true ↔ AllDefined s a n := by
  unfold AllDefined
  induction n generalizing a with
  | zero => simp [Memory.definedRange]
  | succ n ih =>
    rw [range_succ (P := fun b => s.mem.defined b = true), ← ih]
    simp [Memory.definedRange]

theorem fetchable_iff (m : Memory) (a : Word) (n : Nat) :
    m.fetchable a n = true ↔ ∀ k < n, m.mark (a + BitVec.ofNat 64 k) = none := by
  induction n generalizing a with
  | zero => simp [Memory.fetchable]
  | succ n ih =>
    rw [range_succ (P := fun b => m.mark b = none), ← ih]
    simp [Memory.fetchable]

theorem isMemRange_false (s : State) (a : Word) (n : Nat) : s.plat.isMemRange a n = false ↔ ¬ AllMem s a n := by
  rw [← isMemRange_iff]; simp

theorem alignedTo_iff (a : Word) (n : Nat) : alignedTo a n = true ↔ a.toNat % n = 0 := by simp [alignedTo]

theorem alignedTo_false (a : Word) (n : Nat) : alignedTo a n = false ↔ a.toNat % n ≠ 0 := by simp [alignedTo]

/-! ### What the registers hold after a move -/

theorem State.setReg_putReg (s : State) (r : Reg) (v : Value) (q : Reg) :
    (s.setReg r v).capValue q = putReg s.capValue r v q := s.setReg_capValue r q v

/-- Rewriting the capability of a register in place. -/
theorem State.modifyCap_capValue {s : State} {r : Reg} {c : Cap} (f : Cap → Cap) (h : s.capValue r = .cap c) (q : Reg) :
    (s.modifyCap r f).capValue q = putReg s.capValue r (.cap (f c)) q := by
  by_cases hr : r = 0
  · subst hr
    unfold State.modifyCap putReg
    split <;> simp
  · rw [State.capValue_of_ne _ hr] at h
    simp only [State.modifyCap, h]
    exact s.setReg_putReg r _ q

/-- A capability moved to `x[rd]` and rewritten there (R161): what every register then holds. -/
theorem State.movc_modifyCap_capValue {s : State} {rd rs1 : Reg} {c : Cap} (f : Cap → Cap)
    (h : s.capOf? rs1 = some c) (q : Reg) :
    ((s.movc rd rs1).modifyCap rd f).capValue q = moveReg s.capValue rd rs1 c (.cap (f c)) q := by
  have hv := State.capValue_of_capOf? h
  by_cases hd : rd = 0
  · subst hd
    have e : ∀ u : State, (u.modifyCap 0 f).capValue q = u.capValue q := by
      intro u; unfold State.modifyCap; split <;> simp
    rw [e]
    unfold State.movc moveReg putReg
    by_cases h0 : rs1 = 0
    · simp [h0]
    · rw [if_neg h0]
      dsimp only
      rw [hv]
      by_cases hn : c.type = .nonLinear
      · simp [Value.movesOut, hn]
      · have h0' : rs1 ≠ 0#5 := h0
        simp [Value.movesOut, hn, State.setReg_capValue, h0']
  · have hd' : rd ≠ 0#5 := hd
    by_cases hs : rs1 = rd
    · subst hs
      have : s.movc rs1 rs1 = s := by simp [State.movc]
      rw [this, State.modifyCap_capValue f hv]
      simp [moveReg]
    · have hm : (s.movc rd rs1).capValue rd = .cap c := by
        simp only [State.movc, if_neg hs, hv]
        split <;> simp [State.setReg_capValue, hd', Ne.symm hs]
      rw [State.modifyCap_capValue f hm]
      unfold putReg moveReg putReg
      by_cases hq : q = rd
      · simp [hq, hd']
      · simp only [State.movc, if_neg hs, hv, hq, false_and, if_false]
        by_cases hn : c.type = .nonLinear
        · simp [Value.movesOut, hn, State.setReg_capValue, hq]
        · simp [Value.movesOut, hn, State.setReg_capValue, hq, hs]

theorem State.movc_capValue {s : State} {rd rs1 : Reg} {c : Cap} (h : s.capOf? rs1 = some c) (q : Reg) :
    (s.movc rd rs1).capValue q =
      if rs1 = rd then s.capValue q else moveReg s.capValue rd rs1 c (.cap c) q := by
  have hv := State.capValue_of_capOf? h
  by_cases hs : rs1 = rd
  · simp [State.movc, hs]
  · rw [if_neg hs]
    simp only [State.movc, if_neg hs, hv]
    unfold moveReg putReg
    by_cases hn : c.type = .nonLinear
    · simp [Value.movesOut, hn, State.setReg_capValue]
    · by_cases hq : q = rd
      · subst hq
        simp [Value.movesOut, hn, State.setReg_capValue, hs, Ne.symm hs]
      · simp [Value.movesOut, hn, State.setReg_capValue, hs, hq]

/-! ### Completion -/

/-- Control state and memory unchanged, in one premise for the two shapes of completion. -/
structure OnlyRegs (s u : State) : Prop where
  control : SameControl s u
  mem : u.mem = s.mem

theorem SameMemory.of_eq {s t : State} (h : t.mem = s.mem) : SameMemory s t := fun a => by
  simp [SameAt, h]

/-- An instruction that reaches a state with only registers and `pc` changed. -/
theorem reaches_of {i : Instr} {s t : State} {regs : Reg → Value} {pc : Value} (h : exec i s = .next t)
    (hr : ∀ r, t.capValue r = regs r) (hp : t.pc = pc) (hf : OnlyRegs s t) : Reaches i s regs pc :=
  ⟨t, h, hr, hp, hf.control, SameMemory.of_eq hf.mem⟩

/-- An instruction that ends by moving on to the next. -/
theorem completes_of {i : Instr} {s u : State} {regs : Reg → Value} (h : exec i s = .next u.advance)
    (hr : ∀ r, u.capValue r = regs r) (hp : u.pc = s.pc) (hf : OnlyRegs s u) : Completes i s regs :=
  reaches_of h (fun r => by rw [State.advance_capValue]; exact hr r) (by simp [nextPc, hp])
    ⟨by simpa [SameControl] using hf.control, by simpa using hf.mem⟩

theorem OnlyRegs.setReg (s : State) (r : Reg) (v : Value) : OnlyRegs s (s.setReg r v) :=
  ⟨by simp [SameControl], by simp⟩

theorem OnlyRegs.modifyCap (s : State) (r : Reg) (f : Cap → Cap) : OnlyRegs s (s.modifyCap r f) :=
  ⟨by simp [SameControl], by simp⟩

theorem OnlyRegs.movc (s : State) (rd rs1 : Reg) : OnlyRegs s (s.movc rd rs1) :=
  ⟨by simp [SameControl], by simp⟩

theorem OnlyRegs.refl (s : State) : OnlyRegs s s := ⟨by simp [SameControl], rfl⟩

theorem OnlyRegs.trans {s t u : State} (h : OnlyRegs s t) (k : OnlyRegs t u) : OnlyRegs s u := by
  obtain ⟨⟨a1, a2, a3, a4, a5, a6, a7⟩, am⟩ := h
  obtain ⟨⟨b1, b2, b3, b4, b5, b6, b7⟩, bm⟩ := k
  exact ⟨⟨b1.trans a1, b2.trans a2, b3.trans a3, b4.trans a4, b5.trans a5, b6.trans a6, b7.trans a7⟩, bm.trans am⟩

/-- An instruction that writes one integer register and moves on. -/
theorem computes_of {i : Instr} {s : State} {rd : Reg} {v : Word}
    (h : exec i s = .next (s.setReg rd (.int v)).advance) : Computes i s rd v :=
  completes_of h (s.setReg_putReg rd _) (by simp) (OnlyRegs.setReg s rd _)

/-- A C-mode instruction that moves a capability to `x[rd]` and rewrites it there. -/
theorem completes_of_move {i : Instr} {s : State} {rd rs1 : Reg} {c : Cap} (f : Cap → Cap)
    (hc : s.capOf? rs1 = some c) (h : exec i s = .next ((s.movc rd rs1).modifyCap rd f).advance) :
    Completes i s (moveReg s.capValue rd rs1 c (.cap (f c))) :=
  completes_of h (State.movc_modifyCap_capValue f hc) (by simp)
    ((OnlyRegs.movc s rd rs1).trans (OnlyRegs.modifyCap _ rd f))

end Sys2Proof.Machine
end

