-- ==== Sys2Proof/Laws/Access.lean ====
section
/-!
SUPPORT. Accesses through a capability: the model's checks against the statements' words for them, what the two lists of checks answer, and what a load and a store leave.
-/

namespace Sys2Proof.Machine

theorem setWidth_signExtend {n : Nat} (v : BitVec n) (h : n ≤ 64) : (v.signExtend 64).setWidth n = v := by
  ext j hj
  simp [hj, BitVec.getLsbD_signExtend]
  intro; omega

theorem Cap.isPlain_iff (c : Cap) : c.isPlain = true ↔ c.Plain := by simp [Cap.isPlain, Cap.Plain]
theorem inBoundsLin_iff (s : State) (c : Cap) (ea : Word) (n : Nat) : c.inBoundsLin s.plat ea n = true ↔ InRegion s c ea n := by
  unfold Cap.inBoundsLin InRegion
  by_cases h : s.plat.dataEndAdj = true <;> simp [h] <;> omega
theorem inBoundsSR_iff (c : Cap) (ea : Word) (n : Nat) : c.inBoundsSR ea n = true ↔ InContext c ea n := by
  unfold Cap.inBoundsSR InContext
  simp; omega

/-- One line of an ordered list of conditions, against one check of the model. -/
theorem ifSo_require {i : Instr} {s : State} {b : Bool} {p : Prop} {e : Exc} {a : Word} {f : Unit → Except Stop State} {rest : Prop}
   (hp : p ↔ b = false) (hr : (exec i s = finish i s (f ())) → rest) (h : exec i s = finish i s (require b e a >>= f)) :
   IfSo p (Raises i s e a) rest := by
  constructor
  · intro hp'; have := hp.mp hp'; subst this; exact h
  · intro hp'
    have : b = true := by rw [← Bool.not_eq_false]; exact fun hb => hp' (hp.mpr hb)
    subst this; exact hr h

theorem readChecks_of {i : Instr} {s : State} {c : Cap} {ea : Word} {n : Nat} {f : Unit → Except Stop State} {rest : Prop}
   (hr : exec i s = finish i s (f ()) → rest) (h : exec i s = finish i s (authorizeLoad s c ea n >>= f)) :
   ReadChecks i s c ea n rest := by
  unfold authorizeLoad at h
  simp only [bind_assoc] at h
  refine ifSo_require (by simp) ?_ h; intro h
  refine ifSo_require (by simp [Cap.loadType, Cap.Plain, Cap.isPlain]) ?_ h; intro h
  refine ifSo_require (by simp [Cap.notAsync]) ?_ h; intro h
  refine ifSo_require (by simp [← Cap.isPlain_iff, Cap.canRead]) ?_ h; intro h
  refine ifSo_require (by simp [← Cap.isPlain_iff, ← inBoundsLin_iff]) ?_ h; intro h
  refine ifSo_require (by simp [Cap.inBoundsReturn, ← inBoundsSR_iff]) ?_ h; intro h
  exact ifSo_require (by simp [alignedTo]) hr h

theorem writeChecks_of {i : Instr} {s : State} {c : Cap} {imm : BitVec 12} {ea : Word} {n : Nat} {f : Unit → Except Stop State} {rest : Prop}
   (hr : exec i s = finish i s (f ()) → rest) (h : exec i s = finish i s (authorizeStore s c imm ea n >>= f)) :
   WriteChecks i s c imm ea n rest := by
  unfold authorizeStore at h
  simp only [bind_assoc] at h
  refine ifSo_require (by simp) ?_ h; intro h
  refine ifSo_require (by simp [Cap.storeType, Cap.Plain, Cap.isBounded]; tauto) ?_ h; intro h
  refine ifSo_require (by simp [Cap.notAsync]) ?_ h; intro h
  refine ifSo_require (by simp [← Cap.isPlain_iff, Cap.canWrite]) ?_ h; intro h
  refine ifSo_require (by simp) ?_ h; intro h
  refine ifSo_require (by simp [Cap.Plain, Cap.isBounded, ← inBoundsLin_iff]; tauto) ?_ h; intro h
  refine ifSo_require (by simp [Cap.inBoundsReturn, ← inBoundsSR_iff]) ?_ h; intro h
  exact ifSo_require (by simp [alignedTo]) hr h

theorem authorizeLoad_ok {s : State} {c : Cap} {ea : Word} {n : Nat} (h : GrantsRead s c ea n) (ha : ea.toNat % n = 0) :
   authorizeLoad s c ea n = .ok () := by
  obtain ⟨hv, h⟩ := h
  unfold authorizeLoad
  rw [require_of hv]
  rcases h with ⟨h1, h2, h3⟩ | ⟨h1, h2, h3⟩
  · have hp := (Cap.isPlain_iff c).mpr h1
    have ht : c.type ≠ .sealedReturn := by rcases h1 with h | h <;> simp [h]
    have hcr : c.canRead = true := h2
    simp [Cap.loadType, hp, Cap.notAsync, ht, hcr, (inBoundsLin_iff s c ea n).mpr h3, Cap.inBoundsReturn, (alignedTo_iff _ _).mpr ha]
  · have hp : c.isPlain = false := by simp [Cap.isPlain, h1]
    simp [Cap.loadType, hp, Cap.notAsync, h1, h2, Cap.inBoundsReturn, (inBoundsSR_iff c ea n).mpr h3, (alignedTo_iff _ _).mpr ha]

theorem authorizeStore_ok {s : State} {c : Cap} {imm : BitVec 12} {ea : Word} {n : Nat} (h : GrantsWrite s c imm ea n) (ha : ea.toNat % n = 0) :
   authorizeStore s c imm ea n = .ok () := by
  obtain ⟨hv, h⟩ := h
  unfold authorizeStore
  rw [require_of hv]
  rcases h with ⟨h1, h2, h3⟩ | ⟨h1, h2, h3⟩ | ⟨h1, h2, h3⟩
  · have hp := (Cap.isPlain_iff c).mpr h1
    have hb : c.isBounded = true := by simp [Cap.isBounded]; rcases h1 with h | h <;> simp [h]
    have ht : c.type ≠ .sealedReturn := by rcases h1 with h | h <;> simp [h]
    have hu : c.type ≠ .uninitialised := by rcases h1 with h | h <;> simp [h]
    have hcr : c.canWrite = true := h2
    simp [Cap.storeType, hp, hb, hu, Cap.notAsync, ht, hcr, (inBoundsLin_iff s c ea n).mpr h3, Cap.inBoundsReturn, (alignedTo_iff _ _).mpr ha]
  · have hp : c.isPlain = false := by simp [Cap.isPlain, h1]
    have hb : c.isBounded = true := by simp [Cap.isBounded, h1]
    simp [Cap.storeType, hp, hb, h1, Cap.notAsync, h2, (inBoundsLin_iff s c ea n).mpr h3, Cap.inBoundsReturn, (alignedTo_iff _ _).mpr ha]
  · have hp : c.isPlain = false := by simp [Cap.isPlain, h1]
    have hb : c.isBounded = false := by simp [Cap.isBounded, h1]
    simp [Cap.storeType, hp, hb, Cap.notAsync, h1, h2, Cap.inBoundsReturn, (inBoundsSR_iff c ea n).mpr h3, (alignedTo_iff _ _).mpr ha]

theorem loadResult_readInt (s : State) (a : Word) (n : Nat) (sg : Bool) (hn : n = 1 ∨ n = 2 ∨ n = 4 ∨ n = 8) :
   LoadResult s a n sg (extendLoad sg n (s.mem.readInt s.draws a n)) := by
  constructor
  · intro hd k hk
    have hb := s.mem.readInt_byte s.draws a n k hk (by omega) ((definedRange_iff _ _ _).mpr hd)
    rw [← hb]
    unfold extendLoad signExtendBytes
    split
    · ext j hj
      have h1 : 8 * k + j < 8 * n := by omega
      have h2 : 8 * k + j < 64 := by omega
      simp [BitVec.getElem_signExtend, h1, h2]
    · rfl
  · have := s.mem.readInt_lt s.draws a n (by omega)
    split
    · subst_vars
      simp [extendLoad, signExtendBytes]
      rw [setWidth_signExtend _ (by omega)]
    · simp [extendLoad, *]

theorem computes_of_load {i : Instr} {s : State} {rd : Reg} {ea : Word} {n : Nat} {sg : Bool} (hn : n = 1 ∨ n = 2 ∨ n = 4 ∨ n = 8)
   (h : exec i s = .next (loadEffect s rd ea n sg)) : ∃ v, LoadResult s ea n sg v ∧ Computes i s rd v :=
  ⟨_, loadResult_readInt s ea n sg hn, completes_of (u := (s.setReg rd _).draw) h (s.setReg_putReg rd _) (by simp) ⟨by simp [SameControl], by simp⟩⟩


theorem storedInt_writeInt {s t : State} {ea v : Word} {n : Nat} (hn : n = 1 ∨ n = 2 ∨ n = 4 ∨ n = 8) (ha : ea.toNat % n = 0)
   (hw : s.MemWf) (h : t.mem = s.mem.writeInt ea n v) : StoredInt s t ea n v := by
  have hs := Memory.wf.sorted hw
  have out : ∀ b : Word, (∀ k < n, b ≠ ea + BitVec.ofNat 64 k) → ¬ inRange ea b n := by
    intro b hb hr
    unfold inRange at hr
    refine hb _ hr ?_
    rw [BitVec.ofNat_toNat, BitVec.setWidth_eq, BitVec.add_comm, BitVec.sub_add_cancel]
  refine ⟨?_, ?_, ?_, ?_⟩
  · intro k hk; rw [h]; exact (Memory.storeBytes_byte_inside ea v n k (by omega) hk hs).symm
  · intro k hk; rw [h]; exact (Memory.storeBytes_mark_inside ea v n k (by omega) hk hs)
  · intro b hb; rw [h]
    exact ⟨Memory.storeBytes_byte_outside ea v b n (by omega) hs (out b hb), Memory.storeBytes_mark_outside ea v b n (by omega) hs (out b hb)⟩
  · intro b; rw [h]; exact Memory.writeInt_slotCap ea v b n hn ha hs


/-- What a capability store leaves (R87). -/
theorem storedCap_writeSlot {s t : State} {a : Word} (c : Cap) (hw : s.MemWf)
    (h : t.mem = s.mem.writeSlot a (.cap c)) : StoredCap s t a c := by
  have hs := Memory.wf.sorted hw
  constructor
  · intro b hb
    rw [h]
    refine ⟨by rw [Memory.writeSlot_cap_slotCap a b c hs, if_pos hb], ?_⟩
    simp [Memory.defined, Memory.writeSlot_cap_mark a b c hs hb]
  · intro b hb
    have := Memory.writeSlot_cap_outside a b c hs hb
    refine ⟨?_, ?_, ?_⟩
    · rw [h]; exact this.1
    · rw [h]; exact this.2
    · rw [h, Memory.writeSlot_cap_slotCap a b c hs, if_neg hb]

/-- What a store of a register's value into a slot leaves (R87, R88). -/
theorem storedSlot_writeSlot {s t : State} {a : Word} (v : Value) (hw : s.MemWf) (ha : a.toNat % 16 = 0)
    (h : t.mem = s.mem.writeSlot a v) : StoredSlot s t a v := by
  cases v with
  | cap c => exact storedCap_writeSlot c hw h
  | int n => exact storedInt_writeInt (by simp) (by omega) hw h

/-! ### Types and revocation -/

theorem Cap.isBounded_iff (c : Cap) : c.isBounded = true ↔ (c.Plain ∨ c.type = .uninitialised) := by
  simp [Cap.isBounded, Cap.Plain]; tauto

theorem revokes_iff (r c : Cap) : revokes r c = true ↔ TakenBack r c := by
  unfold revokes TakenBack Cap.createdBefore Cap.overlaps Aliases
  by_cases h : c.type = .revocation <;> simp [h]

/-- What REVOKE's rewriting leaves of a value (R175). -/
theorem revokedTo_revokedValue (r : Cap) (v : Value) : RevokedTo r v (revokedValue r v) := by
  cases v with
  | int n => rfl
  | cap c =>
    constructor <;> intro h
    · simp [revokedValue, revokedCap, (revokes_iff r c).mpr h]
    · have : revokes r c = false := by rw [← Bool.not_eq_true, revokes_iff]; exact h
      simp [revokedValue, revokedCap, this]

/-- REVOKE rewrites every register (R175). -/
theorem State.revokeAll_capValue (s : State) (r : Cap) (q : Reg) :
    (s.revokeAll r).capValue q = revokedValue r (s.capValue q) := by
  unfold State.capValue
  split
  · simp [revokedValue, revokedCap, revokes, cnull]
  · simp [State.revokeAll, State.stored]

end Sys2Proof.Machine
end

