-- ==== Sys2Proof/Laws/Status.lean ====
section
/-!
SUPPORT. The status registers bit by bit: what each mask and each field operation of Flags.lean gives at one bit (R51 to R55, R337, R338, R376).
-/

namespace Sys2Proof.Machine

/-! ### Masks and single bits -/

/-- A mask is the list of its bits. -/
theorem mask_bits {m : Word} {l : List Nat} (h : ∀ n : Fin 64, m.getLsbD n.val = decide (n.val ∈ l))
    (hl : ∀ x ∈ l, x < 64) (n : Nat) : m.getLsbD n = decide (n ∈ l) := by
  by_cases hn : n < 64
  · exact h ⟨n, hn⟩
  · rw [BitVec.getLsbD_of_ge _ _ (by omega)]
    exact (decide_eq_false fun hm => hn (hl n hm)).symm

@[simp] theorem bitOf_and (a b : Word) (n : Nat) : bitOf (a &&& b) n = (bitOf a n && bitOf b n) := by simp [bitOf]

@[simp] theorem bitOf_or (a b : Word) (n : Nat) : bitOf (a ||| b) n = (bitOf a n || bitOf b n) := by simp [bitOf]

theorem bitOf_ge (a : Word) {n : Nat} (h : 64 ≤ n) : bitOf a n = false := BitVec.getLsbD_of_ge _ _ h

theorem bitOf_not (a : Word) (n : Nat) : bitOf (~~~a) n = (decide (n < 64) && !bitOf a n) := by simp [bitOf]

/-- How read-only bits keep their value. -/
theorem bitOf_merge (mask old v : Word) (n : Nat) :
    bitOf (merge mask old v) n = if bitOf mask n then bitOf v n else bitOf old n := by
  by_cases h : n < 64
  · cases hm : bitOf mask n <;> simp [merge, bitOf_not, hm, h]
  · simp [bitOf_ge _ (by omega : 64 ≤ n)]

/-- Setting one bit changes that bit alone. -/
theorem bitOf_withBit (w : Word) {k : Nat} (hk : k < 64) (b : Bool) (n : Nat) :
    bitOf (withBit w k b) n = if n = k then b else bitOf w n := by
  have one : bitOf ((1 : Word) <<< k) n = decide (n = k) := by
    have e : (1 : Word) <<< k = BitVec.twoPow 64 k := by rw [BitVec.twoPow_eq]; rfl
    rw [bitOf, e, BitVec.getLsbD_twoPow]
    simp [hk, eq_comm]
  unfold withBit
  generalize (1 : Word) <<< k = m at one ⊢
  by_cases hn : n < 64
  · cases b <;> by_cases h : n = k <;> simp_all [bitOf_not]
  · have h : n ≠ k := by omega
    simp [bitOf_ge _ (by omega : 64 ≤ n), h]

/-- The mask of the six interrupt bits (R53, D36). -/
theorem bitOf_irqMask (n : Nat) : bitOf irqMask n = decide (n ∈ [1, 3, 5, 7, 9, 11]) :=
  mask_bits (by decide) (by decide) n

/-- The mask of the supervisor interrupt bits (R53, R338). -/
theorem bitOf_sIrqMask (n : Nat) : bitOf sIrqMask n = decide (n ∈ [1, 5, 9]) := mask_bits (by decide) (by decide) n

/-- The writable fields of `mstatus` but MPP (R52). -/
theorem bitOf_mstatusMask (n : Nat) : bitOf mstatusMask n = decide (n ∈ [1, 3, 5, 7, 8, 17, 18, 19, 20, 21, 22]) :=
  mask_bits (by decide) (by decide) n

/-- The fixed bits of `mstatus` (R52). -/
theorem bitOf_mstatusFixed (n : Nat) : bitOf mstatusFixed n = decide (n ∈ [33, 35]) :=
  mask_bits (by decide) (by decide) n

/-- The bits `sstatus` shows (R338). -/
theorem bitOf_sstatusView (n : Nat) : bitOf sstatusView n = decide (n ∈ [1, 5, 8, 18, 19, 32, 33, 63]) :=
  mask_bits (by decide) (by decide) n

/-- The bits a write of `sstatus` changes (log 25). -/
theorem bitOf_sstatusMask (n : Nat) : bitOf sstatusMask n = decide (n ∈ [1, 5, 8, 18, 19]) :=
  mask_bits (by decide) (by decide) n

/-! ### `mstatus` -/

/-- Replacing MPP changes bits 11 and 12 alone (R52). -/
theorem bitOf_withMpp (w : Word) (p : BitVec 2) (n : Nat) :
    bitOf (withMpp w p) n = if n = 11 then p.getLsbD 0 else if n = 12 then p.getLsbD 1 else bitOf w n := by
  have m : bitOf (0x1800 : Word) n = decide (n ∈ [11, 12]) := mask_bits (by decide) (by decide) n
  rw [withMpp, bitOf_merge, m]
  by_cases h1 : n = 11
  · subst h1; simp [bitOf]
  · by_cases h2 : n = 12
    · subst h2; simp [bitOf]
    · simp [h1, h2]

/-- A value as `mstatus` can hold it, bit by bit (R52). -/
theorem bitOf_mstatusOf (v : Word) (p : BitVec 2) (n : Nat) :
    bitOf (mstatusOf v p) n =
      if n ∈ [1, 3, 5, 7, 8, 17, 18, 19, 20, 21, 22] then bitOf v n
      else if n = 11 then p.getLsbD 0 else if n = 12 then p.getLsbD 1 else decide (n = 33 ∨ n = 35) := by
  rw [mstatusOf, bitOf_withMpp, bitOf_or, bitOf_and, bitOf_mstatusMask, bitOf_mstatusFixed]
  by_cases h : n ∈ [1, 3, 5, 7, 8, 17, 18, 19, 20, 21, 22]
  · have h11 : n ≠ 11 := by rintro rfl; revert h; decide
    have h12 : n ≠ 12 := by rintro rfl; revert h; decide
    have hf : n ∉ [33, 35] := by intro hf; revert h; simp at hf; rcases hf with rfl | rfl <;> decide
    rw [if_neg h11, if_neg h12, if_pos h, decide_eq_true h, decide_eq_false hf]
    simp
  · rw [if_neg h, decide_eq_false h]
    split
    · rfl
    · split
      · rfl
      · simp

/-- MPP is bits 11 and 12 (R52). -/
theorem mpp_bits (w : Word) : (mpp w).getLsbD 0 = bitOf w 11 ∧ (mpp w).getLsbD 1 = bitOf w 12 := by
  simp [mpp, bitOf]

/-- MPP holds 2, which names no mode, exactly with bit 12 set and bit 11 clear. -/
theorem mpp_eq_two (w : Word) : mpp w = 2 ↔ bitOf w 11 = false ∧ bitOf w 12 = true := by
  obtain ⟨h0, h1⟩ := mpp_bits w
  rw [← h0, ← h1]
  generalize mpp w = p
  revert p; decide

/-- MPP names a level exactly when its two bits are that level's (R22, R52). -/
theorem mpp_level (w : Word) (p : Priv) : Priv.ofCode (mpp w) = some p ↔ LevelBits w 11 p := by
  obtain ⟨h0, h1⟩ := mpp_bits w
  rw [LevelBits, ← h0, ← h1]
  generalize mpp w = q
  cases p <;> revert q <;> decide

/-- The level of a saved image is its bits 38 and 39 (R51). -/
theorem imagePriv_level (w : Word) (p : Priv) : Priv.ofCode (imagePriv w) = some p ↔ LevelBits w 38 p := by
  have h0 : (imagePriv w).getLsbD 0 = bitOf w 38 := by simp [imagePriv, bitOf]
  have h1 : (imagePriv w).getLsbD 1 = bitOf w 39 := by simp [imagePriv, bitOf]
  rw [LevelBits, ← h0, ← h1]
  generalize imagePriv w = q
  cases p <;> revert q <;> decide

/-- The saved image bit by bit (R51). -/
theorem imageOf_mstatusImage (ms : Word) (p : Priv) : ImageOf ms p (mstatusImage ms p) := by
  have m : ∀ n, bitOf ((3 : Word) <<< 38) n = decide (n ∈ [38, 39]) := mask_bits (by decide) (by decide)
  have l : ∀ n, n ≠ 38 → n ≠ 39 → bitOf (p.code.setWidth 64 <<< 38) n = false := by
    intro n h1 h2
    have : ∀ n, bitOf (p.code.setWidth 64 <<< 38) n = decide (n ∈ (match p with
      | .user => [] | .supervisor => [38] | .machine => [38, 39])) := by
      cases p <;> exact mask_bits (by decide) (by decide)
    rw [this]; cases p <;> simp [h1, h2]
  refine ⟨?_, fun n hn => ?_⟩
  · unfold LevelBits mstatusImage
    simp only [bitOf_or, bitOf_and, bitOf_not, m]
    cases p <;> refine ⟨?_, ?_⟩ <;> simp <;> decide
  · simp at hn
    rw [mstatusImage, bitOf_or, bitOf_and, bitOf_not, m, l n hn.1 hn.2]
    by_cases h : n < 64
    · simp [hn, h]
    · simp [bitOf_ge _ (by omega : 64 ≤ n)]

/-- What an image loads as, bit by bit (R51, R376). -/
theorem loadedStatus_loadMstatus (v : Word) : LoadedStatus v (loadMstatus v) := by
  intro n
  rw [loadMstatus, bitOf_mstatusOf]
  obtain ⟨h0, h1⟩ := mpp_bits v
  by_cases h : n ∈ [1, 3, 5, 7, 8, 17, 18, 19, 20, 21, 22]
  · rw [if_pos h, if_pos h]
  · rw [if_neg h, if_neg h]
    by_cases h2 : mpp v = 2
    · obtain ⟨a, b⟩ := (mpp_eq_two v).mp h2
      by_cases h11 : n = 11
      · simp [h11, h2, a]
      · by_cases h12 : n = 12 <;> simp [h11, h12, h2, a, b]
    · have hn : ¬ (bitOf v 11 = false ∧ bitOf v 12 = true) := fun k => h2 ((mpp_eq_two v).mpr k)
      by_cases h11 : n = 11
      · subst h11
        simp only [if_neg h2, h0]
        cases a : bitOf v 11 <;> cases b : bitOf v 12 <;> simp [a, b] at hn ⊢
      · by_cases h12 : n = 12
        · subst h12
          simp only [if_neg h2, h1]
          cases a : bitOf v 11 <;> cases b : bitOf v 12 <;> simp [a, b] at hn ⊢
        · simp [h11, h12]

/-! ### The other masks -/

/-- `medeleg` bit by bit (R55). -/
theorem delegableBits_legalMedeleg (v : Word) : DelegableBits v (legalMedeleg v) := by
  intro n
  have m : bitOf (0x7f000800 : Word) n = decide (n ∈ [11, 24, 25, 26, 27, 28, 29, 30]) :=
    mask_bits (by decide) (by decide) n
  rw [legalMedeleg, bitOf_and, bitOf_not, m]
  by_cases h : n < 64
  · have e : (n ∈ [11, 24, 25, 26, 27, 28, 29, 30]) ↔ ¬ (n ≠ 11 ∧ ¬ (24 ≤ n ∧ n ≤ 30)) := by simp; omega
    by_cases k : n ≠ 11 ∧ ¬ (24 ≤ n ∧ n ≤ 30)
    · have : n ∉ [11, 24, 25, 26, 27, 28, 29, 30] := fun x => (e.mp x) k
      rw [decide_eq_false this, decide_eq_true k]; simp [h]
    · rw [decide_eq_true (e.mpr k), decide_eq_false k]; simp
  · simp [bitOf_ge _ (by omega : 64 ≤ n)]

end Sys2Proof.Machine
end

