-- ==== Sys2Proof/Laws/Context.lean ====
section
/-!
SUPPORT. The context region: what each byte, mark and slot of memory is after the stores of a context save, by offset from the region's base (R50, R376 to R378).
-/

namespace Sys2Proof.Machine

/-! ### Offsets from a base -/

theorem ctxAt_zero (B : Word) : ctxAt B 0 = B := by simp [ctxAt]

theorem ctxAt_add (B : Word) (m n : Nat) : ctxAt B m + BitVec.ofNat 64 n = ctxAt B (m + n) := by
  simp only [ctxAt, BitVec.add_assoc, ← BitVec.ofNat_add]

/-- Every address is at some offset below 2^64 from the base. -/
theorem eq_ctxAt (B a : Word) : a = ctxAt B (a - B).toNat := by
  rw [ctxAt, BitVec.ofNat_toNat, BitVec.setWidth_eq, BitVec.add_comm, BitVec.sub_add_cancel]

theorem ctxAt_sub (B : Word) {n : Nat} (h : n < 2 ^ 64) : (ctxAt B n - B).toNat = n := by
  have e : ctxAt B n - B = BitVec.ofNat 64 n := by rw [ctxAt, BitVec.add_comm, BitVec.add_sub_cancel]
  rw [e]; simpa using Nat.mod_eq_of_lt h

theorem ctxAt_inj (B : Word) {m n : Nat} (hm : m < 2 ^ 64) (hn : n < 2 ^ 64) : ctxAt B m = ctxAt B n ↔ m = n := by
  constructor
  · intro h; rw [← ctxAt_sub B hm, h, ctxAt_sub B hn]
  · rintro rfl; rfl

/-- The slot of an offset from an aligned base. -/
theorem slotOf_ctxAt {B : Word} (hB : B.toNat % 16 = 0) (n : Nat) : slotOf (ctxAt B n) = ctxAt B (n / 16 * 16) := by
  apply BitVec.eq_of_toNat_eq
  rw [slotOf_toNat, ctxAt, ctxAt, BitVec.toNat_add, BitVec.toNat_add, BitVec.toNat_ofNat, BitVec.toNat_ofNat]
  omega

theorem slotOf_ctxAt_eq {B : Word} (hB : B.toNat % 16 = 0) {m n : Nat} (hm : m < 2 ^ 64) (hn : n < 2 ^ 64) :
    slotOf (ctxAt B m) = slotOf (ctxAt B n) ↔ m / 16 = n / 16 := by
  rw [slotOf_ctxAt hB, slotOf_ctxAt hB, ctxAt_inj B (by omega) (by omega)]; omega

theorem inRange_ctxAt (B : Word) {off x n : Nat} (ho : off + n ≤ 2 ^ 64) (hx : x < 2 ^ 64) :
    inRange (ctxAt B off) (ctxAt B x) n ↔ off ≤ x ∧ x < off + n := by
  have hl := B.isLt
  unfold inRange ctxAt
  rw [BitVec.toNat_sub, BitVec.toNat_add, BitVec.toNat_add, BitVec.toNat_ofNat, BitVec.toNat_ofNat,
    Nat.mod_eq_of_lt (a := x) hx]
  by_cases h0 : off = 2 ^ 64
  · have : n = 0 := by omega
    subst this; omega
  · rw [Nat.mod_eq_of_lt (a := off) (by omega)]; omega

theorem ctxAt_toNat_mod (B : Word) (hB : B.toNat % 16 = 0) (n : Nat) : (ctxAt B n).toNat % 16 = n % 16 := by
  rw [ctxAt, BitVec.toNat_add, BitVec.toNat_ofNat]; omega

/-! ### Memory by offset -/

/-- The byte, the mark and the slot's capability at an offset. -/
def Memory.at (m : Memory) (B : Word) (x : Nat) : Byte × Option Mark := (m.byte (ctxAt B x), m.mark (ctxAt B x))

/-- What an 8-byte store leaves at every other offset. -/
theorem Memory.writeInt_at {m : Memory} {B : Word} {off x : Nat} (w : Word) (h : m.sorted) (ho : off + 8 ≤ 2 ^ 64)
    (hx : x < 2 ^ 64) (hout : x < off ∨ off + 8 ≤ x) : (m.writeInt (ctxAt B off) 8 w).at B x = m.at B x := by
  have hr : ¬ inRange (ctxAt B off) (ctxAt B x) 8 := by rw [inRange_ctxAt B ho hx]; omega
  unfold Memory.at Memory.writeInt
  rw [Memory.storeBytes_byte_outside _ _ _ _ (by omega) h hr, Memory.storeBytes_mark_outside _ _ _ _ (by omega) h hr]

theorem Memory.writeInt_slotCap_at {m : Memory} {B : Word} {off x : Nat} (w : Word) (h : m.sorted)
    (hB : B.toNat % 16 = 0) (ho : off + 8 ≤ 2 ^ 64) (hx : x < 2 ^ 64) (h8 : off % 8 = 0) :
    (m.writeInt (ctxAt B off) 8 w).slotCap (ctxAt B x) =
      if x / 16 = off / 16 then none else m.slotCap (ctxAt B x) := by
  have ha : (ctxAt B off).toNat % 8 = 0 := by have := ctxAt_toNat_mod B hB off; omega
  rw [Memory.writeInt_slotCap _ _ _ _ (by simp) ha h]
  simp only [slotOf_ctxAt_eq hB hx (show off < 2 ^ 64 by omega)]

/-- What a capability store leaves at every other slot. -/
theorem Memory.writeCap_at {m : Memory} {B : Word} {off x : Nat} (c : Cap) (h : m.sorted) (hB : B.toNat % 16 = 0)
    (ho : off < 2 ^ 64) (hx : x < 2 ^ 64) (hout : x / 16 ≠ off / 16) :
    (m.writeSlot (ctxAt B off) (.cap c)).at B x = m.at B x := by
  have := Memory.writeSlot_cap_outside (ctxAt B off) (ctxAt B x) c h (by rw [Ne, slotOf_ctxAt_eq hB hx ho]; exact hout)
  unfold Memory.at
  rw [this.1, this.2]

theorem Memory.writeCap_slotCap_at {m : Memory} {B : Word} {off x : Nat} (c : Cap) (h : m.sorted)
    (hB : B.toNat % 16 = 0) (ho : off < 2 ^ 64) (hx : x < 2 ^ 64) :
    (m.writeSlot (ctxAt B off) (.cap c)).slotCap (ctxAt B x) =
      if x / 16 = off / 16 then some c else m.slotCap (ctxAt B x) := by
  rw [Memory.writeSlot_cap_slotCap _ _ _ h]
  simp only [slotOf_ctxAt_eq hB hx ho]

theorem Memory.writeSlot_sorted {m : Memory} (a : Word) (v : Value) (h : m.sorted) : (m.writeSlot a v).sorted := by
  cases v with
  | cap c =>
    have hu := m.undefine_sorted (slotOf a) 16 h
    refine ⟨?_, ?_, ?_⟩
    · rw [(m.writeSlot_cap_tables a c).1]; exact hu.1
    · rw [m.writeSlot_cap_caps a c]; exact tableSet_sorted h.2.1
    · rw [(m.writeSlot_cap_tables a c).2]; exact hu.2.2
  | int v => exact m.storeBytes_sorted a v 8 h

theorem Memory.writeInt_sorted {m : Memory} (a : Word) (n : Nat) (v : Word) (h : m.sorted) : (m.writeInt a n v).sorted :=
  m.storeBytes_sorted a v n h

/-- What a slot store leaves at every other slot. -/
theorem Memory.writeSlot_at {m : Memory} {B : Word} {off x : Nat} (v : Value) (h : m.sorted) (hB : B.toNat % 16 = 0)
    (h16 : off % 16 = 0) (ho : off + 16 ≤ 2 ^ 64) (hx : x < 2 ^ 64) (hout : x / 16 ≠ off / 16) :
    (m.writeSlot (ctxAt B off) v).at B x = m.at B x ∧
      (m.writeSlot (ctxAt B off) v).slotCap (ctxAt B x) = m.slotCap (ctxAt B x) := by
  cases v with
  | cap c =>
    exact ⟨m.writeCap_at c h hB (by omega) hx hout,
      by rw [m.writeCap_slotCap_at c h hB (by omega) hx, if_neg hout]⟩
  | int w =>
    exact ⟨m.writeInt_at w h (by omega) hx (by omega),
      by rw [Memory.writeSlot, m.writeInt_slotCap_at w h hB (by omega) hx (by omega), if_neg hout]⟩

/-! ### What a slot and a word hold -/

/-- The 8 bytes at an offset hold a word (`WordHolds`), as a property of the memory alone. -/
def Memory.wordIs (m : Memory) (B : Word) (off : Nat) (w : Word) : Prop :=
  m.slotCap (ctxAt B off) = none ∧ ∀ k < 8, m.mark (ctxAt B (off + k)) ≠ some .capStored ∧
    w.extractLsb' (8 * k) 8 = m.byte (ctxAt B (off + k))

/-- The slot at an offset holds a value (`SlotHolds`), as a property of the memory alone. -/
def Memory.slotIs (m : Memory) (B : Word) (off : Nat) : Value → Prop
  | .cap c => m.slotCap (ctxAt B off) = some c
  | .int w => m.wordIs B off w

theorem wordHolds_iff (t : State) (B : Word) (off : Nat) (w : Word) :
    WordHolds t (ctxAt B off) w ↔ t.mem.wordIs B off w := by
  unfold WordHolds Memory.wordIs AllDefined BytesAre Memory.defined
  simp only [ctxAt_add, decide_eq_true_eq]
  constructor
  · rintro ⟨h1, h2, h3⟩; exact ⟨h1, fun k hk => ⟨h2 k hk, h3 k hk⟩⟩
  · rintro ⟨h1, h2⟩; exact ⟨h1, fun k hk => (h2 k hk).1, fun k hk => (h2 k hk).2⟩

theorem slotHolds_iff (t : State) (B : Word) (off : Nat) (v : Value) :
    SlotHolds t (ctxAt B off) v ↔ t.mem.slotIs B off v := by
  cases v with
  | cap c => exact Iff.rfl
  | int w => exact wordHolds_iff t B off w

theorem Memory.writeInt_wordIs {m : Memory} {B : Word} {off : Nat} (w : Word) (h : m.sorted) (hB : B.toNat % 16 = 0)
    (h8 : off % 8 = 0) (ho : off + 8 ≤ 2 ^ 64) : (m.writeInt (ctxAt B off) 8 w).wordIs B off w := by
  refine ⟨by rw [m.writeInt_slotCap_at w h hB ho (by omega) h8, if_pos rfl], fun k hk => ?_⟩
  rw [← ctxAt_add, Memory.writeInt, m.storeBytes_mark_inside _ w 8 k (by omega) hk h,
    m.storeBytes_byte_inside _ w 8 k (by omega) hk h]
  exact ⟨by simp, rfl⟩

theorem Memory.writeSlot_slotIs {m : Memory} {B : Word} {off : Nat} (v : Value) (h : m.sorted) (hB : B.toNat % 16 = 0)
    (h16 : off % 16 = 0) (ho : off + 16 ≤ 2 ^ 64) : (m.writeSlot (ctxAt B off) v).slotIs B off v := by
  cases v with
  | cap c => exact (m.writeCap_slotCap_at c h hB (by omega) (by omega)).trans (if_pos rfl)
  | int w => exact m.writeInt_wordIs w h hB (by omega) (by omega)

/-- A held word stays where neither its bytes nor, with a capability, its slot is stored to. -/
theorem Memory.wordIs.keep {m m' : Memory} {B : Word} {off : Nat} {w : Word} (h : m.wordIs B off w)
    (hat : ∀ k < 8, m'.at B (off + k) = m.at B (off + k)) (hs : m'.slotCap (ctxAt B off) = none) : m'.wordIs B off w := by
  refine ⟨hs, fun k hk => ?_⟩
  have := hat k hk
  unfold Memory.at at this
  rw [(Prod.mk.inj this).1, (Prod.mk.inj this).2]
  exact h.2 k hk

theorem Memory.slotIs.keep {m m' : Memory} {B : Word} {off : Nat} {v : Value} (h : m.slotIs B off v)
    (hat : ∀ k < 8, m'.at B (off + k) = m.at B (off + k)) (hs : m'.slotCap (ctxAt B off) = m.slotCap (ctxAt B off)) :
    m'.slotIs B off v := by
  cases v with
  | cap c => exact hs.trans h
  | int w => exact Memory.wordIs.keep h hat (hs.trans h.1)

/-! ### Lists of stores -/

theorem ctxAt_next16 (B : Word) (off : Nat) : ctxAt B off + 16 = ctxAt B (off + 16) := ctxAt_add B off 16

theorem ctxAt_next8 (B : Word) (off : Nat) : ctxAt B off + 8 = ctxAt B (off + 8) := ctxAt_add B off 8

theorem Memory.writeSlots_sorted {m : Memory} (a : Word) (l : List Value) (h : m.sorted) : (m.writeSlots a l).sorted := by
  induction l generalizing m a with
  | nil => exact h
  | cons v l ih => exact ih _ (m.writeSlot_sorted a v h)

theorem Memory.writeWords_sorted {m : Memory} (a : Word) (l : List Word) (h : m.sorted) : (m.writeWords a l).sorted := by
  induction l generalizing m a with
  | nil => exact h
  | cons v l ih => exact ih _ (m.writeInt_sorted a 8 v h)

/-- Successive slot stores leave every slot outside them as it was. -/
theorem Memory.writeSlots_outside {m : Memory} {B : Word} {off x : Nat} (l : List Value) (h : m.sorted)
    (hB : B.toNat % 16 = 0) (h16 : off % 16 = 0) (ho : off + 16 * l.length ≤ 2 ^ 64) (hx : x < 2 ^ 64)
    (hout : x < off ∨ off + 16 * l.length ≤ x) :
    (m.writeSlots (ctxAt B off) l).at B x = m.at B x ∧
      (m.writeSlots (ctxAt B off) l).slotCap (ctxAt B x) = m.slotCap (ctxAt B x) := by
  induction l generalizing m off with
  | nil => exact ⟨rfl, rfl⟩
  | cons v l ih =>
    simp only [List.length_cons] at ho hout
    have hw := m.writeSlot_at v h hB h16 (x := x) (by omega) hx (by omega)
    have := ih (m.writeSlot_sorted (ctxAt B off) v h) (off := off + 16) (by omega) (by omega) (by omega)
    unfold Memory.writeSlots
    rw [ctxAt_next16]
    exact ⟨this.1.trans hw.1, this.2.trans hw.2⟩

/-- Successive slot stores: each slot holds its value. -/
theorem Memory.writeSlots_slotIs {m : Memory} {B : Word} {off : Nat} (l : List Value) (h : m.sorted)
    (hB : B.toNat % 16 = 0) (h16 : off % 16 = 0) (ho : off + 16 * l.length ≤ 2 ^ 64) (i : Nat) (hi : i < l.length) :
    (m.writeSlots (ctxAt B off) l).slotIs B (off + 16 * i) l[i] := by
  induction l generalizing m off i with
  | nil => simp at hi
  | cons v l ih =>
    simp only [List.length_cons] at ho hi
    unfold Memory.writeSlots
    rw [ctxAt_next16]
    have hs := m.writeSlot_sorted (ctxAt B off) v h
    cases i with
    | zero =>
      have h0 := m.writeSlot_slotIs v h hB h16 (by omega)
      have ho' : off + 16 + 16 * l.length ≤ 2 ^ 64 := by omega
      refine h0.keep (fun k hk => ?_) ?_
      · exact (Memory.writeSlots_outside l hs hB (by omega) ho' (by omega) (by omega)).1
      · exact (Memory.writeSlots_outside l hs hB (by omega) ho' (by omega) (by omega)).2
    | succ i =>
      have := ih hs (off := off + 16) (by omega) (by omega) i (by omega)
      rw [show off + 16 * (i + 1) = off + 16 + 16 * i by omega]
      exact this

/-- Successive word stores leave every byte outside them, and every slot they do not touch, as it was; no slot gains a capability. -/
theorem Memory.writeWords_outside {m : Memory} {B : Word} {off x : Nat} (l : List Word) (h : m.sorted)
    (hB : B.toNat % 16 = 0) (h8 : off % 8 = 0) (ho : off + 8 * l.length ≤ 2 ^ 64) (hx : x < 2 ^ 64) :
    (x < off ∨ off + 8 * l.length ≤ x → (m.writeWords (ctxAt B off) l).at B x = m.at B x) ∧
      (x / 16 < off / 16 ∨ off + 8 * l.length ≤ x / 16 * 16 →
        (m.writeWords (ctxAt B off) l).slotCap (ctxAt B x) = m.slotCap (ctxAt B x)) ∧
      (m.slotCap (ctxAt B x) = none → (m.writeWords (ctxAt B off) l).slotCap (ctxAt B x) = none) := by
  induction l generalizing m off with
  | nil => exact ⟨fun _ => rfl, fun _ => rfl, fun h => h⟩
  | cons v l ih =>
    simp only [List.length_cons] at ho
    have hs := m.writeInt_slotCap_at v h hB (x := x) (by omega) hx h8
    have := ih (m.writeInt_sorted (ctxAt B off) 8 v h) (off := off + 8) (by omega) (by omega)
    unfold Memory.writeWords
    rw [ctxAt_next8]
    simp only [List.length_cons]
    refine ⟨fun hout => ?_, fun hout => ?_, fun hn => ?_⟩
    · exact (this.1 (by omega)).trans (m.writeInt_at v h (by omega) hx (by omega))
    · exact (this.2.1 (by omega)).trans (by rw [hs, if_neg (by omega)])
    · exact this.2.2 (by rw [hs, hn, ite_self])

/-- Successive word stores: each place holds its word. -/
theorem Memory.writeWords_wordIs {m : Memory} {B : Word} {off : Nat} (l : List Word) (h : m.sorted)
    (hB : B.toNat % 16 = 0) (h8 : off % 8 = 0) (ho : off + 8 * l.length ≤ 2 ^ 64) (i : Nat) (hi : i < l.length) :
    (m.writeWords (ctxAt B off) l).wordIs B (off + 8 * i) l[i] := by
  induction l generalizing m off i with
  | nil => simp at hi
  | cons v l ih =>
    simp only [List.length_cons] at ho hi
    unfold Memory.writeWords
    rw [ctxAt_next8]
    have hs := m.writeInt_sorted (ctxAt B off) 8 v h
    cases i with
    | zero =>
      have h0 := m.writeInt_wordIs v h hB h8 (by omega)
      have ho' : off + 8 + 8 * l.length ≤ 2 ^ 64 := by omega
      exact h0.keep (fun k hk => (Memory.writeWords_outside l hs hB (by omega) ho' (by omega)).1 (by omega))
        ((Memory.writeWords_outside l hs hB (by omega) ho' (by omega)).2.2 h0.1)
    | succ i =>
      have := ih hs (off := off + 8) (by omega) (by omega) i (by omega)
      rw [show off + 8 * (i + 1) = off + 8 + 8 * i by omega]
      exact this

/-- A held slot stays through successive word stores that do not touch it. -/
theorem Memory.slotIs.keepWords {m : Memory} {B : Word} {y off : Nat} {v : Value} (hv : m.slotIs B y v) (l : List Word)
    (h : m.sorted) (hB : B.toNat % 16 = 0) (h8 : off % 8 = 0) (ho : off + 8 * l.length ≤ 2 ^ 64) (hy : y % 16 = 0)
    (hy' : y + 16 ≤ 2 ^ 64) (hd : y + 16 ≤ off ∨ off + 8 * l.length ≤ y) : (m.writeWords (ctxAt B off) l).slotIs B y v :=
  hv.keep (fun k hk => (m.writeWords_outside l h hB h8 ho (by omega)).1 (by omega))
    ((m.writeWords_outside l h hB h8 ho (by omega)).2.1 (by omega))

/-- A held word stays through successive word stores elsewhere. -/
theorem Memory.wordIs.keepWords {m : Memory} {B : Word} {y off : Nat} {w : Word} (hv : m.wordIs B y w) (l : List Word)
    (h : m.sorted) (hB : B.toNat % 16 = 0) (h8 : off % 8 = 0) (ho : off + 8 * l.length ≤ 2 ^ 64)
    (hy' : y + 8 ≤ 2 ^ 64) (hd : y + 8 ≤ off ∨ off + 8 * l.length ≤ y) : (m.writeWords (ctxAt B off) l).wordIs B y w :=
  hv.keep (fun k hk => (m.writeWords_outside l h hB h8 ho (by omega)).1 (by omega))
    ((m.writeWords_outside l h hB h8 ho (by omega)).2.2 hv.1)

/-- A held word stays through successive slot stores elsewhere. -/
theorem Memory.wordIs.keepSlots {m : Memory} {B : Word} {y off : Nat} {w : Word} (hv : m.wordIs B y w) (l : List Value)
    (h : m.sorted) (hB : B.toNat % 16 = 0) (h16 : off % 16 = 0) (ho : off + 16 * l.length ≤ 2 ^ 64)
    (hy' : y + 8 ≤ 2 ^ 64) (hd : y + 8 ≤ off ∨ off + 16 * l.length ≤ y) :
    (m.writeSlots (ctxAt B off) l).wordIs B y w :=
  hv.keep (fun k hk => (m.writeSlots_outside l h hB h16 ho (by omega) (by omega)).1)
    ((m.writeSlots_outside l h hB h16 ho (by omega) (by omega)).2.trans hv.1)

/-- A held slot stays through successive slot stores elsewhere. -/
theorem Memory.slotIs.keepSlots {m : Memory} {B : Word} {y off : Nat} {v : Value} (hv : m.slotIs B y v) (l : List Value)
    (h : m.sorted) (hB : B.toNat % 16 = 0) (h16 : off % 16 = 0) (ho : off + 16 * l.length ≤ 2 ^ 64)
    (hy' : y + 16 ≤ 2 ^ 64) (hd : y + 16 ≤ off ∨ off + 16 * l.length ≤ y) :
    (m.writeSlots (ctxAt B off) l).slotIs B y v :=
  hv.keep (fun k hk => (m.writeSlots_outside l h hB h16 ho (by omega) (by omega)).1)
    (m.writeSlots_outside l h hB h16 ho (by omega) (by omega)).2

/-! ### The context images -/

/-- Memory holds the C-effective image `e` at `B` (R50, R376). -/
structure Memory.ceffIs (m : Memory) (B : Word) (e : CEff) : Prop where
  pc : m.slotIs B 0 e.pc
  ctvec : m.slotIs B 16 e.ctvec
  cscratch : m.slotIs B 32 e.cscratch
  mstatus : m.wordIs B 48 e.mstatus
  mideleg : m.wordIs B 56 e.mideleg
  medeleg : m.wordIs B 64 e.medeleg
  mip : m.wordIs B 72 e.mip
  mie : m.wordIs B 80 e.mie

theorem Memory.saveCEff_sorted {m : Memory} (B : Word) (e : CEff) (h : m.sorted) : (m.saveCEff B e).sorted :=
  Memory.writeWords_sorted _ _ (m.writeSlots_sorted _ _ h)

/-- `SaveCEff` leaves the image (R376). -/
theorem Memory.saveCEff_ceffIs {m : Memory} {B : Word} (e : CEff) (h : m.sorted) (hB : B.toNat % 16 = 0) :
    (m.saveCEff B e).ceffIs B e := by
  have hs := m.writeSlots_sorted B [e.pc, e.ctvec, e.cscratch] h
  have slot := fun i hi => Memory.writeSlots_slotIs (B := B) (off := 0) [e.pc, e.ctvec, e.cscratch] h hB (by omega)
    (by simp) i hi
  rw [ctxAt_zero] at slot
  have word := fun i hi => Memory.writeWords_wordIs (B := B) (off := 48)
    [e.mstatus, e.mideleg, e.medeleg, e.mip, e.mie] hs hB (by omega) (by simp) i hi
  have keep : ∀ i (hi : i < 3), (m.saveCEff B e).slotIs B (0 + 16 * i) ([e.pc, e.ctvec, e.cscratch][i]) := by
    intro i hi
    exact Memory.slotIs.keepWords (slot i hi) _ hs hB (by omega) (by simp) (by omega) (by omega) (by omega)
  exact ⟨keep 0 (by omega), keep 1 (by omega), keep 2 (by omega), word 0 (by simp), word 1 (by simp), word 2 (by simp),
    word 3 (by simp), word 4 (by simp)⟩

/-- `SaveCEff` stores nothing past its 88 bytes, and touches no slot past them (R50). -/
theorem Memory.saveCEff_outside {m : Memory} {B : Word} (e : CEff) (h : m.sorted) (hB : B.toNat % 16 = 0) {x : Nat}
    (hx : x < 2 ^ 64) :
    (88 ≤ x → (m.saveCEff B e).at B x = m.at B x) ∧
      (96 ≤ x → (m.saveCEff B e).slotCap (ctxAt B x) = m.slotCap (ctxAt B x)) := by
  have hs := m.writeSlots_sorted B [e.pc, e.ctvec, e.cscratch] h
  have w := Memory.writeWords_outside (B := B) (off := 48) (x := x) [e.mstatus, e.mideleg, e.medeleg, e.mip, e.mie] hs hB
    (by omega) (by simp) hx
  have slot := fun h3 => Memory.writeSlots_outside (B := B) (off := 0) (x := x) [e.pc, e.ctvec, e.cscratch] h hB
    (by omega) (by simp) hx h3
  simp only [ctxAt_zero, List.length_cons, List.length_nil] at slot w
  exact ⟨fun h1 => (w.1 (by omega)).trans (slot (by omega)).1, fun h1 => (w.2.1 (by omega)).trans (slot (by omega)).2⟩

theorem Memory.ceffIs.keep {m m' : Memory} {B : Word} {e : CEff} (h : m.ceffIs B e)
    (hat : ∀ x < 88, m'.at B x = m.at B x) (hs : ∀ x < 80, m'.slotCap (ctxAt B x) = m.slotCap (ctxAt B x))
    (h80 : m.slotCap (ctxAt B 80) = none → m'.slotCap (ctxAt B 80) = none) : m'.ceffIs B e where
  pc := h.pc.keep (fun k hk => hat _ (by omega)) (hs _ (by omega))
  ctvec := h.ctvec.keep (fun k hk => hat _ (by omega)) (hs _ (by omega))
  cscratch := h.cscratch.keep (fun k hk => hat _ (by omega)) (hs _ (by omega))
  mstatus := h.mstatus.keep (fun k hk => hat _ (by omega)) ((hs _ (by omega)).trans h.mstatus.1)
  mideleg := h.mideleg.keep (fun k hk => hat _ (by omega)) ((hs _ (by omega)).trans h.mideleg.1)
  medeleg := h.medeleg.keep (fun k hk => hat _ (by omega)) ((hs _ (by omega)).trans h.medeleg.1)
  mip := h.mip.keep (fun k hk => hat _ (by omega)) ((hs _ (by omega)).trans h.mip.1)
  mie := h.mie.keep (fun k hk => hat _ (by omega)) (h80 h.mie.1)

/-- The statements' words for the saved image. -/
theorem ceffSaved_of {s t : State} {B : Word} {pc : Value} {e : CEff} (h : t.mem.ceffIs B e)
    (he : e = { s.ceff with pc := pc }) : CEffSaved s t B pc := by
  subst he
  have hB := ctxAt_zero B
  refine ⟨?_, ?_, ?_, ?_, ?_, ?_, ?_, ?_⟩
  · rw [← hB, slotHolds_iff]; exact h.pc
  · rw [slotHolds_iff]; exact h.ctvec
  · rw [slotHolds_iff]; exact h.cscratch
  · exact ⟨_, (wordHolds_iff ..).mpr h.mstatus, imageOf_mstatusImage _ _⟩
  · rw [wordHolds_iff]; exact h.mideleg
  · rw [wordHolds_iff]; exact h.medeleg
  · rw [wordHolds_iff]; exact h.mip
  · rw [wordHolds_iff]; exact h.mie

/-- Nothing changed outside the first `n` bytes, by offset. -/
theorem sameOutside_of {s t : State} {B : Word} {n : Nat} (hB : B.toNat % 16 = 0)
    (hat : ∀ x, x < 2 ^ 64 → n ≤ x → t.mem.at B x = s.mem.at B x)
    (hs : ∀ x, x < 2 ^ 64 → (n + 15) / 16 ≤ x / 16 → t.mem.slotCap (ctxAt B x) = s.mem.slotCap (ctxAt B x)) :
    SameOutside s t B n := by
  constructor
  · intro a ha
    have hx := (a - B).isLt
    have := hat _ hx (by omega)
    unfold Memory.at at this
    rw [← eq_ctxAt B a] at this
    exact Prod.mk.inj this
  · intro a ha
    have hx := (a - B).isLt
    rw [eq_ctxAt B a]
    apply hs _ hx
    by_contra hc
    rw [Nat.not_le] at hc
    have h0 : (a - B).toNat / 16 * 16 < n := by omega
    refine ha _ h0 ?_
    conv => lhs; rw [eq_ctxAt B a]
    exact (slotOf_ctxAt_eq hB hx (by omega)).mpr (by omega)

theorem Memory.saveDomain_sorted {m : Memory} (B : Word) (d : Domain) (h : m.sorted) : (m.saveDomain B d).sorted :=
  Memory.writeWords_sorted _ _ (Memory.writeSlots_sorted _ _ (Memory.writeWords_sorted _ _ (m.saveCEff_sorted B d.ceff h)))

/-- The 48 slots of a domain context after the C-effective part (R50). -/
def Domain.slots (d : Domain) : List Value := d.cpmp.toList ++ d.cepc :: d.regs.toList

/-- The ten words at the end of a domain context (R50). -/
def Domain.words (d : Domain) : List Word :=
  [d.mcause, d.mtval, d.mtval2, d.mtinst, d.stvec, d.scause, d.stval, d.sepc, d.sscratch, d.satp]

@[simp] theorem Domain.slots_length (d : Domain) : d.slots.length = 48 := by simp [Domain.slots]

/-- Memory holds the domain image `d` at `B` (R50, R377). -/
structure Memory.domainIs (m : Memory) (B : Word) (d : Domain) : Prop where
  ceff : m.ceffIs B d.ceff
  offsetmmu : m.wordIs B 88 d.offsetmmu
  slots : ∀ i (hi : i < 48), m.slotIs B (96 + 16 * i) (d.slots[i]'(by simpa using hi))
  words : ∀ i (hi : i < 10), m.wordIs B (864 + 8 * i) (d.words[i]'(by simpa [Domain.words] using hi))

/-- `SaveDomain` leaves the image (R377). -/
theorem Memory.saveDomain_domainIs {m : Memory} {B : Word} (d : Domain) (h : m.sorted) (hB : B.toNat % 16 = 0) :
    (m.saveDomain B d).domainIs B d := by
  have s1 := m.saveCEff_sorted B d.ceff h
  have s2 := Memory.writeWords_sorted (ctxAt B 88) [d.offsetmmu] s1
  have s3 := Memory.writeSlots_sorted (ctxAt B 96) d.slots s2
  have e : m.saveDomain B d = ((((m.saveCEff B d.ceff).writeWords (ctxAt B 88) [d.offsetmmu]).writeSlots (ctxAt B 96)
    d.slots).writeWords (ctxAt B 864) d.words) := rfl
  have hl : d.words.length = 10 := rfl
  have w1 := fun x (hx : x < 2 ^ 64) => Memory.writeWords_outside (B := B) (off := 88) (x := x) [d.offsetmmu] s1 hB
    (by omega) (by simp) hx
  have w2 := fun x (hx : x < 2 ^ 64) => Memory.writeSlots_outside (B := B) (off := 96) (x := x) d.slots s2 hB
    (by omega) (by simp) hx
  have w3 := fun x (hx : x < 2 ^ 64) => Memory.writeWords_outside (B := B) (off := 864) (x := x) d.words s3 hB
    (by omega) (by simp [hl]) hx
  simp only [List.length_cons, List.length_nil, Domain.slots_length, hl] at w1 w2 w3
  have o := Memory.writeWords_wordIs (B := B) (off := 88) [d.offsetmmu] s1 hB (by omega) (by simp) 0 (by simp)
  constructor
  · rw [e]
    refine Memory.ceffIs.keep (Memory.saveCEff_ceffIs d.ceff h hB) (fun x hx => ?_) (fun x hx => ?_) (fun h0 => ?_)
    · exact ((w3 x (by omega)).1 (by omega)).trans (((w2 x (by omega) (by omega)).1).trans ((w1 x (by omega)).1 (by omega)))
    · exact ((w3 x (by omega)).2.1 (by omega)).trans
        (((w2 x (by omega) (by omega)).2).trans ((w1 x (by omega)).2.1 (by omega)))
    · exact ((w3 80 (by omega)).2.1 (by omega)).trans
        (((w2 80 (by omega) (by omega)).2).trans ((w1 80 (by omega)).2.2 h0))
  · rw [e]
    exact Memory.wordIs.keepWords (Memory.wordIs.keepSlots o d.slots s2 hB (by omega) (by simp) (by omega) (by omega))
      d.words s3 hB (by omega) (by simp [hl]) (by omega) (by omega)
  · intro i hi
    rw [e]
    exact Memory.slotIs.keepWords
      (Memory.writeSlots_slotIs d.slots s2 hB (by omega) (by simp) i (by simpa using hi)) d.words s3 hB (by omega)
      (by simp [hl]) (by omega) (by omega) (by omega)
  · intro i hi
    rw [e]
    exact Memory.writeWords_wordIs d.words s3 hB (by omega) (by simp [hl]) i (by simpa [hl] using hi)

/-- `SaveDomain` stores nothing past its 944 bytes (R50). -/
theorem Memory.saveDomain_outside {m : Memory} {B : Word} (d : Domain) (h : m.sorted) (hB : B.toNat % 16 = 0) {x : Nat}
    (hx : x < 2 ^ 64) (h944 : 944 ≤ x) :
    (m.saveDomain B d).at B x = m.at B x ∧ (m.saveDomain B d).slotCap (ctxAt B x) = m.slotCap (ctxAt B x) := by
  have s1 := m.saveCEff_sorted B d.ceff h
  have s2 := Memory.writeWords_sorted (ctxAt B 88) [d.offsetmmu] s1
  have s3 := Memory.writeSlots_sorted (ctxAt B 96) d.slots s2
  have e : m.saveDomain B d = ((((m.saveCEff B d.ceff).writeWords (ctxAt B 88) [d.offsetmmu]).writeSlots (ctxAt B 96)
    d.slots).writeWords (ctxAt B 864) d.words) := rfl
  have hl : d.words.length = 10 := rfl
  have w0 := Memory.saveCEff_outside d.ceff h hB hx
  have w1 := Memory.writeWords_outside (B := B) (off := 88) (x := x) [d.offsetmmu] s1 hB (by omega) (by simp) hx
  have w2 := Memory.writeSlots_outside (B := B) (off := 96) (x := x) d.slots s2 hB (by omega) (by simp) hx
  have w3 := Memory.writeWords_outside (B := B) (off := 864) (x := x) d.words s3 hB (by omega) (by simp [hl]) hx
  simp only [List.length_cons, List.length_nil, Domain.slots_length, hl] at w1 w2 w3
  rw [e]
  exact ⟨(w3.1 (by omega)).trans (((w2 (by omega)).1).trans ((w1.1 (by omega)).trans (w0.1 (by omega)))),
    (w3.2.1 (by omega)).trans (((w2 (by omega)).2).trans ((w1.2.1 (by omega)).trans (w0.2 (by omega))))⟩

/-- What R378's clearing leaves in a slot. -/
def clearedCap (d : Cap) : Cap := if d.type = .nonLinear then d else cnull

theorem Memory.clearMoved_sorted {m : Memory} (a : Word) (n : Nat) (h : m.sorted) : (m.clearMoved a n).sorted := by
  induction n generalizing m a with
  | zero => exact h
  | succ n ih =>
    unfold Memory.clearMoved
    apply ih
    split
    · split
      · exact h
      · exact m.writeSlot_sorted _ _ h
    · exact h

/-- Clearing the moved capabilities of `n` slots: those slots, and everything else as before (R378). -/
theorem Memory.clearMoved_at {m : Memory} {B : Word} {off x : Nat} (n : Nat) (h : m.sorted) (hB : B.toNat % 16 = 0)
    (h16 : off % 16 = 0) (ho : off + 16 * n ≤ 2 ^ 64) (hx : x < 2 ^ 64) :
    (x < off ∨ off + 16 * n ≤ x → (m.clearMoved (ctxAt B off) n).at B x = m.at B x) ∧
      (m.clearMoved (ctxAt B off) n).slotCap (ctxAt B x) =
        if off ≤ x ∧ x < off + 16 * n then (m.slotCap (ctxAt B x)).map clearedCap else m.slotCap (ctxAt B x) := by
  induction n generalizing m off with
  | zero => exact ⟨fun _ => rfl, by rw [if_neg (by omega)]; rfl⟩
  | succ n ih =>
    let m1 : Memory :=
      match m.slotCap (ctxAt B off) with
      | some c => if c.type = CapType.nonLinear then m else m.writeSlot (ctxAt B off) (.cap cnull)
      | none => m
    have e : m.clearMoved (ctxAt B off) (n + 1) = m1.clearMoved (ctxAt B (off + 16)) n := by
      rw [← ctxAt_next16]; rfl
    have hm1 : m1.sorted ∧ (x / 16 ≠ off / 16 → m1.at B x = m.at B x) ∧
        m1.slotCap (ctxAt B x) = if x / 16 = off / 16 then (m.slotCap (ctxAt B x)).map clearedCap
          else m.slotCap (ctxAt B x) := by
      have same : x / 16 = off / 16 → m.slotCap (ctxAt B x) = m.slotCap (ctxAt B off) := by
        intro hh; unfold Memory.slotCap; rw [(slotOf_ctxAt_eq hB hx (by omega)).mpr hh]
      simp only [m1]
      split
      · rename_i c hc
        split
        · rename_i ht
          refine ⟨h, fun _ => rfl, ?_⟩
          split
          · rw [same ‹_›, hc]; simp [clearedCap, ht]
          · rfl
        · rename_i ht
          refine ⟨m.writeSlot_sorted _ _ h, fun hh => m.writeCap_at _ h hB (by omega) hx hh, ?_⟩
          rw [m.writeCap_slotCap_at _ h hB (by omega) hx]
          split
          · rw [same ‹_›, hc]; simp [clearedCap, ht]
          · rfl
      · rename_i hc
        refine ⟨h, fun _ => rfl, ?_⟩
        split
        · rw [same ‹_›, hc]; rfl
        · rfl
    have := ih hm1.1 (off := off + 16) (by omega) (by omega)
    rw [e]
    constructor
    · intro hout
      exact (this.1 (by omega)).trans (hm1.2.1 (by omega))
    · rw [this.2, hm1.2.2]
      by_cases hh : x / 16 = off / 16
      · rw [if_pos hh, if_neg (by omega), if_pos (by omega)]
      · rw [if_neg hh]
        by_cases h2 : off + 16 ≤ x ∧ x < off + 16 + 16 * n
        · rw [if_pos h2, if_pos (by omega)]
        · rw [if_neg h2, if_neg (by omega)]

/-- Clearing one slot of moved capabilities: another slot's bytes are as before, and so are this one's unless it held one (R378). -/
theorem Memory.clearMoved_one {m : Memory} {B : Word} {off x : Nat} (h : m.sorted) (hB : B.toNat % 16 = 0)
    (ho : off < 2 ^ 64) (hx : x < 2 ^ 64) :
    ((x / 16 = off / 16 → ∀ d, m.slotCap (ctxAt B x) = some d → d.type = .nonLinear) →
      (m.clearMoved (ctxAt B off) 1).at B x = m.at B x) ∧
    (x / 16 = off / 16 → ∀ d, m.slotCap (ctxAt B x) = some d → d.type ≠ .nonLinear →
      (m.clearMoved (ctxAt B off) 1).defined (ctxAt B x) = false) := by
  have same : x / 16 = off / 16 → m.slotCap (ctxAt B x) = m.slotCap (ctxAt B off) := by
    intro hh; unfold Memory.slotCap; rw [(slotOf_ctxAt_eq hB hx ho).mpr hh]
  simp only [Memory.clearMoved]
  split
  · rename_i c hc
    split
    · rename_i ht
      exact ⟨fun _ => rfl, fun hh d hd hn => absurd ht (by rw [same hh, hc] at hd; cases hd; exact hn)⟩
    · rename_i ht
      refine ⟨fun hk => m.writeCap_at _ h hB ho hx fun hh => ht (hk hh c ((same hh).trans hc)), fun hh d _ _ => ?_⟩
      unfold Memory.defined
      rw [Memory.writeSlot_cap_mark _ _ _ h ((slotOf_ctxAt_eq hB hx ho).mpr hh)]
      simp
  · rename_i hc
    exact ⟨fun _ => rfl, fun hh d hd => by rw [same hh, hc] at hd; cases hd⟩

/-- Clearing the moved capabilities of `n` slots: the bytes of a slot that held none are as before, those of one that did are undefined for integer loads (R87, R378). -/
theorem Memory.clearMoved_bytes {m : Memory} {B : Word} {off x : Nat} (n : Nat) (h : m.sorted) (hB : B.toNat % 16 = 0)
    (h16 : off % 16 = 0) (ho : off + 16 * n ≤ 2 ^ 64) (hx : x < 2 ^ 64) :
    ((∀ d, m.slotCap (ctxAt B x) = some d → d.type = .nonLinear) →
      (m.clearMoved (ctxAt B off) n).at B x = m.at B x) ∧
    (off ≤ x → x < off + 16 * n → ∀ d, m.slotCap (ctxAt B x) = some d → d.type ≠ .nonLinear →
      (m.clearMoved (ctxAt B off) n).defined (ctxAt B x) = false) := by
  induction n generalizing m off with
  | zero => exact ⟨fun _ => rfl, fun _ _ => by omega⟩
  | succ n ih =>
    have e : m.clearMoved (ctxAt B off) (n + 1) = (m.clearMoved (ctxAt B off) 1).clearMoved (ctxAt B (off + 16)) n := by
      rw [← ctxAt_next16]; rfl
    have hs := m.clearMoved_sorted (ctxAt B off) 1 h
    have one := Memory.clearMoved_one (off := off) h hB (by omega) hx
    have cap := (Memory.clearMoved_at (B := B) (off := off) (x := x) 1 h hB h16 (by omega) hx).2
    have rest := Memory.clearMoved_at (B := B) (off := off + 16) (x := x) n hs hB (by omega) (by omega) hx
    have next := ih hs (off := off + 16) (by omega) (by omega)
    rw [e]
    by_cases hh : off ≤ x ∧ x < off + 16
    · have out := rest.1 (by omega)
      refine ⟨fun hk => out.trans (one.1 fun _ => hk), fun _ _ d hd hn => ?_⟩
      have := one.2 (by omega) d hd hn
      have mark : ((m.clearMoved (ctxAt B off) 1).clearMoved (ctxAt B (off + 16)) n).mark (ctxAt B x) =
        (m.clearMoved (ctxAt B off) 1).mark (ctxAt B x) := congrArg Prod.snd out
      unfold Memory.defined at this ⊢
      rw [mark]
      exact this
    · rw [if_neg (by omega)] at cap
      refine ⟨fun hk => (next.1 (by rw [cap]; exact hk)).trans (one.1 fun _ => hk), fun h1 h2 d hd hn => ?_⟩
      exact next.2 (by omega) (by omega) d (by rw [cap]; exact hd) hn

/-! ### The exchanges -/

theorem contextReady_of {s : State} {B : Word} {n : Nat} (h1 : B.toNat % 16 = 0) (h2 : AllMem s B n) :
    contextReady s B n = .ok () := by
  simp [contextReady, (alignedTo_iff _ _).mpr h1, (isMemRange_iff _ _ _).mpr h2]

theorem contextReady_notMemory {s : State} {B : Word} {n : Nat} (h1 : B.toNat % 16 = 0) (h2 : ¬ AllMem s B n) :
    contextReady s B n = .error .contextNotMemory := by
  simp [contextReady, (alignedTo_iff _ _).mpr h1, (isMemRange_false _ _ _).mpr h2]

theorem contextReady_misaligned {s : State} {B : Word} {n : Nat} (h1 : B.toNat % 16 ≠ 0) :
    contextReady s B n = .error .contextMisaligned := by
  simp [contextReady, (alignedTo_false _ _).mpr h1]

theorem contextReady_ok {s : State} {B : Word} {n : Nat} (h : contextReady s B n = .ok ()) :
    B.toNat % 16 = 0 ∧ AllMem s B n := by
  by_cases h1 : B.toNat % 16 = 0
  · by_cases h2 : AllMem s B n
    · exact ⟨h1, h2⟩
    · rw [contextReady_notMemory h1 h2] at h; cases h
  · rw [contextReady_misaligned h1] at h; cases h

theorem orStuck_ok {α : Type} {x : Except Fault α} {a : α} (h : orStuck x = .ok a) : x = .ok a := by
  cases x with
  | ok b => exact congrArg Except.ok (Except.ok.inj h)
  | error e => cases h

/-- All that `SwapCEff` can answer (R376). -/
theorem State.swapCEff_ok {s t : State} {B : Word} (h : s.swapCEff B = .ok t) :
    (B.toNat % 16 = 0 ∧ AllMem s B 88) ∧
      t = ((s.setMem (s.mem.saveCEff B s.ceff)).installCEff (s.mem.readCEff s.draws B)).draw := by
  unfold State.swapCEff at h
  obtain ⟨_, h1, h⟩ := except_bind_ok h
  exact ⟨contextReady_ok h1, (Except.ok.inj h).symm⟩

/-- The state `SaveCEff` and `LoadDomain` leave, the saved privilege level given (R217, R378). -/
def State.exchanged (s : State) (B : Word) (p : Priv) : State :=
  (((s.setMem ((s.mem.saveCEff B s.ceff).clearMoved (ctxAt B 96) 48)).installDomain
    (s.mem.readDomain s.draws B)).setPriv p).draw

/-- All that `SaveCEff` and `LoadDomain` can answer (R217, R378). -/
theorem State.exchangeDomain_ok {s t : State} {B : Word} (h : s.exchangeDomain B = .ok t) :
    (B.toNat % 16 = 0 ∧ AllMem s B 944) ∧
      ∃ p, Priv.ofCode (imagePriv (s.mem.readInt s.draws (ctxAt B 48) 8)) = some p ∧ t = s.exchanged B p := by
  unfold State.exchangeDomain at h
  obtain ⟨_, h1, h⟩ := except_bind_ok h
  refine ⟨contextReady_ok h1, ?_⟩
  have hp : (s.mem.readDomain s.draws B).ceff.mstatus = s.mem.readInt s.draws (ctxAt B 48) 8 := rfl
  dsimp only at h
  rw [hp] at h
  cases he : Priv.ofCode (imagePriv (s.mem.readInt s.draws (ctxAt B 48) 8)) with
  | none => rw [he] at h; exact absurd h (by simp)
  | some p => rw [he] at h; exact ⟨p, rfl, (Except.ok.inj h).symm⟩

/-- The state H-interrupt delivery leaves (R375). -/
def State.delivered (s : State) (i : Irq) (c : Cap) : State :=
  let u := ((s.setMem (s.mem.saveDomain c.base s.domain)).scrub.installCEff (s.mem.readCEff s.draws c.base)).draw
  ((u.setCcsr { u.ccsr with cih := .cap cnull }).setReg 1 (.cap c.delivered)).setReg 10 (.int i.code)

/-- All that H-interrupt delivery can answer (R375). -/
theorem hDeliver_ok {s t : State} {i : Irq} {c : Cap} (h : hDeliver s i c = .ok t) :
    (c.base.toNat % 16 = 0 ∧ AllMem s c.base 944) ∧ t = s.delivered i c := by
  unfold hDeliver at h
  obtain ⟨_, h1, h⟩ := except_bind_ok h
  exact ⟨contextReady_ok h1, (Except.ok.inj h).symm⟩

@[simp] theorem State.delivered_mem (s : State) (i : Irq) (c : Cap) :
    (s.delivered i c).mem = s.mem.saveDomain c.base s.domain := by
  simp [State.delivered, State.installCEff, State.scrub]

@[simp] theorem State.exchanged_mem (s : State) (B : Word) (p : Priv) :
    (s.exchanged B p).mem = (s.mem.saveCEff B s.ceff).clearMoved (ctxAt B 96) 48 := by
  simp [State.exchanged, State.installDomain]

end Sys2Proof.Machine
end

