-- ==== Sys2Proof/Laws/Decode.lean ====
section
/-!
SUPPORT. The fields of the words the encoder writes, format by format, and that a word survives its bytes. Each lemma says what one field of one format reads.
-/

namespace Sys2Proof

open Decode Encode

/-- A word's bytes put back together are the word (R120). -/
@[simp] theorem wordOfBytes_bytes (w : BitVec 32) :
    wordOfBytes (w.extractLsb' 0 8) (w.extractLsb' 8 8) (w.extractLsb' 16 8) (w.extractLsb' 24 8) = w := by
  unfold wordOfBytes
  ext i hi
  simp only [← BitVec.getLsbD_eq_getElem, BitVec.getLsbD_append, BitVec.getLsbD_extractLsb']
  grind

/-- Decoding the bytes of a word is decoding the word (R120). -/
theorem decode_bytesOfWord (w : BitVec 32) : decode (bytesOfWord w) = (Decode.word w).map fun i => (i, []) := by
  simp only [bytesOfWord, decode, wordOfBytes_bytes]

theorem rType_getLsbD (f7 : BitVec 7) (r2 r1 : Reg) (f3 : BitVec 3) (d : Reg) (o : BitVec 7) (i : Nat) :
    (rType f7 r2 r1 f3 d o).getLsbD i = (f7 ++ r2 ++ r1 ++ f3 ++ d ++ o).getLsbD i := rfl

theorem iType_getLsbD (m : BitVec 12) (r1 : Reg) (f3 : BitVec 3) (d : Reg) (o : BitVec 7) (i : Nat) :
    (iType m r1 f3 d o).getLsbD i = (m ++ r1 ++ f3 ++ d ++ o).getLsbD i := rfl

theorem sType_getLsbD (m : BitVec 12) (r2 r1 : Reg) (f3 : BitVec 3) (o : BitVec 7) (i : Nat) :
    (sType m r2 r1 f3 o).getLsbD i =
      (m.extractLsb' 5 7 ++ r2 ++ r1 ++ f3 ++ m.extractLsb' 0 5 ++ o).getLsbD i := rfl

theorem bType_getLsbD (m : BitVec 13) (r2 r1 : Reg) (f3 : BitVec 3) (o : BitVec 7) (i : Nat) :
    (bType m r2 r1 f3 o).getLsbD i =
      (m.extractLsb' 12 1 ++ m.extractLsb' 5 6 ++ r2 ++ r1 ++ f3 ++ m.extractLsb' 1 4
        ++ m.extractLsb' 11 1 ++ o).getLsbD i := rfl

theorem uType_getLsbD (m : BitVec 20) (d : Reg) (o : BitVec 7) (i : Nat) :
    (uType m d o).getLsbD i = (m ++ d ++ o).getLsbD i := rfl

theorem jType_getLsbD (m : BitVec 21) (d : Reg) (o : BitVec 7) (i : Nat) :
    (jType m d o).getLsbD i =
      (m.extractLsb' 20 1 ++ m.extractLsb' 1 10 ++ m.extractLsb' 11 1 ++ m.extractLsb' 12 8 ++ d
        ++ o).getLsbD i := rfl

theorem shiftType_getLsbD (f6 m : BitVec 6) (r1 : Reg) (f3 : BitVec 3) (d : Reg) (i : Nat) :
    (shiftType f6 m r1 f3 d).getLsbD i = (f6 ++ m ++ r1 ++ f3 ++ d ++ 0x13#7).getLsbD i := rfl

@[simp] theorem opcode_rType (f7 : BitVec 7) (r2 r1 : Reg) (f3 : BitVec 3) (d : Reg) (o : BitVec 7) : opcode (rType f7 r2 r1 f3 d o) = o := by
  unfold opcode
  ext i hi
  simp only [← BitVec.getLsbD_eq_getElem, BitVec.getLsbD_extractLsb', rType_getLsbD, BitVec.getLsbD_append]
  grind

@[simp] theorem rd_rType (f7 : BitVec 7) (r2 r1 : Reg) (f3 : BitVec 3) (d : Reg) (o : BitVec 7) : rd (rType f7 r2 r1 f3 d o) = d := by
  unfold rd
  ext i hi
  simp only [← BitVec.getLsbD_eq_getElem, BitVec.getLsbD_extractLsb', rType_getLsbD, BitVec.getLsbD_append]
  grind

@[simp] theorem funct3_rType (f7 : BitVec 7) (r2 r1 : Reg) (f3 : BitVec 3) (d : Reg) (o : BitVec 7) : funct3 (rType f7 r2 r1 f3 d o) = f3 := by
  unfold funct3
  ext i hi
  simp only [← BitVec.getLsbD_eq_getElem, BitVec.getLsbD_extractLsb', rType_getLsbD, BitVec.getLsbD_append]
  grind

@[simp] theorem rs1_rType (f7 : BitVec 7) (r2 r1 : Reg) (f3 : BitVec 3) (d : Reg) (o : BitVec 7) : rs1 (rType f7 r2 r1 f3 d o) = r1 := by
  unfold rs1
  ext i hi
  simp only [← BitVec.getLsbD_eq_getElem, BitVec.getLsbD_extractLsb', rType_getLsbD, BitVec.getLsbD_append]
  grind

@[simp] theorem rs2_rType (f7 : BitVec 7) (r2 r1 : Reg) (f3 : BitVec 3) (d : Reg) (o : BitVec 7) : rs2 (rType f7 r2 r1 f3 d o) = r2 := by
  unfold rs2
  ext i hi
  simp only [← BitVec.getLsbD_eq_getElem, BitVec.getLsbD_extractLsb', rType_getLsbD, BitVec.getLsbD_append]
  grind

@[simp] theorem funct7_rType (f7 : BitVec 7) (r2 r1 : Reg) (f3 : BitVec 3) (d : Reg) (o : BitVec 7) : funct7 (rType f7 r2 r1 f3 d o) = f7 := by
  unfold funct7
  ext i hi
  simp only [← BitVec.getLsbD_eq_getElem, BitVec.getLsbD_extractLsb', rType_getLsbD, BitVec.getLsbD_append]
  grind

@[simp] theorem opcode_iType (m : BitVec 12) (r1 : Reg) (f3 : BitVec 3) (d : Reg) (o : BitVec 7) : opcode (iType m r1 f3 d o) = o := by
  unfold opcode
  ext i hi
  simp only [← BitVec.getLsbD_eq_getElem, BitVec.getLsbD_extractLsb', iType_getLsbD, BitVec.getLsbD_append]
  grind

@[simp] theorem rd_iType (m : BitVec 12) (r1 : Reg) (f3 : BitVec 3) (d : Reg) (o : BitVec 7) : rd (iType m r1 f3 d o) = d := by
  unfold rd
  ext i hi
  simp only [← BitVec.getLsbD_eq_getElem, BitVec.getLsbD_extractLsb', iType_getLsbD, BitVec.getLsbD_append]
  grind

@[simp] theorem funct3_iType (m : BitVec 12) (r1 : Reg) (f3 : BitVec 3) (d : Reg) (o : BitVec 7) : funct3 (iType m r1 f3 d o) = f3 := by
  unfold funct3
  ext i hi
  simp only [← BitVec.getLsbD_eq_getElem, BitVec.getLsbD_extractLsb', iType_getLsbD, BitVec.getLsbD_append]
  grind

@[simp] theorem rs1_iType (m : BitVec 12) (r1 : Reg) (f3 : BitVec 3) (d : Reg) (o : BitVec 7) : rs1 (iType m r1 f3 d o) = r1 := by
  unfold rs1
  ext i hi
  simp only [← BitVec.getLsbD_eq_getElem, BitVec.getLsbD_extractLsb', iType_getLsbD, BitVec.getLsbD_append]
  grind

@[simp] theorem immI_iType (m : BitVec 12) (r1 : Reg) (f3 : BitVec 3) (d : Reg) (o : BitVec 7) : immI (iType m r1 f3 d o) = m := by
  unfold immI
  ext i hi
  simp only [← BitVec.getLsbD_eq_getElem, BitVec.getLsbD_extractLsb', iType_getLsbD, BitVec.getLsbD_append]
  grind

@[simp] theorem opcode_sType (m : BitVec 12) (r2 r1 : Reg) (f3 : BitVec 3) (o : BitVec 7) : opcode (sType m r2 r1 f3 o) = o := by
  unfold opcode
  ext i hi
  simp only [← BitVec.getLsbD_eq_getElem, BitVec.getLsbD_extractLsb', sType_getLsbD, BitVec.getLsbD_append]
  grind

@[simp] theorem funct3_sType (m : BitVec 12) (r2 r1 : Reg) (f3 : BitVec 3) (o : BitVec 7) : funct3 (sType m r2 r1 f3 o) = f3 := by
  unfold funct3
  ext i hi
  simp only [← BitVec.getLsbD_eq_getElem, BitVec.getLsbD_extractLsb', sType_getLsbD, BitVec.getLsbD_append]
  grind

@[simp] theorem rs1_sType (m : BitVec 12) (r2 r1 : Reg) (f3 : BitVec 3) (o : BitVec 7) : rs1 (sType m r2 r1 f3 o) = r1 := by
  unfold rs1
  ext i hi
  simp only [← BitVec.getLsbD_eq_getElem, BitVec.getLsbD_extractLsb', sType_getLsbD, BitVec.getLsbD_append]
  grind

@[simp] theorem rs2_sType (m : BitVec 12) (r2 r1 : Reg) (f3 : BitVec 3) (o : BitVec 7) : rs2 (sType m r2 r1 f3 o) = r2 := by
  unfold rs2
  ext i hi
  simp only [← BitVec.getLsbD_eq_getElem, BitVec.getLsbD_extractLsb', sType_getLsbD, BitVec.getLsbD_append]
  grind

@[simp] theorem immS_sType (m : BitVec 12) (r2 r1 : Reg) (f3 : BitVec 3) (o : BitVec 7) : immS (sType m r2 r1 f3 o) = m := by
  unfold immS
  ext i hi
  simp only [← BitVec.getLsbD_eq_getElem, BitVec.getLsbD_extractLsb', sType_getLsbD, BitVec.getLsbD_append]
  grind

@[simp] theorem opcode_bType (m : BitVec 13) (r2 r1 : Reg) (f3 : BitVec 3) (o : BitVec 7) : opcode (bType m r2 r1 f3 o) = o := by
  unfold opcode
  ext i hi
  simp only [← BitVec.getLsbD_eq_getElem, BitVec.getLsbD_extractLsb', bType_getLsbD, BitVec.getLsbD_append]
  grind

@[simp] theorem funct3_bType (m : BitVec 13) (r2 r1 : Reg) (f3 : BitVec 3) (o : BitVec 7) : funct3 (bType m r2 r1 f3 o) = f3 := by
  unfold funct3
  ext i hi
  simp only [← BitVec.getLsbD_eq_getElem, BitVec.getLsbD_extractLsb', bType_getLsbD, BitVec.getLsbD_append]
  grind

@[simp] theorem rs1_bType (m : BitVec 13) (r2 r1 : Reg) (f3 : BitVec 3) (o : BitVec 7) : rs1 (bType m r2 r1 f3 o) = r1 := by
  unfold rs1
  ext i hi
  simp only [← BitVec.getLsbD_eq_getElem, BitVec.getLsbD_extractLsb', bType_getLsbD, BitVec.getLsbD_append]
  grind

@[simp] theorem rs2_bType (m : BitVec 13) (r2 r1 : Reg) (f3 : BitVec 3) (o : BitVec 7) : rs2 (bType m r2 r1 f3 o) = r2 := by
  unfold rs2
  ext i hi
  simp only [← BitVec.getLsbD_eq_getElem, BitVec.getLsbD_extractLsb', bType_getLsbD, BitVec.getLsbD_append]
  grind

@[simp] theorem opcode_uType (m : BitVec 20) (d : Reg) (o : BitVec 7) : opcode (uType m d o) = o := by
  unfold opcode
  ext i hi
  simp only [← BitVec.getLsbD_eq_getElem, BitVec.getLsbD_extractLsb', uType_getLsbD, BitVec.getLsbD_append]
  grind

@[simp] theorem rd_uType (m : BitVec 20) (d : Reg) (o : BitVec 7) : rd (uType m d o) = d := by
  unfold rd
  ext i hi
  simp only [← BitVec.getLsbD_eq_getElem, BitVec.getLsbD_extractLsb', uType_getLsbD, BitVec.getLsbD_append]
  grind

@[simp] theorem immU_uType (m : BitVec 20) (d : Reg) (o : BitVec 7) : immU (uType m d o) = m := by
  unfold immU
  ext i hi
  simp only [← BitVec.getLsbD_eq_getElem, BitVec.getLsbD_extractLsb', uType_getLsbD, BitVec.getLsbD_append]
  grind

@[simp] theorem opcode_jType (m : BitVec 21) (d : Reg) (o : BitVec 7) : opcode (jType m d o) = o := by
  unfold opcode
  ext i hi
  simp only [← BitVec.getLsbD_eq_getElem, BitVec.getLsbD_extractLsb', jType_getLsbD, BitVec.getLsbD_append]
  grind

@[simp] theorem rd_jType (m : BitVec 21) (d : Reg) (o : BitVec 7) : rd (jType m d o) = d := by
  unfold rd
  ext i hi
  simp only [← BitVec.getLsbD_eq_getElem, BitVec.getLsbD_extractLsb', jType_getLsbD, BitVec.getLsbD_append]
  grind

@[simp] theorem opcode_shiftType (f6 m : BitVec 6) (r1 : Reg) (f3 : BitVec 3) (d : Reg) : opcode (shiftType f6 m r1 f3 d) = 0x13#7 := by
  unfold opcode
  ext i hi
  simp only [← BitVec.getLsbD_eq_getElem, BitVec.getLsbD_extractLsb', shiftType_getLsbD, BitVec.getLsbD_append]
  grind

@[simp] theorem rd_shiftType (f6 m : BitVec 6) (r1 : Reg) (f3 : BitVec 3) (d : Reg) : rd (shiftType f6 m r1 f3 d) = d := by
  unfold rd
  ext i hi
  simp only [← BitVec.getLsbD_eq_getElem, BitVec.getLsbD_extractLsb', shiftType_getLsbD, BitVec.getLsbD_append]
  grind

@[simp] theorem funct3_shiftType (f6 m : BitVec 6) (r1 : Reg) (f3 : BitVec 3) (d : Reg) : funct3 (shiftType f6 m r1 f3 d) = f3 := by
  unfold funct3
  ext i hi
  simp only [← BitVec.getLsbD_eq_getElem, BitVec.getLsbD_extractLsb', shiftType_getLsbD, BitVec.getLsbD_append]
  grind

@[simp] theorem rs1_shiftType (f6 m : BitVec 6) (r1 : Reg) (f3 : BitVec 3) (d : Reg) : rs1 (shiftType f6 m r1 f3 d) = r1 := by
  unfold rs1
  ext i hi
  simp only [← BitVec.getLsbD_eq_getElem, BitVec.getLsbD_extractLsb', shiftType_getLsbD, BitVec.getLsbD_append]
  grind

@[simp] theorem shamt6_shiftType (f6 m : BitVec 6) (r1 : Reg) (f3 : BitVec 3) (d : Reg) : shamt6 (shiftType f6 m r1 f3 d) = m := by
  unfold shamt6
  ext i hi
  simp only [← BitVec.getLsbD_eq_getElem, BitVec.getLsbD_extractLsb', shiftType_getLsbD, BitVec.getLsbD_append]
  grind

@[simp] theorem funct6_shiftType (f6 m : BitVec 6) (r1 : Reg) (f3 : BitVec 3) (d : Reg) : funct6 (shiftType f6 m r1 f3 d) = f6 := by
  unfold funct6
  ext i hi
  simp only [← BitVec.getLsbD_eq_getElem, BitVec.getLsbD_extractLsb', shiftType_getLsbD, BitVec.getLsbD_append]
  grind

/-- The B-type offset read back: bit 0 is the implied 0 (R281). -/
theorem immB_bType (m : BitVec 13) (r2 r1 : Reg) (f3 : BitVec 3) (o : BitVec 7) (h : branchOffsetOk m = true) :
    immB (bType m r2 r1 f3 o) = m := by
  have h0 : m.getLsbD 0 = false := by simpa [branchOffsetOk] using h
  unfold immB
  ext i hi
  simp only [← BitVec.getLsbD_eq_getElem, BitVec.getLsbD_extractLsb', bType_getLsbD, BitVec.getLsbD_append]
  grind

/-- The J-type offset read back: bit 0 is the implied 0 (R281). -/
theorem immJ_jType (m : BitVec 21) (d : Reg) (o : BitVec 7) (h : jumpOffsetOk m = true) :
    immJ (jType m d o) = m := by
  have h0 : m.getLsbD 0 = false := by simpa [jumpOffsetOk] using h
  unfold immJ
  ext i hi
  simp only [← BitVec.getLsbD_eq_getElem, BitVec.getLsbD_extractLsb', jType_getLsbD, BitVec.getLsbD_append]
  grind

/-- The three FENCE fields of an I-type immediate (R326). -/
theorem fence_fields (fm pred succ : BitVec 4) (r1 : Reg) (f3 : BitVec 3) (d : Reg) (o : BitVec 7) :
    fenceMode (iType (fm ++ pred ++ succ) r1 f3 d o) = fm ∧ fencePred (iType (fm ++ pred ++ succ) r1 f3 d o) = pred ∧
      fenceSucc (iType (fm ++ pred ++ succ) r1 f3 d o) = succ := by
  unfold fenceMode fencePred fenceSucc
  refine ⟨?_, ?_, ?_⟩ <;>
  · ext i hi
    simp only [← BitVec.getLsbD_eq_getElem, BitVec.getLsbD_extractLsb', iType_getLsbD, BitVec.getLsbD_append]
    grind

end Sys2Proof
end

