-- ==== Sys2Proof/Laws/PerInstr.lean ====
section
/-!
SUPPORT. The statements made per instruction: one family, one lemma per constructor of `Instr`. Family `Uncompressed`: the two low bits of every instruction's word are `11` (R120).
-/

namespace Sys2Proof.Laws

/-- The low two bits of a word. -/
def lowTwo (w : BitVec 32) : BitVec 2 := w.extractLsb' 0 2

theorem lowTwo_rType (f7 : BitVec 7) (r2 r1 : Reg) (f3 : BitVec 3) (d : Reg) (o : BitVec 7) : lowTwo (Encode.rType f7 r2 r1 f3 d o) = o.extractLsb' 0 2 := by
  unfold lowTwo
  ext i hi
  simp only [← BitVec.getLsbD_eq_getElem, BitVec.getLsbD_extractLsb', rType_getLsbD, BitVec.getLsbD_append]
  grind

theorem lowTwo_iType (m : BitVec 12) (r1 : Reg) (f3 : BitVec 3) (d : Reg) (o : BitVec 7) : lowTwo (Encode.iType m r1 f3 d o) = o.extractLsb' 0 2 := by
  unfold lowTwo
  ext i hi
  simp only [← BitVec.getLsbD_eq_getElem, BitVec.getLsbD_extractLsb', iType_getLsbD, BitVec.getLsbD_append]
  grind

theorem lowTwo_sType (m : BitVec 12) (r2 r1 : Reg) (f3 : BitVec 3) (o : BitVec 7) : lowTwo (Encode.sType m r2 r1 f3 o) = o.extractLsb' 0 2 := by
  unfold lowTwo
  ext i hi
  simp only [← BitVec.getLsbD_eq_getElem, BitVec.getLsbD_extractLsb', sType_getLsbD, BitVec.getLsbD_append]
  grind

theorem lowTwo_bType (m : BitVec 13) (r2 r1 : Reg) (f3 : BitVec 3) (o : BitVec 7) : lowTwo (Encode.bType m r2 r1 f3 o) = o.extractLsb' 0 2 := by
  unfold lowTwo
  ext i hi
  simp only [← BitVec.getLsbD_eq_getElem, BitVec.getLsbD_extractLsb', bType_getLsbD, BitVec.getLsbD_append]
  grind

theorem lowTwo_uType (m : BitVec 20) (d : Reg) (o : BitVec 7) : lowTwo (Encode.uType m d o) = o.extractLsb' 0 2 := by
  unfold lowTwo
  ext i hi
  simp only [← BitVec.getLsbD_eq_getElem, BitVec.getLsbD_extractLsb', uType_getLsbD, BitVec.getLsbD_append]
  grind

theorem lowTwo_jType (m : BitVec 21) (d : Reg) (o : BitVec 7) : lowTwo (Encode.jType m d o) = o.extractLsb' 0 2 := by
  unfold lowTwo
  ext i hi
  simp only [← BitVec.getLsbD_eq_getElem, BitVec.getLsbD_extractLsb', jType_getLsbD, BitVec.getLsbD_append]
  grind

theorem lowTwo_shiftType (f6 m : BitVec 6) (r1 : Reg) (f3 : BitVec 3) (d : Reg) : lowTwo (Encode.shiftType f6 m r1 f3 d) = (0x13#7).extractLsb' 0 2 := by
  unfold lowTwo
  ext i hi
  simp only [← BitVec.getLsbD_eq_getElem, BitVec.getLsbD_extractLsb', shiftType_getLsbD, BitVec.getLsbD_append]
  grind

/-- The two low bits of the instruction's word are `11` (R120). -/
def Uncompressed.Statement (i : Instr) : Prop := lowTwo (encode i) = 3#2

theorem Uncompressed.revoke (rd rs1 rs2 : Reg) : Uncompressed.Statement (.revoke rd rs1 rs2) := by
  unfold Uncompressed.Statement encode; rw [lowTwo_rType]; rfl

theorem Uncompressed.shrink (rd rs1 rs2 : Reg) : Uncompressed.Statement (.shrink rd rs1 rs2) := by
  unfold Uncompressed.Statement encode; rw [lowTwo_rType]; rfl

theorem Uncompressed.tighten (rd rs1 : Reg) (imm : BitVec 5) : Uncompressed.Statement (.tighten rd rs1 imm) := by
  unfold Uncompressed.Statement encode; rw [lowTwo_rType]; rfl

theorem Uncompressed.delin (rd rs1 rs2 : Reg) : Uncompressed.Statement (.delin rd rs1 rs2) := by
  unfold Uncompressed.Statement encode; rw [lowTwo_rType]; rfl

theorem Uncompressed.lcc (rd rs1 : Reg) (imm : BitVec 5) : Uncompressed.Statement (.lcc rd rs1 imm) := by
  unfold Uncompressed.Statement encode; rw [lowTwo_rType]; rfl

theorem Uncompressed.scc (rd rs1 rs2 : Reg) : Uncompressed.Statement (.scc rd rs1 rs2) := by
  unfold Uncompressed.Statement encode; rw [lowTwo_rType]; rfl

theorem Uncompressed.split (rd rs1 rs2 : Reg) : Uncompressed.Statement (.split rd rs1 rs2) := by
  unfold Uncompressed.Statement encode; rw [lowTwo_rType]; rfl

theorem Uncompressed.seal (rd rs1 rs2 : Reg) : Uncompressed.Statement (.seal rd rs1 rs2) := by
  unfold Uncompressed.Statement encode; rw [lowTwo_rType]; rfl

theorem Uncompressed.mrev (rd rs1 rs2 : Reg) : Uncompressed.Statement (.mrev rd rs1 rs2) := by
  unfold Uncompressed.Statement encode; rw [lowTwo_rType]; rfl

theorem Uncompressed.init (rd rs1 rs2 : Reg) : Uncompressed.Statement (.init rd rs1 rs2) := by
  unfold Uncompressed.Statement encode; rw [lowTwo_rType]; rfl

theorem Uncompressed.movc (rd rs1 rs2 : Reg) : Uncompressed.Statement (.movc rd rs1 rs2) := by
  unfold Uncompressed.Statement encode; rw [lowTwo_rType]; rfl

theorem Uncompressed.drop (rd rs1 rs2 : Reg) : Uncompressed.Statement (.drop rd rs1 rs2) := by
  unfold Uncompressed.Statement encode; rw [lowTwo_rType]; rfl

theorem Uncompressed.cincoffset (rd rs1 rs2 : Reg) : Uncompressed.Statement (.cincoffset rd rs1 rs2) := by
  unfold Uncompressed.Statement encode; rw [lowTwo_rType]; rfl

theorem Uncompressed.capenter (rd rs1 rs2 : Reg) : Uncompressed.Statement (.capenter rd rs1 rs2) := by
  unfold Uncompressed.Statement encode; rw [lowTwo_rType]; rfl

theorem Uncompressed.call (rd rs1 rs2 : Reg) : Uncompressed.Statement (.call rd rs1 rs2) := by
  unfold Uncompressed.Statement encode; rw [lowTwo_rType]; rfl

theorem Uncompressed.ret (rd rs1 rs2 : Reg) : Uncompressed.Statement (.ret rd rs1 rs2) := by
  unfold Uncompressed.Statement encode; rw [lowTwo_rType]; rfl

theorem Uncompressed.shrinkto (rd rs1 : Reg) (imm : BitVec 12) : Uncompressed.Statement (.shrinkto rd rs1 imm) := by
  unfold Uncompressed.Statement encode; rw [lowTwo_iType]; rfl

theorem Uncompressed.cincoffsetimm (rd rs1 : Reg) (imm : BitVec 12) : Uncompressed.Statement (.cincoffsetimm rd rs1 imm) := by
  unfold Uncompressed.Statement encode; rw [lowTwo_iType]; rfl

theorem Uncompressed.ldc (rd rs1 : Reg) (imm : BitVec 12) : Uncompressed.Statement (.ldc rd rs1 imm) := by
  unfold Uncompressed.Statement encode; rw [lowTwo_iType]; rfl

theorem Uncompressed.stc (rs1 rs2 : Reg) (imm : BitVec 12) : Uncompressed.Statement (.stc rs1 rs2 imm) := by
  unfold Uncompressed.Statement encode; rw [lowTwo_sType]; rfl

theorem Uncompressed.cjalr (rd rs1 : Reg) (imm : BitVec 12) : Uncompressed.Statement (.cjalr rd rs1 imm) := by
  unfold Uncompressed.Statement encode; rw [lowTwo_iType]; rfl

theorem Uncompressed.cbnz (rd rs1 : Reg) (imm : BitVec 12) : Uncompressed.Statement (.cbnz rd rs1 imm) := by
  unfold Uncompressed.Statement encode; rw [lowTwo_iType]; rfl

theorem Uncompressed.ccsrrw (rd rs1 : Reg) (imm : BitVec 12) : Uncompressed.Statement (.ccsrrw rd rs1 imm) := by
  unfold Uncompressed.Statement encode; rw [lowTwo_iType]; rfl

theorem Uncompressed.lui (rd : Reg) (imm : BitVec 20) : Uncompressed.Statement (.lui rd imm) := by
  unfold Uncompressed.Statement encode; rw [lowTwo_uType]; rfl

theorem Uncompressed.auipc (rd : Reg) (imm : BitVec 20) : Uncompressed.Statement (.auipc rd imm) := by
  unfold Uncompressed.Statement encode; rw [lowTwo_uType]; rfl

theorem Uncompressed.jal (rd : Reg) (imm : BitVec 21) : Uncompressed.Statement (.jal rd imm) := by
  unfold Uncompressed.Statement encode; rw [lowTwo_jType]; rfl

theorem Uncompressed.jalr (rd rs1 : Reg) (imm : BitVec 12) : Uncompressed.Statement (.jalr rd rs1 imm) := by
  unfold Uncompressed.Statement encode; rw [lowTwo_iType]; rfl

theorem Uncompressed.beq (rs1 rs2 : Reg) (imm : BitVec 13) : Uncompressed.Statement (.beq rs1 rs2 imm) := by
  unfold Uncompressed.Statement encode; rw [lowTwo_bType]; rfl

theorem Uncompressed.bne (rs1 rs2 : Reg) (imm : BitVec 13) : Uncompressed.Statement (.bne rs1 rs2 imm) := by
  unfold Uncompressed.Statement encode; rw [lowTwo_bType]; rfl

theorem Uncompressed.blt (rs1 rs2 : Reg) (imm : BitVec 13) : Uncompressed.Statement (.blt rs1 rs2 imm) := by
  unfold Uncompressed.Statement encode; rw [lowTwo_bType]; rfl

theorem Uncompressed.bge (rs1 rs2 : Reg) (imm : BitVec 13) : Uncompressed.Statement (.bge rs1 rs2 imm) := by
  unfold Uncompressed.Statement encode; rw [lowTwo_bType]; rfl

theorem Uncompressed.bltu (rs1 rs2 : Reg) (imm : BitVec 13) : Uncompressed.Statement (.bltu rs1 rs2 imm) := by
  unfold Uncompressed.Statement encode; rw [lowTwo_bType]; rfl

theorem Uncompressed.bgeu (rs1 rs2 : Reg) (imm : BitVec 13) : Uncompressed.Statement (.bgeu rs1 rs2 imm) := by
  unfold Uncompressed.Statement encode; rw [lowTwo_bType]; rfl

theorem Uncompressed.lb (rd rs1 : Reg) (imm : BitVec 12) : Uncompressed.Statement (.lb rd rs1 imm) := by
  unfold Uncompressed.Statement encode; rw [lowTwo_iType]; rfl

theorem Uncompressed.lh (rd rs1 : Reg) (imm : BitVec 12) : Uncompressed.Statement (.lh rd rs1 imm) := by
  unfold Uncompressed.Statement encode; rw [lowTwo_iType]; rfl

theorem Uncompressed.lw (rd rs1 : Reg) (imm : BitVec 12) : Uncompressed.Statement (.lw rd rs1 imm) := by
  unfold Uncompressed.Statement encode; rw [lowTwo_iType]; rfl

theorem Uncompressed.ld (rd rs1 : Reg) (imm : BitVec 12) : Uncompressed.Statement (.ld rd rs1 imm) := by
  unfold Uncompressed.Statement encode; rw [lowTwo_iType]; rfl

theorem Uncompressed.lbu (rd rs1 : Reg) (imm : BitVec 12) : Uncompressed.Statement (.lbu rd rs1 imm) := by
  unfold Uncompressed.Statement encode; rw [lowTwo_iType]; rfl

theorem Uncompressed.lhu (rd rs1 : Reg) (imm : BitVec 12) : Uncompressed.Statement (.lhu rd rs1 imm) := by
  unfold Uncompressed.Statement encode; rw [lowTwo_iType]; rfl

theorem Uncompressed.lwu (rd rs1 : Reg) (imm : BitVec 12) : Uncompressed.Statement (.lwu rd rs1 imm) := by
  unfold Uncompressed.Statement encode; rw [lowTwo_iType]; rfl

theorem Uncompressed.sb (rs1 rs2 : Reg) (imm : BitVec 12) : Uncompressed.Statement (.sb rs1 rs2 imm) := by
  unfold Uncompressed.Statement encode; rw [lowTwo_sType]; rfl

theorem Uncompressed.sh (rs1 rs2 : Reg) (imm : BitVec 12) : Uncompressed.Statement (.sh rs1 rs2 imm) := by
  unfold Uncompressed.Statement encode; rw [lowTwo_sType]; rfl

theorem Uncompressed.sw (rs1 rs2 : Reg) (imm : BitVec 12) : Uncompressed.Statement (.sw rs1 rs2 imm) := by
  unfold Uncompressed.Statement encode; rw [lowTwo_sType]; rfl

theorem Uncompressed.sd (rs1 rs2 : Reg) (imm : BitVec 12) : Uncompressed.Statement (.sd rs1 rs2 imm) := by
  unfold Uncompressed.Statement encode; rw [lowTwo_sType]; rfl

theorem Uncompressed.addi (rd rs1 : Reg) (imm : BitVec 12) : Uncompressed.Statement (.addi rd rs1 imm) := by
  unfold Uncompressed.Statement encode; rw [lowTwo_iType]; rfl

theorem Uncompressed.slti (rd rs1 : Reg) (imm : BitVec 12) : Uncompressed.Statement (.slti rd rs1 imm) := by
  unfold Uncompressed.Statement encode; rw [lowTwo_iType]; rfl

theorem Uncompressed.sltiu (rd rs1 : Reg) (imm : BitVec 12) : Uncompressed.Statement (.sltiu rd rs1 imm) := by
  unfold Uncompressed.Statement encode; rw [lowTwo_iType]; rfl

theorem Uncompressed.xori (rd rs1 : Reg) (imm : BitVec 12) : Uncompressed.Statement (.xori rd rs1 imm) := by
  unfold Uncompressed.Statement encode; rw [lowTwo_iType]; rfl

theorem Uncompressed.ori (rd rs1 : Reg) (imm : BitVec 12) : Uncompressed.Statement (.ori rd rs1 imm) := by
  unfold Uncompressed.Statement encode; rw [lowTwo_iType]; rfl

theorem Uncompressed.andi (rd rs1 : Reg) (imm : BitVec 12) : Uncompressed.Statement (.andi rd rs1 imm) := by
  unfold Uncompressed.Statement encode; rw [lowTwo_iType]; rfl

theorem Uncompressed.slli (rd rs1 : Reg) (shamt : BitVec 6) : Uncompressed.Statement (.slli rd rs1 shamt) := by
  unfold Uncompressed.Statement encode; rw [lowTwo_shiftType]; rfl

theorem Uncompressed.srli (rd rs1 : Reg) (shamt : BitVec 6) : Uncompressed.Statement (.srli rd rs1 shamt) := by
  unfold Uncompressed.Statement encode; rw [lowTwo_shiftType]; rfl

theorem Uncompressed.srai (rd rs1 : Reg) (shamt : BitVec 6) : Uncompressed.Statement (.srai rd rs1 shamt) := by
  unfold Uncompressed.Statement encode; rw [lowTwo_shiftType]; rfl

theorem Uncompressed.add (rd rs1 rs2 : Reg) : Uncompressed.Statement (.add rd rs1 rs2) := by
  unfold Uncompressed.Statement encode; rw [lowTwo_rType]; rfl

theorem Uncompressed.sub (rd rs1 rs2 : Reg) : Uncompressed.Statement (.sub rd rs1 rs2) := by
  unfold Uncompressed.Statement encode; rw [lowTwo_rType]; rfl

theorem Uncompressed.sll (rd rs1 rs2 : Reg) : Uncompressed.Statement (.sll rd rs1 rs2) := by
  unfold Uncompressed.Statement encode; rw [lowTwo_rType]; rfl

theorem Uncompressed.slt (rd rs1 rs2 : Reg) : Uncompressed.Statement (.slt rd rs1 rs2) := by
  unfold Uncompressed.Statement encode; rw [lowTwo_rType]; rfl

theorem Uncompressed.sltu (rd rs1 rs2 : Reg) : Uncompressed.Statement (.sltu rd rs1 rs2) := by
  unfold Uncompressed.Statement encode; rw [lowTwo_rType]; rfl

theorem Uncompressed.xor (rd rs1 rs2 : Reg) : Uncompressed.Statement (.xor rd rs1 rs2) := by
  unfold Uncompressed.Statement encode; rw [lowTwo_rType]; rfl

theorem Uncompressed.srl (rd rs1 rs2 : Reg) : Uncompressed.Statement (.srl rd rs1 rs2) := by
  unfold Uncompressed.Statement encode; rw [lowTwo_rType]; rfl

theorem Uncompressed.sra (rd rs1 rs2 : Reg) : Uncompressed.Statement (.sra rd rs1 rs2) := by
  unfold Uncompressed.Statement encode; rw [lowTwo_rType]; rfl

theorem Uncompressed.or (rd rs1 rs2 : Reg) : Uncompressed.Statement (.or rd rs1 rs2) := by
  unfold Uncompressed.Statement encode; rw [lowTwo_rType]; rfl

theorem Uncompressed.and (rd rs1 rs2 : Reg) : Uncompressed.Statement (.and rd rs1 rs2) := by
  unfold Uncompressed.Statement encode; rw [lowTwo_rType]; rfl

theorem Uncompressed.addiw (rd rs1 : Reg) (imm : BitVec 12) : Uncompressed.Statement (.addiw rd rs1 imm) := by
  unfold Uncompressed.Statement encode; rw [lowTwo_iType]; rfl

theorem Uncompressed.slliw (rd rs1 : Reg) (shamt : BitVec 5) : Uncompressed.Statement (.slliw rd rs1 shamt) := by
  unfold Uncompressed.Statement encode; rw [lowTwo_rType]; rfl

theorem Uncompressed.srliw (rd rs1 : Reg) (shamt : BitVec 5) : Uncompressed.Statement (.srliw rd rs1 shamt) := by
  unfold Uncompressed.Statement encode; rw [lowTwo_rType]; rfl

theorem Uncompressed.sraiw (rd rs1 : Reg) (shamt : BitVec 5) : Uncompressed.Statement (.sraiw rd rs1 shamt) := by
  unfold Uncompressed.Statement encode; rw [lowTwo_rType]; rfl

theorem Uncompressed.addw (rd rs1 rs2 : Reg) : Uncompressed.Statement (.addw rd rs1 rs2) := by
  unfold Uncompressed.Statement encode; rw [lowTwo_rType]; rfl

theorem Uncompressed.subw (rd rs1 rs2 : Reg) : Uncompressed.Statement (.subw rd rs1 rs2) := by
  unfold Uncompressed.Statement encode; rw [lowTwo_rType]; rfl

theorem Uncompressed.sllw (rd rs1 rs2 : Reg) : Uncompressed.Statement (.sllw rd rs1 rs2) := by
  unfold Uncompressed.Statement encode; rw [lowTwo_rType]; rfl

theorem Uncompressed.srlw (rd rs1 rs2 : Reg) : Uncompressed.Statement (.srlw rd rs1 rs2) := by
  unfold Uncompressed.Statement encode; rw [lowTwo_rType]; rfl

theorem Uncompressed.sraw (rd rs1 rs2 : Reg) : Uncompressed.Statement (.sraw rd rs1 rs2) := by
  unfold Uncompressed.Statement encode; rw [lowTwo_rType]; rfl

theorem Uncompressed.fence (rd rs1 : Reg) (fm pred succ : BitVec 4) : Uncompressed.Statement (.fence rd rs1 fm pred succ) := by
  unfold Uncompressed.Statement encode; rw [lowTwo_iType]; rfl

theorem Uncompressed.ecall : Uncompressed.Statement (.ecall) := rfl

theorem Uncompressed.ebreak : Uncompressed.Statement (.ebreak) := rfl

theorem Uncompressed.sret : Uncompressed.Statement (.sret) := rfl

theorem Uncompressed.mret : Uncompressed.Statement (.mret) := rfl

theorem Uncompressed.wfi : Uncompressed.Statement (.wfi) := rfl

theorem Uncompressed.sfenceVma (rs1 rs2 : Reg) : Uncompressed.Statement (.sfenceVma rs1 rs2) := by
  unfold Uncompressed.Statement encode; rw [lowTwo_rType]; rfl

theorem Uncompressed.csrrw (rd : Reg) (csr : BitVec 12) (rs1 : Reg) : Uncompressed.Statement (.csrrw rd csr rs1) := by
  unfold Uncompressed.Statement encode; rw [lowTwo_iType]; rfl

theorem Uncompressed.csrrs (rd : Reg) (csr : BitVec 12) (rs1 : Reg) : Uncompressed.Statement (.csrrs rd csr rs1) := by
  unfold Uncompressed.Statement encode; rw [lowTwo_iType]; rfl

theorem Uncompressed.csrrc (rd : Reg) (csr : BitVec 12) (rs1 : Reg) : Uncompressed.Statement (.csrrc rd csr rs1) := by
  unfold Uncompressed.Statement encode; rw [lowTwo_iType]; rfl

theorem Uncompressed.csrrwi (rd : Reg) (csr : BitVec 12) (uimm : BitVec 5) : Uncompressed.Statement (.csrrwi rd csr uimm) := by
  unfold Uncompressed.Statement encode; rw [lowTwo_iType]; rfl

theorem Uncompressed.csrrsi (rd : Reg) (csr : BitVec 12) (uimm : BitVec 5) : Uncompressed.Statement (.csrrsi rd csr uimm) := by
  unfold Uncompressed.Statement encode; rw [lowTwo_iType]; rfl

theorem Uncompressed.csrrci (rd : Reg) (csr : BitVec 12) (uimm : BitVec 5) : Uncompressed.Statement (.csrrci rd csr uimm) := by
  unfold Uncompressed.Statement encode; rw [lowTwo_iType]; rfl

end Sys2Proof.Laws
end

