-- ==== Sys2Proof/Laws/Step.lean ====
section
/-!
SUPPORT. What one step can be: the boundary's events, then a trap taken, or the fetched instruction; and what the boundary leaves alone.
-/

namespace Sys2Proof.Machine

/-! ### The boundary -/

/-- An event of the environment changes `mip` or `cis` only (R371). -/
theorem applyEvent_eq (s : State) (e : IrqEvent) :
    ∃ m c, applyEvent s e = s.setCsr { s.csr with mip := m, cis := c } ∧
      ((m = e.apply s.csr.mip ∧ c = s.csr.cis) ∨ (m = s.csr.mip ∧ c = e.apply s.csr.cis)) := by
  unfold applyEvent
  split
  · exact ⟨_, _, rfl, .inl ⟨rfl, rfl⟩⟩
  · exact ⟨_, _, rfl, .inr ⟨rfl, rfl⟩⟩

theorem foldl_applyEvent_eq (es : List IrqEvent) (s : State) :
    ∃ m c, es.foldl applyEvent s = s.setCsr { s.csr with mip := m, cis := c } := by
  induction es generalizing s with
  | nil => exact ⟨s.csr.mip, s.csr.cis, rfl⟩
  | cons e es ih =>
    obtain ⟨m, c, h, -⟩ := applyEvent_eq s e
    obtain ⟨m', c', h'⟩ := ih (applyEvent s e)
    exact ⟨m', c', by rw [List.foldl_cons, h', h]; rfl⟩

/-- The boundary uses up one list of events and changes nothing but `mip` and `cis` (R371). -/
theorem boundary_eq (s : State) :
    ∃ m c, boundary s = ({ s with inputs := s.inputs.tail } : State).setCsr { s.csr with mip := m, cis := c } := by
  unfold boundary
  split
  · rename_i h
    refine ⟨s.csr.mip, s.csr.cis, ?_⟩
    cases s; simp only at h; subst h; rfl
  · rename_i es rest h
    obtain ⟨m, c, h'⟩ := foldl_applyEvent_eq es { s with inputs := rest }
    exact ⟨m, c, by rw [h', h]; rfl⟩

@[simp] theorem boundary_mem (s : State) : (boundary s).mem = s.mem := by
  obtain ⟨m, c, h⟩ := boundary_eq s; rw [h]; rfl

@[simp] theorem boundary_regs (s : State) : (boundary s).regs = s.regs := by
  obtain ⟨m, c, h⟩ := boundary_eq s; rw [h]; rfl

@[simp] theorem boundary_pc (s : State) : (boundary s).pc = s.pc := by
  obtain ⟨m, c, h⟩ := boundary_eq s; rw [h]; rfl

@[simp] theorem boundary_priv (s : State) : (boundary s).priv = s.priv := by
  obtain ⟨m, c, h⟩ := boundary_eq s; rw [h]; rfl

@[simp] theorem boundary_capstoneEn (s : State) : (boundary s).capstoneEn = s.capstoneEn := by
  obtain ⟨m, c, h⟩ := boundary_eq s; rw [h]; rfl

@[simp] theorem boundary_ccsr (s : State) : (boundary s).ccsr = s.ccsr := by
  obtain ⟨m, c, h⟩ := boundary_eq s; rw [h]; rfl

@[simp] theorem boundary_plat (s : State) : (boundary s).plat = s.plat := by
  obtain ⟨m, c, h⟩ := boundary_eq s; rw [h]; rfl

@[simp] theorem boundary_revClock (s : State) : (boundary s).revClock = s.revClock := by
  obtain ⟨m, c, h⟩ := boundary_eq s; rw [h]; rfl

@[simp] theorem boundary_draws (s : State) : (boundary s).draws = s.draws := by
  obtain ⟨m, c, h⟩ := boundary_eq s; rw [h]; rfl

@[simp] theorem boundary_inputs (s : State) : (boundary s).inputs = s.inputs.tail := by
  obtain ⟨m, c, h⟩ := boundary_eq s; rw [h]; rfl

theorem boundary_of_nil {s : State} (h : s.inputs = []) : boundary s = s := by simp [boundary, h]

/-! ### One step -/

/-- A next state comes from a trap or interrupt taken at the boundary, from an exception of the fetch or the decoding, or from an instruction run. -/
theorem step_next {s t : State} (h : step s = .next t) :
    refusal s = none ∧
      (pendingEvent (boundary s) = some (.ok t) ∨
        (pendingEvent (boundary s) = none ∧
          ((∃ e a w, takeException e a w (boundary s) = .ok t) ∨
            ∃ w i, fetch (boundary s) = .ok w ∧ decodeWord w = .ok i ∧ exec i (boundary s) = .next t))) := by
  unfold step at h
  split at h
  · cases h
  · rename_i hr
    refine ⟨hr, ?_⟩
    unfold afterBoundary at h
    split at h
    · rename_i r hp
      exact .inl (by rw [hp, trapOutcome_next h])
    · rename_i hp
      refine .inr ⟨hp, ?_⟩
      unfold runInstruction at h
      split at h
      · rename_i st hf
        cases st with
        | raise e a => exact .inl ⟨e, a, 0, trapOutcome_next h⟩
        | stuck f => cases h
        | decline r => cases h
      · rename_i w hf
        split at h
        · exact .inl ⟨.illegal, 0, w, trapOutcome_next h⟩
        · rename_i i hi
          exact .inr ⟨w, i, hf, hi, h⟩

/-- The event at the boundary is an H-interrupt delivered, or an interrupt taken into mode ID 3 or into S-mode (R374). -/
theorem pendingEvent_some {s t : State} (h : pendingEvent s = some (.ok t)) :
    (∃ i c, hDeliverable s = some (i, c) ∧ hDeliver s i c = .ok t) ∨
      (∃ i, topInterrupt s = some i ∧ takeTrapTop true i.code 0 0 0 s = .ok t) ∨
      (∃ i, supervisorInterrupt s = some i ∧ takeTrapS true i.code 0 s = t) := by
  unfold pendingEvent at h
  split at h
  · rename_i i c hd
    exact .inl ⟨i, c, hd, Option.some.inj h⟩
  · unfold vInterrupt at h
    split at h
    · rename_i i hi
      exact .inr (.inl ⟨i, hi, Option.some.inj h⟩)
    · split at h
      · rename_i i hi
        exact .inr (.inr ⟨i, hi, Except.ok.inj (Option.some.inj h)⟩)
      · cases h

/-- An H-interrupt is delivered only with `CAPSTONE_EN` set and a valid, synchronous sealed capability in `cih` (R373). -/
theorem hDeliverable_some {s : State} {i : Irq} {c : Cap} (h : hDeliverable s = some (i, c)) :
    s.capstoneEn = true ∧ firstLine (pendingH s.csr) = some i ∧ s.ccsr.cih = .cap c ∧ c.valid = true ∧
      c.type = .sealed ∧ c.async = false := by
  unfold hDeliverable at h
  split at h
  · rename_i he
    split at h
    · rename_i j d hj hd
      cases h
      unfold handlerCap at hd
      split at hd
      · split at hd
        · rename_i hc; cases hd; exact ⟨he, hj, ‹_›, hc.1, hc.2.1, hc.2.2⟩
        · cases hd
      · cases hd
    · cases h
  · cases h

/-! ### Which interrupt is taken -/

/-- The first line of a word, in the base priority order (R372, R375). -/
theorem firstLine_some {w : Word} {i : Irq} :
    firstLine w = some i ↔ Highest (fun j => bitOf w j.bit = true) i := by
  rw [firstLine, List.find?_eq_some_iff_append, Highest]
  constructor
  · rintro ⟨hi, as, bs, h, hn⟩
    exact ⟨hi, as, bs, h, fun j hj => by simpa using hn j hj⟩
  · rintro ⟨hi, as, bs, h, hn⟩
    exact ⟨hi, as, bs, h, fun j hj => by simpa using hn j hj⟩

theorem firstLine_none {w : Word} : firstLine w = none ↔ ∀ i : Irq, ¬ bitOf w i.bit = true := by
  rw [firstLine, List.find?_eq_none]
  constructor
  · intro h i; exact h i (by cases i <;> decide)
  · intro h i _; exact h i

/-- Every line is one of the six implemented bits. -/
@[simp] theorem bitOf_irqMask_bit (i : Irq) : bitOf irqMask i.bit = true := by cases i <;> decide

theorem pendingH_bit (c : Csrs) (i : Irq) :
    bitOf (pendingH c) i.bit = true ↔ bitOf c.cis i.bit = true ∧ bitOf c.cid i.bit = false := by
  have : i.bit < 64 := by cases i <;> decide
  simp [pendingH, bitOf_not, this]

theorem topReady_bit (s : State) (i : Irq) :
    bitOf (pendingEnabled s.csr &&& ~~~s.csr.mideleg) i.bit = true ↔ TopReady s i := by
  have : i.bit < 64 := by cases i <;> decide
  simp [pendingEnabled, bitOf_not, this, TopReady, and_assoc]

theorem lowReady_bit (s : State) (i : Irq) :
    bitOf (pendingEnabled s.csr &&& s.csr.mideleg &&& sIrqMask) i.bit = true ↔ LowReady s i := by
  simp [pendingEnabled, bitOf_sIrqMask, LowReady, and_assoc]

/-- The handler capability of `cih` (R373). -/
theorem handlerCap_some {v : Value} {c : Cap} :
    handlerCap v = some c ↔ v = .cap c ∧ c.valid = true ∧ c.type = .sealed ∧ c.async = false := by
  unfold handlerCap
  cases v with
  | int n => simp
  | cap d =>
    dsimp only
    split
    · rename_i h
      constructor
      · intro e; cases e; exact ⟨rfl, h.1, h.2.1, h.2.2⟩
      · rintro ⟨e, -⟩; cases e; rfl
    · rename_i h
      constructor
      · intro e; cases e
      · rintro ⟨e, k⟩; cases e; exact absurd k h

/-- When an H-interrupt is ignored (R373). -/
theorem hDeliverable_none {s : State} : hDeliverable s = none ↔ ¬ HQualifies s := by
  unfold hDeliverable
  cases he : s.capstoneEn with
  | false => simp [HQualifies, he]
  | true =>
    rw [if_pos rfl]
    cases hl : firstLine (pendingH s.csr) with
    | none =>
      have := firstLine_none.mp hl
      simp only [pendingH_bit] at this
      exact ⟨fun _ h => by obtain ⟨i, hi⟩ := h.2.1; exact this i hi, fun _ => rfl⟩
    | some i =>
      have hi := (pendingH_bit s.csr i).mp (firstLine_some.mp hl).1
      cases hc : handlerCap s.ccsr.cih with
      | none =>
        refine ⟨fun _ h => ?_, fun _ => rfl⟩
        obtain ⟨c, hc'⟩ := h.2.2
        rw [handlerCap_some.mpr hc'] at hc; cases hc
      | some c => exact ⟨fun h => (by cases h), fun h => absurd ⟨he, ⟨i, hi⟩, c, handlerCap_some.mp hc⟩ h⟩

/-- The states the model steps from (R382, R383). -/
theorem refusal_none {s : State} : refusal s = none ↔ Modelled s := by
  unfold refusal Modelled translationOn
  cases s.priv <;> cases s.capstoneEn <;> simp

/-- No interrupt is taken at the boundary, in the statements' words (R372 to R374). -/
theorem pendingEvent_none {s : State} : pendingEvent s = none ↔ NothingTaken s := by
  unfold pendingEvent NothingTaken
  cases hd : hDeliverable s with
  | some x =>
    have : HQualifies s := by
      by_contra h; rw [hDeliverable_none.mpr h] at hd; cases hd
    simp [this]
  | none =>
    have hq := hDeliverable_none.mp hd
    have ht : firstLine (pendingEnabled s.csr &&& ~~~s.csr.mideleg) = none ↔ ∀ i, ¬ TopReady s i := by
      rw [firstLine_none]; simp only [topReady_bit]
    have hl : firstLine (pendingEnabled s.csr &&& s.csr.mideleg &&& sIrqMask) = none ↔ ∀ i, ¬ LowReady s i := by
      rw [firstLine_none]; simp only [lowReady_bit]
    simp only [hq, not_false_eq_true, true_and]
    unfold vInterrupt topInterrupt supervisorInterrupt
    rw [← ht, ← hl]
    simp only [mstatusMIE, mstatusSIE]
    cases hp : s.priv <;>
      cases firstLine (pendingEnabled s.csr &&& ~~~s.csr.mideleg) <;>
      cases firstLine (pendingEnabled s.csr &&& s.csr.mideleg &&& sIrqMask) <;>
      by_cases h3 : bitOf s.csr.mstatus 3 = true <;> by_cases h1 : bitOf s.csr.mstatus 1 = true <;> simp [h3, h1]

/-- A word fetched and decoded. -/
theorem decodeWord_eq (w : BitVec 32) : decodeWord w = Decode.word w := by
  unfold decodeWord
  rw [decode_bytesOfWord]
  cases Decode.word w <;> rfl

end Sys2Proof.Machine
end

