-- ==== Sys2Proof/Tests/Slice0.lean ====
section
/-!
SUPPORT. Tests. The expected results are the vectors of spec/95_test_vectors.md (named by their ids) or worked by hand from the rules; then, for each statement with hypotheses, a state and operands that meet them.
-/

namespace Sys2Proof.Tests

open Sys2Proof Sys2Proof.Machine

/-! ### States -/

/-- A valid capability. -/
def aCap (type : CapType) (cursor base last : Word) (perms : BitVec 3) : Cap :=
  { valid := true, type := type, cursor := cursor, base := base, last := last, perms := perms,
    async := false, reg := 0, born := 0 }

/-- The start state of the vectors in C-mode (spec/95_test_vectors.md, section 2). -/
def cMode : State :=
  { State.reset with capstoneEn := true, pc := .cap (aCap .nonLinear 0x1010 0x1000 0x1fff 5) }

/-- The start state of the vectors in M-mode (family H). -/
def mMode : State :=
  { State.reset with pc := .int 0x1010, csr := { Csrs.reset with mtvec := 0x1f00 } }

/-- The state with its CSRs changed. -/
def withCsr (f : Csrs → Csrs) (s : State) : State := { s with csr := f s.csr }
/-- The state with another `ctvec`. -/
def withCtvec (v : Value) (s : State) : State := { s with ccsr := { s.ccsr with ctvec := v } }
/-- The state with another `cih`. -/
def withCih (v : Value) (s : State) : State := { s with ccsr := { s.ccsr with cih := v } }
/-- The state with another `cepc`. -/
def withCepc (v : Value) (s : State) : State := { s with ccsr := { s.ccsr with cepc := v } }
/-- The state with another `cscratch`. -/
def withCscratch (v : Value) (s : State) : State := { s with ccsr := { s.ccsr with cscratch := v } }
/-- The state with another `rev_clock`. -/
def withClock (n : Nat) (s : State) : State := { s with revClock := n }
/-- The state with a value in a memory slot. -/
def withSlot (a : Word) (v : Value) (s : State) : State := { s with mem := s.mem.writeSlot a v }
/-- The state with 8 bytes in memory. -/
def withWord (a v : Word) (s : State) : State := { s with mem := s.mem.writeInt a 8 v }
/-- The state with one byte that is not memory. -/
def withHole (a : Nat) (s : State) : State := { s with plat := { s.plat with holes := [⟨a, a⟩] } }

/-- The caller of the CALL vectors (C20 to C29): a callee's context at 0x4000. -/
def inCaller : State :=
  cMode |> withSlot 0x4000 (.cap (aCap .nonLinear 0x6000 0x6000 0x6fff 5))
    |> withSlot 0x4010 (.cap (aCap .nonLinear 0x6f00 0x6000 0x6fff 5)) |> withWord 0x4020 0x99
    |> withWord 0x4030 0xca00000000 |> withWord 0x4050 0x80
    |> withCtvec (.cap (aCap .nonLinear 0x1f00 0x1000 0x1fff 5)) |> withCscratch (.int 0x11)
    |> withCsr (fun c => { c with mstatus := 0xa00000008, mie := 0x888, mip := 0x80 })

/-- The callee of the RETURN vectors (C40 to C50): the caller's context at 0x4000. -/
def inCallee : State :=
  (cMode |> withSlot 0x4000 (.cap (aCap .nonLinear 0x1014 0x1000 0x1fff 5))
    |> withSlot 0x4010 (.cap (aCap .nonLinear 0x1f00 0x1000 0x1fff 5)) |> withWord 0x4020 0x11
    |> withWord 0x4030 0xca00000008 |> withWord 0x4048 0x80 |> withWord 0x4050 0x888
    |> withCtvec (.cap (aCap .nonLinear 0x6f00 0x6000 0x6fff 5)) |> withCscratch (.int 0x99)
    |> withCsr (fun c => { c with mie := 0x80 })).setPc (.cap (aCap .nonLinear 0x6010 0x6000 0x6fff 5))
    |>.setReg 12 (.int 0x6000)

/-- Running a word answers a next state that has a property. -/
def runs (w : Nat) (s : State) (p : State → Prop) [DecidablePred p] : Bool :=
  match decodeTableWord 32 w with
  | none => false
  | some i =>
    match exec i s with
    | .next t => decide (p t)
    | _ => false

/-- Running a word takes exception `code`, with the registers and memory as they were. -/
def traps (w : Nat) (s : State) (code : Word) : Bool :=
  runs w s fun t => t.csr.mcause = code ∧ t.regs = s.regs ∧ t.mem = s.mem

/-! ### Ill-formed terms are refused -/

/-- An odd branch offset, in each branch. -/
theorem test_odd_branch_offset_ill_formed : ∀ i ∈ [Instr.beq 1 2 3, .bne 1 2 3, .blt 1 2 3, .bge 1 2 3,
    .bltu 1 2 3, .bgeu 1 2 0x1fff], i.wellFormed = false := by decide

/-- An odd jump offset. -/
theorem test_odd_jump_offset_ill_formed : (Instr.jal 1 5).wellFormed = false := by decide

/-- The neighbouring even offsets are well-formed. -/
theorem test_even_offsets_well_formed : (Instr.beq 1 2 2).wellFormed = true ∧ (Instr.jal 1 4).wellFormed = true := by
  decide

/-! ### Decoding -/

/-- Words that are no instruction (R133, R144, R280): compressed, unallocated `funct7` and `funct3`, fence.i. -/
theorem test_not_instructions : ∀ w ∈ [0x00000000, 0xffffffff, 0x1c02935b, 0x4402935b, 0x0000100f, 0x00002063, 0x0002f003],
    decodeTableWord 32 w = none := by decide

/-- Scattered immediates with high bits set (R281). -/
theorem test_decode_scattered_immediates : ∀ p ∈ ([
    (0b1_111111_00110_00101_001_1100_1_1100011, .bne 5 6 (BitVec.ofInt 13 (-8))),
    (0b1_000000_00000_00101_001_0000_0_1100011, .bne 5 0 0x1000),
    (0b1_1111111000_1_11111111_00000_1101111, .jal 0 (BitVec.ofInt 21 (-16)))] : List (Nat × Instr)),
    decodeTableWord 32 p.1 = some p.2 := by decide

/-- Words of the spec's encodings, field by field (R130, R131). -/
theorem test_decode_capability_manipulation : ∀ p ∈ ([
    (0b0000000_00000_00110_001_00000_1011011, .revoke 0 6 0),
    (0b0000001_00111_00110_001_00101_1011011, .shrink 5 6 7),
    (0b0000010_00111_00101_001_00110_1011011, .tighten 6 5 7),
    (0b0000011_00000_00000_001_00101_1011011, .delin 5 0 0),
    (0b0000100_00001_00101_001_00111_1011011, .lcc 7 5 1),
    (0b0000101_00111_00101_001_00110_1011011, .scc 6 5 7),
    (0b0000110_00111_00101_001_00110_1011011, .split 6 5 7),
    (0b0000111_00000_00101_001_00110_1011011, .seal 6 5 0),
    (0b0001000_00000_00101_001_00110_1011011, .mrev 6 5 0),
    (0b0001001_00111_00101_001_00110_1011011, .init 6 5 7),
    (0b0001010_00000_00101_001_00110_1011011, .movc 6 5 0),
    (0b0001011_00000_00101_001_00000_1011011, .drop 0 5 0),
    (0b0001100_00111_00101_001_00110_1011011, .cincoffset 6 5 7),
    (0b111111111111_00101_000_00110_1011011, .shrinkto 6 5 0xfff),
    (0b100000000000_00101_010_00110_1011011, .cincoffsetimm 6 5 (BitVec.ofInt 12 (-2048)))] : List (Nat × Instr)),
    decodeTableWord 32 p.1 = some p.2 := by decide

/-- Words of the spec's encodings, field by field (R130, R131). -/
theorem test_decode_capability_memory_control : ∀ p ∈ ([
    (0b0001101_00110_00101_001_00000_1011011, .capenter 0 5 6),
    (0b0100000_00000_00101_001_00111_1011011, .call 7 5 0),
    (0b0100001_00000_01100_001_00001_1011011, .ret 1 12 0),
    (0b111111110000_00101_011_00110_1011011, .ldc 6 5 (BitVec.ofInt 12 (-16))),
    (0b1000000_00110_00101_100_00000_1011011, .stc 5 6 (BitVec.ofInt 12 (-2048))),
    (0b000000000000_00101_101_00001_1011011, .cjalr 1 5 0x0),
    (0b000000001000_00110_110_00101_1011011, .cbnz 5 6 0x8),
    (0b000000000000_00101_111_00110_1011011, .ccsrrw 6 5 0x0)] : List (Nat × Instr)),
    decodeTableWord 32 p.1 = some p.2 := by decide

/-- Words of the spec's encodings, field by field (R281). -/
theorem test_decode_jumps_branches : ∀ p ∈ ([
    (0b00010010001101000101_00101_0110111, .lui 5 0x12345),
    (0b00000000000000000001_00101_0010111, .auipc 5 0x1),
    (0b0_0010000000_0_00000000_00001_1101111, .jal 1 0x100),
    (0b000000000101_00101_000_00001_1100111, .jalr 1 5 0x5),
    (0b1_111111_00110_00101_000_1000_1_1100011, .beq 5 6 (BitVec.ofInt 13 (-16))),
    (0b0_000001_00110_00101_001_0000_0_1100011, .bne 5 6 0x20),
    (0b0_000001_00110_00101_100_0000_0_1100011, .blt 5 6 0x20),
    (0b0_000001_00110_00101_101_0000_0_1100011, .bge 5 6 0x20),
    (0b0_000001_00110_00101_110_0000_0_1100011, .bltu 5 6 0x20),
    (0b0_000001_00110_00101_111_0000_0_1100011, .bgeu 5 6 0x20)] : List (Nat × Instr)),
    decodeTableWord 32 p.1 = some p.2 := by decide

/-- Words of the spec's encodings, field by field (R143). -/
theorem test_decode_loads_stores : ∀ p ∈ ([
    (0b111111111111_00101_000_00110_0000011, .lb 6 5 (BitVec.ofInt 12 (-1))),
    (0b000000000000_00101_001_00110_0000011, .lh 6 5 0x0),
    (0b000000000000_00101_010_00110_0000011, .lw 6 5 0x0),
    (0b000000000000_00101_011_00110_0000011, .ld 6 5 0x0),
    (0b000000000000_00101_100_00110_0000011, .lbu 6 5 0x0),
    (0b000000000000_00101_101_00110_0000011, .lhu 6 5 0x0),
    (0b000000000000_00101_110_00110_0000011, .lwu 6 5 0x0),
    (0b0000000_00110_00101_000_00001_0100011, .sb 5 6 0x1),
    (0b0000000_00110_00101_001_00010_0100011, .sh 5 6 0x2),
    (0b0000000_00110_00101_010_00100_0100011, .sw 5 6 0x4),
    (0b0000000_00110_00101_011_00000_0100011, .sd 5 6 0x0)] : List (Nat × Instr)),
    decodeTableWord 32 p.1 = some p.2 := by decide

/-- Words of the spec's encodings, field by field (R281, R305 to R313). -/
theorem test_decode_register_immediate : ∀ p ∈ ([
    (0b111111111111_00110_000_00101_0010011, .addi 5 6 (BitVec.ofInt 12 (-1))),
    (0b111111111111_00110_010_00101_0010011, .slti 5 6 (BitVec.ofInt 12 (-1))),
    (0b111111111111_00110_011_00101_0010011, .sltiu 5 6 (BitVec.ofInt 12 (-1))),
    (0b111111111111_00110_100_00101_0010011, .xori 5 6 (BitVec.ofInt 12 (-1))),
    (0b000000001111_00110_110_00101_0010011, .ori 5 6 0xf),
    (0b000011111111_00110_111_00101_0010011, .andi 5 6 0xff),
    (0b000000_111111_00110_001_00101_0010011, .slli 5 6 63),
    (0b000000_111111_00110_101_00101_0010011, .srli 5 6 63),
    (0b010000_111111_00110_101_00101_0010011, .srai 5 6 63),
    (0b000000000001_00110_000_00101_0011011, .addiw 5 6 0x1),
    (0b0000000_11111_00110_001_00101_0011011, .slliw 5 6 31),
    (0b0000000_00100_00110_101_00101_0011011, .srliw 5 6 4),
    (0b0100000_00100_00110_101_00101_0011011, .sraiw 5 6 4)] : List (Nat × Instr)),
    decodeTableWord 32 p.1 = some p.2 := by decide

/-- Words of the spec's encodings, field by field (R314 to R323). -/
theorem test_decode_register_register : ∀ p ∈ ([
    (0b0000000_00111_00110_000_00101_0110011, .add 5 6 7),
    (0b0100000_00111_00110_000_00101_0110011, .sub 5 6 7),
    (0b0000000_00111_00110_001_00101_0110011, .sll 5 6 7),
    (0b0000000_00111_00110_010_00101_0110011, .slt 5 6 7),
    (0b0000000_00111_00110_011_00101_0110011, .sltu 5 6 7),
    (0b0000000_00111_00110_100_00101_0110011, .xor 5 6 7),
    (0b0000000_00111_00110_101_00101_0110011, .srl 5 6 7),
    (0b0100000_00111_00110_101_00101_0110011, .sra 5 6 7),
    (0b0000000_00111_00110_110_00101_0110011, .or 5 6 7),
    (0b0000000_00111_00110_111_00101_0110011, .and 5 6 7),
    (0b0000000_00111_00110_000_00101_0111011, .addw 5 6 7),
    (0b0100000_00111_00110_000_00101_0111011, .subw 5 6 7),
    (0b0000000_00111_00110_001_00101_0111011, .sllw 5 6 7),
    (0b0000000_00111_00110_101_00101_0111011, .srlw 5 6 7),
    (0b0100000_00111_00110_101_00101_0111011, .sraw 5 6 7)] : List (Nat × Instr)),
    decodeTableWord 32 p.1 = some p.2 := by decide

/-- Words of the spec's encodings, field by field (R324 to R336). -/
theorem test_decode_system : ∀ p ∈ ([
    (0b0000_1111_1111_00000_000_00000_0001111, .fence 0 0 0 15 15),
    (0b000000000000_00000_000_00000_1110011, .ecall),
    (0b000000000001_00000_000_00000_1110011, .ebreak),
    (0b000100000010_00000_000_00000_1110011, .sret),
    (0b001100000010_00000_000_00000_1110011, .mret),
    (0b000100000101_00000_000_00000_1110011, .wfi),
    (0b0001001_00000_00000_000_00000_1110011, .sfenceVma 0 0),
    (0b001101000011_00110_001_00101_1110011, .csrrw 5 0x343 6),
    (0b001100000100_00110_010_00101_1110011, .csrrs 5 0x304 6),
    (0b001100000100_00110_011_00101_1110011, .csrrc 5 0x304 6),
    (0b100000000001_11111_101_00101_1110011, .csrrwi 5 0x801 31),
    (0b100000000001_00000_110_00101_1110011, .csrrsi 5 0x801 0),
    (0b100000000000_01000_111_00101_1110011, .csrrci 5 0x800 8)] : List (Nat × Instr)),
    decodeTableWord 32 p.1 = some p.2 := by decide

/-! ### Capability manipulation (40_cap_manipulation.md) -/

/-- A1: MOVC c6, c5 -/
theorem test_movc_moves_linear :
    runs 0x1402935b (cMode |>.setReg 5 (.cap (aCap .linear 0x3000 0x3000 0x3fff 6)) |>.setReg 6 (.int 0x0))
      (fun t => t.intValue 5 = (.cap cnull) ∧ t.intValue 6 = (.cap (aCap .linear 0x3000 0x3000 0x3fff 6))) = true := by
  decide

/-- A3: MOVC c6, c5 -/
theorem test_movc_copies_integer :
    runs 0x1402935b (cMode |>.setReg 5 (.int 0x77) |>.setReg 6 (.cap (aCap .linear 0x3000 0x3000 0x3fff 6)))
      (fun t => t.intValue 6 = (.int 0x77)) = true := by
  decide

/-- A10: CINCOFFSET c7, c5, x7 -/
theorem test_cincoffset_reads_rs2_first :
    runs 0x187293db (cMode |>.setReg 5 (.cap (aCap .linear 0x3000 0x3000 0x3fff 6)) |>.setReg 7 (.int 0x20))
      (fun t => t.intValue 5 = (.cap cnull) ∧ t.intValue 7 = (.cap (aCap .linear 0x3020 0x3000 0x3fff 6))) = true := by
  decide

/-- A14: CINCOFFSET c6, c5, x7 -/
theorem test_cincoffset_refuses_sealed :
    traps 0x1872935b (cMode |>.setReg 5 (.cap (aCap .sealed 0x4000 0x4000 0x43ff 6)) |>.setReg 7 (.int 0x8)) 26 = true := by
  decide

/-- A17: CINCOFFSETIMM c6, c5, -2048 -/
theorem test_cincoffsetimm_wraps :
    runs 0x8002a35b (cMode |>.setReg 5 (.cap (aCap .nonLinear 0x100 0x2000 0x2fff 6)) |>.setReg 6 (.int 0x0))
      (fun t => t.intValue 6 = (.cap (aCap .nonLinear 0xfffffffffffff900 0x2000 0x2fff 6))) = true := by
  decide

/-- A19: SCC c6, c5, x7 -/
theorem test_scc_moves :
    runs 0x0a72935b (cMode |>.setReg 5 (.cap (aCap .linear 0x3000 0x3000 0x3fff 6)) |>.setReg 6 (.int 0x0) |>.setReg 7 (.int 0xffff0000))
      (fun t => t.intValue 5 = (.cap cnull) ∧ t.intValue 6 = (.cap (aCap .linear 0xffff0000 0x3000 0x3fff 6))) = true := by
  decide

/-- A24: LCC x7, c5, 2 -/
theorem test_lcc_reads_cursor :
    runs 0x082293db (cMode |>.setReg 5 (.cap { aCap .sealedReturn 0x4030 0x4000 0x43ff 6 with async := false, reg := 7 }) |>.setReg 7 (.int 0xbad))
      (fun t => t.intValue 7 = (.int 0x4030)) = true := by
  decide

/-- A32: LCC x7, c5, 2 -/
theorem test_lcc_sealed_cursor :
    traps 0x082293db (cMode |>.setReg 5 (.cap (aCap .sealed 0x4000 0x4000 0x43ff 6)) |>.setReg 7 (.int 0xbad)) 26 = true := by
  decide

/-- A45: SHRINK c5, x6, x7 -/
theorem test_shrink_clamps_cursor :
    runs 0x027312db (cMode |>.setReg 5 (.cap (aCap .linear 0x2000 0x3000 0x3fff 6)) |>.setReg 6 (.int 0x3010) |>.setReg 7 (.int 0x3020))
      (fun t => t.intValue 5 = (.cap (aCap .linear 0x3010 0x3010 0x3020 6))) = true := by
  decide

/-- A48: SHRINK c5, x6, x7 -/
theorem test_shrink_above_end :
    traps 0x027312db (cMode |>.setReg 5 (.cap (aCap .linear 0x3000 0x3000 0x3fff 6)) |>.setReg 6 (.int 0x3000) |>.setReg 7 (.int 0x4000)) 29 = true := by
  decide

/-- A57: SHRINKTO c6, c5, 4094 -/
theorem test_shrinkto_fits_exactly :
    runs 0xffe2835b (cMode |>.setReg 5 (.cap (aCap .linear 0x3001 0x3000 0x3fff 6)) |>.setReg 6 (.int 0x0))
      (fun t => t.intValue 5 = (.cap cnull) ∧ t.intValue 6 = (.cap (aCap .linear 0x3001 0x3001 0x3ffe 6))) = true := by
  decide

/-- A56: SHRINKTO c6, c5, 4095 -/
theorem test_shrinkto_one_too_many :
    traps 0xfff2835b (cMode |>.setReg 5 (.cap (aCap .linear 0x3001 0x3000 0x3fff 6)) |>.setReg 6 (.int 0x0)) 29 = true := by
  decide

/-- A65: SPLIT c6, c5, x7 -/
theorem test_split_largest_point :
    runs 0x0c72935b (cMode |>.setReg 5 (.cap (aCap .linear 0x3000 0x3000 0x3fff 6)) |>.setReg 6 (.int 0x0) |>.setReg 7 (.int 0x3ffe))
      (fun t => t.intValue 5 = (.cap (aCap .linear 0x3000 0x3000 0x3ffe 6)) ∧ t.intValue 6 = (.cap (aCap .linear 0x3fff 0x3fff 0x3fff 6))) = true := by
  decide

/-- A72: SPLIT c5, c5, x7 -/
theorem test_split_checks_first :
    traps 0x0c7292db (cMode |>.setReg 5 (.cap (aCap .linear 0x3000 0x3000 0x3fff 6)) |>.setReg 7 (.int 0x4000)) 29 = true := by
  decide

/-- A77: TIGHTEN c6, c5, 6 -/
theorem test_tighten_same :
    runs 0x0462935b (cMode |>.setReg 5 (.cap (aCap .linear 0x3000 0x3000 0x3fff 6)) |>.setReg 6 (.int 0x0))
      (fun t => t.intValue 5 = (.cap cnull) ∧ t.intValue 6 = (.cap (aCap .linear 0x3000 0x3000 0x3fff 6))) = true := by
  decide

/-- A78: TIGHTEN c6, c5, 5 -/
theorem test_tighten_not_subset :
    traps 0x0452935b (cMode |>.setReg 5 (.cap (aCap .linear 0x3000 0x3000 0x3fff 6)) |>.setReg 6 (.int 0x0)) 29 = true := by
  decide

/-- A85: DELIN c5 -/
theorem test_delin_invalid :
    runs 0x060012db (cMode |>.setReg 5 (.cap { aCap .linear 0x3000 0x3000 0x3fff 6 with valid := false }))
      (fun t => t.intValue 5 = (.cap { aCap .nonLinear 0x3000 0x3000 0x3fff 6 with valid := false })) = true := by
  decide

/-- A84: DELIN c5 -/
theorem test_delin_nonlinear :
    traps 0x060012db (cMode |>.setReg 5 (.cap (aCap .nonLinear 0x2000 0x2000 0x2fff 6))) 26 = true := by
  decide

/-- A88: INIT c6, c5, x7 -/
theorem test_init_past_end :
    runs 0x1272935b (cMode |>.setReg 5 (.cap (aCap .uninitialised 0x3040 0x3000 0x303f 6)) |>.setReg 6 (.int 0x0) |>.setReg 7 (.int 0x10))
      (fun t => t.intValue 5 = (.cap cnull) ∧ t.intValue 6 = (.cap (aCap .linear 0x3010 0x3000 0x303f 6))) = true := by
  decide

/-- A89: INIT c6, c5, x7 -/
theorem test_init_at_end :
    traps 0x1272935b (cMode |>.setReg 5 (.cap (aCap .uninitialised 0x303f 0x3000 0x303f 6)) |>.setReg 6 (.int 0x0) |>.setReg 7 (.int 0x0)) 29 = true := by
  decide

/-- A93: SEAL c6, c5 -/
theorem test_seal_exact_size :
    runs 0x0e02935b (cMode |>.setReg 5 (.cap (aCap .linear 0x4000 0x4000 0x43ff 6)) |> withSlot 0x4010 (.cap (aCap .nonLinear 0x10 0 0x20 5)))
      (fun t => t.intValue 5 = (.cap cnull) ∧ t.intValue 6 = (.cap (aCap .sealed 0x4000 0x4000 0x43ff 6))) = true := by
  decide

/-- A99: SEAL c6, c5 -/
theorem test_seal_too_small :
    traps 0x0e02935b (cMode |>.setReg 5 (.cap (aCap .linear 0x4000 0x4000 0x43fe 6)) |> withSlot 0x4010 (.cap (aCap .nonLinear 0x10 0 0x20 5))) 29 = true := by
  decide

/-- A102: DROP c5 -/
theorem test_drop_clears_valid :
    runs 0x1602905b (cMode |>.setReg 5 (.cap (aCap .linear 0x3000 0x3000 0x3fff 6)))
      (fun t => t.intValue 5 = (.cap { aCap .linear 0x3000 0x3000 0x3fff 6 with valid := false })) = true := by
  decide

/-- A104: DROP c5 -/
theorem test_drop_integer :
    traps 0x1602905b (cMode |>.setReg 5 (.int 0x5)) 24 = true := by
  decide

/-- A107: MREV c6, c5 -/
theorem test_mrev_stamps :
    runs 0x1002935b (cMode |>.setReg 5 (.cap (aCap .linear 0x3000 0x3000 0x3fff 6)) |>.setReg 6 (.int 0x0) |> withClock 7)
      (fun t => t.intValue 6 = (.cap { aCap .revocation 0x3000 0x3000 0x3fff 6 with born := 7 }) ∧ t.revClock = 8) = true := by
  decide

/-- A108: MREV c5, c5 -/
theorem test_mrev_in_place :
    runs 0x100292db (cMode |>.setReg 5 (.cap (aCap .linear 0x3000 0x3000 0x3fff 6)) |> withClock 0)
      (fun t => t.intValue 5 = (.cap (aCap .revocation 0x3000 0x3000 0x3fff 6)) ∧ t.revClock = 1) = true := by
  decide

/-- A114: REVOKE c6 -/
theorem test_revoke_uninitialised :
    runs 0x0003105b (cMode |>.setReg 5 (.cap (aCap .linear 0x3000 0x3000 0x3fff 6)) |>.setReg 6 (.cap { aCap .revocation 0x3456 0x3000 0x3fff 6 with born := 3 }))
      (fun t => t.intValue 5 = (.cap { aCap .linear 0x3000 0x3000 0x3fff 6 with valid := false }) ∧ t.intValue 6 = (.cap { aCap .uninitialised 0x3000 0x3000 0x3fff 6 with born := 3 })) = true := by
  decide +kernel

/-- A116: REVOKE c6 -/
theorem test_revoke_keeps_older :
    runs 0x0003105b (cMode |>.setReg 5 (.cap { aCap .revocation 0x3000 0x3000 0x3fff 6 with born := 2 }) |>.setReg 6 (.cap { aCap .revocation 0x3000 0x3000 0x3fff 6 with born := 3 }) |>.setReg 7 (.cap { aCap .revocation 0x3000 0x3100 0x31ff 6 with born := 4 }))
      (fun t => t.intValue 6 = (.cap { aCap .uninitialised 0x3000 0x3000 0x3fff 6 with born := 3 }) ∧ t.intValue 7 = (.cap { aCap .revocation 0x3000 0x3100 0x31ff 6 with valid := false, born := 4 })) = true := by
  decide +kernel

/-! ### Capability loads and stores (41_cap_memory.md) -/

/-- B2: LDC c6, c5, 16 -/
theorem test_ldc_moves_linear :
    runs 0x0102b35b (cMode |>.setReg 5 (.cap (aCap .nonLinear 0x2000 0x2000 0x2fff 6)) |>.setReg 6 (.int 0x0) |> withSlot 0x2010 (.cap (aCap .linear 0x3000 0x3000 0x3fff 6)))
      (fun t => t.intValue 6 = (.cap (aCap .linear 0x3000 0x3000 0x3fff 6)) ∧ t.mem.readSlot 0 0x2010 = (.cap cnull)) = true := by
  decide

/-- B3: LDC c6, c5, 16 -/
theorem test_ldc_needs_write :
    traps 0x0102b35b (cMode |>.setReg 5 (.cap (aCap .nonLinear 0x2000 0x2000 0x2fff 4)) |>.setReg 6 (.int 0x0) |> withSlot 0x2010 (.cap (aCap .linear 0x3000 0x3000 0x3fff 6))) 27 = true := by
  decide

/-- B34: STC c5, c6, 0 -/
theorem test_stc_advances_cursor :
    runs 0x0062c05b (cMode |>.setReg 5 (.cap (aCap .uninitialised 0x3000 0x3000 0x3fff 6)) |>.setReg 6 (.cap (aCap .nonLinear 0x2000 0x2000 0x2fff 6)))
      (fun t => t.intValue 5 = (.cap (aCap .uninitialised 0x3010 0x3000 0x3fff 6)) ∧ t.mem.readSlot 0 0x3000 = (.cap (aCap .nonLinear 0x2000 0x2000 0x2fff 6))) = true := by
  decide

/-- B47: STC c5, c5, 16 -/
theorem test_stc_into_itself :
    runs 0x0052c85b (cMode |>.setReg 5 (.cap (aCap .linear 0x3000 0x3000 0x3fff 6)))
      (fun t => t.intValue 5 = (.cap cnull) ∧ t.mem.readSlot 0 0x3010 = (.cap (aCap .linear 0x3000 0x3000 0x3fff 6))) = true := by
  decide

/-! ### Capability control flow (42_cap_control_flow.md) -/

/-- C2: CJALR c1, c5, 8 -/
theorem test_cjalr_moves_linear :
    runs 0x0082d0db (cMode |>.setReg 1 (.int 0x0) |>.setReg 5 (.cap (aCap .linear 0x6000 0x6000 0x6fff 5)))
      (fun t => t.intValue 1 = (.cap (aCap .nonLinear 0x1014 0x1000 0x1fff 5)) ∧ t.intValue 5 = (.cap cnull) ∧ t.pc = (.cap (aCap .linear 0x6008 0x6000 0x6fff 5))) = true := by
  decide

/-- C4: CJALR c5, c5, 0 -/
theorem test_cjalr_in_place :
    runs 0x0002d2db (cMode |>.setReg 5 (.cap (aCap .linear 0x6000 0x6000 0x6fff 5)))
      (fun t => t.intValue 5 = (.cap (aCap .nonLinear 0x1014 0x1000 0x1fff 5)) ∧ t.pc = (.cap (aCap .linear 0x6000 0x6000 0x6fff 5))) = true := by
  decide

/-- C10: CBNZ c5, x6, 8 -/
theorem test_cbnz_moves_linear :
    runs 0x008362db (cMode |>.setReg 5 (.cap (aCap .linear 0x6000 0x6000 0x6fff 5)) |>.setReg 6 (.int 0xffffffffffffffff))
      (fun t => t.intValue 5 = (.cap cnull) ∧ t.pc = (.cap (aCap .linear 0x6008 0x6000 0x6fff 5))) = true := by
  decide

/-- C15: CBNZ c5, x6, 8 -/
theorem test_cbnz_checks_kind_first :
    traps 0x008362db (cMode |>.setReg 5 (.int 0x6000) |>.setReg 6 (.int 0x0)) 24 = true := by
  decide

/-- C20: CALL c7, c5 -/
theorem test_call_swaps :
    runs 0x400293db (inCaller |>.setReg 5 (.cap (aCap .sealed 0x4000 0x4000 0x43ff 6)) |> withCih (.cap cnull))
      (fun t => t.intValue 5 = (.cap cnull) ∧ t.ccsr.ctvec = (.cap (aCap .nonLinear 0x6f00 0x6000 0x6fff 5)) ∧ t.ccsr.cscratch = (.int 0x99) ∧ t.csr.mie = 0x80 ∧ t.pc = (.cap (aCap .nonLinear 0x6000 0x6000 0x6fff 5))) = true := by
  decide

/-- C26: CALL c7, c5 -/
theorem test_call_sealed_return :
    traps 0x400293db (inCaller |>.setReg 1 (.int 0x0) |>.setReg 5 (.cap { aCap .sealedReturn 0x4000 0x4000 0x43ff 6 with async := false, reg := 3 })) 26 = true := by
  decide

/-- C41: RETURN c1, x12, x0 -/
theorem test_ret_to_cih :
    runs 0x420610db (inCallee |>.setReg 1 (.cap { aCap .sealedReturn 0x4000 0x4000 0x43ff 6 with async := false, reg := 0 }) |>.setReg 7 (.int 0x0) |> withCih (.cap cnull))
      (fun t => t.intValue 1 = (.cap cnull) ∧ t.ccsr.cih = (.cap (aCap .sealed 0x4000 0x4000 0x43ff 6)) ∧ t.pc = (.cap (aCap .nonLinear 0x1014 0x1000 0x1fff 5))) = true := by
  decide

/-- C43: RETURN c1, x12, x0 -/
theorem test_ret_cih_occupied :
    traps 0x420610db (inCallee |>.setReg 1 (.cap (aCap .sealed 0x4000 0x4000 0x43ff 6)) |> withCih (.cap (aCap .sealed 0x8000 0x8000 0x83ff 6))) 26 = true := by
  decide

/-! ### Control and status (43_cap_control_status.md) -/

/-- D6: CCSRRW c5, c5, 0x004 -/
theorem test_ccsrrw_in_place :
    runs 0x0042f2db (cMode |>.setReg 5 (.cap (aCap .linear 0x3000 0x3000 0x3fff 6)) |> withCscratch (.cap (aCap .nonLinear 0x2000 0x2000 0x2fff 6)))
      (fun t => t.intValue 5 = (.cap (aCap .nonLinear 0x2000 0x2000 0x2fff 6)) ∧ t.ccsr.cscratch = (.cap (aCap .linear 0x3000 0x3000 0x3fff 6))) = true := by
  decide

/-- D15: CCSRRW c6, c5, 0x001 -/
theorem test_ccsrrw_cih_occupied :
    runs 0x0012f35b (cMode |>.setReg 5 (.cap (aCap .sealed 0x4000 0x4000 0x43ff 6)) |>.setReg 6 (.int 0x7) |> withCih (.cap (aCap .sealed 0x8000 0x8000 0x83ff 6)))
      (fun t => t.intValue 6 = (.cap cnull)) = true := by
  decide

/-- D30: CAPENTER x5, x6 -/
theorem test_capenter_cuts_memory :
    runs 0x1a62905b ({ mMode with pc := .int 0x1008 } |>.setReg 5 (.int 0x1000) |>.setReg 6 (.int 0x2000))
      (fun t => t.pc = (.cap (aCap .nonLinear 0x100c 0x1000 0x1fff 7)) ∧ t.intValue 10 = (.cap (aCap .nonLinear 0x0 0x0 0xfff 7)) ∧ t.intValue 11 = (.cap (aCap .nonLinear 0x2000 0x2000 0xffffffffffffffff 7)) ∧ t.capstoneEn = true) = true := by
  decide

/-- D38: CAPENTER x5, x6 -/
theorem test_capenter_in_cmode :
    traps 0x1a62905b (cMode |>.setReg 5 (.int 0x1000) |>.setReg 6 (.int 0x2000)) 2 = true := by
  decide

/-! ### Loads, stores, branches, jumps in C-mode (44_adjusted_base.md) -/

/-- E1: lb x6, 0(c5) -/
theorem test_lb_cmode :
    runs 0x00028303 (cMode |>.setReg 5 (.cap (aCap .nonLinear 0x2000 0x2000 0x2fff 6)) |>.setReg 6 (.int 0x0) |> withWord 0x2000 0x8899aabbccddeeff)
      (fun t => t.intValue 6 = (.int 0xffffffffffffffff)) = true := by
  decide

/-- E2: lh x6, 0(c5) -/
theorem test_lh_cmode :
    runs 0x00029303 (cMode |>.setReg 5 (.cap (aCap .nonLinear 0x2000 0x2000 0x2fff 6)) |>.setReg 6 (.int 0x0) |> withWord 0x2000 0x8899aabbccddeeff)
      (fun t => t.intValue 6 = (.int 0xffffffffffffeeff)) = true := by
  decide

/-- E3: lw x6, 0(c5) -/
theorem test_lw_cmode :
    runs 0x0002a303 (cMode |>.setReg 5 (.cap (aCap .nonLinear 0x2000 0x2000 0x2fff 6)) |>.setReg 6 (.int 0x0) |> withWord 0x2000 0x8899aabbccddeeff)
      (fun t => t.intValue 6 = (.int 0xffffffffccddeeff)) = true := by
  decide

/-- E4: ld x6, 0(c5) -/
theorem test_ld_cmode :
    runs 0x0002b303 (cMode |>.setReg 5 (.cap (aCap .nonLinear 0x2000 0x2000 0x2fff 6)) |>.setReg 6 (.int 0x0) |> withWord 0x2000 0x8899aabbccddeeff)
      (fun t => t.intValue 6 = (.int 0x8899aabbccddeeff)) = true := by
  decide

/-- E5: lbu x6, 0(c5) -/
theorem test_lbu_cmode :
    runs 0x0002c303 (cMode |>.setReg 5 (.cap (aCap .nonLinear 0x2000 0x2000 0x2fff 6)) |>.setReg 6 (.int 0x0) |> withWord 0x2000 0x8899aabbccddeeff)
      (fun t => t.intValue 6 = (.int 0xff)) = true := by
  decide

/-- E6: lhu x6, 0(c5) -/
theorem test_lhu_cmode :
    runs 0x0002d303 (cMode |>.setReg 5 (.cap (aCap .nonLinear 0x2000 0x2000 0x2fff 6)) |>.setReg 6 (.int 0x0) |> withWord 0x2000 0x8899aabbccddeeff)
      (fun t => t.intValue 6 = (.int 0xeeff)) = true := by
  decide

/-- E7: lwu x6, 0(c5) -/
theorem test_lwu_cmode :
    runs 0x0002e303 (cMode |>.setReg 5 (.cap (aCap .nonLinear 0x2000 0x2000 0x2fff 6)) |>.setReg 6 (.int 0x0) |> withWord 0x2000 0x8899aabbccddeeff)
      (fun t => t.intValue 6 = (.int 0xccddeeff)) = true := by
  decide

/-- E16: ld x6, 4(c5) -/
theorem test_ld_misaligned :
    traps 0x0042b303 (cMode |>.setReg 5 (.cap (aCap .nonLinear 0x2000 0x2000 0x2fff 6)) |>.setReg 6 (.int 0x0)) 4 = true := by
  decide

/-- E30: sb x6, 1(c5) -/
theorem test_sb_cmode :
    runs 0x006280a3 (cMode |>.setReg 5 (.cap (aCap .nonLinear 0x2000 0x2000 0x2fff 6)) |>.setReg 6 (.int 0x8899aabbccddeeff))
      (fun t => t.mem.readInt 0 0x2000 8 = 0xff00) = true := by
  decide

/-- E31: sh x6, 2(c5) -/
theorem test_sh_cmode :
    runs 0x00629123 (cMode |>.setReg 5 (.cap (aCap .nonLinear 0x2000 0x2000 0x2fff 6)) |>.setReg 6 (.int 0x8899aabbccddeeff))
      (fun t => t.mem.readInt 0 0x2000 8 = 0xeeff0000) = true := by
  decide

/-- E32: sw x6, 4(c5) -/
theorem test_sw_cmode :
    runs 0x0062a223 (cMode |>.setReg 5 (.cap (aCap .nonLinear 0x2000 0x2000 0x2fff 6)) |>.setReg 6 (.int 0x8899aabbccddeeff))
      (fun t => t.mem.readInt 0 0x2000 8 = 0xccddeeff00000000) = true := by
  decide

/-- E33: sd x6, 0(c5) -/
theorem test_sd_cmode :
    runs 0x0062b023 (cMode |>.setReg 5 (.cap (aCap .nonLinear 0x2000 0x2000 0x2fff 6)) |>.setReg 6 (.int 0x8899aabbccddeeff))
      (fun t => t.mem.readInt 0 0x2000 8 = 0x8899aabbccddeeff) = true := by
  decide

/-- E38: sd x6, 8(c5) -/
theorem test_sd_uninitialised_offset :
    traps 0x0062b423 (cMode |>.setReg 5 (.cap (aCap .uninitialised 0x3000 0x3000 0x3fff 6)) |>.setReg 6 (.int 0x42)) 29 = true := by
  decide

/-- E50: beq x5, x6, 0x20 -/
theorem test_beq_taken :
    runs 0x02628063 (cMode |>.setReg 5 (.int 0x5) |>.setReg 6 (.int 0x5))
      (fun t => t.pc = (.cap (aCap .nonLinear 0x1030 0x1000 0x1fff 5))) = true := by
  decide

/-- E62: beq x5, x6, 0x20 -/
theorem test_beq_sealed_by_base :
    runs 0x02628063 (cMode |>.setReg 5 (.cap (aCap .sealed 0x4000 0x4000 0x43ff 6)) |>.setReg 6 (.int 0x4000))
      (fun t => t.pc = (.cap (aCap .nonLinear 0x1030 0x1000 0x1fff 5))) = true := by
  decide

/-- E52: bne x5, x6, 0x20 -/
theorem test_bne_taken :
    runs 0x02629063 (cMode |>.setReg 5 (.int 0x5) |>.setReg 6 (.int 0x6))
      (fun t => t.pc = (.cap (aCap .nonLinear 0x1030 0x1000 0x1fff 5))) = true := by
  decide

/-- E53: blt x5, x6, 0x20 -/
theorem test_blt_signed :
    runs 0x0262c063 (cMode |>.setReg 5 (.int 0xffffffffffffffff) |>.setReg 6 (.int 0x1))
      (fun t => t.pc = (.cap (aCap .nonLinear 0x1030 0x1000 0x1fff 5))) = true := by
  decide

/-- E56: bge x5, x6, 0x20 -/
theorem test_bge_not_taken :
    runs 0x0262d063 (cMode |>.setReg 5 (.int 0xffffffffffffffff) |>.setReg 6 (.int 0x0))
      (fun t => t.pc = .cap (aCap .nonLinear 0x1014 0x1000 0x1fff 5)) = true := by
  decide

/-- E57: bltu x5, x6, 0x20 -/
theorem test_bltu_unsigned :
    runs 0x0262e063 (cMode |>.setReg 5 (.int 0x1) |>.setReg 6 (.int 0xffffffffffffffff))
      (fun t => t.pc = (.cap (aCap .nonLinear 0x1030 0x1000 0x1fff 5))) = true := by
  decide

/-- E60: bgeu x5, x6, 0x20 -/
theorem test_bgeu_equal :
    runs 0x0262f063 (cMode |>.setReg 5 (.int 0x0) |>.setReg 6 (.int 0x0))
      (fun t => t.pc = (.cap (aCap .nonLinear 0x1030 0x1000 0x1fff 5))) = true := by
  decide

/-- E65: jal x1, 0x100 -/
theorem test_jal_links :
    runs 0x100000ef (cMode |>.setReg 1 (.int 0x0))
      (fun t => t.intValue 1 = (.int 0x1014) ∧ t.pc = (.cap (aCap .nonLinear 0x1110 0x1000 0x1fff 5))) = true := by
  decide

/-- E68: jalr x1, 5(x5) -/
theorem test_jalr_clears_bit0 :
    runs 0x005280e7 (cMode |>.setReg 1 (.int 0x0) |>.setReg 5 (.int 0x1100))
      (fun t => t.intValue 1 = (.int 0x1014) ∧ t.pc = (.cap (aCap .nonLinear 0x1104 0x1000 0x1fff 5))) = true := by
  decide

/-- E70: jalr x5, 8(x5) -/
theorem test_jalr_in_place :
    runs 0x008282e7 (cMode |>.setReg 5 (.int 0x1200))
      (fun t => t.intValue 5 = (.int 0x1014) ∧ t.pc = (.cap (aCap .nonLinear 0x1208 0x1000 0x1fff 5))) = true := by
  decide

/-- E72: auipc x5, 0xfffff -/
theorem test_auipc_cmode :
    runs 0xfffff297 (cMode |>.setReg 5 (.int 0x0))
      (fun t => t.intValue 5 = (.int 0x10)) = true := by
  decide

/-! ### Base arithmetic (45_base_rv64i.md) -/

/-- F2: lui x5, 0x80000 -/
theorem test_lui_sign_extends :
    runs 0x800002b7 (cMode |>.setReg 5 (.int 0x0))
      (fun t => t.intValue 5 = (.int 0xffffffff80000000)) = true := by
  decide

/-- F3: addi x5, x6, -1 -/
theorem test_addi_wraps :
    runs 0xfff30293 (cMode |>.setReg 5 (.int 0x0) |>.setReg 6 (.int 0x0))
      (fun t => t.intValue 5 = (.int 0xffffffffffffffff)) = true := by
  decide

/-- F6: addi x6, x5, 0 -/
theorem test_addi_capability_source :
    runs 0x00028313 (cMode |>.setReg 5 (.cap (aCap .linear 0x3abc 0x3000 0x3fff 6)) |>.setReg 6 (.int 0x0))
      (fun t => t.intValue 6 = (.int 0x3abc)) = true := by
  decide

/-- F8: slti x5, x6, -1 -/
theorem test_slti_signed :
    runs 0xfff32293 (cMode |>.setReg 5 (.int 0x0) |>.setReg 6 (.int 0xfffffffffffffffe))
      (fun t => t.intValue 5 = (.int 0x1)) = true := by
  decide

/-- F10: sltiu x5, x6, -1 -/
theorem test_sltiu_sign_extended_immediate :
    runs 0xfff33293 (cMode |>.setReg 5 (.int 0x0) |>.setReg 6 (.int 0x5))
      (fun t => t.intValue 5 = (.int 0x1)) = true := by
  decide

/-- F12: xori x5, x6, -1 -/
theorem test_xori :
    runs 0xfff34293 (cMode |>.setReg 5 (.int 0x0) |>.setReg 6 (.int 0xf0f0))
      (fun t => t.intValue 5 = (.int 0xffffffffffff0f0f)) = true := by
  decide

/-- F13: ori x5, x6, 0x0f -/
theorem test_ori :
    runs 0x00f36293 (cMode |>.setReg 5 (.int 0x0) |>.setReg 6 (.int 0xf0))
      (fun t => t.intValue 5 = (.int 0xff)) = true := by
  decide

/-- F14: andi x5, x6, 0xff -/
theorem test_andi :
    runs 0x0ff37293 (cMode |>.setReg 5 (.int 0x0) |>.setReg 6 (.int 0x1234))
      (fun t => t.intValue 5 = (.int 0x34)) = true := by
  decide

/-- F15: slli x5, x6, 63 -/
theorem test_slli_63 :
    runs 0x03f31293 (cMode |>.setReg 5 (.int 0x0) |>.setReg 6 (.int 0x3))
      (fun t => t.intValue 5 = (.int 0x8000000000000000)) = true := by
  decide

/-- F16: srli x5, x6, 63 -/
theorem test_srli_63 :
    runs 0x03f35293 (cMode |>.setReg 5 (.int 0x0) |>.setReg 6 (.int 0x8000000000000000))
      (fun t => t.intValue 5 = (.int 0x1)) = true := by
  decide

/-- F17: srai x5, x6, 63 -/
theorem test_srai_63 :
    runs 0x43f35293 (cMode |>.setReg 5 (.int 0x0) |>.setReg 6 (.int 0x8000000000000000))
      (fun t => t.intValue 5 = (.int 0xffffffffffffffff)) = true := by
  decide

/-- F19: add x5, x6, x7 -/
theorem test_add_wraps :
    runs 0x007302b3 (cMode |>.setReg 5 (.int 0x0) |>.setReg 6 (.int 0xffffffffffffffff) |>.setReg 7 (.int 0x2))
      (fun t => t.intValue 5 = (.int 0x1)) = true := by
  decide

/-- F20: sub x5, x6, x7 -/
theorem test_sub_wraps :
    runs 0x407302b3 (cMode |>.setReg 5 (.int 0x0) |>.setReg 6 (.int 0x0) |>.setReg 7 (.int 0x1))
      (fun t => t.intValue 5 = (.int 0xffffffffffffffff)) = true := by
  decide

/-- F22: sll x5, x6, x7 -/
theorem test_sll_low_six_bits :
    runs 0x007312b3 (cMode |>.setReg 5 (.int 0x0) |>.setReg 6 (.int 0x1) |>.setReg 7 (.int 0x47))
      (fun t => t.intValue 5 = (.int 0x80)) = true := by
  decide

/-- F23: slt x5, x6, x7 -/
theorem test_slt_signed :
    runs 0x007322b3 (cMode |>.setReg 5 (.int 0x0) |>.setReg 6 (.int 0x8000000000000000) |>.setReg 7 (.int 0x7fffffffffffffff))
      (fun t => t.intValue 5 = (.int 0x1)) = true := by
  decide

/-- F25: sltu x5, x0, x7 -/
theorem test_sltu_nonzero :
    runs 0x007032b3 (cMode |>.setReg 5 (.int 0x0) |>.setReg 7 (.int 0x9))
      (fun t => t.intValue 5 = (.int 0x1)) = true := by
  decide

/-- F26: xor x5, x6, x7 -/
theorem test_xor :
    runs 0x007342b3 (cMode |>.setReg 5 (.int 0x0) |>.setReg 6 (.int 0xff00) |>.setReg 7 (.int 0xff0))
      (fun t => t.intValue 5 = (.int 0xf0f0)) = true := by
  decide

/-- F27: srl x5, x6, x7 -/
theorem test_srl :
    runs 0x007352b3 (cMode |>.setReg 5 (.int 0x0) |>.setReg 6 (.int 0x8000000000000000) |>.setReg 7 (.int 0x3c))
      (fun t => t.intValue 5 = (.int 0x8)) = true := by
  decide

/-- F28: sra x5, x6, x7 -/
theorem test_sra :
    runs 0x407352b3 (cMode |>.setReg 5 (.int 0x0) |>.setReg 6 (.int 0x8000000000000000) |>.setReg 7 (.int 0x3c))
      (fun t => t.intValue 5 = (.int 0xfffffffffffffff8)) = true := by
  decide

/-- F29: or x5, x6, x7 -/
theorem test_or :
    runs 0x007362b3 (cMode |>.setReg 5 (.int 0x0) |>.setReg 6 (.int 0xf0) |>.setReg 7 (.int 0xf))
      (fun t => t.intValue 5 = (.int 0xff)) = true := by
  decide

/-- F30: and x5, x6, x7 -/
theorem test_and :
    runs 0x007372b3 (cMode |>.setReg 5 (.int 0x0) |>.setReg 6 (.int 0xff) |>.setReg 7 (.int 0x3c))
      (fun t => t.intValue 5 = (.int 0x3c)) = true := by
  decide

/-- F31: addiw x5, x6, 1 -/
theorem test_addiw_overflow :
    runs 0x0013029b (cMode |>.setReg 5 (.int 0x0) |>.setReg 6 (.int 0x7fffffff))
      (fun t => t.intValue 5 = (.int 0xffffffff80000000)) = true := by
  decide

/-- F33: slliw x5, x6, 31 -/
theorem test_slliw_31 :
    runs 0x01f3129b (cMode |>.setReg 5 (.int 0x0) |>.setReg 6 (.int 0x1))
      (fun t => t.intValue 5 = (.int 0xffffffff80000000)) = true := by
  decide

/-- F34: srliw x5, x6, 4 -/
theorem test_srliw_low_word :
    runs 0x0043529b (cMode |>.setReg 5 (.int 0x0) |>.setReg 6 (.int 0xffffffff80000000))
      (fun t => t.intValue 5 = (.int 0x8000000)) = true := by
  decide

/-- F35: sraiw x5, x6, 4 -/
theorem test_sraiw :
    runs 0x4043529b (cMode |>.setReg 5 (.int 0x0) |>.setReg 6 (.int 0x80000000))
      (fun t => t.intValue 5 = (.int 0xfffffffff8000000)) = true := by
  decide

/-- F36: addw x5, x6, x7 -/
theorem test_addw :
    runs 0x007302bb (cMode |>.setReg 5 (.int 0x0) |>.setReg 6 (.int 0xffffffff) |>.setReg 7 (.int 0x1))
      (fun t => t.pc = .cap (aCap .nonLinear 0x1014 0x1000 0x1fff 5)) = true := by
  decide

/-- F37: subw x5, x6, x7 -/
theorem test_subw :
    runs 0x407302bb (cMode |>.setReg 5 (.int 0x0) |>.setReg 6 (.int 0x0) |>.setReg 7 (.int 0x1))
      (fun t => t.intValue 5 = (.int 0xffffffffffffffff)) = true := by
  decide

/-- F38: sllw x5, x6, x7 -/
theorem test_sllw_low_five_bits :
    runs 0x007312bb (cMode |>.setReg 5 (.int 0x0) |>.setReg 6 (.int 0x1) |>.setReg 7 (.int 0x3f))
      (fun t => t.intValue 5 = (.int 0xffffffff80000000)) = true := by
  decide

/-- F39: srlw x5, x6, x7 -/
theorem test_srlw :
    runs 0x007352bb (cMode |>.setReg 5 (.int 0x0) |>.setReg 6 (.int 0x80000000) |>.setReg 7 (.int 0x1f))
      (fun t => t.intValue 5 = (.int 0x1)) = true := by
  decide

/-- F40: sraw x5, x6, x7 -/
theorem test_sraw :
    runs 0x407352bb (cMode |>.setReg 5 (.int 0x0) |>.setReg 6 (.int 0x80000000) |>.setReg 7 (.int 0x1f))
      (fun t => t.intValue 5 = (.int 0xffffffffffffffff)) = true := by
  decide

/-! ### System and CSR instructions -/

/-- E89: fence -/
theorem test_fence_nothing :
    runs 0x0ff0000f (cMode)
      (fun t => t.pc = .cap (aCap .nonLinear 0x1014 0x1000 0x1fff 5)) = true := by
  decide

/-- E80: ecall -/
theorem test_ecall_cmode :
    traps 0x00000073 (cMode) 11 = true := by
  decide

/-- H4: ecall -/
theorem test_ecall_mmode :
    runs 0x00000073 (mMode |> withCsr (fun c => { c with mstatus := 0xa00000008 }))
      (fun t => t.csr.mepc = 0x1010 ∧ t.csr.mcause = 0xb ∧ t.csr.mstatus = 0xa00001880 ∧ t.pc = (.int 0x1f00)) = true := by
  decide

/-- E81: ebreak -/
theorem test_ebreak_cmode :
    traps 0x00100073 (cMode) 3 = true := by
  decide

/-- E96: mret -/
theorem test_mret_linear_cepc :
    runs 0x30200073 (cMode |> withCepc (.cap (aCap .linear 0x1234 0x1000 0x1fff 5)) |> withCtvec (.cap (aCap .nonLinear 0x1f00 0x1000 0x1fff 5)) |> withCsr (fun c => { c with mstatus := 0xa00001880 }))
      (fun t => t.ccsr.cepc = (.int 0x1234) ∧ t.csr.mstatus = 0xa00000088 ∧ t.pc = (.cap (aCap .linear 0x1234 0x1000 0x1fff 5))) = true := by
  decide

/-- H5: mret -/
theorem test_mret_mmode :
    runs 0x30200073 (mMode |> withCsr (fun c => { c with mepc := 0x1010 }) |> withCsr (fun c => { c with mstatus := 0xa00001880 }))
      (fun t => t.pc = (.int 0x1010) ∧ t.csr.mstatus = 0xa00000088) = true := by
  decide

/-- E82: sret -/
theorem test_sret_cmode :
    traps 0x10200073 (cMode) 2 = true := by
  decide

/-- E83: wfi -/
theorem test_wfi_cmode :
    traps 0x10500073 (cMode) 2 = true := by
  decide

/-- E84: sfence.vma x0, x0 -/
theorem test_sfence_cmode :
    traps 0x12000073 (cMode) 2 = true := by
  decide

/-- F46: csrrw x5, mip, x6 -/
theorem test_csrrw_mip :
    runs 0x344312f3 (cMode |>.setReg 5 (.int 0x0) |>.setReg 6 (.int 0xffffffffffffffff) |> withCsr (fun c => { c with mip := 0x80 }))
      (fun t => t.intValue 5 = (.int 0x80) ∧ t.csr.mip = 0x2a2) = true := by
  decide

/-- H3: csrrw x5, mscratch, x6 -/
theorem test_csrrw_mscratch :
    runs 0x340312f3 (mMode |> withCsr (fun c => { c with mscratch := 0x11 }) |>.setReg 6 (.int 0x22))
      (fun t => t.intValue 5 = (.int 0x11) ∧ t.csr.mscratch = 0x22 ∧ t.pc = (.int 0x1014)) = true := by
  decide

/-- F44: csrrs x5, mie, x6 -/
theorem test_csrrs_mie :
    runs 0x304322f3 (cMode |>.setReg 5 (.int 0x0) |>.setReg 6 (.int 0xffffffffffffffff) |> withCsr (fun c => { c with mie := 0x0 }))
      (fun t => t.csr.mie = 0xaaa) = true := by
  decide

/-- F45: csrrc x5, mie, x6 -/
theorem test_csrrc_mie :
    runs 0x304332f3 (cMode |>.setReg 5 (.int 0x0) |>.setReg 6 (.int 0x80) |> withCsr (fun c => { c with mie := 0xaaa }))
      (fun t => t.intValue 5 = (.int 0xaaa) ∧ t.csr.mie = 0xa2a) = true := by
  decide

/-- F48: csrrwi x5, cid, 31 -/
theorem test_csrrwi_cid :
    runs 0x801fd2f3 (cMode |>.setReg 5 (.int 0x0) |> withCsr (fun c => { c with cid := 0x0 }))
      (fun t => t.csr.cid = 0xa) = true := by
  decide

/-- F50: csrrsi x5, cid, 0 -/
theorem test_csrrsi_no_write :
    runs 0x801062f3 (cMode |>.setReg 5 (.int 0x0) |> withCsr (fun c => { c with cid := 0x80 }))
      (fun t => t.intValue 5 = (.int 0x80)) = true := by
  decide

/-- F51: csrrci x5, cis, 8 -/
theorem test_csrrci_cis :
    runs 0x800472f3 (cMode |>.setReg 5 (.int 0x0) |> withCsr (fun c => { c with cis := 0x88 }))
      (fun t => t.intValue 5 = (.int 0x88) ∧ t.csr.cis = 0x80) = true := by
  decide

/-- E86: csrrs x5, mepc, x0 -/
theorem test_csr_absent_in_cmode :
    traps 0x341022f3 (cMode) 2 = true := by
  decide

/-! ### Worked by hand from the rules -/

/-- R328: `sret` from S-mode, SPP = 1, SPIE = 1. -/
theorem test_sret_smode :
    runs 0x10200073 { mMode with priv := .supervisor, csr := { Csrs.reset with mstatus := 0xa00000120, sepc := 0x44 } }
      (fun t => t.pc = .int 0x44 ∧ t.priv = .supervisor ∧ t.csr.mstatus = 0xa00000022) = true := by
  decide

/-- R329: `wfi` in M-mode with CAPSTONE_EN = 0 only moves on. -/
theorem test_wfi_mmode : runs 0x10500073 mMode (fun t => t = mMode.setPc (.int 0x1014)) = true := by
  decide

/-- R336: `sfence.vma` in M-mode with CAPSTONE_EN = 0 only moves on. -/
theorem test_sfence_mmode : runs 0x12000073 mMode (fun t => t = mMode.setPc (.int 0x1014)) = true := by
  decide

/-- H10: IrqSet(7) with MIE set and a vectored `mtvec`: taken at the next boundary. -/
theorem test_step_takes_timer_interrupt :
    (match step { mMode with
        inputs := [[.set .machineTimer]]
        csr := { Csrs.reset with mstatus := 0xa00000008, mie := 0x80, mtvec := 0x1f01 } } with
      | .next t => decide (t.pc = .int 0x1f1c ∧ t.csr.mepc = 0x1010 ∧ t.csr.mcause = 0x8000000000000007 ∧
          t.csr.mip = 0x80)
      | _ => false) = true := by
  decide

/-- R408: `withFetchWord` places an instruction for the next step: H2, `addi x5, x0, 1`, right after reset. -/
theorem test_step_runs_placed_word :
    (match step (State.reset.withFetchWord 32 0x00100293) with
      | .next t => decide (t.intValue 5 = .int 1 ∧ t.pc = .int (Config.resetVector + 4))
      | _ => false) = true := by
  decide

/-! ### States that meet the statements' hypotheses -/

/-- C-mode with a capability in `x[5]`. -/
def holding (c : Cap) : State := cMode.setReg 5 (.cap c)

/-- C-mode with a capability in `x[5]` and an integer in `x[6]`. -/
def holdingWith (c : Cap) (v : Word) : State := (holding c).setReg 6 (.int v)

/-- C-mode with a capability in `x[5]` and integers in `x[6]` and `x[7]`. -/
def holdingTwo (c : Cap) (v w : Word) : State := (holdingWith c v).setReg 7 (.int w)

/-- A read-write region. -/
def data : Cap := aCap .nonLinear 0x2000 0x2000 0x2fff 6

/-- A linear read-write region of 1024 bytes. -/
def region : Cap := aCap .linear 0x4000 0x4000 0x43ff 6

/-- A sealed capability over that region. -/
def sealedCap : Cap := aCap .sealed 0x4000 0x4000 0x43ff 6

/-- A sealed-return capability over that region. -/
def returnCap : Cap := { aCap .sealedReturn 0x4000 0x4000 0x43ff 6 with reg := 7 }

/-- `CReady` and the operands of `holdingTwo`, for any capability and integers: every C-mode statement's standing hypotheses. -/
theorem witness_c_mode_operands (c : Cap) (v w : Word) : CReady (holdingTwo c v w) ∧
    (holdingTwo c v w).capOf? 5 = some c ∧ (holdingTwo c v w).intOf? 6 = some v ∧
    (holdingTwo c v w).intOf? 7 = some w ∧ (holdingTwo c v w).capOf? 8 = none ∧
    (holdingTwo c v w).intOf? 5 = none := ⟨⟨rfl, rfl⟩, rfl, rfl, rfl, rfl, rfl⟩

/-- O2: a register other than 0 that holds `cnull`, an integer, a sealed and another capability. -/
theorem witness_register_contents : (5 : Reg) ≠ 0 ∧ (holding cnull).capValue 5 = .cap cnull ∧
    (cMode.setReg 5 (.int 7)).capValue 5 = .int 7 ∧ (holding sealedCap).capValue 5 = .cap sealedCap ∧
    sealedCap.type = .sealed ∧ (holding data).capValue 5 = .cap data ∧ data.type ≠ .sealed := by decide

/-- O6, O8: an integer `pc` outside C-mode; O6, O7: a capability in C-mode. -/
theorem witness_pc_kinds : mMode.pc = .int 0x1010 ∧ mMode.inCMode = false ∧ cMode.inCMode = true ∧
    cMode.pc = .cap (aCap .nonLinear 0x1010 0x1000 0x1fff 5) := by decide

/-- O7, O8: operands that take and operands that do not take each branch. -/
theorem witness_branch_operands :
    let s := (cMode.setReg 5 (.int 0xffffffffffffffff)).setReg 6 (.int 1)
    s.ival 5 = s.ival 5 ∧ ¬ s.ival 5 = s.ival 6 ∧ s.ival 5 ≠ s.ival 6 ∧ (s.ival 5).toInt < (s.ival 6).toInt ∧
      ¬ (s.ival 6).toInt < (s.ival 5).toInt ∧ (s.ival 6).toNat < (s.ival 5).toNat ∧
      ¬ (s.ival 5).toNat < (s.ival 6).toNat ∧ (s.ival 6).toNat ≤ (s.ival 5).toNat ∧
      ¬ (s.ival 5).toNat ≤ (s.ival 6).toNat := by decide

/-- O8: targets that are and are not a multiple of 4, for a branch, `jal` and `jalr`. -/
theorem witness_target_alignment :
    ((0x1010 : Word) + (16 : BitVec 13).signExtend 64).toNat % 4 = 0 ∧
    ((0x1010 : Word) + (2 : BitVec 13).signExtend 64).toNat % 4 ≠ 0 ∧
    ((0x1010 : Word) + (16 : BitVec 21).signExtend 64).toNat % 4 = 0 ∧
    ((0x1010 : Word) + (2 : BitVec 21).signExtend 64).toNat % 4 ≠ 0 ∧
    ((mMode.ival 5 + (5 : BitVec 12).signExtend 64) &&& ~~~1).toNat % 4 = 0 ∧
    ((mMode.ival 5 + (6 : BitVec 12).signExtend 64) &&& ~~~1).toNat % 4 ≠ 0 := by decide

/-- Which line of `ReadChecks` a read reaches: 1 to 7 for its exceptions, 8 for `rest`. -/
def readLine (s : State) (c : Cap) (ea : Word) (n : Nat) : Nat :=
  if c.valid = false then 1
  else if ¬ (c.Plain ∨ c.type = .sealedReturn) then 2
  else if c.type = .sealedReturn ∧ c.async = true then 3
  else if c.Plain ∧ permLe 4 c.perms = false then 4
  else if c.Plain ∧ ¬ InRegion s c ea n then 5
  else if c.type = .sealedReturn ∧ ¬ InContext c ea n then 6
  else if ea.toNat % n ≠ 0 then 7
  else 8

/-- Which line of `WriteChecks` a write reaches: 1 to 8 for its exceptions, 9 for `rest`. -/
def writeLine (s : State) (c : Cap) (imm : BitVec 12) (ea : Word) (n : Nat) : Nat :=
  if c.valid = false then 1
  else if ¬ (c.Plain ∨ c.type = .uninitialised ∨ c.type = .sealedReturn) then 2
  else if c.type = .sealedReturn ∧ c.async = true then 3
  else if c.Plain ∧ permLe 2 c.perms = false then 4
  else if c.type = .uninitialised ∧ imm ≠ 0 then 5
  else if (c.Plain ∨ c.type = .uninitialised) ∧ ¬ InRegion s c ea n then 6
  else if c.type = .sealedReturn ∧ ¬ InContext c ea n then 7
  else if ea.toNat % n ≠ 0 then 8
  else 9

/-- O9: a granted, aligned read of memory, at the last address of a region and at both ends of a context. -/
theorem witness_granted_reads :
    GrantsRead (holding data) data 0x2ffe 1 ∧ AllMem (holding data) 0x2ffe 1 ∧
    GrantsRead (holding data) data 0x2ff0 8 ∧ (0x2ff0 : Word).toNat % 8 = 0 ∧ AllMem (holding data) 0x2ff0 8 ∧
    GrantsRead (holding returnCap) returnCap 0x4030 8 ∧ GrantsRead (holding returnCap) returnCap 0x43f8 8 := by
  decide

/-- O9: each line of the list is reached, at the boundaries: past the region by one, before and after the context by one, and a byte that is not memory. -/
theorem witness_read_lines :
    readLine (holding data) { data with valid := false } 0x2000 8 = 1 ∧
    readLine (holding data) { data with type := .uninitialised } 0x2000 8 = 2 ∧
    readLine (holding data) { returnCap with async := true } 0x4030 8 = 3 ∧
    readLine (holding data) { data with perms := 3 } 0x2000 8 = 4 ∧
    readLine (holding data) data 0x2fff 1 = 5 ∧ readLine (holding data) data 0x1fff 1 = 5 ∧
    readLine (holding data) returnCap 0x402f 1 = 6 ∧ readLine (holding data) returnCap 0x4400 1 = 6 ∧
    readLine (holding data) data 0x2001 2 = 7 ∧
    readLine (withHole 0x2007 (holding data)) data 0x2000 8 = 8 ∧
    ¬ AllMem (withHole 0x2007 (holding data)) 0x2000 8 := by decide

/-- O10: a granted, aligned write to memory, through each kind of capability. -/
theorem witness_granted_writes :
    (holdingWith data 5).MemWf ∧ GrantsWrite (holdingWith data 5) data 0 0x2ff0 8 ∧
    AllMem (holdingWith data 5) 0x2ff0 8 ∧
    GrantsWrite (holdingWith data 5) { data with type := .uninitialised, perms := 0 } 0 0x2ffe 1 ∧
    GrantsWrite (holdingWith data 5) returnCap 0x30 0x4030 8 ∧
    GrantsWrite (holdingWith data 5) returnCap 0x3f8 0x43f8 8 := by
  refine ⟨by decide, by decide, by decide, by decide, by decide, by decide⟩

/-- O10: each line of the list is reached. -/
theorem witness_write_lines :
    writeLine (holding data) { data with valid := false } 0 0x2000 8 = 1 ∧
    writeLine (holding data) { data with type := .revocation } 0 0x2000 8 = 2 ∧
    writeLine (holding data) { returnCap with async := true } 0 0x4030 8 = 3 ∧
    writeLine (holding data) { data with perms := 5 } 0 0x2000 8 = 4 ∧
    writeLine (holding data) { data with type := .uninitialised } 1 0x2001 1 = 5 ∧
    writeLine (holding data) data 0 0x2fff 1 = 6 ∧
    writeLine (holding data) { data with type := .uninitialised } 0 0x2fff 1 = 6 ∧
    writeLine (holding data) returnCap 0x2f 0x402f 1 = 7 ∧ writeLine (holding data) returnCap 0x400 0x4400 1 = 7 ∧
    writeLine (holding data) data 1 0x2001 2 = 8 ∧
    writeLine (withHole 0x2007 (holding data)) data 0 0x2000 8 = 9 := by decide

/-- O11: M-mode, and S-mode with `satp` MODE Bare; aligned memory, a misaligned address, a byte that is not memory. -/
theorem witness_raw_accesses :
    let s := { mMode with priv := .supervisor }
    mMode.capstoneEn = false ∧ mMode.priv = .machine ∧ s.capstoneEn = false ∧ s.csr.satp.extractLsb' 60 4 = 0 ∧
    mMode.MemWf ∧ (mMode.ival 5 + (8 : BitVec 12).signExtend 64).toNat % 8 = 0 ∧ AllMem mMode 8 8 ∧
    (mMode.ival 5 + (9 : BitVec 12).signExtend 64).toNat % 8 ≠ 0 ∧ ¬ AllMem (withHole 15 mMode) 8 8 := by decide

/-- O9, O12, O25: bytes that are and are not defined, an integer slot and a capability slot. -/
theorem witness_memory_contents :
    let s := withSlot 0x2010 (.cap region) cMode
    AllDefined s 0x2000 8 ∧ ¬ AllDefined s 0x2010 1 ∧ ¬ AllDefined s 0x201f 1 ∧ s.mem.slotCap 0x2000 = none ∧
    s.mem.slotCap 0x2010 = some region ∧ region.type ≠ .nonLinear ∧
    (withSlot 0x2010 (.cap data) cMode).mem.slotCap 0x2010 = some data ∧ data.type = .nonLinear := by decide

/-- O13: a move in place, of an integer, of a capability. -/
theorem witness_movc : (holdingWith region 5).inCMode = true ∧ (6 : Reg) ≠ 7 ∧ (holdingWith region 5).capValue 6 = .int 5 ∧
    (5 : Reg) ≠ 7 ∧ (holdingWith region 5).capValue 5 = .cap region := by decide

/-- Does a step answer a next state? -/
def isNext : Outcome → Bool
  | .next _ => true
  | .fault _ => false
  | .refused _ => false

/-- R161: MOVC raises nothing in C-mode, on an implementation with finite resources too. -/
theorem test_movc_never_exhausts :
    isNext (exec (.movc 7 5 0) { holding region with plat := { Platform.default with finiteResources := true } }) =
      true := by decide

/-- O14: types that are accepted and types that are not. -/
theorem witness_cursor_types : data.type ≠ .uninitialised ∧ data.type ≠ .sealed ∧ returnCap.type ≠ .uninitialised ∧
    returnCap.type ≠ .sealed ∧ sealedCap.type = .sealed ∧
    { data with type := .uninitialised }.type = .uninitialised := by decide

/-- O15: the largest selector, and the types of the clauses. -/
theorem witness_lcc : 7 < (31 : BitVec 5).toNat ∧ 7 < (8 : BitVec 5).toNat ∧ sealedCap.type = .sealed ∧
    returnCap.type = .sealedReturn ∧ ¬ (data.type = .sealed ∨ data.type = .sealedReturn) ∧
    data.type = .nonLinear ∧ region.type = .linear := by decide

/-- O16: bounds that just fit, that are equal, one below and one above. -/
theorem witness_shrink :
    let inside (lo hi : Word) : Prop := lo.toNat < hi.toNat ∧ data.base.toNat ≤ lo.toNat ∧ hi.toNat ≤ data.last.toNat
    data.Plain ∧ inside 0x2000 0x2fff ∧ ¬ inside 0x2100 0x2100 ∧ ¬ inside 0x1fff 0x2100 ∧ ¬ inside 0x2000 0x3000 ∧
    ¬ (sealedCap.Plain ∨ sealedCap.type = .uninitialised) := by decide

/-- O17: a size that just fits, one too many, and 0 at cursor 0. -/
theorem witness_shrinkto :
    let fits (c : Cap) (imm : BitVec 12) : Prop := c.base.toNat ≤ c.cursor.toNat ∧
      c.cursor.toNat + imm.toNat ≤ c.last.toNat ∧ ¬ (imm = 0 ∧ c.cursor = 0)
    data.Plain ∧ fits data 4095 ∧ ¬ fits { data with cursor := 0x2001 } 4095 ∧ ¬ fits { data with cursor := 0x1fff } 0 ∧
    ¬ fits { data with cursor := 0, base := 0 } 0 ∧ ¬ (returnCap.Plain ∨ returnCap.type = .uninitialised) := by decide

/-- O18: split points at both ends and just outside; an invalid capability and one that is not plain. -/
theorem witness_split :
    let inside (n : Word) : Prop := region.base.toNat ≤ n.toNat ∧ n.toNat < region.last.toNat
    region.valid = true ∧ region.Plain ∧ inside 0x4000 ∧ inside 0x43fe ∧ ¬ inside 0x3fff ∧ ¬ inside 0x43ff ∧
    { region with valid := false }.valid = false ∧ ¬ sealedCap.Plain ∧ (5 : Reg) ≠ 6 := by decide

/-- O19: permissions that are a subset, that are not, and values on both sides of 7. -/
theorem witness_tighten : data.Plain ∧ 7 < (8 : BitVec 5).toNat ∧ (7 : BitVec 5).toNat ≤ 7 ∧
    ((6 : BitVec 5).toNat &&& data.perms.toNat = (6 : BitVec 5).toNat) ∧
    ¬ ((7 : BitVec 5).toNat &&& data.perms.toNat = (7 : BitVec 5).toNat) ∧
    ¬ (sealedCap.Plain ∨ sealedCap.type = .uninitialised) := by decide

/-- O20, O21: a linear and another capability; an uninitialised one past its end, and at it. -/
theorem witness_delin_init :
    let c := { region with type := .uninitialised, cursor := 0x4400 }
    region.type = .linear ∧ data.type ≠ .linear ∧ c.type = .uninitialised ∧ c.last.toNat < c.cursor.toNat ∧
    region.type ≠ .uninitialised ∧ { c with cursor := 0x43ff }.cursor.toNat ≤ c.last.toNat := by decide

/-- O22: a region SEAL accepts, and one byte fewer, a misaligned base, an integer slot, a byte that is not memory. -/
theorem witness_seal :
    let good (s : State) (c : Cap) : Prop := (1024 : Int) ≤ (c.last.toNat : Int) - c.base.toNat + 1 ∧
      c.base.toNat % 16 = 0 ∧ AllMem s (c.base + 16) 16 ∧ s.mem.slotCap (c.base + 16) ≠ none
    let s := withSlot 0x4010 (.cap data) (holding region)
    CReady s ∧ s.capOf? 5 = some region ∧ region.type = .linear ∧ permLe 6 region.perms = true ∧ good s region ∧
    ¬ good s { region with last := 0x43fe } ∧ ¬ good s { region with base := 0x3ff8 } ∧ ¬ good (holding region) region ∧
    ¬ good (withHole 0x401f s) region ∧ permLe 6 (4 : BitVec 3) = false ∧ data.type ≠ .linear := by decide

/-- O23: a valid linear capability, an invalid one, one that is not linear. -/
theorem witness_mrev : CReady (holding region) ∧ (holding region).capOf? 5 = some region ∧ region.valid = true ∧
    region.type = .linear ∧ { region with valid := false }.valid = false ∧ data.type ≠ .linear := by decide

/-- O24: a revocation capability with nothing but a non-linear capability in its set, and with a linear one. -/
theorem witness_revoke :
    let r : Cap := { aCap .revocation 0x4000 0x4000 0x43ff 6 with born := 3 }
    let s := (holding r).setReg 6 (.cap { data with base := 0x43ff, last := 0x43ff })
    let t := (holding r).setReg 6 (.cap region)
    CReady s ∧ s.capOf? 5 = some r ∧ r.valid = true ∧ r.type = .revocation ∧
    (∀ c ∈ s.allCaps, TakenBack r c → c.type = .nonLinear) ∧ permLe 2 r.perms = true ∧
    (∃ c ∈ t.allCaps, TakenBack r c ∧ c.type ≠ .nonLinear) ∧ { r with valid := false }.valid = false ∧
    region.type ≠ .revocation := by decide +kernel

/-- O25: an integer slot, a non-linear capability and a linear one, read through `x[5]`; a linear one without write permission; bytes of the slot that are not memory. -/
theorem witness_ldc :
    let s := withSlot 0x2fe0 (.cap region) (holding data)
    let t := withSlot 0x2010 (.cap data) (holding data)
    CReady s ∧ s.capOf? 5 = some data ∧ GrantsRead s data 0x2fe0 16 ∧ (0x2fe0 : Word).toNat % 16 = 0 ∧
    s.mem.slotCap 0x2fe0 = some region ∧ region.type ≠ .nonLinear ∧ permLe 2 data.perms = true ∧ s.MemWf ∧
    AllMem s 0x2fe0 16 ∧ t.mem.slotCap 0x2010 = some data ∧ data.type = .nonLinear ∧ s.mem.slotCap 0x2000 = none ∧
    AllMem s 0x2000 8 ∧ readLine s { data with perms := 4 } 0x2fe0 16 = 8 ∧ permLe 2 (4 : BitVec 3) = false ∧
    ¬ AllMem (withHole 0x2fef s) 0x2fe0 16 ∧ ¬ AllMem (withHole 0x2007 s) 0x2000 8 := by decide

/-- O26: an integer, a linear and a non-linear capability stored through a plain and an uninitialised capability. -/
theorem witness_stc :
    let s := (holding data).setReg 6 (.cap region)
    CReady s ∧ s.capOf? 5 = some data ∧ s.MemWf ∧ GrantsWrite s data 0 0x2fe0 16 ∧ (0x2fe0 : Word).toNat % 16 = 0 ∧
    AllMem s 0x2fe0 16 ∧ (s.capValue 6).movesOut = true ∧ (s.capValue 6).slotBytes = 16 ∧
    (s.capValue 5).movesOut = false ∧ (s.capValue 7).movesOut = false ∧ (s.capValue 7).slotBytes = 8 ∧
    GrantsWrite s { data with type := .uninitialised } 0 0x2000 16 ∧ ¬ AllMem (withHole 0x2fef s) 0x2fe0 16 := by decide

/-- O27: the operands of CBNZ, taken and not taken, with a non-linear and a linear target; a state outside C-mode. -/
theorem witness_cbnz : CReady (holdingWith region 1) ∧ (holdingWith region 1).capOf? 5 = some region ∧
    (holdingWith region 1).intOf? 6 = some 1 ∧ (1 : Word) ≠ 0 ∧ region.type ≠ .nonLinear ∧ data.type = .nonLinear ∧
    (holdingWith region 0).intOf? 6 = some 0 ∧ mMode.inCMode = false := by decide

/-- O28: a callable capability in `x[5]` and in `cih`; the cases CALL refuses; a region whose last byte is not memory. -/
theorem witness_call :
    let s := inCaller.setReg 5 (.cap sealedCap)
    CReady s ∧ s.capValue 5 = .cap sealedCap ∧ sealedCap.valid = true ∧ sealedCap.type = .sealed ∧
    sealedCap.async = false ∧ sealedCap.base.toNat % 16 = 0 ∧ AllMem s sealedCap.base 88 ∧ s.MemWf ∧
    (withCih (.cap sealedCap) inCaller).ccsr.cih = .cap sealedCap ∧ ¬ AllMem (withHole 0x4057 s) sealedCap.base 88 ∧
    s.capValue 6 = .int 0 ∧ { sealedCap with valid := false }.valid = false ∧ region.type ≠ .sealed ∧
    { sealedCap with async := true }.async = true := by decide +kernel

/-- O29: a synchronous return to a register, to `cih`, and of a sealed capability with `cih` vacant; with `cih` occupied. -/
theorem witness_return :
    let s := inCallee.setReg 1 (.cap returnCap)
    CReady s ∧ s.capOf? 1 = some returnCap ∧ s.intOf? 12 = some 0x6000 ∧ returnCap.valid = true ∧
    returnCap.type = .sealedReturn ∧ returnCap.async = false ∧ returnCap.base.toNat % 16 = 0 ∧
    AllMem s returnCap.base 88 ∧ s.MemWf ∧ returnCap.reg ≠ 0 ∧ { returnCap with reg := 0 }.reg = 0 ∧
    sealedCap.type = .sealed ∧ s.ccsr.cih.vacant = true ∧ (withCih (.cap sealedCap) s).ccsr.cih.vacant = false ∧
    (region.type ≠ .sealed ∧ region.type ≠ .sealedReturn) ∧ s.capOf? 2 = none ∧ s.intOf? 1 = none ∧
    ¬ AllMem (withHole 0x4057 s) returnCap.base 88 := by decide +kernel

/-- O30: an asynchronous return to a saved level 3; a saved level 2; a region whose last byte is not memory. -/
theorem witness_asynchronous_return :
    let c := { returnCap with async := true, reg := 0 }
    let s := inCallee.setReg 1 (.cap c)
    let image (s : State) : Word := s.mem.readInt s.draws (ctxAt c.base 48) 8
    CReady s ∧ s.capOf? 1 = some c ∧ s.intOf? 12 = some 0x6000 ∧ c.valid = true ∧ c.type = .sealedReturn ∧
    c.async = true ∧ c.base.toNat % 16 = 0 ∧ AllMem s c.base 944 ∧ s.MemWf ∧
    LevelBits (image s) 38 .machine ∧ bitOf (image (withWord 0x4030 0x8a00000008 s)) 38 = false ∧
    bitOf (image (withWord 0x4030 0x8a00000008 s)) 39 = true ∧
    ¬ AllMem (withHole 0x43af s) c.base 944 := by decide +kernel

/-- O30: in the region's first and last register slot an integer, a non-linear capability and a linear one; the word after the 88 bytes. -/
theorem witness_context_slots :
    ((0x4060 : Word) - returnCap.base).toNat = 96 ∧ inCallee.mem.slotCap 0x4060 = none ∧
    ((0x435f : Word) - returnCap.base).toNat = 863 ∧ inCallee.mem.slotCap 0x435f = none ∧
    (withSlot 0x4060 (.cap data) inCallee).mem.slotCap 0x4060 = some data ∧ data.type = .nonLinear ∧
    (withSlot 0x4350 (.cap region) inCallee).mem.slotCap 0x435f = some region ∧ region.type ≠ .nonLinear ∧
    ((0x4058 : Word) - returnCap.base).toNat = 88 := by decide +kernel

/-- O29, log 36: RETURN of `x[0]` with a capability in `x[rs1]` raises 24, the first condition of its list. -/
theorem test_return_zero_register : (holding data).capOf? 0 = some cnull ∧ (holding data).intOf? 5 = none ∧
    traps 0x4202905b (holding data) 24 = true := by decide +kernel

/-- O31: a vacant and an occupied `cih`; immediates at the edges of the CCSR encodings. -/
theorem witness_ccsrrw : CReady (holding data) ∧ (holding data).capOf? 5 = some data ∧
    CcsrName.ofEncoding 1 = some .cih ∧ (holding data).ccsr.cih.vacant = true ∧
    (withCih (.cap sealedCap) (holding data)).ccsr.cih.vacant = false ∧ CcsrName.ofEncoding 0x1f = some (.cpmp 15) ∧
    (3 : BitVec 12).toNat = 3 ∧ (4 < (5 : BitVec 12).toNat ∧ (5 : BitVec 12).toNat < 16) ∧
    (4 < (15 : BitVec 12).toNat ∧ (15 : BitVec 12).toNat < 16) ∧ 31 < (32 : BitVec 12).toNat := by decide

/-- O32: M-mode before CAPENTER, with the indices of both forms; the states CAPENTER is illegal in. -/
theorem witness_capenter : mMode.capstoneEn = false ∧ mMode.priv = .machine ∧ mMode.pc = .int 0x1010 ∧
    ((0 : Reg) = 0 ∧ (0 : Reg) = 0) ∧ ¬ ((5 : Reg) = 0 ∧ (0 : Reg) = 0) ∧ cMode.capstoneEn = true ∧
    { mMode with priv := .user }.priv ≠ .machine := by decide

/-- O33, O34: an access that passes the check, read-write and read-only; one of a higher privilege, a write of a read-only CSR, one that does not exist. -/
theorem witness_csr_access :
    let s := { mMode with priv := .supervisor }
    CsrName.ofNumber 0x343 = some .mtval ∧ csrExists cMode .mtval = true ∧
    ((0x343 : BitVec 12).extractLsb' 8 2).toNat ≤ cMode.priv.code.toNat ∧ (0x343 : BitVec 12).extractLsb' 10 2 ≠ 3 ∧
    CsrName.ofNumber 0xf14 = some .mhartid ∧ csrExists mMode .mhartid = true ∧ (5 : Reg) ≠ 0 ∧
    CsrName.ofNumber 0x802 = some .cic ∧ csrExists cMode .cic = true ∧
    s.priv.code.toNat < ((0x300 : BitVec 12).extractLsb' 8 2).toNat ∧
    (csrWrites (.csrrw 5 0xf14 6) = true ∧ (0xf14 : BitVec 12).extractLsb' 10 2 = 3) ∧
    CsrName.ofNumber 0xc00 = none ∧ csrExists mMode .cis = false := by decide

/-- O36: a state without exception 30, in C-mode and outside it on an implementation that has it; the three levels; the vectors an environment call can meet. -/
theorem witness_environment_calls :
    let s := withCtvec (.cap (aCap .linear 0x1f00 0x1000 0x1fff 5)) cMode
    Roomy s ∧ Roomy { mMode with plat := { Platform.default with finiteResources := true } } ∧
    mMode.priv = .machine ∧ mMode.capstoneEn = false ∧ s.priv = .machine ∧ s.capstoneEn = true ∧
    s.ccsr.ctvec = .cap (aCap .linear 0x1f00 0x1000 0x1fff 5) ∧ (withCtvec (.int 0x1e00) s).ccsr.ctvec = .int 0x1e00 ∧
    s.pc = .cap (aCap .nonLinear 0x1010 0x1000 0x1fff 5) ∧ { mMode with priv := .user }.priv = .user ∧
    { mMode with priv := .supervisor }.priv = .supervisor := by decide

/-- O37, O38: S-mode with TW, TVM and TSR clear and set. -/
theorem witness_system_permissions :
    let s := { mMode with priv := .supervisor }
    let t := withCsr (fun c => { c with mstatus := 0xa00700000 }) s
    s.priv = .supervisor ∧ bitOf s.csr.mstatus 20 = false ∧ bitOf s.csr.mstatus 21 = false ∧
    bitOf s.csr.mstatus 22 = false ∧ bitOf t.csr.mstatus 20 = true ∧ bitOf t.csr.mstatus 21 = true ∧
    bitOf t.csr.mstatus 22 = true ∧ mMode.priv = .machine ∧ mMode.capstoneEn = false ∧ cMode.inCMode = true ∧
    LevelBits mMode.csr.mstatus 11 .user := by decide

/-- O39, O40: `ctvec` and `cepc` of both kinds, and `pc` of both kinds; the levels MRET returns to. -/
theorem witness_trap_registers :
    let c := aCap .nonLinear 0x1010 0x1000 0x1fff 5
    let s := withCepc (.int 0x1234) (withCtvec (.int 0x1f00) cMode)
    s.inCMode = true ∧ s.pc = .cap c ∧ LevelBits s.csr.mstatus 11 .user ∧
    LevelBits (withCsr (fun c => { c with mstatus := 0xa00001800 }) s).csr.mstatus 11 .machine ∧
    s.ccsr.ctvec = .int 0x1f00 ∧ s.ccsr.cepc = .int 0x1234 ∧ cMode.ccsr.ctvec = .cap cnull ∧
    cMode.ccsr.cepc = .cap cnull ∧ c.type = .nonLinear ∧ (withCtvec (.int 0) mMode).ccsr.ctvec = .int 0 ∧
    mMode.pc = .int 0x1010 := by decide

/-- O42: an exception that is delegated and one that is not; legal CSRs. -/
theorem witness_delegation :
    let s := withCsr (fun c => { c with medeleg := 0x100 }) { mMode with priv := .user }
    s.priv ≠ .machine ∧ bitOf s.csr.medeleg Exc.ecallU.code.toNat = true ∧
    bitOf s.csr.medeleg Exc.illegal.code.toNat = false ∧ mMode.priv = .machine ∧ mMode.capstoneEn = false ∧
    cMode.capstoneEn = true ∧ s.CsrsLegal ∧ 24 ≤ Exc.resources.code.toNat := by decide

/-- O43: a C-mode instruction outside C-mode. -/
theorem witness_c_mode_only : cModeOnly (.movc 6 5 0) = true ∧ mMode.inCMode = false := by decide

/-- O44: an implementation with finite resources; MPP = 2; a misaligned region in `x[5]`, `x[1]` and `cih`; the levels below 3. -/
theorem witness_stops :
    let c := { sealedCap with base := 0x4008 }
    let s := withCih (.cap c) (withCsr (fun r => { r with cis := 0x80 }) cMode)
    let low := { mMode with priv := .user }
    mayExhaust (.mrev 6 5 0) = true ∧ mayExhaust (.ld 6 5 0) = true ∧ mayExhaust (.movc 6 5 0) = false ∧
    { cMode with plat := { Platform.default with finiteResources := true } }.plat.finiteResources = true ∧
    mMode.priv = .machine ∧ bitOf 0xa00001000 11 = false ∧ bitOf 0xa00001000 12 = true ∧ CReady (holding c) ∧ c.valid = true ∧
    c.base.toNat % 16 ≠ 0 ∧ (holding c).capValue 5 = .cap c ∧ c.type = .sealed ∧ c.async = false ∧
    (holding c).capOf? 5 = some c ∧ (holding c).intOf? 6 = some 0 ∧ (holding c).ccsr.cih.vacant = true ∧
    CReady s ∧ s.inputs = [] ∧ bitOf s.csr.cis Irq.machineTimer.bit = true ∧
    bitOf s.csr.cid Irq.machineTimer.bit = false ∧ s.ccsr.cih = .cap c ∧ low.priv ≠ .machine ∧
    low.capstoneEn = false ∧ { low with capstoneEn := true }.capstoneEn = true ∧
    (withCsr (fun r => { r with satp := 0x8000000000000000 }) low).csr.satp.extractLsb' 60 4 ≠ 0 := by decide

/-- Which line of the fetch checks of O45 a capability `pc` reaches: 1, 2, 3 for the exceptions, 4 when there is none. -/
def fetchLine (s : State) (c : Cap) : Nat :=
  if c.Barred then 1 else if c.cursor.toNat % 4 ≠ 0 then 2 else if ¬ CodeAt s c.cursor then 3 else 4

/-- O45: a quiet state, an integer `pc`, and each line, at the last word of the region and past it. -/
theorem witness_fetch_lines :
    let c := aCap .nonLinear 0x1ffc 0x1000 0x1fff 5
    (cMode.setPc (.int 0x1010)).pc = .int 0x1010 ∧ cMode.inCMode = true ∧ fetchLine cMode c = 4 ∧
    fetchLine cMode { c with cursor := 0x1ffd } = 1 ∧ fetchLine cMode { c with valid := false } = 1 ∧
    fetchLine cMode { c with type := .sealed } = 1 ∧ fetchLine cMode { c with perms := 6 } = 1 ∧
    fetchLine cMode { c with cursor := 0x1ff9 } = 2 ∧ fetchLine (withWord 0x1ff8 0 cMode) c = 3 ∧
    fetchLine (withHole 0x1fff cMode) c = 3 := by decide

/-- O45: outside C-mode, the addresses and bytes of each line: misaligned by one, a last byte that is not memory, bytes the run has stored, and none of these; both kinds of `pc`. -/
theorem witness_fetch_lines_outside :
    mMode.inCMode = false ∧ mMode.pc = .int 0x1010 ∧ (mMode.setPc (.cap data)).pc = .cap data ∧
    (0x1011 : Word).toNat % 4 ≠ 0 ∧ (0x1010 : Word).toNat % 4 = 0 ∧ CodeAt mMode 0x1010 ∧
    ¬ CodeAt (withHole 0x1013 mMode) 0x1010 ∧ ¬ CodeAt (withWord 0x1010 0 mMode) 0x1010 := by decide

/-- Log 15: a misaligned integer `pc` outside C-mode raises Instruction address misaligned (0) with its address. -/
theorem test_fetch_misaligned_outside :
    (match step (mMode.setPc (.int 0x1012)) with
      | .next t => decide (t.csr.mcause = 0 ∧ t.csr.mtval = 0x1012)
      | _ => false) = true := by decide

/-- O45, O46, O51: nothing comes before the instruction, in C-mode, M-mode, S-mode and U-mode. -/
theorem witness_quiet : Quiet cMode ∧ Quiet mMode ∧ Quiet { mMode with priv := .supervisor } ∧
    Quiet { mMode with priv := .user } := by
  simp only [Quiet, ← refusal_none, ← pendingEvent_none]
  decide

/-- O45, O46: nothing comes before the instruction with an event in the schedule either, which the boundary applies. -/
theorem witness_boundary :
    let s := { cMode with inputs := [[.set .machineTimer]] }
    Quiet s ∧ bitOf (boundary s).csr.cis 7 = true := by
  simp only [Quiet, ← pendingEvent_none]
  decide

/-- O46: bytes at `pc` that decode, in C-mode and in M-mode, and bytes that do not. -/
theorem witness_fetch :
    let s := (withCsr id cMode).withFetchWord 32 0x00128293
    FetchesFrom (boundary s) 0x1010 ∧ decode (fourBytes (boundary s) 0x1010) = .ok (.addi 5 5 1, []) ∧
    FetchesFrom (boundary mMode) 0x1010 ∧ decode (fourBytes (boundary mMode) 0x1010) = .error .compressed := by
  refine ⟨⟨by decide, by decide, .inr ⟨rfl, _, rfl, by decide⟩⟩, by decide, ?_, by decide⟩
  exact ⟨by decide, by decide, .inl ⟨rfl, rfl⟩⟩

/-- O47, O48: a well-formed instruction, and a word that decodes. -/
theorem witness_encodings : (Instr.beq 5 6 16).wellFormed = true ∧
    decode (bytesOfWord 0x00628863) = .ok (.beq 5 6 16, []) := by decide

/-- O50: a schedule with no event and one with two; the routes of an event: CAPSTONE_EN clear, a delegated line, a line that is not. -/
theorem witness_event_routes : cMode.inputs = [] ∧
    { cMode with inputs := [[.set .machineTimer, .clear .machineTimer], []] }.inputs =
      [.set .machineTimer, .clear .machineTimer] :: [[]] ∧ mMode.capstoneEn = false ∧ cMode.capstoneEn = true ∧
    bitOf (withCsr (fun c => { c with cid := 0x80 }) cMode).csr.cid Irq.machineTimer.bit = true ∧
    bitOf cMode.csr.cid Irq.machineTimer.bit = false := by decide

/-- The line a register of pending bits gives, lines 11 and 3 clear and 7 set, is the timer's. -/
theorem highest_timer {P : Irq → Prop} (h : P .machineTimer) (h11 : ¬ P .machineExternal) (h3 : ¬ P .machineSoftware) :
    Highest P .machineTimer :=
  ⟨h, [.machineExternal, .machineSoftware], _, rfl, by simp [h11, h3]⟩

/-- O51: a timer interrupt that is taken in M-mode and in C-mode; one that MIE holds back; a delegated one from U-mode. -/
theorem witness_v_interrupts :
    let on (s : State) : State := withCsr (fun c => { c with mip := 0x80, mie := 0x80, mstatus := 0xa00000008 }) s
    let low := withCsr (fun c => { c with mip := 0x20, mie := 0x20, mideleg := 0x20 }) { mMode with priv := .user }
    (∀ s ∈ [on mMode, on cMode], Modelled s ∧ s.inputs = [] ∧ hDeliverable s = none ∧
      bitOf s.csr.mip 7 = true ∧ bitOf s.csr.mie 7 = true ∧ bitOf s.csr.mideleg 7 = false ∧
      bitOf s.csr.mip 11 = false ∧ bitOf s.csr.mip 3 = false ∧ bitOf s.csr.mstatus 3 = true) ∧
    (Modelled low ∧ low.inputs = [] ∧ hDeliverable low = none ∧ low.priv = .user ∧ bitOf low.csr.mip 5 = true ∧
      bitOf low.csr.mie 5 = true ∧ bitOf low.csr.mideleg 5 = true ∧
      ∀ i : Irq, i = .supervisorTimer ∨ bitOf low.csr.mip i.bit = false) ∧
    bitOf mMode.csr.mstatus 3 = false ∧ mMode.priv = .machine := by
  refine ⟨by decide, ⟨by decide, by decide, by decide, by decide, by decide, by decide, by decide, ?_⟩, by decide, by decide⟩
  intro i
  cases i <;> decide

/-- O51: the premises about the highest line, for the states above. -/
theorem witness_highest_lines :
    let s := withCsr (fun c => { c with mip := 0x80, mie := 0x80 }) mMode
    let low := withCsr (fun c => { c with mip := 0x20, mie := 0x20, mideleg := 0x20 }) { mMode with priv := .user }
    Highest (TopReady s) .machineTimer ∧ (∀ i : Irq, ¬ TopReady low i) ∧ Highest (LowReady low) .supervisorTimer := by
  refine ⟨highest_timer (by decide) (by decide) (by decide), ?_, by decide, [_, _, _, _, _], [], rfl, by decide⟩
  intro i
  cases i <;> decide

/-- O51: an H-interrupt is ignored with CAPSTONE_EN = 0, with the pending line delegated, and with `cih` an integer, invalid, of another type, or asynchronous; and it is not with `cih` a handler. -/
theorem witness_h_ignored :
    let handler : Value := .cap sealedCap
    let pending (v : Value) : State := withCih v (withCsr (fun c => { c with cis := 0x80 }) cMode)
    (¬ HQualifies (withCih handler (withCsr (fun c => { c with cis := 0x80 }) mMode)) ∧
      ¬ HQualifies (withCih handler (withCsr (fun c => { c with cis := 0x80, cid := 0x80 }) cMode)) ∧
      ∀ v ∈ [.int 5, .cap { sealedCap with valid := false }, .cap returnCap, .cap { sealedCap with async := true }],
        ¬ HQualifies (pending v)) ∧
    HQualifies (pending handler) := by
  simp only [← hDeliverable_none]
  exact ⟨by decide, rfl, ⟨.machineTimer, by decide⟩, _, rfl, by decide⟩

/-- O51: in S-mode with SIE clear a delegated line that is ready is not taken, and with SIE set it is; in C-mode with MIE clear an undelegated one is not. -/
theorem witness_nothing_taken :
    let low := withCsr (fun c => { c with mip := 0x20, mie := 0x20, mideleg := 0x20 }) { mMode with priv := .supervisor }
    let on := withCsr (fun c => { c with mstatus := 0xa00000002 }) low
    (NothingTaken low ∧ ¬ NothingTaken on ∧ NothingTaken (withCsr (fun c => { c with mip := 0x80, mie := 0x80 }) cMode)) ∧
    on.priv = .supervisor ∧ bitOf on.csr.mstatus 1 = true ∧ LowReady on .supervisorTimer := by
  simp only [← pendingEvent_none]
  decide

/-- O51, O52: an event at the boundary makes the timer ready, and a handler domain deliverable. -/
theorem witness_event_interrupts :
    let s : State := { withCsr (fun c => { c with mie := 0x80, mstatus := 0xa00000008 }) mMode with
      inputs := [[.set .machineTimer]] }
    let h : State := { withCih (.cap sealedCap) cMode with inputs := [[.set .machineTimer]] }
    Modelled s ∧ ¬ HQualifies (boundary s) ∧ Highest (TopReady (boundary s)) .machineTimer ∧
    bitOf (boundary s).csr.mstatus 3 = true ∧ HQualifies (boundary h) := by
  simp only [← hDeliverable_none]
  exact ⟨.inl rfl, by decide, highest_timer (by decide) (by decide) (by decide), by decide,
    rfl, ⟨.machineTimer, by decide⟩, _, rfl, by decide⟩

/-- O52: an H-interrupt that is delivered, and a region whose last byte is not memory. -/
theorem witness_h_interrupt :
    let s := withCih (.cap sealedCap) (withCsr (fun c => { c with cis := 0x80 }) inCaller)
    s.inCMode = true ∧ s.inputs = [] ∧
    Highest (fun i => bitOf s.csr.cis i.bit = true ∧ bitOf s.csr.cid i.bit = false) .machineTimer ∧
    s.ccsr.cih = .cap sealedCap ∧ sealedCap.valid = true ∧ sealedCap.type = .sealed ∧ sealedCap.async = false ∧
    sealedCap.base.toNat % 16 = 0 ∧ AllMem s sealedCap.base 944 ∧ s.MemWf ∧
    ¬ AllMem (withHole 0x43af s) sealedCap.base 944 := by
  refine ⟨rfl, rfl, highest_timer (by decide) (by decide) (by decide), rfl, rfl, rfl, rfl, by decide, ?_, ?_, ?_⟩
  · decide +kernel
  · decide +kernel
  · decide +kernel

/-- A C-mode state with a capability in memory, a linear one in `x[5]`, and an instruction at `pc`. -/
def running : State := (withSlot 0x2010 (.cap data) (holding region)).withFetchWord 32 0x00128293

/-- O53, O54, O57, O58: the invariants of a state that steps, with CAPSTONE_EN = 1. -/
theorem witness_running : running.MemWf ∧ running.StatusLegal ∧ running.CsrsLegal ∧ running.capstoneEn = true ∧
    running.NoValidCapabilityYet ∧ isNext (step running) = true := by
  refine ⟨by decide, by decide, by decide, rfl, ?_, by decide⟩
  intro h
  cases h

/-- O55: a state before CAPENTER that steps. -/
theorem witness_before_capenter : (mMode.withFetchWord 32 0x00128293).NoValidCapabilityYet ∧
    isNext (step (mMode.withFetchWord 32 0x00128293)) = true := by
  refine ⟨fun _ => by decide +kernel, by decide⟩

/-- O57: a valid capability after the step; O58: a base instruction that completes. -/
theorem witness_valid_capability : region ∈ running.allCaps ∧ region.valid = true ∧
    isCapstone (.addi 7 6 1) = false ∧ isNext (exec (.addi 7 6 1) running) = true := by decide +kernel

/-- O59: handlers that cannot be executed (`cnull`, as reset leaves it; a data capability; a sealed one; a cursor past the bounds, one misaligned, one over a stored word), entered by a trap from C-mode, and the livelocked state it leaves, with no event and no interrupt to come. -/
theorem witness_unusable_handler :
    let c := aCap .nonLinear 0x1010 0x1000 0x1fff 5
    let s := withCtvec (.int 0) (cMode.setPc (.cap cnull))
    (∀ d ∈ [cnull, data, sealedCap, { c with cursor := 0x1ffd }, { c with cursor := 0x1012 }],
      CannotExecute cMode d ∧ (withCtvec (.cap d) cMode).ccsr.ctvec = .cap d) ∧
    ¬ CannotExecute cMode c ∧ CannotExecute (withWord 0x1010 0 cMode) c ∧
    (cMode.pc = .cap c ∧ (withCtvec (.int 0x2000) cMode).ccsr.ctvec = .int 0x2000 ∧
      CannotExecute cMode { c with cursor := 0x2000 }) ∧
    s.inCMode = true ∧ s.inputs = [] ∧ Livelocked s ∧ NothingTaken s := by
  simp only [← pendingEvent_none]
  exact ⟨by decide, by decide, by decide, by decide,
    rfl, rfl, ⟨.inr ⟨0, cnull, rfl, rfl, by decide⟩, cnull, rfl, by decide⟩, by decide⟩

/-- R361: an `ecall` just after CAPENTER, with `ctvec` as reset leaves it, makes the next two steps raise Instruction access fault (1) (vector H12 of 95_test_vectors.md). -/
theorem test_livelock_after_ecall :
    (match Host.Core.run core 2 ((withCtvec (.cap cnull) cMode).withFetchWord 32 0x00000073) with
      | .next t => decide (t.csr.mcause = 1 ∧ t.ccsr.ctvec = .int 0 ∧ t.pc = .cap cnull)
      | _ => false) = true := by decide

/-- The valid capabilities of `running` and where they are. -/
theorem running_capAt {p : Place} {c : Cap} (h : running.capAt p = some c) (hv : c.valid = true) :
    (p = .reg 5 ∧ c = region) ∨ c = data ∨ c = aCap .nonLinear 0x1010 0x1000 0x1fff 5 := by
  cases p with
  | reg r =>
    have key : ∀ r : Reg, r = 5 ∨ (running.capOf? r).all (fun c => !c.valid) = true := by decide +kernel
    rcases key r with rfl | hr
    · exact .inl ⟨rfl, (Option.some.inj h).symm⟩
    · rw [show running.capOf? r = some c from h] at hr
      simp [hv] at hr
  | cpmp k =>
    have key : ∀ k : Fin 16, running.ccsr.cpmp[k] = .cap cnull := by decide +kernel
    simp only [State.capAt, key k, Value.cap?, Option.some.injEq] at h
    subst h
    cases hv
  | slot a =>
    have key : running.mem.caps = [(0x2010, data)] := by decide
    simp only [State.capAt, Memory.slotCap, key, tableGet] at h
    split at h
    · split at h
      · exact .inr (.inl (Option.some.inj h).symm)
      · simp at h
    · cases h
  | pc => exact .inr (.inr (Option.some.inj h).symm)
  | ctvec | cih | cepc | cscratch =>
    obtain rfl := Option.some.inj h
    cases hv

/-- O60: a state with a linear capability, and others, that steps. -/
theorem witness_linear_exclusive : running.LinearExclusive ∧ running.MemWf ∧ running.NoValidCapabilityYet ∧
    isNext (step running) = true := by
  refine ⟨?_, witness_running.1, witness_running.2.2.2.2⟩
  intro p q c d hpq hp hq hcv hdv _ _ ha
  rcases running_capAt hp hcv with ⟨rfl, rfl⟩ | rfl | rfl <;> rcases running_capAt hq hdv with ⟨rfl, rfl⟩ | rfl | rfl <;>
    first
    | exact absurd rfl hpq
    | exact ⟨rfl, rfl⟩
    | exact absurd ha (by decide)

end Sys2Proof.Tests
end

namespace Sys2Proof.Machine

/-! ### Reading a register in each operand form (R12, R32, R39) -/

@[simp] theorem Value.ival_int (n : Word) : (Value.int n).ival = n := rfl

@[simp] theorem Value.ival_cap (c : Cap) : (Value.cap c).ival = if c.type = .sealed then c.base else c.cursor := rfl

@[simp] theorem Value.vacant_int (n : Word) : (Value.int n).vacant = true := rfl

@[simp] theorem Value.vacant_cap (c : Cap) : (Value.cap c).vacant = !c.valid := rfl

/-! Register 0 is the one register that is both kinds of operand (R32). -/

@[simp] theorem State.intOf?_zero (s : State) : s.intOf? 0#5 = some 0 := rfl

@[simp] theorem State.capOf?_zero (s : State) : s.capOf? 0#5 = some cnull := rfl

@[simp] theorem State.ival_zero (s : State) : s.ival 0#5 = 0 := rfl

/-- Register 0 excepted, a register that holds a capability is no integer operand (R160 item 6). -/
theorem State.intOf?_of_capValue_cap {s : State} {r : Reg} {c : Cap} (hr : r ≠ 0) (h : s.capValue r = .cap c) :
    s.intOf? r = none := by
  have hint : s.intValue r = .cap c := (s.intValue_eq_capValue hr).trans h
  simp only [State.intOf?, hint]

/-- Register 0 excepted, a base instruction reads the integer seen in what the register holds (R12). -/
theorem State.ival_of_capValue {s : State} {r : Reg} {v : Value} (hr : r ≠ 0) (h : s.capValue r = v) :
    s.ival r = v.ival := by
  rw [State.ival, s.intValue_eq_capValue hr, h]

/-- Settles O2: register 0 by its own equations, every other register through what it holds. -/
theorem registerReadsAndWrites : Obligations.RegisterReadsAndWrites := by
  refine ⟨?register0, ?holdsCnull, ?writes, ?ival, Value.vacant_int, ?vacant⟩
  case register0 =>
    intro s v
    exact ⟨s.setReg_zero v, s.capOf?_zero, s.intOf?_zero, s.ival_zero⟩
  case holdsCnull =>
    intro s r hr h
    exact ⟨State.intOf?_of_capValue_cap hr h, State.capOf?_of_capValue h⟩
  case writes =>
    intro s r q v
    exact ⟨s.setReg_putReg r v q, s.setReg_intValue r q v⟩
  case ival =>
    intro s r hr
    exact ⟨fun _ h => State.ival_of_capValue hr h, fun _ h => State.ival_of_capValue hr h⟩
  case vacant =>
    intro c
    rw [Value.vacant_cap, Bool.not_eq_true']

end Sys2Proof.Machine

namespace Sys2Proof

open Decode Encode

/-! ### Decoding what was encoded -/

/-- The decoder answers an instruction for the bytes of a word when its tables do. -/
theorem decode_bytesOfWord_eq_ok {w : BitVec 32} {i : Instr} :
    decode (bytesOfWord w) = .ok (i, []) ↔ word w = .ok i := by
  rw [decode_bytesOfWord]
  cases word w <;> simp [Except.map]

/-- A SYSTEM word with `sfence.vma`'s fields is none of the operand-free words, whose `funct7` differs (R336). -/
theorem systemPlain_sfenceVma {w : BitVec 32} (h7 : funct7 w = 9) (hd : rd w = 0) :
    systemPlain w = .ok (.sfenceVma (rs1 w) (rs2 w)) := by
  have hne (v : BitVec 32) (hv : funct7 v ≠ 9) : w ≠ v := fun hw => hv (hw ▸ h7)
  rw [systemPlain, if_neg (hne _ (by decide)), if_neg (hne _ (by decide)), if_neg (hne _ (by decide)),
    if_neg (hne _ (by decide)), if_neg (hne _ (by decide)), if_pos ⟨h7, hd⟩]

/-- The decoder's tables invert the encoder's, opcode by opcode: every field is read back from where its format
puts it, and the offsets of branches and jumps too because their bit 0 is clear (R281). -/
theorem word_encode {i : Instr} (h : i.wellFormed = true) : word (encode i) = .ok i := by
  match i, h with
  | .revoke .., _ | .shrink .., _ | .tighten .., _ | .delin .., _ | .lcc .., _ | .scc .., _ | .split .., _
  | .seal .., _ | .mrev .., _ | .init .., _ | .movc .., _ | .drop .., _ | .cincoffset .., _ | .capenter .., _
  | .call .., _ | .ret .., _ => simp [encode, word, custom2, capGroup]
  | .shrinkto .., _ | .cincoffsetimm .., _ | .ldc .., _ | .stc .., _ | .cjalr .., _ | .cbnz .., _
  | .ccsrrw .., _ => simp [encode, word, custom2]
  | .lui .., _ | .auipc .., _ => simp [encode, word]
  | .jal _ _, h => simp [encode, word, immJ_jType _ _ _ h]
  | .jalr .., _ => simp [encode, word, jumpReg]
  | .beq _ _ _, h | .bne _ _ _, h | .blt _ _ _, h | .bge _ _ _, h | .bltu _ _ _, h | .bgeu _ _ _, h =>
    simp [encode, word, branch, immB_bType _ _ _ _ _ h]
  | .lb .., _ | .lh .., _ | .lw .., _ | .ld .., _ | .lbu .., _ | .lhu .., _ | .lwu .., _ =>
    simp [encode, word, load]
  | .sb .., _ | .sh .., _ | .sw .., _ | .sd .., _ => simp [encode, word, store]
  | .addi .., _ | .slti .., _ | .sltiu .., _ | .xori .., _ | .ori .., _ | .andi .., _ | .slli .., _
  | .srli .., _ | .srai .., _ => simp [encode, word, opImm]
  | .add .., _ | .sll .., _ | .slt .., _ | .sltu .., _ | .xor .., _ | .srl .., _ | .or .., _ | .and .., _ =>
    simp [encode, word, op, opPlain]
  | .sub .., _ | .sra .., _ => simp [encode, word, op, opAlt]
  | .addiw .., _ | .slliw .., _ | .srliw .., _ | .sraiw .., _ => simp [encode, word, opImm32]
  | .addw .., _ | .subw .., _ | .sllw .., _ | .srlw .., _ | .sraw .., _ => simp [encode, word, op32]
  | .fence .., _ => simp [encode, word, miscMem, fence_fields]
  | .ecall, _ | .ebreak, _ | .sret, _ | .mret, _ | .wfi, _ => rfl
  | .sfenceVma .., _ => simp [encode, word, system, systemPlain_sfenceVma]
  | .csrrw .., _ | .csrrs .., _ | .csrrc .., _ | .csrrwi .., _ | .csrrsi .., _ | .csrrci .., _ =>
    simp [encode, word, system]

/-- Settles O47: the word of an instruction survives its bytes, and its fields are read back. -/
theorem decodeOfEncode : Obligations.DecodeOfEncode := fun _ h => decode_bytesOfWord_eq_ok.mpr (word_encode h)

/-! ### A word is made of its fields

The converse of the lemmas on `opcode_rType`, `rd_rType` and the others: a format written from the fields a
word reads is that word. -/

theorem rType_fields {w : BitVec 32} {f7 : BitVec 7} {f3 : BitVec 3} {o : BitVec 7} (h7 : funct7 w = f7)
    (h3 : funct3 w = f3) (ho : opcode w = o) : rType f7 (rs2 w) (rs1 w) f3 (rd w) o = w := by
  subst h7 h3 ho
  ext i hi
  simp only [← BitVec.getLsbD_eq_getElem, rType_getLsbD, funct7, rs2, rs1, funct3, rd, opcode, BitVec.getLsbD_append,
    BitVec.getLsbD_extractLsb']
  grind

theorem iType_fields {w : BitVec 32} {f3 : BitVec 3} {o : BitVec 7} (h3 : funct3 w = f3) (ho : opcode w = o) :
    iType (immI w) (rs1 w) f3 (rd w) o = w := by
  subst h3 ho
  ext i hi
  simp only [← BitVec.getLsbD_eq_getElem, iType_getLsbD, immI, rs1, funct3, rd, opcode, BitVec.getLsbD_append,
    BitVec.getLsbD_extractLsb']
  grind

theorem sType_fields {w : BitVec 32} {f3 : BitVec 3} {o : BitVec 7} (h3 : funct3 w = f3) (ho : opcode w = o) :
    sType (immS w) (rs2 w) (rs1 w) f3 o = w := by
  subst h3 ho
  ext i hi
  simp only [← BitVec.getLsbD_eq_getElem, sType_getLsbD, immS, rs2, rs1, funct3, opcode, BitVec.getLsbD_append,
    BitVec.getLsbD_extractLsb']
  grind

theorem bType_fields {w : BitVec 32} {f3 : BitVec 3} {o : BitVec 7} (h3 : funct3 w = f3) (ho : opcode w = o) :
    bType (immB w) (rs2 w) (rs1 w) f3 o = w := by
  subst h3 ho
  ext i hi
  simp only [← BitVec.getLsbD_eq_getElem, bType_getLsbD, immB, rs2, rs1, funct3, opcode, BitVec.getLsbD_append,
    BitVec.getLsbD_extractLsb']
  grind

theorem uType_fields {w : BitVec 32} {o : BitVec 7} (ho : opcode w = o) : uType (immU w) (rd w) o = w := by
  subst ho
  ext i hi
  simp only [← BitVec.getLsbD_eq_getElem, uType_getLsbD, immU, rd, opcode, BitVec.getLsbD_append,
    BitVec.getLsbD_extractLsb']
  grind

theorem jType_fields {w : BitVec 32} {o : BitVec 7} (ho : opcode w = o) : jType (immJ w) (rd w) o = w := by
  subst ho
  ext i hi
  simp only [← BitVec.getLsbD_eq_getElem, jType_getLsbD, immJ, rd, opcode, BitVec.getLsbD_append,
    BitVec.getLsbD_extractLsb']
  grind

theorem shiftType_fields {w : BitVec 32} {f6 : BitVec 6} {f3 : BitVec 3} (h6 : funct6 w = f6) (h3 : funct3 w = f3)
    (ho : opcode w = 0x13) : shiftType f6 (shamt6 w) (rs1 w) f3 (rd w) = w := by
  subst h6 h3
  have hop : 0x13#7 = w.extractLsb' 0 7 := ho.symm
  rw [shiftType, hop]
  ext i hi
  simp only [← BitVec.getLsbD_eq_getElem, funct6, shamt6, rs1, funct3, rd, BitVec.getLsbD_append,
    BitVec.getLsbD_extractLsb']
  grind

/-- The three FENCE fields are the I-type immediate (R326). -/
theorem fence_imm_fields (w : BitVec 32) : fenceMode w ++ fencePred w ++ fenceSucc w = immI w := by
  ext i hi
  simp only [← BitVec.getLsbD_eq_getElem, fenceMode, fencePred, fenceSucc, immI, BitVec.getLsbD_append,
    BitVec.getLsbD_extractLsb']
  grind

/-- A B-type offset that is read from a word is a multiple of 2 (R281). -/
theorem branchOffsetOk_immB (w : BitVec 32) : branchOffsetOk (immB w) = true := by
  rw [branchOffsetOk, immB, BitVec.getLsbD_append]; rfl

/-- A J-type offset that is read from a word is a multiple of 2 (R281). -/
theorem jumpOffsetOk_immJ (w : BitVec 32) : jumpOffsetOk (immJ w) = true := by
  rw [jumpOffsetOk, immJ, BitVec.getLsbD_append]; rfl

/-! ### Encoding what was decoded -/

/-- If the decoder answers an instruction for `w`, it is well-formed and its word is `w`. -/
def Faithful (w : BitVec 32) (r : Except DecodeError Instr) : Prop :=
  ∀ i, r = .ok i → i.wellFormed = true ∧ encode i = w

theorem Faithful.ok {w : BitVec 32} {i : Instr} (hi : i.wellFormed = true) (hw : encode i = w) :
    Faithful w (.ok i) := by
  rintro _ ⟨⟩
  exact ⟨hi, hw⟩

theorem Faithful.error (w : BitVec 32) (e : DecodeError) : Faithful w (.error e) := fun _ h => nomatch h

/-- The last row of a table by `funct3` that lists the seven values below it. -/
theorem funct3_eq_seven : ∀ f : BitVec 3, (f = 0 → False) → (f = 1 → False) → (f = 2 → False) →
    (f = 3 → False) → (f = 4 → False) → (f = 5 → False) → (f = 6 → False) → f = 7 := by decide

/-! In each table below a row answers with the fields of `w` itself, so its format written from them is `w`, by
the format's `_fields` lemma from the values of `funct3` and `funct7` that select the row. -/

theorem capGroup_faithful {w : BitVec 32} (ho : opcode w = 0x5b) (h3 : funct3 w = 1) : Faithful w (capGroup w) := by
  unfold capGroup
  split
  case h_17 => exact .error w _
  all_goals exact .ok rfl (rType_fields ‹_› h3 ho)

theorem custom2_faithful {w : BitVec 32} (ho : opcode w = 0x5b) : Faithful w (custom2 w) := by
  unfold custom2
  split
  case h_2 h3 => exact capGroup_faithful ho h3
  case h_5 h3 => exact .ok rfl (sType_fields h3 ho)
  case h_8 h0 h1 h2 h3 h4 h5 h6 => exact .ok rfl (iType_fields (funct3_eq_seven _ h0 h1 h2 h3 h4 h5 h6) ho)
  all_goals exact .ok rfl (iType_fields ‹_› ho)

theorem branch_faithful {w : BitVec 32} (ho : opcode w = 0x63) : Faithful w (branch w) := by
  unfold branch
  split
  case h_7 => exact .error w _
  all_goals exact .ok (branchOffsetOk_immB w) (bType_fields ‹_› ho)

theorem load_faithful {w : BitVec 32} (ho : opcode w = 0x03) : Faithful w (load w) := by
  unfold load
  split
  case h_8 => exact .error w _
  all_goals exact .ok rfl (iType_fields ‹_› ho)

theorem store_faithful {w : BitVec 32} (ho : opcode w = 0x23) : Faithful w (store w) := by
  unfold store
  split
  case h_5 => exact .error w _
  all_goals exact .ok rfl (sType_fields ‹_› ho)

theorem opImm_faithful {w : BitVec 32} (ho : opcode w = 0x13) : Faithful w (opImm w) := by
  unfold opImm
  split
  case h_2 h3 =>
    split
    · exact .ok rfl (shiftType_fields ‹_› h3 ho)
    · exact .error w _
  case h_6 h3 =>
    split
    · exact .ok rfl (shiftType_fields ‹_› h3 ho)
    · exact .ok rfl (shiftType_fields ‹_› h3 ho)
    · exact .error w _
  case h_8 h0 h1 h2 h3 h4 h5 h6 => exact .ok rfl (iType_fields (funct3_eq_seven _ h0 h1 h2 h3 h4 h5 h6) ho)
  all_goals exact .ok rfl (iType_fields ‹_› ho)

theorem opPlain_faithful {w : BitVec 32} (ho : opcode w = 0x33) (h7 : funct7 w = 0) : Faithful w (opPlain w) := by
  unfold opPlain
  split
  case h_8 h0 h1 h2 h3 h4 h5 h6 => exact .ok rfl (rType_fields h7 (funct3_eq_seven _ h0 h1 h2 h3 h4 h5 h6) ho)
  all_goals exact .ok rfl (rType_fields h7 ‹_› ho)

theorem opAlt_faithful {w : BitVec 32} (ho : opcode w = 0x33) (h7 : funct7 w = 32) : Faithful w (opAlt w) := by
  unfold opAlt
  split
  case h_3 => exact .error w _
  all_goals exact .ok rfl (rType_fields h7 ‹_› ho)

theorem op_faithful {w : BitVec 32} (ho : opcode w = 0x33) : Faithful w (op w) := by
  unfold op
  split
  · exact opPlain_faithful ho ‹_›
  · exact opAlt_faithful ho ‹_›
  · exact .error w _

theorem opImm32_faithful {w : BitVec 32} (ho : opcode w = 0x1b) : Faithful w (opImm32 w) := by
  unfold opImm32
  split
  case h_1 h3 => exact .ok rfl (iType_fields h3 ho)
  case h_2 h3 =>
    split
    · exact .ok rfl (rType_fields ‹_› h3 ho)
    · exact .error w _
  case h_3 h3 =>
    split
    · exact .ok rfl (rType_fields ‹_› h3 ho)
    · exact .ok rfl (rType_fields ‹_› h3 ho)
    · exact .error w _
  case h_4 => exact .error w _

theorem op32_faithful {w : BitVec 32} (ho : opcode w = 0x3b) : Faithful w (op32 w) := by
  unfold op32
  split
  case h_1 h7 =>
    split
    case h_4 => exact .error w _
    all_goals exact .ok rfl (rType_fields h7 ‹_› ho)
  case h_2 h7 =>
    split
    case h_3 => exact .error w _
    all_goals exact .ok rfl (rType_fields h7 ‹_› ho)
  case h_3 => exact .error w _

theorem systemPlain_faithful {w : BitVec 32} (ho : opcode w = 0x73) (h3 : funct3 w = 0) :
    Faithful w (systemPlain w) := by
  unfold systemPlain
  split_ifs with hecall hebreak hsret hmret hwfi hsfence
  · exact .ok rfl hecall.symm
  · exact .ok rfl hebreak.symm
  · exact .ok rfl hsret.symm
  · exact .ok rfl hmret.symm
  · exact .ok rfl hwfi.symm
  · obtain ⟨h7, hd⟩ := hsfence
    have hw := rType_fields h7 h3 ho
    rw [hd] at hw
    exact .ok rfl hw
  · exact .error w _

theorem system_faithful {w : BitVec 32} (ho : opcode w = 0x73) : Faithful w (system w) := by
  unfold system
  split
  case h_1 h3 => exact systemPlain_faithful ho h3
  case h_8 => exact .error w _
  all_goals exact .ok rfl (iType_fields ‹_› ho)

theorem jumpReg_faithful {w : BitVec 32} (ho : opcode w = 0x67) : Faithful w (jumpReg w) := by
  unfold jumpReg
  split
  · exact .ok rfl (iType_fields ‹_› ho)
  · exact .error w _

theorem miscMem_faithful {w : BitVec 32} (ho : opcode w = 0x0f) : Faithful w (miscMem w) := by
  unfold miscMem
  split
  · exact .ok rfl (by rw [encode, fence_imm_fields]; exact iType_fields ‹_› ho)
  · exact .error w _

/-- The decoder drops no bit of a word, whatever its major opcode (R280). -/
theorem word_faithful (w : BitVec 32) : Faithful w (word w) := by
  unfold word
  split
  case h_1 ho => exact .ok rfl (uType_fields ho)
  case h_2 ho => exact .ok rfl (uType_fields ho)
  case h_3 ho => exact .ok (jumpOffsetOk_immJ w) (jType_fields ho)
  case h_4 ho => exact jumpReg_faithful ho
  case h_5 ho => exact branch_faithful ho
  case h_6 ho => exact load_faithful ho
  case h_7 ho => exact store_faithful ho
  case h_8 ho => exact opImm_faithful ho
  case h_9 ho => exact op_faithful ho
  case h_10 ho => exact opImm32_faithful ho
  case h_11 ho => exact op32_faithful ho
  case h_12 ho => exact miscMem_faithful ho
  case h_13 ho => exact system_faithful ho
  case h_14 ho => exact custom2_faithful ho
  case h_15 => split <;> exact .error w _

/-- Settles O48: no table of the decoder drops a bit. -/
theorem encodeOfDecode : Obligations.EncodeOfDecode := fun w i h => word_faithful w i (decode_bytesOfWord_eq_ok.mp h)

/-! ### Words written out -/

/-- A word written out decodes to an instruction when it is that instruction's word (O47). -/
theorem decode_of_encode_eq {w : BitVec 32} {i : Instr} (hi : i.wellFormed = true) (hw : encode i = w) :
    decode (bytesOfWord w) = .ok (i, []) := hw ▸ decodeOfEncode i hi

/-- Settles O49: each legal word is the encoder's word of its instruction; the illegal ones are evaluated. -/
theorem wordsOfTheSpecDecode : Obligations.WordsOfTheSpecDecode :=
  ⟨decode_of_encode_eq rfl rfl, decode_of_encode_eq rfl rfl, decode_of_encode_eq rfl rfl, decode_of_encode_eq rfl rfl,
    decode_of_encode_eq rfl rfl, decode_of_encode_eq rfl rfl, decode_of_encode_eq rfl rfl, decode_of_encode_eq rfl rfl,
    decode_of_encode_eq rfl rfl, rfl, rfl, rfl⟩

end Sys2Proof

namespace Sys2Proof.Machine

/-! ### The C-mode instructions by mode (R140) -/

/-- A C-mode instruction is its mode check, then the rest of its meaning (R140). -/
theorem exec_eq_cModeOp {i : Instr} (h : cModeOnly i = true) (s : State) :
    ∃ body, exec i s = cModeOp i s body := by
  match i, h with
  | .revoke .., _ | .shrink .., _ | .tighten .., _ | .delin .., _ | .lcc .., _ | .scc .., _ | .split .., _
  | .seal .., _ | .mrev .., _ | .init .., _ | .movc .., _ | .drop .., _ | .cincoffset .., _ | .call .., _
  | .ret .., _ | .shrinkto .., _ | .cincoffsetimm .., _ | .ldc .., _ | .stc .., _ | .cjalr .., _
  | .cbnz .., _ | .ccsrrw .., _ => exact ⟨_, rfl⟩

/-- Outside C-mode a C-mode instruction raises Illegal instruction, whatever its operands (R140). -/
theorem raises_illegal_of_cModeOnly {i : Instr} {s : State} (h : cModeOnly i = true) (hs : s.inCMode = false) :
    Raises i s .illegal := by
  obtain ⟨body, hexec⟩ := exec_eq_cModeOp h s
  rw [Raises, hexec]
  exact cModeOp_illegal body hs

/-- With `CAPSTONE_EN = 1` or below M-mode, CAPENTER raises Illegal instruction (R140, D13). -/
theorem raises_illegal_capenter {s : State} (rd rs1 rs2 : Reg) (h : s.capstoneEn = true ∨ s.priv ≠ .machine) :
    Raises (.capenter rd rs1 rs2) s .illegal := by
  show execCapenter rd rs1 rs2 s = _
  cases hen : s.capstoneEn with
  | true => simp [execCapenter, hen]
  | false =>
    have hpriv : s.priv ≠ .machine := by simpa [hen] using h
    simp [execCapenter, hen, hpriv]

/-- Settles O43: the mode check comes first in every C-mode instruction, and CAPENTER makes its own. -/
theorem capstoneInstructionsByMode : Obligations.CapstoneInstructionsByMode :=
  ⟨fun _ _ h hs => raises_illegal_of_cModeOnly h hs,
    fun _ rd rs1 rs2 h => raises_illegal_capenter rd rs1 rs2 h,
    rfl⟩

end Sys2Proof.Machine

namespace Sys2Proof.Machine

/-! ### The checks of an instruction, one after the other (R160 item 3) -/

section Checks

variable {i : Instr} {s : State}

/-- In this state the instruction is these checks and this effect: its answer is read off `body`, check by check. -/
def RunsAs (i : Instr) (s : State) (body : Except Stop State) : Prop := exec i s = finish i s body

/-- In C-mode, with no exception 30 to raise, an instruction is the list and effect of its own rule. -/
theorem RunsAs.of_capstoneOp {body : Except Stop State} (hs : CReady s) (h : exec i s = capstoneOp i s body) :
    RunsAs i s body := h.trans (capstoneOp_ready body hs)

theorem RunsAs.next {t : State} (h : RunsAs i s (.ok t)) : exec i s = .next t := h

theorem RunsAs.stuck {f : Fault} (h : RunsAs i s (.error (.stuck f))) : exec i s = .fault f := h

theorem RunsAs.cap {r : Reg} {c : Cap} {f : Cap → Except Stop State} (h : RunsAs i s (requireCap s r >>= f))
    (hc : s.capOf? r = some c) : RunsAs i s (f c) := by rwa [requireCap_some hc] at h

theorem RunsAs.raises_of_no_cap {r : Reg} {f : Cap → Except Stop State} (h : RunsAs i s (requireCap s r >>= f))
    (hc : s.capOf? r = none) : Raises i s .operandType := by rwa [requireCap_none hc] at h

theorem RunsAs.int {r : Reg} {v : Word} {f : Word → Except Stop State} (h : RunsAs i s (requireInt s r >>= f))
    (hv : s.intOf? r = some v) : RunsAs i s (f v) := by rwa [requireInt_some hv] at h

theorem RunsAs.raises_of_no_int {r : Reg} {f : Word → Except Stop State} (h : RunsAs i s (requireInt s r >>= f))
    (hv : s.intOf? r = none) : Raises i s .operandType := by rwa [requireInt_none hv] at h

theorem RunsAs.raises_of_no_cap_or_int {r q : Reg} {f : Cap → Word → Except Stop State}
    (h : RunsAs i s (requireCap s r >>= fun c => requireInt s q >>= f c))
    (hn : s.capOf? r = none ∨ s.intOf? q = none) : Raises i s .operandType := by
  cases hc : s.capOf? r with
  | none => exact h.raises_of_no_cap hc
  | some c => exact (h.cap hc).raises_of_no_int (hn.resolve_left (by simp [hc]))

theorem RunsAs.pass {b : Bool} {e : Exc} {a : Word} {f : Unit → Except Stop State}
    (h : RunsAs i s (require b e a >>= f)) (hb : b = true) : RunsAs i s (f ()) := by rwa [require_of hb] at h

theorem RunsAs.raises {b : Bool} {e : Exc} {a : Word} {f : Unit → Except Stop State}
    (h : RunsAs i s (require b e a >>= f)) (hb : ¬ b = true) : Raises i s e a := by
  rwa [require_of_not (Bool.eq_false_of_not_eq_true hb)] at h

/-- An instruction that rewrites the capability of `x[r]` in place and moves on. -/
theorem RunsAs.completes_in_place {r : Reg} {c : Cap} {f : Cap → Cap}
    (h : RunsAs i s (.ok (s.modifyCap r f).advance)) (hc : s.capOf? r = some c) :
    Completes i s (putReg s.capValue r (.cap (f c))) :=
  completes_of h.next (State.modifyCap_capValue f (State.capValue_of_capOf? hc)) (by simp)
    (OnlyRegs.modifyCap s r f)

/-- An instruction that moves a capability to `x[rd]`, rewrites it there and moves on. -/
theorem RunsAs.completes_moved {rd rs1 : Reg} {c : Cap} {f : Cap → Cap}
    (h : RunsAs i s (.ok ((s.movc rd rs1).modifyCap rd f).advance)) (hc : s.capOf? rs1 = some c) :
    Completes i s (moveReg s.capValue rd rs1 c (.cap (f c))) := completes_of_move f hc h.next

end Checks

/-! ### Capability manipulation: the words of the rules for the model's checks -/

theorem Cap.cursorSettable_iff (c : Cap) : c.cursorSettable = true ↔ c.type ≠ .uninitialised ∧ c.type ≠ .sealed :=
  decide_eq_true_iff

/-- Register 0 reads as `cnull`, so a register with a valid capability is another one (R11, R32). -/
theorem State.ne_zero_of_valid {s : State} {r : Reg} {c : Cap} (hc : s.capOf? r = some c) (hv : c.valid = true) :
    r ≠ 0 := by
  rintro rfl
  cases hc
  cases hv

/-- MOVC of an integer copies it (R161, D4). -/
theorem State.movc_int_capValue {s : State} {rd rs1 : Reg} {n : Word} (hne : rs1 ≠ rd)
    (h : s.capValue rs1 = .int n) (q : Reg) : (s.movc rd rs1).capValue q = putReg s.capValue rd (.int n) q := by
  have hm : s.movc rd rs1 = s.setReg rd (.int n) := by simp [State.movc, hne, h, Value.movesOut]
  rw [hm, s.setReg_putReg]

theorem State.movc_self (s : State) (r : Reg) : s.movc r r = s := if_pos rfl

/-- With bounds in order, bringing the cursor to `lo` never takes it past `hi` (R166). -/
theorem Cap.shrunk_eq (c : Cap) {lo hi : Word} (h : lo.toNat < hi.toNat) :
    c.shrunk lo hi = { c with
      base := lo, last := hi
      cursor := if c.cursor.toNat < lo.toNat then lo else if hi.toNat < c.cursor.toNat then hi else c.cursor } := by
  unfold Cap.shrunk
  by_cases hlo : c.cursor.toNat < lo.toNat
  · simp [hlo, Nat.not_lt_of_gt h]
  · simp [hlo]

/-- The end that SHRINKTO sets, over the integers (R167). -/
theorem shrinkto_last (a : Word) (imm : BitVec 12) :
    a + imm.setWidth 64 - 1 = BitVec.ofInt 64 (a.toNat + imm.toNat - 1) := by
  rw [Int.sub_eq_add_neg, BitVec.ofInt_add, BitVec.ofInt_add, BitVec.ofInt_neg, BitVec.ofInt_natCast,
    BitVec.ofInt_natCast, BitVec.ofNat_toNat, BitVec.ofNat_toNat, BitVec.setWidth_eq]
  exact BitVec.sub_eq_add_neg ..

/-- A TIGHTEN immediate of at most 7 is a set of permissions (R169). -/
theorem permLe_setWidth_iff {imm : BitVec 5} (h : imm.toNat ≤ 7) (p : BitVec 3) :
    permLe (imm.setWidth 3) p = true ↔ imm.toNat &&& p.toNat = imm.toNat := by
  rw [permLe, beq_iff_eq, BitVec.toNat_eq, BitVec.toNat_and, BitVec.toNat_setWidth, Nat.mod_eq_of_lt (by omega)]

theorem sealableSlot_iff (s : State) (a : Word) :
    sealableSlot s a = true ↔ AllMem s (a + 16) 16 ∧ s.mem.slotCap (a + 16) ≠ none := by
  rw [sealableSlot, Bool.and_eq_true, isMemRange_iff, Option.isSome_iff_ne_none]

/-! ### MOVC and the cursor (R161 to R164) -/

/-- In C-mode MOVC checks nothing: it is its move (R161). -/
theorem exec_movc {s : State} (rd rs1 rs2 : Reg) (hs : s.inCMode = true) :
    exec (.movc rd rs1 rs2) s = .next (s.movc rd rs1).advance := cModeOp_ready _ hs

/-- Settles O13: MOVC is its move, and the registers after a move are known for each kind of source. -/
theorem movcMovesOneCapability : Obligations.MovcMovesOneCapability := by
  intro s rd rs1 rs2 hs
  have hmoves {regs : Reg → Value} (hr : ∀ r, (s.movc rd rs1).capValue r = regs r) :
      Completes (.movc rd rs1 rs2) s regs :=
    completes_of (exec_movc rd rs1 rs2 hs) hr (by simp) (OnlyRegs.movc s rd rs1)
  refine ⟨rfl, ?inPlace, ?integer, ?capability⟩
  case inPlace =>
    rintro rfl
    exact hmoves fun r => by rw [s.movc_self]
  case integer =>
    intro n hne hn
    exact hmoves (State.movc_int_capValue hne hn)
  case capability =>
    intro c hne hc
    exact hmoves fun r => by rw [State.movc_capValue (State.capOf?_of_capValue hc), if_neg hne]

/-- Settles O14: each list is walked check by check, and the effect is a move with a new cursor. -/
theorem cursorInstructions : Obligations.CursorInstructions := by
  intro s rd rs1 rs2 imm hs
  have hinc := RunsAs.of_capstoneOp (i := .cincoffset rd rs1 rs2) hs rfl
  have himm := RunsAs.of_capstoneOp (i := .cincoffsetimm rd rs1 imm) hs rfl
  have hscc := RunsAs.of_capstoneOp (i := .scc rd rs1 rs2) hs rfl
  refine ⟨rfl, rfl, rfl, ?noCapability, ?capability⟩
  case noCapability =>
    intro hc
    exact ⟨hinc.raises_of_no_cap hc, himm.raises_of_no_cap hc, hscc.raises_of_no_cap hc⟩
  case capability =>
    intro c hc
    refine ⟨?noInteger, ?settable, ?fixed⟩
    case noInteger =>
      intro hn
      exact ⟨(hinc.cap hc).raises_of_no_int hn, (hscc.cap hc).raises_of_no_int hn⟩
    case settable =>
      intro hu hse
      have hset := (Cap.cursorSettable_iff c).mpr ⟨hu, hse⟩
      exact ⟨((himm.cap hc).pass hset).completes_moved hc, fun n hn =>
        ⟨(((hinc.cap hc).int hn).pass hset).completes_moved hc,
          (((hscc.cap hc).int hn).pass hset).completes_moved hc⟩⟩
    case fixed =>
      intro ht
      have hset : ¬ c.cursorSettable = true := by
        rw [Cap.cursorSettable_iff]
        tauto
      exact ⟨(himm.cap hc).raises hset, fun n hn =>
        ⟨((hinc.cap hc).int hn).raises hset, ((hscc.cap hc).int hn).raises hset⟩⟩

/-! ### LCC (R165) -/

section Lcc

variable {s : State} {rs1 : Reg} {imm : BitVec 5} {c : Cap}

theorem lcc_computes (rd : Reg) (hs : CReady s) (hc : s.capOf? rs1 = some c) (h : lccReadable c imm = true) :
    Computes (.lcc rd rs1 imm) s rd (lccField c imm) :=
  computes_of (((RunsAs.of_capstoneOp (i := .lcc rd rs1 imm) hs rfl).cap hc).pass h).next

theorem lcc_raises (rd : Reg) (hs : CReady s) (hc : s.capOf? rs1 = some c) (h : ¬ lccReadable c imm = true) :
    Raises (.lcc rd rs1 imm) s .capType :=
  ((RunsAs.of_capstoneOp (i := .lcc rd rs1 imm) hs rfl).cap hc).raises h

end Lcc

/-- The end is hidden for the sealed types (R165). -/
theorem lccReadable_last_iff (c : Cap) :
    lccReadable c 4 = true ↔ ¬ (c.type = .sealed ∨ c.type = .sealedReturn) := by
  rw [not_or]
  exact decide_eq_true_iff

/-- The permissions are hidden for the sealed types (R165). -/
theorem lccReadable_perms_iff (c : Cap) :
    lccReadable c 5 = true ↔ ¬ (c.type = .sealed ∨ c.type = .sealedReturn) := by
  rw [not_or]
  exact decide_eq_true_iff

theorem lccReadable_of_gt (c : Cap) {imm : BitVec 5} (h : 7 < imm.toNat) : lccReadable c imm = true := by
  unfold lccReadable
  split
  case h_6 => rfl
  all_goals omega

theorem lccField_of_gt (c : Cap) {imm : BitVec 5} (h : 7 < imm.toNat) : lccField c imm = 0 := by
  unfold lccField
  split
  case h_9 => rfl
  all_goals omega

/-- Settles O15: selector by selector, the field is read where the type has it. -/
theorem lccReadsOneField : Obligations.LccReadsOneField := by
  intro s rd rs1 imm hs
  refine ⟨rfl, (RunsAs.of_capstoneOp hs rfl).raises_of_no_cap, fun c hc => ?_⟩
  intro sealedAny
  have reads {n : Word} (h : lccReadable c imm = true) (hn : lccField c imm = n) :
      Computes (.lcc rd rs1 imm) s rd n := hn ▸ lcc_computes rd hs hc h
  have refuses := lcc_raises (imm := imm) rd hs hc
  refine ⟨?valid, ?type, ?cursor, ?base, ?last, ?perms, ?async, ?reg, ?above⟩
  case valid =>
    rintro rfl
    exact reads rfl rfl
  case type =>
    rintro rfl
    have hcode {t : CapType} (ht : c.type = t) : Computes (.lcc rd rs1 1) s rd t.code :=
      reads rfl (congrArg CapType.code ht)
    exact ⟨hcode, hcode, hcode, hcode, hcode, hcode⟩
  case cursor =>
    rintro rfl
    exact ⟨fun ht => reads (decide_eq_true ht) rfl, fun ht => refuses (by simp [lccReadable, ht])⟩
  case base =>
    rintro rfl
    exact reads rfl rfl
  case last =>
    rintro rfl
    exact ⟨fun ht => reads ((lccReadable_last_iff c).mpr ht) rfl,
      fun ht => refuses fun h => (lccReadable_last_iff c).mp h ht⟩
  case perms =>
    rintro rfl
    exact ⟨fun ht => reads ((lccReadable_perms_iff c).mpr ht) (BitVec.ofNat_toNat 64 c.perms).symm,
      fun ht => refuses fun h => (lccReadable_perms_iff c).mp h ht⟩
  case async =>
    rintro rfl
    exact ⟨fun ht => reads (decide_eq_true ht) rfl, fun ht => refuses (mt of_decide_eq_true ht)⟩
  case reg =>
    rintro rfl
    exact ⟨fun ht => reads (decide_eq_true ht) (BitVec.ofNat_toNat 64 c.reg).symm,
      fun ht => refuses (mt of_decide_eq_true ht)⟩
  case above =>
    intro h
    exact reads (lccReadable_of_gt c h) (lccField_of_gt c h)

/-! ### Bounds (R166 to R168) -/

/-- Settles O16: the list is walked check by check, and bounds in order leave the cursor of the rule. -/
theorem shrinkSetsBounds : Obligations.ShrinkSetsBounds := by
  intro s rd rs1 rs2 hs
  have hrun := RunsAs.of_capstoneOp (i := .shrink rd rs1 rs2) hs rfl
  refine ⟨rfl, ?operands, ?bounds⟩
  case operands =>
    rintro (hc | hn)
    · exact hrun.raises_of_no_cap hc
    · cases hc : s.capOf? rd with
      | none => exact hrun.raises_of_no_cap hc
      | some c =>
        cases hlo : s.intOf? rs1 with
        | none => exact (hrun.cap hc).raises_of_no_int hlo
        | some lo => exact ((hrun.cap hc).int hlo).raises_of_no_int (hn.resolve_left (by simp [hlo]))
  case bounds =>
    intro c lo hi hc hlo hhi bounded inside cursor
    have hlist := ((hrun.cap hc).int hlo).int hhi
    refine ⟨?completes, ?type, ?value⟩
    case completes =>
      rintro hb ⟨horder, hwithin⟩
      have hdone := (((hlist.pass ((Cap.isBounded_iff c).mpr hb)).pass (decide_eq_true horder)).pass
        (decide_eq_true hwithin)).completes_in_place hc
      rwa [Cap.shrunk_eq c horder] at hdone
    case type =>
      intro hb
      exact hlist.raises (mt (Cap.isBounded_iff c).mp hb)
    case value =>
      intro hb hinside
      have hlist := hlist.pass ((Cap.isBounded_iff c).mpr hb)
      by_cases horder : lo.toNat < hi.toNat
      · exact (hlist.pass (decide_eq_true horder)).raises
          (mt of_decide_eq_true fun hwithin => hinside ⟨horder, hwithin⟩)
      · exact hlist.raises (mt of_decide_eq_true horder)

/-- Settles O17: the list is walked check by check; the second refusal of 29 is that of D12. -/
theorem shrinktoSetsBounds : Obligations.ShrinktoSetsBounds := by
  intro s rd rs1 imm hs
  have hrun := RunsAs.of_capstoneOp (i := .shrinkto rd rs1 imm) hs rfl
  refine ⟨rfl, hrun.raises_of_no_cap, fun c hc => ?_⟩
  intro bounded fits
  refine ⟨?completes, ?type, ?value⟩
  case completes =>
    rintro hb ⟨hlo, hhi, hzero⟩
    rw [← shrinkto_last]
    exact ((((hrun.cap hc).pass ((Cap.isBounded_iff c).mpr hb)).pass (decide_eq_true ⟨hlo, hhi⟩)).pass
      (by rwa [Bool.not_eq_true', decide_eq_false_iff_not])).completes_moved (f := fun d =>
        { d with base := d.cursor, last := d.cursor + imm.setWidth 64 - 1 }) hc
  case type =>
    intro hb
    exact (hrun.cap hc).raises (mt (Cap.isBounded_iff c).mp hb)
  case value =>
    intro hb hfits
    have hlist := (hrun.cap hc).pass ((Cap.isBounded_iff c).mpr hb)
    by_cases hin : c.base.toNat ≤ c.cursor.toNat ∧ c.cursor.toNat + imm.toNat ≤ c.last.toNat
    · obtain ⟨hlo, hhi⟩ := hin
      refine (hlist.pass (decide_eq_true ⟨hlo, hhi⟩)).raises fun hzero => hfits ⟨hlo, hhi, ?_⟩
      rwa [Bool.not_eq_true', decide_eq_false_iff_not] at hzero
    · exact hlist.raises (mt of_decide_eq_true hin)

/-- Settles O18: the list is walked check by check; the effect is none in place, otherwise two register writes. -/
theorem splitCutsInTwo : Obligations.SplitCutsInTwo := by
  intro s rd rs1 rs2 hs
  have hrun := RunsAs.of_capstoneOp (i := .split rd rs1 rs2) hs rfl
  refine ⟨rfl, hrun.raises_of_no_cap_or_int, fun c n hc hn => ?_⟩
  intro inside
  have hlist := (hrun.cap hc).int hn
  refine ⟨?apart, ?inPlace, ?invalid, ?type, ?value⟩
  case apart =>
    intro hv hp hin hne
    have hdone := ((hlist.pass hv).pass ((Cap.isPlain_iff c).mpr hp)).pass (decide_eq_true hin)
    rw [if_neg hne] at hdone
    refine completes_of hdone.next (fun q => ?_) (by simp)
      ((OnlyRegs.setReg s rd _).trans (OnlyRegs.setReg _ rs1 _))
    rw [State.setReg_putReg, funext (s.setReg_putReg rd _)]
    rfl
  case inPlace =>
    intro hv hp hin heq
    have hdone := ((hlist.pass hv).pass ((Cap.isPlain_iff c).mpr hp)).pass (decide_eq_true hin)
    rw [if_pos heq] at hdone
    exact completes_of hdone.next (fun _ => rfl) rfl (OnlyRegs.refl s)
  case invalid =>
    intro hv
    exact hlist.raises (Bool.eq_false_iff.mp hv)
  case type =>
    intro hv hp
    exact (hlist.pass hv).raises (mt (Cap.isPlain_iff c).mp hp)
  case value =>
    intro hv hp hin
    exact ((hlist.pass hv).pass ((Cap.isPlain_iff c).mpr hp)).raises (mt of_decide_eq_true hin)

/-! ### Permissions and types (R169 to R173) -/

/-- TIGHTEN's last check, for a set of permissions (R169). -/
theorem tighten_check_iff {imm : BitVec 5} (h : imm.toNat ≤ 7) (p : BitVec 3) :
    (decide (7 < imm.toNat) || permLe (imm.setWidth 3) p) = true ↔ imm.toNat &&& p.toNat = imm.toNat := by
  rw [decide_eq_false (by omega), Bool.false_or, permLe_setWidth_iff h]

/-- Settles O19: the list is walked check by check, and the new permissions are told apart by the value. -/
theorem tightenOnlyRemovesPermissions : Obligations.TightenOnlyRemovesPermissions := by
  intro s rd rs1 imm hs
  have hrun := RunsAs.of_capstoneOp (i := .tighten rd rs1 imm) hs rfl
  refine ⟨rfl, hrun.raises_of_no_cap, fun c hc => ?_⟩
  intro bounded subset
  refine ⟨?clears, ?keeps, ?type, ?value⟩
  case clears =>
    intro hb hbig
    have hdone := (((hrun.cap hc).pass ((Cap.isBounded_iff c).mpr hb)).pass (by simp [hbig])).completes_moved hc
    rwa [tightenPerms, if_pos hbig] at hdone
  case keeps =>
    intro hb hle hsub
    have hdone := (((hrun.cap hc).pass ((Cap.isBounded_iff c).mpr hb)).pass
      ((tighten_check_iff hle c.perms).mpr hsub)).completes_moved hc
    rwa [tightenPerms, if_neg (by omega), ← BitVec.ofNat_toNat] at hdone
  case type =>
    intro hb
    exact (hrun.cap hc).raises (mt (Cap.isBounded_iff c).mp hb)
  case value =>
    intro hb hle hsub
    exact ((hrun.cap hc).pass ((Cap.isBounded_iff c).mpr hb)).raises (mt (tighten_check_iff hle c.perms).mp hsub)

/-- Settles O20: both rewrite a register in place, after one check of the type for DELIN. -/
theorem delinAndDropInPlace : Obligations.DelinAndDropInPlace := by
  intro s rd rs1 rs2 hs
  have hdelin := RunsAs.of_capstoneOp (i := .delin rd rs1 rs2) hs rfl
  have hdrop := RunsAs.of_capstoneOp (i := .drop rd rs1 rs2) hs rfl
  refine ⟨rfl, rfl, hdelin.raises_of_no_cap, fun c hc => ⟨?linear, ?other⟩, hdrop.raises_of_no_cap, ?drops⟩
  case linear =>
    intro ht
    exact ((hdelin.cap hc).pass (decide_eq_true ht)).completes_in_place hc
  case other =>
    intro ht
    exact (hdelin.cap hc).raises (mt of_decide_eq_true ht)
  case drops =>
    intro c hc
    exact (hdrop.cap hc).completes_in_place hc

/-- Settles O21: the list is walked check by check, and the effect is a move. -/
theorem initMakesLinear : Obligations.InitMakesLinear := by
  intro s rd rs1 rs2 hs
  have hrun := RunsAs.of_capstoneOp (i := .init rd rs1 rs2) hs rfl
  refine ⟨rfl, hrun.raises_of_no_cap_or_int, fun c n hc hn => ?_⟩
  have hlist := (hrun.cap hc).int hn
  refine ⟨?completes, ?type, ?value⟩
  case completes =>
    intro ht hpast
    exact ((hlist.pass (decide_eq_true ht)).pass (decide_eq_true hpast)).completes_moved hc
  case type =>
    intro ht
    exact hlist.raises (mt of_decide_eq_true ht)
  case value =>
    intro ht hle
    exact (hlist.pass (decide_eq_true ht)).raises (mt of_decide_eq_true (Nat.not_lt_of_ge hle))

/-- Settles O22: the list is walked check by check; its last three checks are the parts of the region test. -/
theorem sealMakesSealed : Obligations.SealMakesSealed := by
  intro s rd rs1 rs2 hs
  have hrun := RunsAs.of_capstoneOp (i := .seal rd rs1 rs2) hs rfl
  refine ⟨rfl, hrun.raises_of_no_cap, fun c hc => ?_⟩
  intro region
  have hlist := hrun.cap hc
  refine ⟨?completes, ?type, ?perms, ?value⟩
  case completes =>
    rintro ht hp ⟨hsize, halign, hslot⟩
    exact (((((hlist.pass (decide_eq_true ht)).pass hp).pass (decide_eq_true (by omega))).pass
      ((alignedTo_iff _ _).mpr halign)).pass ((sealableSlot_iff s c.base).mpr hslot)).completes_moved hc
  case type =>
    intro ht
    exact hlist.raises (mt of_decide_eq_true ht)
  case perms =>
    intro ht hp
    exact (hlist.pass (decide_eq_true ht)).raises (Bool.eq_false_iff.mp hp)
  case value =>
    intro ht hp hregion
    have hlist := (hlist.pass (decide_eq_true ht)).pass hp
    by_cases hsize : c.base.toNat + 1024 ≤ c.last.toNat + 1
    · have hlist := hlist.pass (decide_eq_true hsize)
      by_cases halign : alignedTo c.base 16 = true
      · refine (hlist.pass halign).raises fun hslot => hregion ?_
        exact ⟨by omega, (alignedTo_iff _ _).mp halign, (sealableSlot_iff s c.base).mp hslot⟩
      · exact hlist.raises halign
    · exact hlist.raises (mt of_decide_eq_true hsize)

/-! ### Revocation (R174, R175) -/

/-- Settles O23: the list is walked check by check; the effect writes one register and advances `rev_clock`. -/
theorem mrevStampsRevocation : Obligations.MrevStampsRevocation := by
  intro s rd rs1 rs2 hs
  have hrun := RunsAs.of_capstoneOp (i := .mrev rd rs1 rs2) hs rfl
  refine ⟨rfl, hrun.raises_of_no_cap, fun c hc => ⟨?completes, ?invalid, ?type⟩⟩
  case completes =>
    intro hv ht
    refine ⟨_, (((hrun.cap hc).pass hv).pass (decide_eq_true ht)).next, fun r => ?_, ?_, ?_, ?_, ?_⟩
    · simp [State.setReg_putReg]
    · simp [nextPc]
    · simp
    · simp [SameControl]
    · exact SameMemory.of_eq (by simp)
  case invalid =>
    intro hv
    exact (hrun.cap hc).raises (Bool.eq_false_iff.mp hv)
  case type =>
    intro hv ht
    exact ((hrun.cap hc).pass hv).raises (mt of_decide_eq_true ht)

@[simp] theorem State.revokeAll_pc (s : State) (r : Cap) : (s.revokeAll r).pc = revokedValue r s.pc := rfl
@[simp] theorem State.revokeAll_ccsr (s : State) (r : Cap) : (s.revokeAll r).ccsr = s.ccsr.map (revokedValue r) := rfl
@[simp] theorem State.revokeAll_mem (s : State) (r : Cap) : (s.revokeAll r).mem = s.mem.mapCaps (revokedCap r) := rfl

/-- REVOKE's own fields apart, nothing of the control state changes (R175). -/
theorem State.revokeAll_control (s : State) (r : Cap) : SameControl s { s.revokeAll r with ccsr := s.ccsr } := by
  simp [SameControl, State.revokeAll]

/-- Membership in REVOKE's set does not look at the cursor, so `pc` may move on before or after (R175). -/
theorem revokedValue_withCursor (r : Cap) (v : Value) (a : Word) :
    (revokedValue r v).withCursor a = revokedValue r (v.withCursor a) := by
  cases v with
  | int n => rfl
  | cap c =>
    have hset : revokes r { c with cursor := a } = revokes r c := rfl
    simp only [revokedValue, revokedCap, Value.withCursor, hset]
    split <;> rfl

theorem revokedValue_address (r : Cap) (v : Value) : (revokedValue r v).address = v.address := by
  cases v with
  | int n => rfl
  | cap c =>
    simp only [revokedValue, revokedCap, Value.address]
    split <;> rfl

/-- REVOKE's last test, in the words of the rule (R175). -/
theorem revokesToLinear_iff (s : State) (r : Cap) :
    revokesToLinear s r = true ↔
      (∀ c ∈ s.allCaps, TakenBack r c → c.type = .nonLinear) ∨ permLe 2 r.perms = false := by
  simp only [revokesToLinear, Cap.canWrite, Bool.or_eq_true, Bool.not_eq_true', List.all_eq_true,
    decide_eq_true_iff, ← Bool.not_eq_true, revokes_iff, imp_iff_not_or]

/-- What REVOKE leaves of every memory slot (R175). -/
theorem revokeAll_slot (s : State) (r : Cap) (a : Word) :
    (∀ c, s.mem.slotCap a = some c →
      ∃ c', (s.revokeAll r).mem.slotCap a = some c' ∧ RevokedTo r (.cap c) (.cap c')) ∧
    (s.mem.slotCap a = none → (s.revokeAll r).mem.slotCap a = none) := by
  rw [State.revokeAll_mem, Memory.mapCaps_slotCap]
  refine ⟨fun c hc => ⟨revokedCap r c, ?_, revokedTo_revokedValue r (.cap c)⟩, fun h => ?_⟩
  · rw [hc, Option.map_some]
  · rw [h, Option.map_none]

/-- Settles O24: REVOKE rewrites every place that can hold a capability by one function, then writes `x[rs1]`. -/
theorem revokeTakesBackEveryHolder : Obligations.RevokeTakesBackEveryHolder := by
  intro s rd rs1 rs2 hs
  have hrun := RunsAs.of_capstoneOp (i := .revoke rd rs1 rs2) hs rfl
  refine ⟨rfl, hrun.raises_of_no_cap, fun r hc => ⟨?invalid, ?type, ?completes⟩⟩
  case invalid =>
    intro hv
    exact (hrun.cap hc).raises (Bool.eq_false_iff.mp hv)
  case type =>
    intro hv ht
    exact ((hrun.cap hc).pass hv).raises (mt of_decide_eq_true ht)
  case completes =>
    intro hv ht
    have hself : (((s.revokeAll r).setReg rs1 (.cap (revokeResult s r))).advance).capValue rs1
        = .cap (revokeResult s r) := by
      rw [State.advance_capValue, State.setReg_capValue, if_pos ⟨rfl, State.ne_zero_of_valid hc hv⟩]
    refine ⟨_, (((hrun.cap hc).pass hv).pass (decide_eq_true ht)).next, ?registers, ?pc, ?ctvec, ?cih, ?cepc,
      ?cscratch, ?cpmp, ?memory, ?linear, ?uninitialised, ?control⟩
    case registers =>
      intro q hq
      rw [State.advance_capValue, State.setReg_capValue, if_neg (fun h => hq h.1), State.revokeAll_capValue]
      exact revokedTo_revokedValue r _
    case pc =>
      rw [State.advance_pc, State.setReg_pc, State.revokeAll_pc, revokedValue_address, revokedValue_withCursor]
      exact revokedTo_revokedValue r _
    case cpmp =>
      intro k
      simpa [Ccsrs.map] using revokedTo_revokedValue r s.ccsr.cpmp[k]
    case memory =>
      intro a
      obtain ⟨hsome, hnone⟩ := revokeAll_slot s r a
      simpa using ⟨hsome, hnone, rfl, rfl⟩
    case linear =>
      intro h
      rw [hself, revokeResult, if_pos ((revokesToLinear_iff s r).mpr h)]
    case uninitialised =>
      rintro ⟨c, hmem, htaken, htype⟩ hw
      have hnot : ¬ revokesToLinear s r = true := by
        rw [revokesToLinear_iff]
        rintro (hall | hperm)
        · exact htype (hall c hmem htaken)
        · exact Bool.eq_false_iff.mp hperm hw
      rw [hself, revokeResult, if_neg hnot]
    case control =>
      simpa [SameControl] using s.revokeAll_control r
    all_goals
      simpa [Ccsrs.map] using revokedTo_revokedValue r _

/-! ### Where the model stops, or chose (R52, R85, R353, R382, R383) -/

/-- An instruction that may exhaust the implementation checks for exception 30 first, its mode check apart (log 13). -/
theorem runsAs_of_mayExhaust {i : Instr} {s : State} (h : mayExhaust i = true) (hs : s.inCMode = true) :
    ∃ body, RunsAs i s (do requireResources i s; body) := by
  match i, h with
  | .revoke .., _ | .shrink .., _ | .tighten .., _ | .delin .., _ | .lcc .., _ | .scc .., _ | .split .., _
  | .seal .., _ | .mrev .., _ | .init .., _ | .drop .., _ | .cincoffset .., _ | .call .., _ | .ret .., _
  | .shrinkto .., _ | .cincoffsetimm .., _ | .ldc .., _ | .stc .., _ | .cjalr .., _ | .cbnz .., _
  | .ccsrrw .., _ => exact ⟨_, cModeOp_ready _ hs⟩
  | .lb .., _ | .lh .., _ | .lw .., _ | .ld .., _ | .lbu .., _ | .lhu .., _ | .lwu .., _ | .sb .., _ | .sh .., _
  | .sw .., _ | .sd .., _ | .ecall, _ | .ebreak, _ => exact ⟨_, rfl⟩

/-- Where an implementation raises exception 30, it comes before the instruction's own list (R353, log 13). -/
theorem raises_resources {i : Instr} {s : State} (h : mayExhaust i = true) (hs : s.inCMode = true)
    (hf : s.plat.finiteResources = true) (hr : Config.raisesResourceExc s (encode i) = true) :
    Raises i s .resources := by
  obtain ⟨body, hrun⟩ := runsAs_of_mayExhaust h hs
  rwa [requireResources_raises hs hf hr] at hrun

/-- MPP holds the level 2 that no write can put there, and MRET has nowhere to return to (R52, log 22). -/
theorem mret_illegalMpp {s : State} (hp : s.priv = .machine) (h11 : bitOf s.csr.mstatus 11 = false)
    (h12 : bitOf s.csr.mstatus 12 = true) : exec .mret s = .fault .illegalMpp := by
  have hmpp : mppPriv s = .error (.stuck .illegalMpp) := by
    rw [mppPriv, (mpp_eq_two s.csr.mstatus).mpr ⟨h11, h12⟩]
    rfl
  have hrun : RunsAs .mret s _ := rfl
  rw [hmpp] at hrun
  exact (hrun.pass (decide_eq_true hp)).stuck

/-! A context region whose base is not 16-byte aligned stops every procedure that uses one (R85, log 20). -/

theorem swapCEff_misaligned (s : State) {B : Word} (h : B.toNat % 16 ≠ 0) :
    s.swapCEff B = .error .contextMisaligned := by
  rw [State.swapCEff, contextReady_misaligned h, except_error_bind]

theorem exchangeDomain_misaligned (s : State) {B : Word} (h : B.toNat % 16 ≠ 0) :
    s.exchangeDomain B = .error .contextMisaligned := by
  rw [State.exchangeDomain, contextReady_misaligned h, except_error_bind]

theorem hDeliver_misaligned (s : State) (i : Irq) {c : Cap} (h : c.base.toNat % 16 ≠ 0) :
    hDeliver s i c = .error .contextMisaligned := by
  rw [hDeliver, contextReady_misaligned h, except_error_bind]

theorem callTarget_eq (s : State) (rs1 : Reg) :
    callTarget s rs1 = if rs1 = 0 then s.ccsr.cih else s.capValue rs1 := by
  unfold callTarget
  split
  · rfl
  · next h => rw [s.capValue_of_ne h]

/-- CALL of a domain whose region is misaligned is stuck (log 20). -/
theorem call_misaligned {s : State} {c : Cap} (rd rs1 rs2 : Reg) (hs : CReady s) (hv : c.valid = true)
    (ha : c.base.toNat % 16 ≠ 0) (htarget : callTarget s rs1 = .cap c) (ht : c.type = .sealed)
    (hsync : c.async = false) : exec (.call rd rs1 rs2) s = .fault .contextMisaligned := by
  have hrun := RunsAs.of_capstoneOp (i := .call rd rs1 rs2) hs rfl
  rw [htarget] at hrun
  have hswap := ((hrun.pass hv).pass (decide_eq_true ht)).pass (by rw [hsync]; rfl)
  rw [swapCEff_misaligned _ ha] at hswap
  exact hswap.stuck

/-- RETURN to a domain whose region is misaligned is stuck, in the synchronous and the asynchronous case (log 20). -/
theorem ret_misaligned {s : State} {c : Cap} {entry : Word} (rd rs1 rs2 : Reg) (hs : CReady s) (hv : c.valid = true)
    (ha : c.base.toNat % 16 ≠ 0) (hc : s.capOf? rd = some c) (hentry : s.intOf? rs1 = some entry)
    (ht : c.type = .sealedReturn ∨ (c.type = .sealed ∧ s.ccsr.cih.vacant = true)) :
    exec (.ret rd rs1 rs2) s = .fault .contextMisaligned := by
  have hrun := RunsAs.of_capstoneOp (i := .ret rd rs1 rs2) hs rfl
  have hsealed : c.type = .sealed ∨ c.type = .sealedReturn := by tauto
  have hvacant : (!(decide (c.type = .sealed) && !s.ccsr.cih.vacant)) = true := by
    rcases ht with ht | ⟨-, hcih⟩
    · simp [ht]
    · simp [hcih]
  have hswitch := ((((hrun.cap hc).int hentry).pass hv).pass (decide_eq_true hsealed)).pass hvacant
  cases hasync : c.async with
  | true =>
    rw [hasync, if_pos rfl, returnAsync, exchangeDomain_misaligned _ ha] at hswitch
    exact hswitch.stuck
  | false =>
    rw [hasync, if_neg (by decide), returnSync, swapCEff_misaligned _ ha] at hswitch
    exact hswitch.stuck

/-- The boundary's events do not touch `cid` (R371). -/
theorem boundary_cid (s : State) : (boundary s).csr.cid = s.csr.cid := by
  obtain ⟨m, c, h⟩ := boundary_eq s
  rw [h]
  rfl

/-- An H-interrupt that qualifies is delivered to the capability in `cih` (R373). -/
theorem hDeliverable_of_qualifies {s : State} (h : HQualifies s) {c : Cap} (hc : s.ccsr.cih = .cap c) :
    ∃ i, hDeliverable s = some (i, c) := by
  cases hd : hDeliverable s with
  | none => exact absurd h (hDeliverable_none.mp hd)
  | some p =>
    obtain ⟨i, d⟩ := p
    obtain ⟨-, -, hcih, -⟩ := hDeliverable_some hd
    rw [hc] at hcih
    cases hcih
    exact ⟨i, rfl⟩

/-- Delivery of an H-interrupt to a handler whose region is misaligned is stuck (log 20). -/
theorem step_misaligned {s : State} {c : Cap} (hs : s.inCMode = true) (hv : c.valid = true)
    (ha : c.base.toNat % 16 ≠ 0)
    (hline : ∃ i : Irq, bitOf (boundary s).csr.cis i.bit = true ∧ bitOf s.csr.cid i.bit = false)
    (hc : s.ccsr.cih = .cap c) (ht : c.type = .sealed) (hsync : c.async = false) :
    step s = .fault .contextMisaligned := by
  obtain ⟨hen, hp⟩ : s.capstoneEn = true ∧ s.priv = .machine := by simpa [State.inCMode] using hs
  have hcih : (boundary s).ccsr.cih = .cap c := by rw [boundary_ccsr, hc]
  have hq : HQualifies (boundary s) :=
    ⟨by rw [boundary_capstoneEn, hen], by rwa [boundary_cid], c, hcih, hv, ht, hsync⟩
  obtain ⟨i, hd⟩ := hDeliverable_of_qualifies hq hcih
  have hevent : pendingEvent (boundary s) = some (.error .contextMisaligned) := by
    simp only [pendingEvent, hd, hDeliver_misaligned _ i ha]
  rw [step, refusal_none.mpr (.inl hp)]
  simp only [afterBoundary, hevent]
  rfl

/-! Below mode ID 3 the model refuses what the spec leaves out (R382, R383, logs 17 and 18). -/

theorem step_of_refusal {s : State} {r : Refusal} (h : refusal s = some r) : step s = .refused r := by
  simp only [step, h]

theorem refusal_capstone {s : State} (hp : s.priv ≠ .machine) (hen : s.capstoneEn = true) :
    refusal s = some .lowPrivUnderCapstone := by simp [refusal, hp, hen]

theorem refusal_translation {s : State} (hp : s.priv ≠ .machine) (hen : s.capstoneEn = false)
    (ht : s.csr.satp.extractLsb' 60 4 ≠ 0) : refusal s = some .translationUnmodelled := by
  have hon : translationOn s = true := decide_eq_true ht
  simp [refusal, hp, hen, hon]

/-- A data access is modelled in the states that a step is modelled in (R382, R383). -/
theorem requireModelledAccess_of_refusal {s : State} {r : Refusal} (h : refusal s = some r) :
    requireModelledAccess s = .error (.decline r) := by
  unfold refusal at h
  unfold requireModelledAccess
  split at h
  · cases h
  · next hp =>
    rw [if_neg hp]
    split at h
    · next hen => cases h; rw [if_pos hen]
    · next hen =>
      rw [if_neg hen]
      split at h
      · next ht => cases h; rw [if_pos ht]
      · cases h

theorem inCMode_of_refusal {s : State} {r : Refusal} (h : refusal s = some r) : s.inCMode = false := by
  have hp : s.priv ≠ .machine := fun hp => by rw [refusal_none.mpr (.inl hp)] at h; cases h
  simp [State.inCMode, hp]

theorem load_of_refusal {s : State} {r : Refusal} (h : refusal s = some r) (rd rs1 : Reg) (imm : BitVec 12)
    (n : Nat) (signed : Bool) : load s rd rs1 imm n signed = .error (.decline r) := by
  simp only [load, loadAddress, loadAddressRaw, inCMode_of_refusal h, requireModelledAccess_of_refusal h,
    except_error_bind, Bool.false_eq_true, if_false]

theorem store_of_refusal {s : State} {r : Refusal} (h : refusal s = some r) (rs1 rs2 : Reg) (imm : BitVec 12)
    (n : Nat) : store s rs1 rs2 imm n = .error (.decline r) := by
  simp only [store, storeTarget, storeTargetRaw, inCMode_of_refusal h, requireModelledAccess_of_refusal h,
    except_error_bind, Bool.false_eq_true, if_false]

/-- Outside C-mode a base instruction with an adjusted meaning refuses what its body refuses. -/
theorem adjustedOp_decline {i : Instr} {s : State} {r : Refusal} {body : Except Stop State}
    (hs : s.inCMode = false) (h : body = .error (.decline r)) : adjustedOp i s body = .refused r := by
  rw [adjustedOp_ready body fun hc => absurd (hs.symm.trans hc) (by decide), h, finish_decline]

/-- Each of the seven loads is `load` with its size and extension. -/
theorem exec_of_mem_loadForms {i : Instr} {rd rs1 : Reg} {imm : BitVec 12}
    (h : i ∈ (loadForms rd rs1 imm).map LoadForm.instr) (s : State) :
    ∃ n signed, exec i s = adjustedOp i s (load s rd rs1 imm n signed) := by
  simp only [loadForms, List.map_cons, List.map_nil, List.mem_cons, List.not_mem_nil, or_false] at h
  rcases h with rfl | rfl | rfl | rfl | rfl | rfl | rfl <;> exact ⟨_, _, rfl⟩

/-- Each of the four stores is `store` with its size. -/
theorem exec_of_mem_storeForms {i : Instr} {rs1 rs2 : Reg} {imm : BitVec 12}
    (h : i ∈ (storeForms rs1 rs2 imm).map StoreForm.instr) (s : State) :
    ∃ n, exec i s = adjustedOp i s (store s rs1 rs2 imm n) := by
  simp only [storeForms, List.map_cons, List.map_nil, List.mem_cons, List.not_mem_nil, or_false] at h
  rcases h with rfl | rfl | rfl | rfl <;> exact ⟨_, rfl⟩

/-- In a state that the model does not step from, it does not load or store either (R382, R383). -/
theorem access_of_refusal {s : State} {r : Refusal} (h : refusal s = some r) {i : Instr} {rd rs1 rs2 : Reg}
    {imm : BitVec 12}
    (hi : i ∈ (loadForms rd rs1 imm).map LoadForm.instr ++ (storeForms rs1 rs2 imm).map StoreForm.instr) :
    exec i s = .refused r := by
  rcases List.mem_append.mp hi with hi | hi
  · obtain ⟨n, signed, hexec⟩ := exec_of_mem_loadForms hi s
    exact hexec.trans (adjustedOp_decline (inCMode_of_refusal h) (load_of_refusal h ..))
  · obtain ⟨n, hexec⟩ := exec_of_mem_storeForms hi s
    exact hexec.trans (adjustedOp_decline (inCMode_of_refusal h) (store_of_refusal h ..))

/-- Settles O44: exception 30 first, MRET's level, the misaligned regions, and the two refusals. -/
theorem stopsTheModelNames : Obligations.StopsTheModelNames := by
  refine ⟨?resources, fun _ => mret_illegalMpp, ?misaligned, ?refused⟩
  case resources =>
    intro i s h hs hf
    exact (Bool.eq_false_or_eq_true _).symm.imp_right (raises_resources h hs hf)
  case misaligned =>
    intro s rd rs1 rs2 c hs hv ha
    refine ⟨fun htarget => ?_, fun _ => ret_misaligned rd rs1 rs2 hs hv ha, step_misaligned hs.1 hv ha⟩
    exact call_misaligned rd rs1 rs2 hs hv ha ((callTarget_eq s rs1).trans htarget)
  case refused =>
    intro s hp
    exact ⟨fun hen => step_of_refusal (refusal_capstone hp hen),
      fun hen ht => step_of_refusal (refusal_translation hp hen ht),
      fun _ _ _ _ _ hi => ⟨fun hen => access_of_refusal (refusal_capstone hp hen) hi,
        fun hen ht => access_of_refusal (refusal_translation hp hen ht) hi⟩⟩

end Sys2Proof.Machine

namespace Sys2Proof.Machine

/-! ### Accesses through a capability, check by check (R200, R201) -/

section Access

variable {i : Instr} {s : State} {c : Cap} {ea : Word} {n : Nat} {f : Unit → Except Stop State}

theorem RunsAs.granted_read (h : RunsAs i s (authorizeLoad s c ea n >>= f)) (hg : GrantsRead s c ea n)
    (ha : ea.toNat % n = 0) : RunsAs i s (f ()) := by rwa [authorizeLoad_ok hg ha] at h

theorem RunsAs.granted_write {imm : BitVec 12} (h : RunsAs i s (authorizeStore s c imm ea n >>= f))
    (hg : GrantsWrite s c imm ea n) (ha : ea.toNat % n = 0) : RunsAs i s (f ()) := by
  rwa [authorizeStore_ok hg ha] at h

end Access

/-- A capability whose type is not 1 leaves the location it is moved out of (R107). -/
theorem Value.movesOut_cap_iff (d : Cap) : (Value.cap d).movesOut = true ↔ d.type ≠ .nonLinear := decide_eq_true_iff

theorem Memory.readSlot_of_integer {m : Memory} {a : Word} (draw : Nat) (h : m.slotCap a = none) :
    m.readSlot draw a = .int (m.readInt draw a 8) := by
  rw [Memory.readSlot, h]

theorem Memory.readSlot_of_capability {m : Memory} {a : Word} {d : Cap} (draw : Nat) (h : m.slotCap a = some d) :
    m.readSlot draw a = .cap d := by
  rw [Memory.readSlot, h]

theorem OnlyRegs.draw (s : State) : OnlyRegs s s.draw := ⟨by simp [SameControl], rfl⟩

theorem State.advance_nextPc {s u : State} (h : u.pc = s.pc) : u.advance.pc = nextPc s := by
  rw [State.advance_pc, h, nextPc]

/-! ### LDC (R200) -/

/-- What LDC does with the content `v` of a slot it may read: its last two checks and its effect (R200). -/
def ldcMove (s : State) (rd : Reg) (c : Cap) (ea : Word) (v : Value) : Except Stop State := do
  require (ldcMovePermitted c v) .capPerms
  require (s.plat.isMemRange ea v.slotBytes) .loadAccess ea
  let s1 := (s.setReg rd v).draw
  .ok (if v.movesOut then s1.setMem (s1.mem.writeSlot ea (.cap cnull)) else s1).advance

/-- In C-mode LDC is its address operand, its read list and its move (R200). -/
theorem ldc_runsAs {s : State} {rd rs1 : Reg} {imm : BitVec 12} {c : Cap} (hs : CReady s)
    (hc : s.capOf? rs1 = some c) :
    RunsAs (.ldc rd rs1 imm) s (authorizeLoad s c (c.effectiveAddress imm) 16 >>= fun _ =>
      ldcMove s rd c (c.effectiveAddress imm) (s.mem.readSlot s.draws (c.effectiveAddress imm))) :=
  (RunsAs.of_capstoneOp (i := .ldc rd rs1 imm) hs rfl).cap hc

/-- Moving a capability out of its slot through a plain capability takes write permission (R200 item 9). -/
theorem ldcMovePermitted_iff (c d : Cap) :
    ldcMovePermitted c (.cap d) = true ↔ (d.type ≠ .nonLinear → c.Plain → permLe 2 c.perms = true) := by
  rw [ldcMovePermitted, Bool.not_eq_true', Bool.and_eq_false_iff, Bool.and_eq_false_iff, ← Bool.not_eq_true,
    ← Bool.not_eq_true c.isPlain, Value.movesOut_cap_iff, Cap.isPlain_iff, Bool.not_eq_false', Cap.canWrite]
  tauto

section Ldc

variable {i : Instr} {s : State} {rd : Reg} {c d : Cap} {ea : Word}
  (h : RunsAs i s (ldcMove s rd c ea (s.mem.readSlot s.draws ea)))

include h

/-- An integer is copied out of its slot: an 8-byte load (R85, R200). -/
theorem ldcMove_integer (hslot : s.mem.slotCap ea = none) (hmem : AllMem s ea 8) :
    ∃ v, (AllDefined s ea 8 → BytesAre s ea 8 v) ∧ Computes i s rd v := by
  rw [Memory.readSlot_of_integer _ hslot] at h
  have hdone := ((h.pass rfl).pass ((isMemRange_iff s ea 8).mpr hmem)).next
  obtain ⟨v, ⟨hbytes, -⟩, hcomputes⟩ := computes_of_load (n := 8) (sg := false) (by simp) hdone
  exact ⟨v, hbytes, hcomputes⟩

/-- LDC's last check for an integer slot: its 8 bytes are memory (R85, log 28). -/
theorem ldcMove_integer_raises (hslot : s.mem.slotCap ea = none) (hmem : ¬ AllMem s ea 8) :
    Raises i s .loadAccess ea := by
  rw [Memory.readSlot_of_integer _ hslot] at h
  exact (h.pass rfl).raises (mt (isMemRange_iff s ea 8).mp hmem)

/-- A non-linear capability is copied out of its slot (R200). -/
theorem ldcMove_nonLinear (hslot : s.mem.slotCap ea = some d) (hmem : AllMem s ea 16) (ht : d.type = .nonLinear) :
    Completes i s (putReg s.capValue rd (.cap d)) := by
  rw [Memory.readSlot_of_capability _ hslot] at h
  have hstays : ¬ (Value.cap d).movesOut = true := fun hm => (Value.movesOut_cap_iff d).mp hm ht
  have hdone := ((h.pass ((ldcMovePermitted_iff c d).mpr fun hne => absurd ht hne)).pass
    ((isMemRange_iff s ea 16).mpr hmem)).next
  rw [if_neg hstays] at hdone
  exact completes_of hdone (s.setReg_putReg rd _) (by simp) ((OnlyRegs.setReg s rd _).trans (OnlyRegs.draw _))

/-- Any other capability is moved out of its slot, and leaves `cnull` there (R107, R200). -/
theorem ldcMove_movesOut (hslot : s.mem.slotCap ea = some d) (hmem : AllMem s ea 16) (ht : d.type ≠ .nonLinear)
    (hperm : c.Plain → permLe 2 c.perms = true) (hwf : s.MemWf) :
    ∃ t, exec i s = .next t ∧ (∀ r, t.capValue r = putReg s.capValue rd (.cap d) r) ∧ t.pc = nextPc s ∧
      SameControl s t ∧ StoredCap s t ea cnull := by
  rw [Memory.readSlot_of_capability _ hslot] at h
  have hdone := ((h.pass ((ldcMovePermitted_iff c d).mpr fun _ => hperm)).pass
    ((isMemRange_iff s ea 16).mpr hmem)).next
  rw [if_pos ((Value.movesOut_cap_iff d).mpr ht)] at hdone
  exact ⟨_, hdone, fun r => by simp [State.setReg_putReg], State.advance_nextPc (by simp), by simp [SameControl],
    storedCap_writeSlot cnull hwf (by simp)⟩

/-- Without write permission a plain capability moves no capability out of its slot (R200 item 9). -/
theorem ldcMove_raises_capPerms (hslot : s.mem.slotCap ea = some d) (ht : d.type ≠ .nonLinear) (hplain : c.Plain)
    (hw : permLe 2 c.perms = false) : Raises i s .capPerms := by
  rw [Memory.readSlot_of_capability _ hslot] at h
  exact h.raises fun hok => Bool.eq_false_iff.mp hw ((ldcMovePermitted_iff c d).mp hok ht hplain)

/-- LDC's last check for a capability slot: its 16 bytes are memory (R85, log 28). -/
theorem ldcMove_capability_raises (hslot : s.mem.slotCap ea = some d)
    (hok : d.type ≠ .nonLinear → c.Plain → permLe 2 c.perms = true) (hmem : ¬ AllMem s ea 16) :
    Raises i s .loadAccess ea := by
  rw [Memory.readSlot_of_capability _ hslot] at h
  exact (h.pass ((ldcMovePermitted_iff c d).mpr hok)).raises (mt (isMemRange_iff s ea 16).mp hmem)

end Ldc

/-- Settles O25: the read list leads to the move: an integer load, a copy, or a move that leaves `cnull` behind. -/
theorem ldcMovesOutOfMemory : Obligations.LdcMovesOutOfMemory := by
  intro s rd rs1 imm hs i
  refine ⟨rfl, (RunsAs.of_capstoneOp (i := i) hs rfl).raises_of_no_cap, fun c hc => ?_⟩
  intro ea
  have hlist := ldc_runsAs (rd := rd) (imm := imm) hs hc
  refine ⟨fun hg ha => ?granted, readChecks_of (fun hmove => ?refused) hlist⟩
  case granted =>
    have hmove := hlist.granted_read hg ha
    exact ⟨ldcMove_integer hmove, fun d hslot hmem =>
      ⟨ldcMove_nonLinear hmove hslot hmem, ldcMove_movesOut hmove hslot hmem⟩⟩
  case refused =>
    exact ⟨ldcMove_integer_raises hmove, fun d hslot =>
      ⟨ldcMove_raises_capPerms hmove hslot, ldcMove_capability_raises hmove hslot⟩⟩

/-! ### STC (R201) -/

/-- The first of STC's two register writes: an uninitialised address capability moves 16 bytes on (R201). -/
def addressMovedOn (s : State) (rs1 : Reg) (c : Cap) : State :=
  if c.type = .uninitialised then s.modifyCap rs1 fun d => { d with cursor := d.cursor + 16 } else s

/-- The second register write, after that: a stored capability whose type is not 1 leaves its register (R201). -/
theorem stcRegisters_eq (s : State) (rs1 rs2 : Reg) (c : Cap) (v : Value) :
    stcRegisters s rs1 rs2 c v =
      if v.movesOut then (addressMovedOn s rs1 c).setReg rs2 (.cap cnull) else addressMovedOn s rs1 c := rfl

theorem addressMovedOn_capValue {s : State} {rs1 : Reg} {c : Cap} (hc : s.capOf? rs1 = some c) :
    (addressMovedOn s rs1 c).capValue =
      if c.type = .uninitialised then putReg s.capValue rs1 (.cap { c with cursor := c.cursor + 16 })
      else s.capValue := by
  unfold addressMovedOn
  split
  · exact funext (State.modifyCap_capValue _ (State.capValue_of_capOf? hc))
  · rfl

theorem addressMovedOn_onlyRegs (s : State) (rs1 : Reg) (c : Cap) : OnlyRegs s (addressMovedOn s rs1 c) := by
  unfold addressMovedOn
  split
  · exact OnlyRegs.modifyCap s rs1 _
  · exact OnlyRegs.refl s

@[simp] theorem addressMovedOn_pc (s : State) (rs1 : Reg) (c : Cap) : (addressMovedOn s rs1 c).pc = s.pc := by
  unfold addressMovedOn
  split
  · exact State.modifyCap_pc s rs1 _
  · rfl

theorem stcRegisters_capValue (s : State) (rs1 rs2 : Reg) (c : Cap) (v : Value) :
    (stcRegisters s rs1 rs2 c v).capValue =
      if v.movesOut then putReg (addressMovedOn s rs1 c).capValue rs2 (.cap cnull)
      else (addressMovedOn s rs1 c).capValue := by
  rw [stcRegisters_eq]
  split
  · exact funext (State.setReg_putReg _ rs2 _)
  · rfl

theorem stcRegisters_onlyRegs (s : State) (rs1 rs2 : Reg) (c : Cap) (v : Value) :
    OnlyRegs s (stcRegisters s rs1 rs2 c v) := by
  rw [stcRegisters_eq]
  split
  · exact (addressMovedOn_onlyRegs s rs1 c).trans (OnlyRegs.setReg _ rs2 _)
  · exact addressMovedOn_onlyRegs s rs1 c

@[simp] theorem stcRegisters_pc (s : State) (rs1 rs2 : Reg) (c : Cap) (v : Value) :
    (stcRegisters s rs1 rs2 c v).pc = s.pc := by
  rw [stcRegisters_eq]
  split <;> simp

/-- Settles O26: the write list leads to the store, whose memory and registers are known apart. -/
theorem stcMovesIntoMemory : Obligations.StcMovesIntoMemory := by
  intro s rs1 rs2 imm hs i
  have hrun := RunsAs.of_capstoneOp (i := i) hs rfl
  refine ⟨rfl, hrun.raises_of_no_cap, fun c hc => ?_⟩
  intro ea v regs
  have hlist := hrun.cap hc
  refine ⟨fun hwf hg ha hmem => ?stores, writeChecks_of (fun hstore hmem => ?noMemory) hlist⟩
  case stores =>
    have hdone := ((hlist.granted_write hg ha).pass ((isMemRange_iff s ea _).mpr hmem)).next
    have hframe := stcRegisters_onlyRegs (s.setMem (s.mem.writeSlot ea v)) rs1 rs2 c v
    have haddress : (addressMovedOn (s.setMem (s.mem.writeSlot ea v)) rs1 c).capValue = regs :=
      addressMovedOn_capValue hc
    have hregs := stcRegisters_capValue (s.setMem (s.mem.writeSlot ea v)) rs1 rs2 c v
    rw [haddress] at hregs
    refine ⟨_, hdone, storedSlot_writeSlot v hwf ha hframe.mem, fun hout r => ?_, fun hstays r => ?_,
      State.advance_nextPc (stcRegisters_pc ..), hframe.control⟩
    · rw [if_pos hout] at hregs
      exact congrFun hregs r
    · rw [if_neg (Bool.eq_false_iff.mp hstays)] at hregs
      exact congrFun hregs r
  case noMemory =>
    exact RunsAs.raises hstore (mt (isMemRange_iff s ea _).mp hmem)

end Sys2Proof.Machine

namespace Sys2Proof.Machine

/-! ### Jumps to a capability (R211, R212) -/

/-- Writes to two registers may be made in either order. -/
theorem putReg_comm (f : Reg → Value) {r q : Reg} (h : r ≠ q) (v w : Value) :
    putReg (putReg f r v) q w = putReg (putReg f q w) r v := by
  funext p
  simp only [putReg]
  by_cases hr : p = r
  · subst hr
    simp [h]
  · simp [hr]

/-- CJALR's order of writes: `x[rd]` receives its value before the register moved out of is cleared (R211). -/
theorem moveReg_eq_clear_last (f : Reg → Value) (rd rs1 : Reg) (old : Cap) (v : Value) :
    moveReg f rd rs1 old v =
      if rs1 ≠ rd ∧ old.type ≠ .nonLinear then putReg (putReg f rd v) rs1 (.cap cnull) else putReg f rd v := by
  unfold moveReg
  split
  next h => exact putReg_comm f h.1 _ _
  next => rfl

theorem OnlyRegs.setPc (s : State) (v : Value) : OnlyRegs s (s.setPc v) := ⟨by simp [SameControl], rfl⟩

/-- The end that CJALR and a taken CBNZ share: `pc` is already the target, and the target's register is cleared if the target left it. -/
theorem reaches_of_clear {i : Instr} {s u : State} {leaves : Prop} [Decidable leaves] {r : Reg}
    (h : exec i s = .next (if leaves then u.setReg r (.cap cnull) else u)) (hu : OnlyRegs s u) :
    Reaches i s (if leaves then putReg u.capValue r (.cap cnull) else u.capValue) u.pc := by
  split at h
  next hl =>
    rw [if_pos hl]
    exact reaches_of h (u.setReg_putReg r _) (u.setReg_pc r _) (hu.trans (OnlyRegs.setReg u r _))
  next hl =>
    rw [if_neg hl]
    exact reaches_of h (fun _ => rfl) rfl hu

section Jump

variable {s : State} {rd rs1 : Reg} {c : Cap}

/-- CJALR jumps to the capability of `x[rs1]`, and the old `pc`, moved on, goes to `x[rd]` (R211). -/
theorem cjalr_reaches (imm : BitVec 12) (hs : CReady s) (hc : s.capOf? rs1 = some c) :
    Reaches (.cjalr rd rs1 imm) s (moveReg s.capValue rd rs1 c (nextPc s))
      (.cap { c with cursor := c.cursor + imm.signExtend 64 }) := by
  have hdone := ((RunsAs.of_capstoneOp (i := .cjalr rd rs1 imm) hs rfl).cap hc).next
  have hlinked : ((s.setReg rd (nextPc s)).setPc (.cap { c with cursor := c.cursor + imm.signExtend 64 })).capValue =
      putReg s.capValue rd (nextPc s) := funext (s.setReg_putReg rd (nextPc s))
  rw [moveReg_eq_clear_last, ← hlinked]
  exact reaches_of_clear hdone ((OnlyRegs.setReg s rd _).trans (OnlyRegs.setPc _ _))

variable {n : Word} (imm : BitVec 12) (hs : CReady s) (hc : s.capOf? rd = some c) (hn : s.intOf? rs1 = some n)

include hs hc hn

/-- CBNZ on zero moves on (R212). -/
theorem cbnz_zero_completes (h0 : n = 0) : Completes (.cbnz rd rs1 imm) s s.capValue := by
  have hrun := ((RunsAs.of_capstoneOp (i := .cbnz rd rs1 imm) hs rfl).cap hc).int hn
  rw [if_pos h0] at hrun
  exact completes_of hrun.next (fun _ => rfl) rfl (OnlyRegs.refl s)

/-- CBNZ on any other integer jumps to the capability of `x[rd]`, which leaves its register unless its type is 1 (R212). -/
theorem cbnz_taken_reaches (h0 : n ≠ 0) :
    Reaches (.cbnz rd rs1 imm) s
      (if c.type ≠ .nonLinear then putReg s.capValue rd (.cap cnull) else s.capValue)
      (.cap { c with cursor := c.cursor + imm.signExtend 64 }) := by
  have hrun := ((RunsAs.of_capstoneOp (i := .cbnz rd rs1 imm) hs rfl).cap hc).int hn
  rw [if_neg h0] at hrun
  exact reaches_of_clear hrun.next (OnlyRegs.setPc s _)

end Jump

/-- Settles O27: past the operand checks both jumps set `pc` and clear the target's register if the target left it. -/
theorem jumpsToCapabilities : Obligations.JumpsToCapabilities := by
  refine ⟨fun s rd rs1 imm hmode => raises_illegal_of_cModeOnly rfl hmode, fun s rd rs1 imm hs => ?_⟩
  have hcjalr := RunsAs.of_capstoneOp (i := .cjalr rd rs1 imm) hs rfl
  have hcbnz := RunsAs.of_capstoneOp (i := .cbnz rd rs1 imm) hs rfl
  refine ⟨rfl, rfl, hcjalr.raises_of_no_cap, fun c hc => cjalr_reaches imm hs hc,
    hcbnz.raises_of_no_cap_or_int, fun c n hc hn => ⟨cbnz_zero_completes imm hs hc hn, ?copied, ?moved⟩⟩
  case copied =>
    intro h0 ht
    have htaken := cbnz_taken_reaches imm hs hc hn h0
    rwa [if_neg (not_not_intro ht)] at htaken
  case moved =>
    intro h0 ht
    have htaken := cbnz_taken_reaches imm hs hc hn h0
    rwa [if_pos ht] at htaken

end Sys2Proof.Machine

namespace Sys2Proof.Machine

/-! ### CAPENTER (R232) -/

/-- What both forms of CAPENTER make: `pc`, `x10` and `x11`, and `rev_clock` as the form leaves it. -/
def State.withGenesis (s : State) (pc x10 x11 : Cap) (clock : Nat) : State :=
  { ((s.setPc (.cap pc)).setReg 10 (.cap x10)).setReg 11 (.cap x11) with revClock := clock }

/-- The first form makes three capabilities and stamps the last of them with `rev_clock`, which advances (R232). -/
theorem capenterGenesis_eq (s : State) :
    capenterGenesis s = s.withGenesis
      (genesisCap .nonLinear s.pc.address Config.initCodeBase (Config.initCodeEnd - 1) 0)
      (genesisCap .nonLinear Config.initDataBase Config.initDataBase (Config.initDataEnd - 1) 0)
      (genesisCap .revocation 0 0 (BitVec.allOnes 64) s.revClock) (s.revClock + 1) := rfl

/-- The second form makes three capabilities and leaves `rev_clock` (R232). -/
theorem capenterCut_eq (s : State) (b e : Word) :
    capenterCut s b e = s.withGenesis (genesisCap .nonLinear s.pc.address b (e - 1) 0)
      (genesisCap .nonLinear 0 0 (b - 1) 0) (genesisCap .nonLinear e e (BitVec.allOnes 64) 0) s.revClock := rfl

/-- In M-mode with `CAPSTONE_EN = 0` CAPENTER passes both its checks (R232, D13). -/
theorem capenter_runsAs {s : State} (rd rs1 rs2 : Reg) (hen : s.capstoneEn = false) (hpriv : s.priv = .machine) :
    RunsAs (.capenter rd rs1 rs2) s (.ok ({
      (if rs1 = 0 ∧ rs2 = 0 then capenterGenesis s else capenterCut s (s.ival rs1) (s.ival rs2)) with
      capstoneEn := true } : State).advance) := by
  have hrun : RunsAs (.capenter rd rs1 rs2) s _ := rfl
  exact (hrun.pass (by rw [hen]; rfl)).pass (decide_eq_true hpriv)

/-- The end that both forms share: `CAPSTONE_EN` is set and the new `pc` moves on; the rest is as it was (R35, R232). -/
theorem capenter_done {i : Instr} {s : State} {pc x10 x11 : Cap} {clock : Nat}
    (h : exec i s = .next ({ s.withGenesis pc x10 x11 clock with capstoneEn := true } : State).advance) :
    ∃ t, exec i s = .next t ∧ t.pc = .cap { pc with cursor := pc.cursor + 4 } ∧
      (∀ r, t.capValue r = putReg (putReg s.capValue 10 (.cap x10)) 11 (.cap x11) r) ∧
      t.capstoneEn = true ∧ t.revClock = clock ∧
      SameControl s { t with capstoneEn := s.capstoneEn, revClock := s.revClock } ∧ SameMemory s t := by
  refine ⟨_, h, ?pc, fun r => ?registers, rfl, rfl, ?control, ?memory⟩
  case pc =>
    have hpc : (s.withGenesis pc x10 x11 clock).pc = .cap pc := by simp [State.withGenesis]
    rw [State.advance_pc, hpc]
    rfl
  case registers =>
    rw [State.advance_capValue]
    show (((s.setPc (.cap pc)).setReg 10 (.cap x10)).setReg 11 (.cap x11)).capValue r = _
    rw [State.setReg_putReg, funext (State.setReg_putReg _ 10 _)]
    rfl
  case control => simp [SameControl, State.withGenesis]
  case memory => exact SameMemory.of_eq (by simp [State.withGenesis])

/-- Settles O32: past the two checks each form makes its three capabilities, read before any of them is written. -/
theorem capenterMakesGenesis : Obligations.CapenterMakesGenesis := by
  intro s rd rs1 rs2 i genesis done
  refine ⟨rfl, raises_illegal_capenter rd rs1 rs2, fun a hen hpriv hpc => ?_⟩
  have hrun := capenter_runsAs rd rs1 rs2 hen hpriv
  have haddress : s.pc.address = a := by rw [hpc]; rfl
  refine ⟨fun hzero => ?first, fun hform => ?second⟩
  case first =>
    rw [if_pos hzero, capenterGenesis_eq, haddress] at hrun
    exact capenter_done hrun.next
  case second =>
    rw [if_neg hform, capenterCut_eq, haddress] at hrun
    exact capenter_done hrun.next

end Sys2Proof.Machine

namespace Sys2Proof.Machine

/-! ### Base loads and stores in C-mode (R241 to R253) -/

section Range

variable {i : Instr} {s : State} {ea : Word} {n : Nat} {e : Exc} {f : Unit → Except Stop State}

theorem RunsAs.in_memory (h : RunsAs i s (require (s.plat.isMemRange ea n) e ea >>= f)) (hmem : AllMem s ea n) :
    RunsAs i s (f ()) := h.pass ((isMemRange_iff s ea n).mpr hmem)

theorem RunsAs.raises_outside_memory (h : RunsAs i s (require (s.plat.isMemRange ea n) e ea >>= f))
    (hmem : ¬ AllMem s ea n) : Raises i s e ea := h.raises (mt (isMemRange_iff s ea n).mp hmem)

end Range

/-- With no exception 30 to raise, an adjusted base instruction is the list and effect of its own rule. -/
theorem RunsAs.of_adjustedOp {i : Instr} {s : State} {body : Except Stop State} (hs : Roomy s)
    (h : exec i s = adjustedOp i s body) : RunsAs i s body := h.trans (adjustedOp_ready body hs)

/-- Each of the seven loads: its word, its size, and that it is `load` with that size and its extension. -/
theorem loadForm_spec {rd rs1 : Reg} {imm : BitVec 12} {f : LoadForm} (hf : f ∈ loadForms rd rs1 imm) :
    encode f.instr = imm ++ rs1 ++ f.funct3 ++ rd ++ 0b0000011#7 ∧
      (f.size = 1 ∨ f.size = 2 ∨ f.size = 4 ∨ f.size = 8) ∧
      ∀ s, exec f.instr s = adjustedOp f.instr s (load s rd rs1 imm f.size f.signed) := by
  simp only [loadForms, List.mem_cons, List.not_mem_nil, or_false] at hf
  rcases hf with rfl | rfl | rfl | rfl | rfl | rfl | rfl <;> exact ⟨rfl, by simp, fun _ => rfl⟩

/-- Each of the four stores: its word, its size, and that it is `store` with that size. -/
theorem storeForm_spec {rs1 rs2 : Reg} {imm : BitVec 12} {f : StoreForm} (hf : f ∈ storeForms rs1 rs2 imm) :
    encode f.instr = imm.extractLsb' 5 7 ++ rs2 ++ rs1 ++ f.funct3 ++ imm.extractLsb' 0 5 ++ 0b0100011#7 ∧
      (f.size = 1 ∨ f.size = 2 ∨ f.size = 4 ∨ f.size = 8) ∧
      ∀ s, exec f.instr s = adjustedOp f.instr s (store s rs1 rs2 imm f.size) := by
  simp only [storeForms, List.mem_cons, List.not_mem_nil, or_false] at hf
  rcases hf with rfl | rfl | rfl | rfl <;> exact ⟨rfl, by simp, fun _ => rfl⟩

/-- In C-mode a load is its address operand, its read list, the memory check and its effect (R241). -/
theorem load_cMode {s : State} (rd rs1 : Reg) (imm : BitVec 12) (n : Nat) (signed : Bool) (hs : s.inCMode = true) :
    load s rd rs1 imm n signed = (do
      let c ← requireCap s rs1
      authorizeLoad s c (c.effectiveAddress imm) n
      require (s.plat.isMemRange (c.effectiveAddress imm) n) .loadAccess (c.effectiveAddress imm)
      .ok (loadEffect s rd (c.effectiveAddress imm) n signed)) := by
  simp only [load, loadAddress, hs, if_true, loadAddressC, bind_assoc, except_ok_bind]

/-- In C-mode a store is its two operands, its write list, the memory check and its effect (R249). -/
theorem store_cMode {s : State} (rs1 rs2 : Reg) (imm : BitVec 12) (n : Nat) (hs : s.inCMode = true) :
    store s rs1 rs2 imm n = (do
      let c ← requireCap s rs1
      let v ← requireInt s rs2
      authorizeStore s c imm (c.effectiveAddress imm) n
      require (s.plat.isMemRange (c.effectiveAddress imm) n) .storeAccess (c.effectiveAddress imm)
      .ok (storeEffect s (c.effectiveAddress imm) v n)) := by
  simp only [store, storeTarget, hs, if_true, storeTargetC, bind_assoc, except_ok_bind]

/-- What a store that completes leaves (R86, R249). -/
theorem stores_of_storeEffect {i : Instr} {s : State} {ea v : Word} {n : Nat}
    (hn : n = 1 ∨ n = 2 ∨ n = 4 ∨ n = 8) (ha : ea.toNat % n = 0) (hwf : s.MemWf)
    (h : exec i s = .next (storeEffect s ea v n)) :
    ∃ t, exec i s = .next t ∧ StoredInt s t ea n v ∧ t.regs = s.regs ∧ t.pc = nextPc s ∧ SameControl s t :=
  ⟨_, h, storedInt_writeInt hn ha hwf rfl, rfl, State.advance_nextPc rfl, by simp [storeEffect, SameControl]⟩

/-- Settles O9: every load is `load`, whose read list leads to the memory check and the effect. -/
theorem loadsInCMode : Obligations.LoadsInCMode := by
  intro s rd rs1 imm hs f hf
  obtain ⟨hword, hsize, hexec⟩ := loadForm_spec hf
  have hrun := RunsAs.of_adjustedOp (fun _ => hs.2) (hexec s)
  rw [load_cMode rd rs1 imm f.size f.signed hs.1] at hrun
  refine ⟨hword, hrun.raises_of_no_cap, fun c hc => ?_⟩
  intro ea
  have hlist := hrun.cap hc
  refine ⟨fun hg ha hmem => ?completes, readChecks_of (fun hlast => ?noMemory) hlist⟩
  case completes => exact computes_of_load hsize ((hlist.granted_read hg ha).in_memory hmem).next
  case noMemory => exact RunsAs.raises_outside_memory hlast

/-- Settles O10: every store is `store`, whose write list leads to the memory check and the effect. -/
theorem storesInCMode : Obligations.StoresInCMode := by
  intro s rs1 rs2 imm hs f hf
  obtain ⟨hword, hsize, hexec⟩ := storeForm_spec hf
  have hrun := RunsAs.of_adjustedOp (fun _ => hs.2) (hexec s)
  rw [store_cMode rs1 rs2 imm f.size hs.1] at hrun
  refine ⟨hword, hrun.raises_of_no_cap, fun c hc => ?_⟩
  intro ea
  have hvalue := hrun.cap hc
  refine ⟨hvalue.raises_of_no_int, fun v hv => ?_⟩
  have hlist := hvalue.int hv
  refine ⟨fun hwf hg ha hmem => ?completes, writeChecks_of (fun hlast => ?noMemory) hlist⟩
  case completes => exact stores_of_storeEffect hsize ha hwf ((hlist.granted_write hg ha).in_memory hmem).next
  case noMemory => exact RunsAs.raises_outside_memory hlast

end Sys2Proof.Machine

namespace Sys2Proof.Machine

/-! ### Branches and jumps in C-mode (R254 to R262) -/

section CModeJump

variable {i : Instr} {s : State} {c : Cap} (hs : s.inCMode = true) (hpc : s.pc = .cap c)

include hs hpc

/-- In C-mode control moves to any target: nothing is checked, and only the cursor of `pc` moves (R254). -/
theorem jumpTo_cMode (target : Word) : jumpTo s target = .ok (s.setPc (.cap { c with cursor := target })) := by
  rw [jumpTo, if_pos hs, hpc]
  rfl

/-- A branch in C-mode moves the cursor by its offset when it is taken, and by 4 when it is not (R254). -/
theorem branch_reaches {taken : Bool} {imm : BitVec 13} {p : Prop} (h : RunsAs i s (branch s taken imm))
    (hp : taken = true ↔ p) :
    (p → Reaches i s s.capValue (.cap { c with cursor := c.cursor + imm.signExtend 64 })) ∧
      (¬ p → Reaches i s s.capValue (.cap { c with cursor := c.cursor + 4 })) := by
  constructor
  · intro htaken
    rw [branch, if_pos (hp.mpr htaken), jumpTo_cMode hs hpc, hpc] at h
    exact reaches_of h.next (fun _ => rfl) rfl (OnlyRegs.setPc s _)
  · intro hstays
    rw [branch, if_neg (mt hp.mp hstays)] at h
    exact reaches_of h.next (fun _ => rfl) (by rw [State.advance_pc, hpc]; rfl) (OnlyRegs.setPc s _)

/-- A jump in C-mode moves the cursor to its target and links with the integer `pc.cursor + 4` (R261, R262). -/
theorem jumpAndLink_reaches {rd : Reg} {target : Word} (h : RunsAs i s (jumpAndLink s rd target)) :
    Reaches i s (putReg s.capValue rd (.int (c.cursor + 4))) (.cap { c with cursor := target }) := by
  rw [jumpAndLink, jumpTo_cMode hs hpc, except_ok_bind, hpc] at h
  exact reaches_of h.next (State.setReg_putReg _ rd _) (State.setReg_pc _ rd _)
    ((OnlyRegs.setPc s _).trans (OnlyRegs.setReg _ rd _))

end CModeJump

/-- Settles O7: every branch is `branch` with its comparison, every jump `jumpAndLink` with its target. -/
theorem branchesAndJumpsInCMode : Obligations.BranchesAndJumpsInCMode := by
  refine ⟨fun _ _ _ _ _ _ => ⟨rfl, rfl, rfl, rfl, rfl, rfl, rfl, rfl⟩, fun s c hs hpc => ⟨?branches, ?jal, ?jalr⟩⟩
  case branches =>
    intro rs1 rs2 imm a b goes
    have hbranch {i : Instr} {taken : Bool} {p : Prop} (h : RunsAs i s (branch s taken imm))
        (hp : taken = true ↔ p) : goes i p := branch_reaches hs hpc h hp
    refine ⟨hbranch rfl decide_eq_true_iff, hbranch rfl decide_eq_true_iff,
      hbranch rfl BitVec.slt_iff_toInt_lt, hbranch rfl ?signed, hbranch rfl BitVec.ult_iff_toNat_lt,
      hbranch rfl ?unsigned⟩
    case signed => rw [Bool.not_eq_true', ← Bool.not_eq_true, BitVec.slt_iff_toInt_lt]
    case unsigned => rw [Bool.not_eq_true', ← Bool.not_eq_true, BitVec.ult_iff_toNat_lt, Nat.not_lt]
  case jal =>
    intro rd imm
    have hjal : RunsAs (.jal rd imm) s (jumpAndLink s rd (s.pc.address + imm.signExtend 64)) := rfl
    rw [hpc] at hjal
    exact jumpAndLink_reaches hs hpc hjal
  case jalr =>
    intro rd rs1 imm
    exact jumpAndLink_reaches hs hpc rfl

end Sys2Proof.Machine

namespace Sys2Proof.Machine

/-! ### Which CSRs exist (R266, R338) -/

/-- The number of a CSR (R36, R37, R40, R57, R338): `CsrName.ofNumber` the other way round. -/
def CsrName.number : CsrName → Nat
  | .mstatus => 0x300
  | .misa => 0x301
  | .medeleg => 0x302
  | .mideleg => 0x303
  | .mie => 0x304
  | .mtvec => 0x305
  | .mcounteren => 0x306
  | .mscratch => 0x340
  | .mepc => 0x341
  | .mcause => 0x342
  | .mtval => 0x343
  | .mip => 0x344
  | .mtinst => 0x34a
  | .mtval2 => 0x34b
  | .mvendorid => 0xf11
  | .marchid => 0xf12
  | .mimpid => 0xf13
  | .mhartid => 0xf14
  | .sstatus => 0x100
  | .sie => 0x104
  | .stvec => 0x105
  | .scounteren => 0x106
  | .sscratch => 0x140
  | .sepc => 0x141
  | .scause => 0x142
  | .stval => 0x143
  | .sip => 0x144
  | .satp => 0x180
  | .cis => 0x800
  | .cid => 0x801
  | .cic => 0x802
  | .offsetmmu => 0x803

theorem CsrName.ofNumber_number (c : CsrName) : CsrName.ofNumber (BitVec.ofNat 12 c.number) = some c := by
  cases c <;> rfl

theorem CsrName.number_of_ofNumber {csr : BitVec 12} {c : CsrName} (h : CsrName.ofNumber csr = some c) :
    csr.toNat = c.number := by
  unfold CsrName.ofNumber at h
  split at h <;> cases h <;> assumption

/-- A CSR number names the CSR whose number it is. -/
theorem CsrName.ofNumber_iff {csr : BitVec 12} {c : CsrName} :
    CsrName.ofNumber csr = some c ↔ csr.toNat = c.number := by
  refine ⟨CsrName.number_of_ofNumber, fun h => ?_⟩
  have hcsr : csr = BitVec.ofNat 12 c.number := by rw [← h, BitVec.ofNat_toNat, BitVec.setWidth_eq]
  rw [hcsr, c.ofNumber_number]

/-- The number names a CSR that exists in the current mode. -/
abbrev CsrHere (s : State) (csr : BitVec 12) : Prop := ∃ c, CsrName.ofNumber csr = some c ∧ csrExists s c = true

/-- The numbers that exist are those of the CSRs that do: of a list of names, and with a property of their numbers. -/
theorem csrHere_iff_and {s : State} {names : List CsrName} {Q : Nat → Prop}
    (h : ∀ c, csrExists s c = true ↔ c ∈ names ∧ Q c.number) (csr : BitVec 12) :
    CsrHere s csr ↔ csr.toNat ∈ names.map CsrName.number ∧ Q csr.toNat := by
  simp only [CsrHere, CsrName.ofNumber_iff, h, List.mem_map]
  constructor
  · rintro ⟨c, hn, hc, hq⟩
    exact ⟨⟨c, hc, hn.symm⟩, hn ▸ hq⟩
  · rintro ⟨⟨c, hc, hn⟩, hq⟩
    exact ⟨c, hn.symm, hc, hn ▸ hq⟩

theorem csrHere_iff {s : State} {names : List CsrName} (h : ∀ c, csrExists s c = true ↔ c ∈ names) (csr : BitVec 12) :
    CsrHere s csr ↔ csr.toNat ∈ names.map CsrName.number := by
  simpa using csrHere_iff_and (Q := fun _ => True) (by simpa using h) csr

/-- C-mode is mode ID 3 with `CAPSTONE_EN = 1` (R22). -/
theorem State.inCMode_iff (s : State) : s.inCMode = true ↔ s.capstoneEn = true ∧ s.priv = .machine := by
  simp [State.inCMode]

/-- C-mode keeps the M-mode CSRs of R36, has the four added ones, and the supervisor ones (R266). -/
theorem csrExists_cMode {s : State} (hs : s.inCMode = true) (c : CsrName) :
    csrExists s c = true ↔ c ∈ CsrName.kept ++ CsrName.added ++ CsrName.supervisor := by
  obtain ⟨hen, hp⟩ := s.inCMode_iff.mp hs
  simp [csrExists, hp, hen, or_assoc]

/-- M-mode with `CAPSTONE_EN = 0` has every CSR but the four added ones (R338, D9). -/
theorem csrExists_mMode {s : State} (hp : s.priv = .machine) (hen : s.capstoneEn = false) (c : CsrName) :
    csrExists s c = true ↔ c ∉ CsrName.added := by
  simp [csrExists, hp, hen]

/-- S-mode has the supervisor CSRs and `scounteren`, but `satp` not with TVM set (R338). -/
theorem csrExists_supervisor {s : State} (hp : s.priv = .supervisor) (c : CsrName) :
    csrExists s c = true ↔
      c ∈ CsrName.scounteren :: CsrName.supervisor ∧ ¬ (c.number = 0x180 ∧ bitOf s.csr.mstatus 20 = true) := by
  have hsatp : c.number = 0x180 ↔ c = .satp := by cases c <;> decide
  rw [hsatp]
  simp [csrExists, hp, mstatusTVM, or_comm, imp_iff_or_not]

theorem csrExists_user {s : State} (hp : s.priv = .user) (c : CsrName) : csrExists s c = false := by
  rw [csrExists, hp]

/-- Each CSR instruction is the shared CSR operation, writing when `csrWrites` says so (R330 to R335). -/
theorem runsAs_of_mem_csrForms {i : Instr} {rd rs1 : Reg} {csr : BitVec 12} (hi : i ∈ csrForms rd csr rs1)
    (s : State) :
    ∃ read new, RunsAs i s (csrOp s rd csr read (csrWrites i) new) := by
  simp only [csrForms, List.mem_cons, List.not_mem_nil, or_false] at hi
  rcases hi with rfl | rfl | rfl | rfl | rfl | rfl <;> exact ⟨_, _, rfl⟩

/-- The access check stops at a CSR of a higher privilege, at a write of a read-only one, and at one that does not exist here (R338). -/
theorem requireCsr_illegal {s : State} {csr : BitVec 12} {write : Bool}
    (h : s.priv.code.toNat < (csr.extractLsb' 8 2).toNat ∨ (write = true ∧ csr.extractLsb' 10 2 = 3) ∨
      ¬ CsrHere s csr) :
    requireCsr s csr write = .error (.raise .illegal 0) := by
  unfold requireCsr
  split
  · rfl
  · next hp =>
    split
    · rfl
    · next hw =>
      have hnone : ¬ CsrHere s csr := (h.resolve_left hp).resolve_left (by simpa using hw)
      split
      · next c hc => rw [if_neg fun hexists => hnone ⟨c, hc, hexists⟩]
      · rfl

/-- The CSRs of M-mode with `CAPSTONE_EN = 0`, listed (R338); `mem_mMode_iff` ties the list to the model. -/
def CsrName.mMode : List CsrName :=
  [.mstatus, .misa, .medeleg, .mideleg, .mie, .mtvec, .mcounteren, .mscratch, .mepc, .mcause, .mtval, .mip, .mtinst,
    .mtval2, .mvendorid, .marchid, .mimpid, .mhartid, .scounteren] ++ CsrName.supervisor

theorem CsrName.mem_mMode_iff (c : CsrName) : c ∈ CsrName.mMode ↔ c ∉ CsrName.added := by
  cases c <;> decide

/-- Settles O34: the numbers that exist are read off the names that do, mode by mode, and the access check comes first in every CSR instruction. -/
theorem csrAccessCheck : Obligations.CsrAccessCheck := by
  unfold Obligations.CsrAccessCheck
  intro supervisor exist
  refine ⟨fun s csr => ⟨?cMode, ?mMode, ?sMode, ?uMode⟩, ?illegal, by decide, rfl⟩
  case cMode => exact fun hs => csrHere_iff (csrExists_cMode hs) csr
  case mMode =>
    exact fun hp hen => csrHere_iff (fun c => (csrExists_mMode hp hen c).trans c.mem_mMode_iff.symm) csr
  case sMode =>
    intro hp
    exact csrHere_iff_and (Q := fun n => ¬ (n = 0x180 ∧ bitOf s.csr.mstatus 20 = true)) (csrExists_supervisor hp) csr
  case uMode =>
    rintro hp ⟨c, -, hc⟩
    rw [csrExists_user hp c] at hc
    cases hc
  case illegal =>
    intro s rd rs1 csr i hi h
    obtain ⟨read, new, hrun⟩ := runsAs_of_mem_csrForms hi s
    rwa [csrOp, requireCsr_illegal h] at hrun

end Sys2Proof.Machine

namespace Sys2Proof.Machine

/-! ### Fence and the supervisor instructions (R267, R326, R329, R336) -/

/-- Where a supervisor instruction is permitted (R267, R329, R336). -/
theorem supervisorPermitted_iff (s : State) (trapBit : Nat) :
    supervisorPermitted s trapBit = true ↔
      s.priv = .machine ∧ s.capstoneEn = false ∨ s.priv = .supervisor ∧ bitOf s.csr.mstatus trapBit = false := by
  cases hp : s.priv <;> simp [supervisorPermitted, hp]

/-- Where a supervisor instruction is illegal (R267, R329, R336). -/
theorem supervisorPermitted_false_iff (s : State) (trapBit : Nat) :
    supervisorPermitted s trapBit = false ↔
      s.inCMode = true ∨ s.priv = .user ∨ s.priv = .supervisor ∧ bitOf s.csr.mstatus trapBit = true := by
  cases hp : s.priv <;> simp [supervisorPermitted, State.inCMode, hp]

/-- A supervisor instruction with no effect of its own: it moves on where it is permitted, and is illegal elsewhere. -/
theorem waits_of_supervisorPermitted {i : Instr} {s : State} {trapBit : Nat}
    (h : RunsAs i s (require (supervisorPermitted s trapBit) .illegal >>= fun _ => .ok s.advance)) :
    (s.priv = .machine ∧ s.capstoneEn = false ∨ s.priv = .supervisor ∧ bitOf s.csr.mstatus trapBit = false →
      Completes i s s.capValue) ∧
    (s.inCMode = true ∨ s.priv = .user ∨ s.priv = .supervisor ∧ bitOf s.csr.mstatus trapBit = true →
      Raises i s .illegal) := by
  constructor
  · intro hok
    have hdone := (h.pass ((supervisorPermitted_iff s trapBit).mpr hok)).next
    exact completes_of hdone (fun _ => rfl) rfl (OnlyRegs.refl s)
  · intro hbad
    exact h.raises (Bool.eq_false_iff.mp ((supervisorPermitted_false_iff s trapBit).mpr hbad))

/-- Settles O37: `fence` only moves on, and the two supervisor instructions do so after one check. -/
theorem fenceAndWaitDoNothing : Obligations.FenceAndWaitDoNothing := by
  intro s rd rs1 rs2 fm pred succ
  obtain ⟨hwfi, hwfiIllegal⟩ := waits_of_supervisorPermitted (i := .wfi) (s := s) (trapBit := mstatusTW) rfl
  obtain ⟨hsfence, hsfenceIllegal⟩ :=
    waits_of_supervisorPermitted (i := .sfenceVma rs1 rs2) (s := s) (trapBit := mstatusTVM) rfl
  exact ⟨rfl, rfl, rfl, completes_of rfl (fun _ => rfl) rfl (OnlyRegs.refl s), hwfi, hsfence, hwfiIllegal,
    hsfenceIllegal⟩

end Sys2Proof.Machine

namespace Sys2Proof.Machine

/-! ### What a trap into mode ID 3 records (R360, R362) -/

/-- MPP as `withMpp` writes a level (R22, R52). -/
theorem levelBits_withMpp (w : Word) (p : Priv) : LevelBits (withMpp w p.code) 11 p := by
  rw [LevelBits, bitOf_withMpp, bitOf_withMpp, if_pos rfl, if_neg (by decide), if_pos rfl]
  cases p <;> decide

/-- Trap entry into mode ID 3 saves MIE in MPIE, clears it, and keeps the level in MPP (R360, R362). -/
theorem trapMstatus_bits (ms : Word) (p : Priv) :
    bitOf (trapMstatus ms p) 7 = bitOf ms 3 ∧ bitOf (trapMstatus ms p) 3 = false ∧
      LevelBits (trapMstatus ms p) 11 p ∧ SameBits ms (trapMstatus ms p) [3, 7, 11, 12] := by
  have hbit (n : Nat) : bitOf (withBit (withBit ms mstatusMPIE (bitOf ms mstatusMIE)) mstatusMIE false) n =
      if n = 3 then false else if n = 7 then bitOf ms 3 else bitOf ms n := by
    rw [bitOf_withBit _ (by decide), bitOf_withBit _ (by decide)]
    rfl
  refine ⟨?mpie, ?mie, levelBits_withMpp _ p, fun n hn => ?others⟩
  case mpie => simp [trapMstatus, bitOf_withMpp, hbit]
  case mie => simp [trapMstatus, bitOf_withMpp, hbit]
  case others =>
    simp only [List.mem_cons, List.not_mem_nil, or_false, not_or] at hn
    obtain ⟨h3, h7, h11, h12⟩ := hn
    rw [trapMstatus, bitOf_withMpp, if_neg h11, if_neg h12, hbit, if_neg h3, if_neg h7]

/-- The cause word sets bit 63 for an interrupt (R54, R360). -/
theorem causeWord_eq (interrupt : Bool) (code : Word) :
    causeWord interrupt code = (if interrupt then 0x8000000000000000 else 0) ||| code := by
  cases interrupt
  · exact (BitVec.zero_or ..).symm
  · exact BitVec.or_comm ..

/-- The record of a trap into mode ID 3, from the CSRs it leaves and its frame (R360, R362). -/
theorem TrapFrame.recorded {s t : State} {interrupt : Bool} {code tval tval2 tinst mepc : Word} (h : TrapFrame s t)
    (hcsr : t.csr = { s.csr with
      mcause := causeWord interrupt code, mtval := tval, mtval2 := tval2, mtinst := tinst
      mstatus := trapMstatus s.csr.mstatus s.priv, mepc := mepc })
    (hp : t.priv = .machine) : TrapRecorded s t interrupt code tval tval2 tinst := by
  obtain ⟨hmpie, hmie, hlevel, hothers⟩ := trapMstatus_bits s.csr.mstatus s.priv
  refine ⟨?csr, ?mpie, ?mie, ?level, ?others, hp, h.regs, h.mem, h.capstoneEn, h.revClock, h.inputs, h.plat, h.cih,
    h.cscratch, h.cpmp⟩
  case csr => rw [hcsr, causeWord_eq]
  all_goals rw [hcsr]; assumption

section TrapEntry

variable (s : State) (interrupt : Bool) (code tval tval2 tinst : Word)

/-- Trap entry into M-mode records the trap (R362). -/
theorem trapRecorded_takeTrapM :
    TrapRecorded s (takeTrapM interrupt code tval tval2 tinst s) interrupt code tval tval2 tinst :=
  TrapFrame.recorded (by constructor <;> rfl) rfl rfl

/-- Trap entry into C-mode, case A: the capability of `ctvec` is installed in `pc`, and the old `pc` saved in `cepc` (R360, D50). -/
theorem takeTrapC_installs {d : Cap} (hd : s.ccsr.ctvec = .cap d) :
    ∃ t, takeTrapC interrupt code tval tval2 tinst s = .ok t ∧
      TrapRecorded s t interrupt code tval tval2 tinst ∧ t.csr.mepc = s.csr.mepc ∧ t.ccsr.cepc = s.pc ∧
      t.pc = .cap d ∧ t.ccsr.ctvec = (if d.type = .nonLinear then .cap d else .int d.cursor) := by
  simp only [takeTrapC, hd]
  exact ⟨_, rfl, TrapFrame.recorded (by constructor <;> rfl) rfl rfl, rfl, rfl, rfl, rfl⟩

/-- Trap entry into C-mode, case B: the capability of `pc` takes the integer of `ctvec` for its cursor, and the old cursor is saved in `cepc` (R360). -/
theorem takeTrapC_redirects {n : Word} {c : Cap} (hn : s.ccsr.ctvec = .int n) (hc : s.pc = .cap c) :
    ∃ t, takeTrapC interrupt code tval tval2 tinst s = .ok t ∧
      TrapRecorded s t interrupt code tval tval2 tinst ∧ t.csr.mepc = s.csr.mepc ∧ t.ccsr.cepc = .int c.cursor ∧
      t.pc = .cap { c with cursor := n } ∧ t.ccsr.ctvec = s.ccsr.ctvec := by
  simp only [takeTrapC, hn, hc]
  exact ⟨_, rfl, TrapFrame.recorded (by constructor <;> rfl) rfl rfl, rfl, rfl, rfl, rfl⟩

end TrapEntry

/-! ### Environment calls and breakpoints (R263, R264, R324, R325) -/

theorem raises_ecall {s : State} (hs : Roomy s) : Raises .ecall s (ecallCause s) := adjustedOp_ready _ hs

theorem raises_ebreak {s : State} (hs : Roomy s) : Raises .ebreak s .breakpoint := adjustedOp_ready _ hs

/-- At mode ID 3 both are a trap into mode ID 3, with no data (R263, R264, D34). -/
theorem exec_ecall_ebreak_machine {s : State} {x : Instr × Word} (hs : Roomy s) (hp : s.priv = .machine)
    (hx : x ∈ [(Instr.ecall, (11 : Word)), (.ebreak, 3)]) :
    exec x.1 s = trapOutcome (takeTrapTop false x.2 0 0 0 s) := by
  simp only [List.mem_cons, List.not_mem_nil, or_false] at hx
  rcases hx with rfl | rfl
  case inl =>
    have hraises := raises_ecall hs
    rwa [ecallCause, hp, Raises, takeException_machine hp] at hraises
  case inr =>
    have hraises := raises_ebreak hs
    rwa [Raises, takeException_machine hp] at hraises

/-- Settles O36: each raises its cause, and at mode ID 3 completes by the trap entry of its mode. -/
theorem ecallAndEbreakTrap : Obligations.EcallAndEbreakTrap := by
  refine ⟨rfl, rfl, ?causes, ?traps⟩
  case causes =>
    intro s hs
    have hecall := raises_ecall hs
    refine ⟨raises_ebreak hs, fun hp => ?_, fun hp => ?_, fun hp => ?_⟩ <;> rwa [ecallCause, hp] at hecall
  case traps =>
    intro s hs hp x hx
    rw [exec_ecall_ebreak_machine hs hp hx, takeTrapTop]
    refine ⟨fun hen => ?mMode, fun d hen hd => ?installs, fun n c hen hn hc => ?redirects⟩
    case mMode =>
      rw [hen, if_neg (by decide)]
      exact ⟨_, rfl, trapRecorded_takeTrapM .., rfl, rfl, rfl⟩
    case installs =>
      obtain ⟨t, ht, hrest⟩ := takeTrapC_installs s false x.2 0 0 0 hd
      rw [if_pos hen, ht]
      exact ⟨t, rfl, hrest⟩
    case redirects =>
      obtain ⟨t, ht, hrest⟩ := takeTrapC_redirects s false x.2 0 0 0 hn hc
      rw [if_pos hen, ht]
      exact ⟨t, rfl, hrest⟩

end Sys2Proof.Machine

namespace Sys2Proof.Machine

/-! ### MRET in C-mode (R265) -/

/-- `mstatus` after MRET to `p`, bit by bit (R265, R327). -/
theorem bitOf_mretMstatus (ms : Word) (p : Priv) (n : Nat) :
    bitOf (mretMstatus ms p) n = if n = 17 ∧ p ≠ .machine then false else if n = 11 ∨ n = 12 then false
      else if n = 7 then true else if n = 3 then bitOf ms 7 else bitOf ms n := by
  have hfields : bitOf (withMpp (withBit (withBit ms mstatusMIE (bitOf ms mstatusMPIE)) mstatusMPIE true) 0) n =
      if n = 11 ∨ n = 12 then false else if n = 7 then true else if n = 3 then bitOf ms 7 else bitOf ms n := by
    rw [bitOf_withMpp, bitOf_withBit _ (by decide), bitOf_withBit _ (by decide), ite_or]
    rfl
  unfold mretMstatus
  dsimp only
  split
  · next hp => simpa [hp] using hfields
  · next hp =>
    rw [bitOf_withBit _ (by decide), hfields]
    simp [mstatusMPRV, hp]

/-- MRET restores MIE from MPIE, and clears MPRV unless it returns to mode ID 3 (R265, R327). -/
theorem mretStatus_mretMstatus (ms : Word) (p : Priv) : MretStatus ms (mretMstatus ms p) p := by
  refine ⟨by simp [bitOf_mretMstatus], by simp [bitOf_mretMstatus], by simp [LevelBits, bitOf_mretMstatus], ?mprv,
    fun n hn => ?others⟩
  case mprv => by_cases hp : p = .machine <;> simp [bitOf_mretMstatus, hp]
  case others =>
    simp only [List.mem_cons, List.not_mem_nil, or_false, not_or] at hn
    obtain ⟨h3, h7, h11, h12, h17⟩ := hn
    simp [bitOf_mretMstatus, h3, h7, h11, h12, h17]

/-- MRET at mode ID 3 with a level in MPP returns to that level, by `CAPSTONE_EN` (R265, R327). -/
theorem exec_mret {s : State} {p : Priv} (hp : s.priv = .machine) (hmpp : LevelBits s.csr.mstatus 11 p) :
    exec .mret s = .next (if s.capstoneEn then returnC p s else returnM p s) := by
  have hrun : RunsAs .mret s _ := rfl
  have hlevel : mppPriv s = .ok p := by rw [mppPriv, (mpp_level s.csr.mstatus p).mpr hmpp]
  rw [hlevel] at hrun
  exact (hrun.pass (decide_eq_true hp)).next

section ReturnC

variable {s : State} {c : Cap} (p : Priv) (hpc : s.pc = .cap c)

/-- A capability in `ctvec` stays there (R265). -/
theorem mretCtvec_cap {d : Cap} (hd : s.ccsr.ctvec = .cap d) : mretCtvec s = .cap d := by
  rw [mretCtvec, hd]

/-- A capability in `cepc` goes to `pc`: moved and not copied, unless it is non-linear (R265, D15). -/
theorem mretPc_cap {e : Cap} (he : s.ccsr.cepc = .cap e) :
    mretPc p s = .cap e ∧ mretCepc s = (if e.type = .nonLinear then .cap e else .int e.cursor) := by
  constructor
  · rw [mretPc, he]
  · rw [mretCepc, he]

theorem mretCepc_int {n : Word} (hn : s.ccsr.cepc = .int n) : mretCepc s = .int n := by
  rw [mretCepc, hn]

include hpc

/-- An integer in `ctvec` takes the `pc` capability back, with that cursor (R265). -/
theorem mretCtvec_int {n : Word} (hn : s.ccsr.ctvec = .int n) : mretCtvec s = .cap { c with cursor := n } := by
  rw [mretCtvec, hn, hpc]
  rfl

/-- The `pc` capability is still in `pc` when `ctvec` took nothing back, or a copy (R265). -/
theorem mretLent_false_iff : mretLent s = false ↔ s.ccsr.ctvec.isCap = true ∨ c.type = .nonLinear := by
  rw [mretLent, hpc]
  cases s.ccsr.ctvec <;> simp [Value.isInt, Value.isCap, Value.movesOut]

/-- An integer in `cepc` is the cursor of the `pc` capability on a return to C-mode that still has it, else `pc` itself (R265, D15). -/
theorem mretPc_int {n : Word} (hn : s.ccsr.cepc = .int n) :
    (p = .machine ∧ (s.ccsr.ctvec.isCap = true ∨ c.type = .nonLinear) → mretPc p s = .cap { c with cursor := n }) ∧
      (¬ (p = .machine ∧ (s.ccsr.ctvec.isCap = true ∨ c.type = .nonLinear)) → mretPc p s = .int n) := by
  rw [← mretLent_false_iff hpc]
  constructor
  · intro hkept
    simp only [mretPc, hn, if_pos hkept, hpc]
    rfl
  · intro hleft
    simp only [mretPc, hn, if_neg hleft]

end ReturnC

/-- Settles O39: MRET is `returnC`, whose `ctvec`, `cepc` and `pc` are each known for both kinds of value. -/
theorem mretInCMode : Obligations.MretInCMode := by
  intro s c p hs hpc hmpp
  obtain ⟨hen, hp⟩ := s.inCMode_iff.mp hs
  have hdone := exec_mret hp hmpp
  rw [if_pos hen] at hdone
  exact ⟨_, hdone, rfl, mretStatus_mretMstatus _ p, fun _ => mretCtvec_cap, fun _ => mretCtvec_int hpc,
    fun _ => mretPc_cap p, fun _ hn => ⟨mretCepc_int hn, mretPc_int p hpc hn⟩, rfl, SameMemory.of_eq rfl,
    ⟨rfl, rfl, rfl, rfl, rfl, rfl, rfl⟩⟩

end Sys2Proof.Machine

namespace Sys2Proof.Machine

/-! ### Words as numbers: sums and shifts over the integers (R281, R305 to R323) -/

section Words

variable {w : Nat}

theorem add_eq_ofInt (a b : BitVec w) : a + b = BitVec.ofInt w (a.toInt + b.toInt) := by
  rw [BitVec.ofInt_add, BitVec.ofInt_toInt, BitVec.ofInt_toInt]

theorem sub_eq_ofInt (a b : BitVec w) : a - b = BitVec.ofInt w (a.toInt - b.toInt) := by
  rw [Int.sub_eq_add_neg, BitVec.ofInt_add, BitVec.ofInt_neg, BitVec.ofInt_toInt, BitVec.ofInt_toInt,
    BitVec.sub_eq_add_neg]

theorem shiftLeft_eq_ofNat (a : BitVec w) (n : Nat) : a <<< n = BitVec.ofNat w (a.toNat * 2 ^ n) := by
  rw [← Nat.shiftLeft_eq]
  rfl

theorem ushiftRight_eq_ofNat (a : BitVec w) (n : Nat) : a >>> n = BitVec.ofNat w (a.toNat / 2 ^ n) := by
  rw [← Nat.shiftRight_eq_div_pow, ← BitVec.toNat_ushiftRight, BitVec.ofNat_toNat, BitVec.setWidth_eq]

theorem sshiftRight_eq_ofInt (a : BitVec w) (n : Nat) : a.sshiftRight n = BitVec.ofInt w (a.toInt / 2 ^ n) := by
  rw [BitVec.sshiftRight_eq, Int.shiftRight_eq_div_pow, Nat.cast_pow, Nat.cast_ofNat]

end Words

/-- A sum with a sign-extended immediate, over the integers (R305). -/
theorem add_signExtend_eq_ofInt (a : Word) {n : Nat} (imm : BitVec n) :
    a + imm.signExtend 64 = BitVec.ofInt 64 (a.toInt + imm.toInt) := by
  rw [BitVec.ofInt_add, BitVec.ofInt_toInt]
  rfl

/-- A comparison as the number 1 or 0 (R306). -/
theorem truth_eq_ite {b : Bool} {p : Prop} [Decidable p] (h : b = true ↔ p) : truth b = if p then 1 else 0 := by
  simp only [truth, h]

/-- The shift amount of a 64-bit shift by register: the low 6 bits, a number below 64 (R316). -/
theorem amount6_eq (b : Word) : amount6 b = b.toNat % 64 := BitVec.toNat_setWidth 6 b

/-- The shift amount of a 32-bit shift by register: the low 5 bits, a number below 32 (R345). -/
theorem amount5_eq (b : Word) : amount5 b = b.toNat % 32 := BitVec.toNat_setWidth 5 b

/-- An arithmetic instruction computes the number its rule gives (R282). -/
theorem computes_of_writeResult {i : Instr} {s : State} {rd : Reg} {v result : Word}
    (h : exec i s = .next (writeResult s rd result)) (hv : result = v) : Computes i s rd v := by
  subst hv
  exact computes_of h

/-! ### Register-immediate arithmetic (R305 to R313) -/

/-- Settles O3: each result is the word of its number over the integers. -/
theorem registerImmediateArithmetic : Obligations.RegisterImmediateArithmetic := by
  intro s rd rs1 imm sh a
  refine ⟨computes_of_writeResult rfl (add_signExtend_eq_ofInt a imm),
    computes_of_writeResult rfl (truth_eq_ite ?signed),
    computes_of_writeResult rfl (truth_eq_ite BitVec.ult_iff_toNat_lt), computes_of rfl, computes_of rfl,
    computes_of rfl, computes_of_writeResult rfl (shiftLeft_eq_ofNat a _),
    computes_of_writeResult rfl (ushiftRight_eq_ofNat a _), computes_of_writeResult rfl (sshiftRight_eq_ofInt a _),
    rfl, rfl, rfl, rfl, rfl, rfl, rfl, rfl, rfl⟩
  case signed => rw [BitVec.slt_iff_toInt_lt, BitVec.toInt_signExtend_of_le (by decide)]

/-! ### Register-register arithmetic (R314 to R323) -/

/-- Settles O4: each result is the word of its number over the integers, a shift amount the low 6 bits. -/
theorem registerRegisterArithmetic : Obligations.RegisterRegisterArithmetic := by
  intro s rd rs1 rs2 a b sh
  have hsh : amount6 b = sh := amount6_eq b
  refine ⟨computes_of_writeResult rfl (BitVec.add_def a b), computes_of_writeResult rfl (sub_eq_ofInt a b),
    computes_of_writeResult rfl (hsh ▸ shiftLeft_eq_ofNat a _),
    computes_of_writeResult rfl (truth_eq_ite BitVec.slt_iff_toInt_lt),
    computes_of_writeResult rfl (truth_eq_ite BitVec.ult_iff_toNat_lt), computes_of rfl,
    computes_of_writeResult rfl (hsh ▸ ushiftRight_eq_ofNat a _),
    computes_of_writeResult rfl (hsh ▸ sshiftRight_eq_ofInt a _), computes_of rfl, computes_of rfl,
    rfl, rfl, rfl, rfl, rfl, rfl, rfl, rfl, rfl, rfl⟩

/-! ### 32-bit arithmetic (R339 to R347) -/

theorem signed32_eq_sextW (n : Int) : signed32 n = sextW (BitVec.ofInt 32 n) := rfl

/-- The low 32 bits of a number's word are the number's 32-bit word. -/
theorem lowW_ofInt (n : Int) : lowW (BitVec.ofInt 64 n) = BitVec.ofInt 32 n := by
  apply BitVec.eq_of_toNat_eq
  rw [lowW, BitVec.toNat_setWidth, BitVec.toNat_ofInt, BitVec.toNat_ofInt]
  omega

/-- The low 32 bits as a number (R340). -/
theorem lowW_toNat (a : Word) : ((lowW a).toNat : Int) = a.toNat % 2 ^ 32 := by
  rw [lowW, BitVec.toNat_setWidth]
  norm_num

theorem lowW_eq_ofInt (a : Word) : lowW a = BitVec.ofInt 32 (a.toNat % 2 ^ 32) := by
  rw [← lowW_toNat, BitVec.ofInt_natCast, BitVec.ofNat_toNat, BitVec.setWidth_eq]

theorem sextW_lowW_ofInt (n : Int) : sextW (lowW (BitVec.ofInt 64 n)) = signed32 n := by
  rw [lowW_ofInt, signed32_eq_sextW]

/-- `slliw` and `sllw` over the integers (R340, R345). -/
theorem sextW_shiftLeft (a : Word) (n : Nat) :
    sextW (lowW a <<< n) = signed32 ((a.toNat : Int) % 2 ^ 32 * 2 ^ n) := by
  rw [signed32_eq_sextW, shiftLeft_eq_ofNat, ← BitVec.ofInt_natCast, Nat.cast_mul, lowW_toNat, Nat.cast_pow,
    Nat.cast_ofNat]

/-- `srliw` and `srlw` over the integers (R341, R346). -/
theorem sextW_ushiftRight (a : Word) (n : Nat) :
    sextW (lowW a >>> n) = signed32 ((a.toNat : Int) % 2 ^ 32 / 2 ^ n) := by
  rw [signed32_eq_sextW, ushiftRight_eq_ofNat, ← BitVec.ofInt_natCast, Int.natCast_ediv, lowW_toNat, Nat.cast_pow,
    Nat.cast_ofNat]

/-- `sraiw` and `sraw` over the integers (R342, R347). -/
theorem sshiftRight_sextW (a : Word) (n : Nat) :
    (sextW (lowW a)).sshiftRight n = BitVec.ofInt 64 ((signed32 ((a.toNat : Int) % 2 ^ 32)).toInt / 2 ^ n) := by
  rw [sshiftRight_eq_ofInt, lowW_eq_ofInt, signed32_eq_sextW]

/-- Settles O5: each result is `signed32` of its number over the integers, a shift amount the low 5 bits. -/
theorem wordArithmetic : Obligations.WordArithmetic := by
  intro s rd rs1 rs2 imm sh a b a32 n
  have hn : amount5 b = n := amount5_eq b
  refine ⟨computes_of_writeResult rfl ?addi, computes_of_writeResult rfl (sextW_shiftLeft a _),
    computes_of_writeResult rfl (sextW_ushiftRight a _), computes_of_writeResult rfl (sshiftRight_sextW a _),
    computes_of_writeResult rfl ?add, computes_of_writeResult rfl ?sub,
    computes_of_writeResult rfl (hn ▸ sextW_shiftLeft a _),
    computes_of_writeResult rfl (hn ▸ sextW_ushiftRight a _),
    computes_of_writeResult rfl (hn ▸ sshiftRight_sextW a _), rfl, rfl, rfl, rfl, rfl, rfl, rfl, rfl, rfl⟩
  case addi => rw [add_signExtend_eq_ofInt, sextW_lowW_ofInt]
  case add => rw [add_eq_ofInt, sextW_lowW_ofInt]
  case sub => rw [sub_eq_ofInt, sextW_lowW_ofInt]

/-! ### Upper immediates (R283, R284) -/

/-- The U-type offset over the integers (R281). -/
theorem upperImm_eq_ofInt (imm : BitVec 20) : upperImm imm = BitVec.ofInt 64 (imm.toInt * 4096) := by
  show BitVec.ofInt 64 (imm ++ 0#12).toInt = _
  rw [BitVec.toInt_append_zero, Int.mul_comm]
  rfl

/-- `auipc` adds its offset to the address in `pc`, of either kind (R284, D49). -/
theorem auipc_computes (s : State) (rd : Reg) (imm : BitVec 20) :
    Computes (.auipc rd imm) s rd (BitVec.ofInt 64 (s.pc.address.toInt + imm.toInt * 4096)) := by
  rw [BitVec.ofInt_add, BitVec.ofInt_toInt, ← upperImm_eq_ofInt]
  exact computes_of rfl

/-- Settles O6: `auipc` by the address in `pc`, whichever kind of value `pc` is. -/
theorem upperImmediates : Obligations.UpperImmediates := by
  intro s rd imm
  have hauipc := auipc_computes s rd imm
  refine ⟨upperImm_eq_ofInt imm ▸ computes_of rfl, fun a hpc => ?integer, fun c hpc => ?capability, rfl, rfl⟩
  case integer => rwa [hpc] at hauipc
  case capability => rwa [hpc] at hauipc

end Sys2Proof.Machine

namespace Sys2Proof.Machine

/-! ### Branches and jumps outside C-mode (R285 to R292) -/

/-- The condition of `bge` (R290). -/
theorem not_slt_iff_not_toInt_lt (a b : Word) : (!a.slt b) = true ↔ ¬ a.toInt < b.toInt := by
  rw [Bool.not_eq_true', ← Bool.not_eq_true, BitVec.slt_iff_toInt_lt]

/-- The condition of `bgeu` (R292). -/
theorem not_ult_iff_toNat_le (a b : Word) : (!a.ult b) = true ↔ b.toNat ≤ a.toNat := by
  rw [Bool.not_eq_true', ← Bool.not_eq_true, BitVec.ult_iff_toNat_lt, Nat.not_lt]

section RawJump

variable {i : Instr} {s : State} {p target : Word} (hs : s.inCMode = false)

include hs

/-- Outside C-mode control moves to a 4-byte aligned target (R285). -/
theorem jumpTo_aligned (ha : target.toNat % 4 = 0) : jumpTo s target = .ok (s.setPc (.int target)) := by
  rw [jumpTo, if_neg (Bool.eq_false_iff.mp hs), if_pos ((alignedTo_iff target 4).mpr ha)]

/-- Outside C-mode a target that is not 4-byte aligned is the address of an exception (R285, R352). -/
theorem jumpTo_misaligned (ha : target.toNat % 4 ≠ 0) :
    jumpTo s target = .error (.raise .instrMisaligned target) := by
  rw [jumpTo, if_neg (Bool.eq_false_iff.mp hs), if_neg (mt (alignedTo_iff target 4).mp ha)]

variable (hpc : s.pc = .int p)

include hpc

/-- A branch outside C-mode: taken to an aligned target, taken to a misaligned one, not taken (R287). -/
theorem branch_outsideCMode {taken : Bool} {imm : BitVec 13} {cond : Prop} (h : RunsAs i s (branch s taken imm))
    (hcond : taken = true ↔ cond) :
    (cond → (p + imm.signExtend 64).toNat % 4 = 0 → Reaches i s s.capValue (.int (p + imm.signExtend 64))) ∧
      (cond → (p + imm.signExtend 64).toNat % 4 ≠ 0 → Raises i s .instrMisaligned (p + imm.signExtend 64)) ∧
      (¬ cond → Reaches i s s.capValue (.int (p + 4))) := by
  have haddress : s.pc.address = p := by rw [hpc]; rfl
  rw [branch, haddress] at h
  refine ⟨fun htaken ha => ?aligned, fun htaken ha => ?misaligned, fun hstays => ?stays⟩
  case aligned =>
    rw [if_pos (hcond.mpr htaken), jumpTo_aligned hs ha] at h
    exact reaches_of h.next (fun _ => rfl) rfl (OnlyRegs.setPc s _)
  case misaligned => rwa [if_pos (hcond.mpr htaken), jumpTo_misaligned hs ha] at h
  case stays =>
    rw [if_neg (mt hcond.mp hstays)] at h
    exact reaches_of h.next (fun _ => rfl) (by rw [State.advance_pc, hpc]; rfl) (OnlyRegs.setPc s _)

/-- A jump outside C-mode: to an aligned target, with the link to the next instruction, or to a misaligned one (R285, R286). -/
theorem jumpAndLink_outsideCMode {rd : Reg} (h : RunsAs i s (jumpAndLink s rd target)) :
    (target.toNat % 4 = 0 → Reaches i s (putReg s.capValue rd (.int (p + 4))) (.int target)) ∧
      (target.toNat % 4 ≠ 0 → Raises i s .instrMisaligned target) := by
  have haddress : s.pc.address = p := by rw [hpc]; rfl
  rw [jumpAndLink, haddress] at h
  refine ⟨fun ha => ?aligned, fun ha => ?misaligned⟩
  case aligned =>
    rw [jumpTo_aligned hs ha] at h
    exact reaches_of h.next (State.setReg_putReg _ rd _) (State.setReg_pc _ rd _)
      ((OnlyRegs.setPc s _).trans (OnlyRegs.setReg _ rd _))
  case misaligned => rwa [jumpTo_misaligned hs ha] at h

end RawJump

/-- Settles O8: every branch is `branch` with its comparison, every jump `jumpAndLink` with its target. -/
theorem branchesAndJumpsOutsideCMode : Obligations.BranchesAndJumpsOutsideCMode := by
  intro s p hs hpc
  refine ⟨?branches, ?jal, fun rd rs1 imm => jumpAndLink_outsideCMode hs hpc rfl⟩
  case branches =>
    intro rs1 rs2 imm a b target goes
    have hbranch {i : Instr} {taken : Bool} {cond : Prop} (h : RunsAs i s (branch s taken imm))
        (hcond : taken = true ↔ cond) : goes i cond := branch_outsideCMode hs hpc h hcond
    exact ⟨hbranch rfl decide_eq_true_iff, hbranch rfl decide_eq_true_iff, hbranch rfl BitVec.slt_iff_toInt_lt,
      hbranch rfl (not_slt_iff_not_toInt_lt a b), hbranch rfl BitVec.ult_iff_toNat_lt,
      hbranch rfl (not_ult_iff_toNat_le a b)⟩
  case jal =>
    intro rd imm
    have hjal : RunsAs (.jal rd imm) s (jumpAndLink s rd (s.pc.address + imm.signExtend 64)) := rfl
    rw [hpc] at hjal
    exact jumpAndLink_outsideCMode hs hpc hjal

end Sys2Proof.Machine

namespace Sys2Proof.Machine

/-! ### Loads and stores outside C-mode (R293 to R304) -/

section Alignment

variable {i : Instr} {s : State} {ea : Word} {n : Nat} {e : Exc} {f : Unit → Except Stop State}

theorem RunsAs.aligned (h : RunsAs i s (require (alignedTo ea n) e ea >>= f)) (ha : ea.toNat % n = 0) :
    RunsAs i s (f ()) := h.pass ((alignedTo_iff ea n).mpr ha)

theorem RunsAs.raises_misaligned (h : RunsAs i s (require (alignedTo ea n) e ea >>= f)) (ha : ea.toNat % n ≠ 0) :
    Raises i s e ea := h.raises (mt (alignedTo_iff ea n).mp ha)

end Alignment

theorem State.inCMode_of_disabled {s : State} (hen : s.capstoneEn = false) : s.inCMode = false := by
  rw [State.inCMode, hen, Bool.false_and]

/-- A data access is not refused in the modelled states (R382, R383). -/
theorem requireModelledAccess_of_modelled {s : State} (h : Modelled s) : requireModelledAccess s = .ok () := by
  rcases h with hp | ⟨hen, hbare⟩
  · exact if_pos hp
  · simp [requireModelledAccess, hen, translationOn, hbare]

section RawAccess

variable {s : State} (hs : s.inCMode = false) (hm : Modelled s)

include hs hm

/-- Outside C-mode a load is the two checks of its raw address and its effect (R293, D24). -/
theorem load_outsideCMode (rd rs1 : Reg) (imm : BitVec 12) (n : Nat) (signed : Bool) :
    load s rd rs1 imm n signed = (do
      require (alignedTo (s.ival rs1 + imm.signExtend 64) n) .loadMisaligned (s.ival rs1 + imm.signExtend 64)
      require (s.plat.isMemRange (s.ival rs1 + imm.signExtend 64) n) .loadAccess (s.ival rs1 + imm.signExtend 64)
      .ok (loadEffect s rd (s.ival rs1 + imm.signExtend 64) n signed)) := by
  simp only [load, loadAddress, hs, Bool.false_eq_true, if_false, loadAddressRaw,
    requireModelledAccess_of_modelled hm, bind_assoc, except_ok_bind]

/-- Outside C-mode a store is the two checks of its raw address and its effect (R293, D24). -/
theorem store_outsideCMode (rs1 rs2 : Reg) (imm : BitVec 12) (n : Nat) :
    store s rs1 rs2 imm n = (do
      require (alignedTo (s.ival rs1 + imm.signExtend 64) n) .storeMisaligned (s.ival rs1 + imm.signExtend 64)
      require (s.plat.isMemRange (s.ival rs1 + imm.signExtend 64) n) .storeAccess (s.ival rs1 + imm.signExtend 64)
      .ok (storeEffect s (s.ival rs1 + imm.signExtend 64) (s.ival rs2) n)) := by
  simp only [store, storeTarget, hs, Bool.false_eq_true, if_false, storeTargetRaw,
    requireModelledAccess_of_modelled hm, bind_assoc, except_ok_bind]

end RawAccess

/-- Settles O11: every load is `load`, every store `store`, and the checks of the raw address come in their order. -/
theorem loadsAndStoresOutsideCMode : Obligations.LoadsAndStoresOutsideCMode := by
  intro s rs1 imm hen hbare ea
  have hs := State.inCMode_of_disabled hen
  have hm : Modelled s := hbare.imp_right fun h => ⟨hen, h⟩
  have hroomy : Roomy s := fun hc => absurd hc (Bool.eq_false_iff.mp hs)
  refine ⟨fun rd f hf => ?load, fun rs2 f hf => ?store⟩
  case load =>
    obtain ⟨-, hsize, hexec⟩ := loadForm_spec hf
    have hrun := RunsAs.of_adjustedOp hroomy (hexec s)
    rw [load_outsideCMode hs hm] at hrun
    exact ⟨fun ha hmem => computes_of_load hsize ((hrun.aligned ha).in_memory hmem).next, hrun.raises_misaligned,
      fun ha => (hrun.aligned ha).raises_outside_memory⟩
  case store =>
    obtain ⟨-, hsize, hexec⟩ := storeForm_spec hf
    have hrun := RunsAs.of_adjustedOp hroomy (hexec s)
    rw [store_outsideCMode hs hm] at hrun
    exact ⟨fun hwf ha hmem => stores_of_storeEffect hsize ha hwf ((hrun.aligned ha).in_memory hmem).next,
      hrun.raises_misaligned, fun ha => (hrun.aligned ha).raises_outside_memory⟩

end Sys2Proof.Machine

namespace Sys2Proof.Machine

/-! ### The CSR instructions where the access check passes (R330 to R335, R338) -/

/-- The access check passes to the CSR that the number names (R338). -/
theorem requireCsr_passes {s : State} {csr : BitVec 12} {c : CsrName} {write : Bool}
    (hc : CsrName.ofNumber csr = some c) (hexists : csrExists s c = true)
    (hpriv : (csr.extractLsb' 8 2).toNat ≤ s.priv.code.toNat) (hw : write = true → csr.extractLsb' 10 2 ≠ 3) :
    requireCsr s csr write = .ok c := by
  have hwritable : ¬ (write && decide (csr.extractLsb' 10 2 = 3)) = true := by simpa using hw
  rw [requireCsr, if_neg (Nat.not_lt.mpr hpriv), if_neg hwritable, hc]
  exact if_pos hexists

/-- A CSR instruction that passes the access check: the CSRs written or not, then the old value to `x[rd]` (R330 to R335). -/
theorem csrOp_passes {s : State} {csr : BitVec 12} {c : CsrName} {write : Bool}
    (hcheck : requireCsr s csr write = .ok c) (rd : Reg) (read : Bool) (new : Word → Word) :
    ∃ draws, csrOp s rd csr read write new = .ok (({ s with
      csr := if write then writeCsr s.csr c (new (readCsr s c)) else s.csr
      draws := draws } : State).setReg rd (.int (readCsr s c))).advance := by
  obtain ⟨draws, hread⟩ : ∃ draws, (if read then noteCsrRead s c else s) = { s with draws := draws } := by
    unfold noteCsrRead
    split
    · split <;> exact ⟨_, rfl⟩
    · exact ⟨_, rfl⟩
  refine ⟨draws, ?_⟩
  rw [csrOp, hcheck, except_ok_bind, hread]
  cases write <;> rfl

/-- An instruction that leaves these CSRs, writes one integer register and moves on. -/
theorem csrDone_of {i : Instr} {s : State} {rd : Reg} {v : Word} {csrs : Csrs} {draws : Nat}
    (h : exec i s = .next (({ s with csr := csrs, draws := draws } : State).setReg rd (.int v)).advance) :
    CsrDone i s rd v csrs :=
  ⟨_, h, State.setReg_putReg _ rd _, State.advance_nextPc (State.setReg_pc _ rd _), by simp, by simp, by simp,
    by simp, by simp, by simp, by simp, SameMemory.of_eq (by simp)⟩

section CsrAccess

variable {i : Instr} {s : State} {rd : Reg} {csr : BitVec 12} {c : CsrName} {read write : Bool} {new : Word → Word}
  (h : RunsAs i s (csrOp s rd csr read write new))

include h

/-- A CSR instruction that writes. -/
theorem RunsAs.csr_written (hw : write = true) (hcheck : requireCsr s csr true = .ok c) :
    CsrDone i s rd (readCsr s c) (writeCsr s.csr c (new (readCsr s c))) := by
  subst hw
  obtain ⟨draws, hop⟩ := csrOp_passes hcheck rd read new
  rw [hop] at h
  exact csrDone_of h.next

/-- A CSR instruction that only reads. -/
theorem RunsAs.csr_read (hw : write = false) (hcheck : requireCsr s csr false = .ok c) :
    CsrDone i s rd (readCsr s c) s.csr := by
  subst hw
  obtain ⟨draws, hop⟩ := csrOp_passes hcheck rd read new
  rw [hop] at h
  exact csrDone_of h.next

end CsrAccess

/-- Settles O33: each of the six is the shared CSR operation, whose access check passes. -/
theorem csrInstructionsReadAndWrite : Obligations.CsrInstructionsReadAndWrite := by
  intro s rd rs1 csr c hc hexists hpriv t a u
  have hu : rs1.setWidth 64 = u := (BitVec.ofNat_toNat 64 rs1).symm
  refine ⟨rfl, rfl, rfl, rfl, rfl, rfl, fun hspace => ?writes, fun h0 => ?reads⟩
  case writes =>
    have hcheck : requireCsr s csr true = .ok c := requireCsr_passes hc hexists hpriv fun _ => hspace
    have hwrites {i : Instr} {read write : Bool} {new : Word → Word} {v : Word}
        (h : RunsAs i s (csrOp s rd csr read write new)) (hw : write = true) (hv : new t = v) :
        CsrDone i s rd t (writeCsr s.csr c v) := hv ▸ h.csr_written hw hcheck
    refine ⟨hwrites rfl rfl rfl, hwrites rfl rfl hu, fun hne => ?fields⟩
    have hfield : decide (rs1 ≠ 0) = true := decide_eq_true hne
    exact ⟨hwrites rfl hfield rfl, hwrites rfl hfield rfl, hwrites rfl hfield (congrArg (t ||| ·) hu),
      hwrites rfl hfield (congrArg (t &&& ~~~·) hu)⟩
  case reads =>
    have hcheck : requireCsr s csr false = .ok c := requireCsr_passes hc hexists hpriv nofun
    have hfield : decide (rs1 ≠ 0) = false := decide_eq_false (not_not_intro h0)
    have hreads {i : Instr} {read : Bool} {new : Word → Word}
        (h : RunsAs i s (csrOp s rd csr read (decide (rs1 ≠ 0)) new)) : CsrDone i s rd t s.csr :=
      h.csr_read hfield hcheck
    exact ⟨hreads rfl, hreads rfl, hreads rfl, hreads rfl⟩

end Sys2Proof.Machine

namespace Sys2Proof.Machine

/-! ### MRET and SRET outside C-mode (R327, R328) -/

/-- Below mode ID 3 MRET is illegal (R327). -/
theorem raises_illegal_mret {s : State} (hp : s.priv ≠ .machine) : Raises .mret s .illegal := by
  have hrun : RunsAs .mret s _ := rfl
  exact hrun.raises (mt of_decide_eq_true hp)

/-- `mstatus` after SRET, bit by bit (R328). -/
theorem bitOf_sretMstatus (ms : Word) (n : Nat) :
    bitOf (sretMstatus ms) n = if n = 17 then false else if n = 8 then false else if n = 5 then true
      else if n = 1 then bitOf ms 5 else bitOf ms n := by
  rw [sretMstatus, bitOf_withBit _ (by decide), bitOf_withBit _ (by decide), bitOf_withBit _ (by decide),
    bitOf_withBit _ (by decide)]
  rfl

/-- SRET changes SIE, SPIE, SPP and MPRV alone (R328). -/
theorem sameBits_sretMstatus (ms : Word) : SameBits ms (sretMstatus ms) [1, 5, 8, 17] := by
  intro n hn
  simp only [List.mem_cons, List.not_mem_nil, or_false, not_or] at hn
  obtain ⟨h1, h5, h8, h17⟩ := hn
  rw [bitOf_sretMstatus, if_neg h17, if_neg h8, if_neg h5, if_neg h1]

/-- SRET is one check and `returnS` (R328). -/
theorem sret_runsAs (s : State) :
    RunsAs .sret s (require (supervisorPermitted s mstatusTSR) .illegal >>= fun _ => .ok (returnS s)) := rfl

/-- Settles O38: past its check each return is `returnM` or `returnS`, whose `mstatus` is known bit by bit. -/
theorem returnsOutsideCMode : Obligations.ReturnsOutsideCMode := by
  refine ⟨rfl, rfl, ?mret, ?sret, fun _ => raises_illegal_mret, ?illegal⟩
  case mret =>
    intro s p hp hen hmpp
    have hdone := exec_mret hp hmpp
    rw [if_neg (Bool.eq_false_iff.mp hen)] at hdone
    exact ⟨_, hdone, rfl, rfl, mretStatus_mretMstatus _ p, rfl, SameMemory.of_eq rfl,
      ⟨rfl, rfl, rfl, rfl, rfl, rfl, rfl⟩⟩
  case sret =>
    intro s hok
    have hdone := ((sret_runsAs s).pass ((supervisorPermitted_iff s mstatusTSR).mpr hok)).next
    exact ⟨_, hdone, rfl, rfl, bitOf_sretMstatus _ 1, bitOf_sretMstatus _ 5, bitOf_sretMstatus _ 8,
      bitOf_sretMstatus _ 17, sameBits_sretMstatus _, rfl, SameMemory.of_eq rfl,
      ⟨rfl, rfl, rfl, rfl, rfl, rfl, rfl⟩⟩
  case illegal =>
    intro s hbad
    exact (sret_runsAs s).raises (Bool.eq_false_iff.mp ((supervisorPermitted_false_iff s mstatusTSR).mpr hbad))

end Sys2Proof.Machine

namespace Sys2Proof.Machine

/-! ### Trap entry into C-mode (R360, R361) -/

section TrapEntry

variable (s : State) (interrupt : Bool) (code tval tval2 tinst : Word)

/-- Trap entry into C-mode, case C: with no capability in `ctvec` or `pc` there is no successor (R361, D33). -/
theorem takeTrapC_stuck {n a : Word} (hn : s.ccsr.ctvec = .int n) (ha : s.pc = .int a) :
    takeTrapC interrupt code tval tval2 tinst s = .error .trapBothIntegers := by
  simp only [takeTrapC, hn, ha]

end TrapEntry

/-- Settles O40: the cases A, B and C of `takeTrapC`. -/
theorem trapEntryIntoCMode : Obligations.TrapEntryIntoCMode := by
  intro s interrupt code tval tval2 tinst
  refine ⟨fun d hd => ?installs, fun n c hn hc => ?redirects, fun _ _ hn ha => takeTrapC_stuck s _ _ _ _ _ hn ha⟩
  case installs =>
    obtain ⟨t, htrap, hrec, hmepc, hcepc, hpc, hctvec⟩ := takeTrapC_installs s interrupt code tval tval2 tinst hd
    exact ⟨t, htrap, hcepc, hpc, hctvec, hmepc, hrec⟩
  case redirects =>
    obtain ⟨t, htrap, hrec, hmepc, hcepc, hpc, hctvec⟩ := takeTrapC_redirects s interrupt code tval tval2 tinst hn hc
    exact ⟨t, htrap, hcepc, hpc, hctvec, hmepc, hrec⟩

/-! ### Trap entry into M-mode and S-mode (R362, R363) -/

/-- Where a trap goes: an interrupt with MODE 1 to its own entry, anything else to BASE (R337, R362, R363). -/
theorem vectorTarget_eq (tvec : Word) (interrupt : Bool) (code : Word) :
    vectorTarget tvec interrupt code =
      if interrupt = true ∧ tvec &&& 3 = 1 then (tvec &&& ~~~3) + 4 * code else tvec &&& ~~~3 := by
  simp [vectorTarget]

/-- `mstatus` after a trap into S-mode, bit by bit (R363). -/
theorem bitOf_trapSstatus (ms : Word) (p : Priv) (n : Nat) :
    bitOf (trapSstatus ms p) n = if n = 8 then decide (p = .supervisor) else if n = 1 then false
      else if n = 5 then bitOf ms 1 else bitOf ms n := by
  rw [trapSstatus, bitOf_withBit _ (by decide), bitOf_withBit _ (by decide), bitOf_withBit _ (by decide)]
  rfl

/-- Trap entry into S-mode changes SIE, SPIE and SPP alone (R363). -/
theorem sameBits_trapSstatus (ms : Word) (p : Priv) : SameBits ms (trapSstatus ms p) [1, 5, 8] := by
  intro n hn
  simp only [List.mem_cons, List.not_mem_nil, or_false, not_or] at hn
  obtain ⟨h1, h5, h8⟩ := hn
  rw [bitOf_trapSstatus, if_neg h8, if_neg h1, if_neg h5]

/-- The CSRs that a trap into S-mode leaves (R363). -/
theorem takeTrapS_csr (s : State) (interrupt : Bool) (code tval : Word) :
    (takeTrapS interrupt code tval s).csr = { s.csr with
      sepc := s.pc.address &&& ~~~3
      scause := (if interrupt then 0x8000000000000000 else 0) ||| code
      stval := tval, mstatus := trapSstatus s.csr.mstatus s.priv } := by
  rw [← causeWord_eq]
  rfl

/-- Settles O41: the record of each trap entry, and its vectored target. -/
theorem trapEntryOutsideCMode : Obligations.TrapEntryOutsideCMode := by
  intro s interrupt code tval tval2 tinst
  refine ⟨⟨rfl, congrArg Value.int (vectorTarget_eq ..), rfl, trapRecorded_takeTrapM ..⟩, ?sMode⟩
  case sMode =>
    exact ⟨takeTrapS_csr .., bitOf_trapSstatus _ _ 5, bitOf_trapSstatus _ _ 1, bitOf_trapSstatus _ _ 8,
      sameBits_trapSstatus _ _, rfl, congrArg Value.int (vectorTarget_eq ..), rfl, SameMemory.of_eq rfl,
      ⟨rfl, rfl, rfl, rfl, rfl, rfl, rfl⟩⟩

/-! ### Which mode takes an exception (R350, R352, R356) -/

theorem delegated_iff (s : State) (code : Word) :
    delegated s code = true ↔ s.priv ≠ .machine ∧ bitOf s.csr.medeleg code.toNat = true := by
  simp [delegated]

/-- An exception raised below mode ID 3 with its `medeleg` bit set is taken in S-mode (R356). -/
theorem takeException_of_delegated {s : State} {e : Exc} (h : delegated s e.code = true) (addr : Word)
    (insn : BitVec 32) : takeException e addr insn s = .ok (takeTrapS false e.code (e.tval addr insn) s) := by
  rw [takeException, if_pos h]

/-- Any other exception is taken in mode ID 3 (R356). -/
theorem takeException_of_not_delegated {s : State} {e : Exc} (h : ¬ delegated s e.code = true) (addr : Word)
    (insn : BitVec 32) :
    takeException e addr insn s = takeTrapTop false e.code (e.tval addr insn) 0 (e.tinst insn) s := by
  rw [takeException, if_neg h]

theorem takeTrapTop_capstone {s : State} (h : s.capstoneEn = true) (interrupt : Bool) (code tval tval2 tinst : Word) :
    takeTrapTop interrupt code tval tval2 tinst s = takeTrapC interrupt code tval tval2 tinst s := by
  rw [takeTrapTop, if_pos h]

theorem takeTrapTop_base {s : State} (h : s.capstoneEn = false) (interrupt : Bool) (code tval tval2 tinst : Word) :
    takeTrapTop interrupt code tval tval2 tinst s = .ok (takeTrapM interrupt code tval tval2 tinst s) := by
  rw [takeTrapTop, h, if_neg Bool.false_ne_true]

theorem Exc.code_le (e : Exc) : e.code.toNat ≤ 30 := by cases e <;> decide

/-- Codes 24 to 30 are never delegated: their `medeleg` bits read 0 (R55, R350). -/
theorem medeleg_capstone_code {s : State} {e : Exc} (hs : s.CsrsLegal) (he : 24 ≤ e.code.toNat) :
    bitOf s.csr.medeleg e.code.toNat = false := by
  obtain ⟨-, -, -, -, hlegal, -⟩ := hs
  have hnot : ¬ (e.code.toNat ≠ 11 ∧ ¬ (24 ≤ e.code.toNat ∧ e.code.toNat ≤ 30)) := fun h => h.2 ⟨he, e.code_le⟩
  rw [← hlegal, delegableBits_legalMedeleg, decide_eq_false hnot, Bool.false_and]

/-- The address is the data of codes 0, 1 and 4 to 7 alone, the instruction word of code 2 alone (R352). -/
theorem Exc.tval_eq (e : Exc) (addr : Word) (insn : BitVec 32) :
    e.tval addr insn = if e.code.toNat ∈ [0, 1, 4, 5, 6, 7] then addr
      else if e.code.toNat = 2 then BitVec.ofNat 64 insn.toNat else 0 := by
  cases e <;> simp [Exc.tval, Exc.code]

/-- The instruction word goes to `mtinst` for codes 24 to 30 alone (R148, R352, D14). -/
theorem Exc.tinst_eq (e : Exc) (insn : BitVec 32) :
    e.tinst insn = if 24 ≤ e.code.toNat then BitVec.ofNat 64 insn.toNat else 0 := by
  rw [Exc.tinst, BitVec.ofNat_toNat]
  rfl

/-- Settles O42: the two routes of `takeException`, and the data by code. -/
theorem exceptionRoutingAndData : Obligations.ExceptionRoutingAndData := by
  refine ⟨fun s e addr insn => ⟨fun hp hbit => ?low, fun hor => ?top, medeleg_capstone_code⟩, rfl,
    fun e addr insn => ?data⟩
  case low => exact takeException_of_delegated ((delegated_iff s e.code).mpr ⟨hp, hbit⟩) addr insn
  case top =>
    have hnot : ¬ delegated s e.code = true := by
      rw [delegated_iff]
      rintro ⟨hp, hbit⟩
      rcases hor with hp' | hbit'
      · exact hp hp'
      · rw [hbit'] at hbit; cases hbit
    rw [takeException_of_not_delegated hnot]
    exact ⟨fun hen => takeTrapTop_capstone hen .., fun hen => takeTrapTop_base hen ..⟩
  case data =>
    rw [Exc.tval_eq, Exc.tinst_eq]
    refine ⟨fun h => if_pos h, ?_, fun h => ?_, fun h => if_neg (by omega), fun h => if_pos h⟩
    · rintro rfl; rfl
    · simp only [List.mem_cons, List.not_mem_nil, or_false, not_or] at h ⊢
      rw [if_neg (by tauto), if_neg (by tauto)]

end Sys2Proof.Machine

namespace Sys2Proof.Machine

/-! ### The boundary's events (R371, R374) -/

theorem routesToMip_iff (c : Csrs) (en : Bool) (line : Irq) :
    routesToMip c en line = true ↔ en = false ∨ bitOf c.cid line.bit = true := by
  simp [routesToMip]

/-- With CAPSTONE_EN clear, or the line delegated by `cid`, an event goes to `mip` (R371). -/
theorem applyEvent_mip {s : State} {e : IrqEvent} (h : s.capstoneEn = false ∨ bitOf s.csr.cid e.line.bit = true) :
    applyEvent s e = s.setCsr { s.csr with mip := e.apply s.csr.mip } := by
  rw [applyEvent, if_pos ((routesToMip_iff ..).mpr h)]

/-- With CAPSTONE_EN set and the line not delegated, an event goes to `cis` (R371). -/
theorem applyEvent_cis {s : State} {e : IrqEvent} (hen : s.capstoneEn = true)
    (hline : bitOf s.csr.cid e.line.bit = false) :
    applyEvent s e = s.setCsr { s.csr with cis := e.apply s.csr.cis } := by
  rw [applyEvent, if_neg]
  simp [routesToMip_iff, hen, hline]

/-- The value an event gives its line's bit. -/
def IrqEvent.level : IrqEvent → Bool
  | .set _ => true
  | .clear _ => false

/-- An event writes its level to its line's bit, and leaves every other bit (R371). -/
theorem bitOf_apply (e : IrqEvent) (w : Word) (n : Nat) :
    bitOf (e.apply w) n = if n = e.line.bit then e.level else bitOf w n := by
  have hbit : e.line.bit < 64 := by cases e.line <;> decide
  cases e <;> exact bitOf_withBit w hbit _ n

theorem bitOf_apply_line (e : IrqEvent) (w : Word) : bitOf (e.apply w) e.line.bit = e.level := by
  rw [bitOf_apply, if_pos rfl]

theorem sameBits_apply (e : IrqEvent) (w : Word) : SameBits w (e.apply w) [e.line.bit] := by
  intro n hn
  rw [bitOf_apply, if_neg (by simpa using hn)]

/-- An event changes its line's bit in the one register it goes to (R371, D17). -/
theorem applyEvent_changes (s : State) (e : IrqEvent) :
    ∃ w : Word, bitOf w e.line.bit = e.level ∧
      (s.capstoneEn = false ∨ bitOf s.csr.cid e.line.bit = true →
        applyEvent s e = s.setCsr { s.csr with mip := w } ∧ SameBits s.csr.mip w [e.line.bit]) ∧
      (s.capstoneEn = true → bitOf s.csr.cid e.line.bit = false →
        applyEvent s e = s.setCsr { s.csr with cis := w } ∧ SameBits s.csr.cis w [e.line.bit]) := by
  by_cases h : s.capstoneEn = false ∨ bitOf s.csr.cid e.line.bit = true
  · refine ⟨e.apply s.csr.mip, bitOf_apply_line .., fun _ => ⟨applyEvent_mip h, sameBits_apply _ _⟩, ?_⟩
    intro hen hline
    simp [hen, hline] at h
  · exact ⟨e.apply s.csr.cis, bitOf_apply_line .., fun h' => absurd h' h,
      fun hen hline => ⟨applyEvent_cis hen hline, sameBits_apply _ _⟩⟩

/-- The schedule of later boundaries plays no part in an event. -/
theorem applyEvent_inputs (s : State) (e : IrqEvent) (rest : List (List IrqEvent)) :
    applyEvent { s with inputs := rest } e = { applyEvent s e with inputs := rest } := by
  simp only [applyEvent]
  split <;> rfl

theorem foldl_applyEvent_inputs (es : List IrqEvent) (s : State) (rest : List (List IrqEvent)) :
    es.foldl applyEvent { s with inputs := rest } = { es.foldl applyEvent s with inputs := rest } := by
  induction es generalizing s with
  | nil => rfl
  | cons e es ih => rw [List.foldl_cons, List.foldl_cons, applyEvent_inputs, ih]

theorem boundary_of_cons {s : State} {es : List IrqEvent} {rest : List (List IrqEvent)} (h : s.inputs = es :: rest) :
    boundary s = es.foldl applyEvent { s with inputs := rest } := by
  simp [boundary, h]

/-- With its events applied beforehand, the boundary leaves the same state. -/
theorem boundary_of_applied (s : State) (es : List IrqEvent) (rest : List (List IrqEvent)) :
    boundary (es.foldl applyEvent { s with inputs := [] :: rest }) = es.foldl applyEvent { s with inputs := rest } := by
  simp only [foldl_applyEvent_inputs]
  rfl

/-- The modelled states are told by what no event changes (R382, R383). -/
theorem refusal_foldl_applyEvent (es : List IrqEvent) (s : State) : refusal (es.foldl applyEvent s) = refusal s := by
  obtain ⟨m, c, h⟩ := foldl_applyEvent_eq es s
  rw [h]
  rfl

/-- Settles O50: the boundary is a fold of `applyEvent`, and each event writes one bit. -/
theorem boundaryAppliesTheEvents : Obligations.BoundaryAppliesTheEvents := by
  refine ⟨rfl, fun _ => boundary_of_nil, fun s es rest h => ⟨boundary_of_cons h, ?step⟩, fun s line e on he => ?event⟩
  case step =>
    rw [step, step, boundary_of_applied, refusal_foldl_applyEvent, boundary_of_cons h]
    rfl
  case event =>
    simp only [List.mem_cons, Prod.mk.injEq, List.not_mem_nil, or_false] at he
    obtain ⟨rfl, rfl⟩ | ⟨rfl, rfl⟩ := he
    · exact applyEvent_changes s (.set line)
    · exact applyEvent_changes s (.clear line)

/-! ### The interrupt taken at a boundary (R372 to R374) -/

/-- In a modelled state a step is what follows the boundary (R374). -/
theorem step_of_modelled {s : State} (h : Modelled s) : step s = afterBoundary (boundary s) := by
  simp only [step, refusal_none.mpr h]

theorem afterBoundary_of_some {s : State} {r : Except Fault State} (h : pendingEvent s = some r) :
    afterBoundary s = trapOutcome r := by
  simp only [afterBoundary, h]

/-- Where nothing is taken, what follows the boundary is the instruction (R374). -/
theorem afterBoundary_of_nothingTaken {s : State} (h : NothingTaken s) : afterBoundary s = runInstruction s := by
  simp only [afterBoundary, pendingEvent_none.mpr h]

/-- A step with nothing before its instruction is that instruction's (R374). -/
theorem step_of_quiet {s : State} (h : Quiet s) : step s = runInstruction (boundary s) := by
  rw [step_of_modelled h.1, afterBoundary_of_nothingTaken h.2]

theorem highest_congr {P Q : Irq → Prop} (h : ∀ i, P i ↔ Q i) (i : Irq) : Highest P i ↔ Highest Q i := by
  rw [funext fun j => propext (h j)]

/-- The highest undelegated line that is ready is taken into mode ID 3, at mode ID 3 only with MIE set (R372). -/
theorem topInterrupt_of_highest {s : State} {line : Irq} (h : Highest (TopReady s) line)
    (hmie : s.priv = .machine → bitOf s.csr.mstatus 3 = true) : topInterrupt s = some line := by
  have hopen : ¬ (s.priv = .machine ∧ bitOf s.csr.mstatus mstatusMIE = false) := fun ⟨hp, hoff⟩ =>
    Bool.false_ne_true (hoff.symm.trans (hmie hp))
  rw [topInterrupt, if_neg hopen, firstLine_some]
  exact (highest_congr (topReady_bit s) line).mpr h

theorem topInterrupt_of_none_ready {s : State} (h : ∀ i, ¬ TopReady s i) : topInterrupt s = none := by
  rw [topInterrupt]
  split
  · rfl
  · exact firstLine_none.mpr fun i => (topReady_bit s i).not.mpr (h i)

/-- The highest delegated line that is ready is taken into S-mode, from S-mode only with SIE set (R372). -/
theorem supervisorInterrupt_of_highest {s : State} {line : Irq} (h : Highest (LowReady s) line)
    (hlow : s.priv = .user ∨ (s.priv = .supervisor ∧ bitOf s.csr.mstatus 1 = true)) :
    supervisorInterrupt s = some line := by
  rw [supervisorInterrupt, mstatusSIE, if_pos hlow, firstLine_some]
  exact (highest_congr (lowReady_bit s) line).mpr h

/-- With no H-interrupt to deliver, the event taken is the V-interrupt, if any (R374). -/
theorem pendingEvent_of_not_hQualifies {s : State} (h : ¬ HQualifies s) : pendingEvent s = vInterrupt s := by
  simp only [pendingEvent, hDeliverable_none.mpr h]

/-- An interrupt into mode ID 3 comes before a delegated one (log 35). -/
theorem vInterrupt_of_top {s : State} {line : Irq} (h : topInterrupt s = some line) :
    vInterrupt s = some (takeTrapTop true line.code 0 0 0 s) := by
  simp only [vInterrupt, h]

theorem vInterrupt_of_supervisor {s : State} {line : Irq} (htop : topInterrupt s = none)
    (h : supervisorInterrupt s = some line) : vInterrupt s = some (.ok (takeTrapS true line.code 0 s)) := by
  simp only [vInterrupt, htop, h]

/-- Settles O51: the line each selection finds, and the trap it takes. -/
theorem vInterruptsAreTaken : Obligations.VInterruptsAreTaken := by
  intro s line hs b
  have hstep : step s = afterBoundary b := step_of_modelled hs
  refine ⟨fun hq htop hmie => ?top, fun hq hnone hlow hpriv => ?low, fun h => ?nothing⟩
  case top =>
    have hevent := (pendingEvent_of_not_hQualifies hq).trans (vInterrupt_of_top (topInterrupt_of_highest htop hmie))
    rw [hstep, afterBoundary_of_some hevent]
    exact ⟨fun hen => by rw [takeTrapTop_capstone hen]; rfl, fun hen => by rw [takeTrapTop_base hen]; rfl⟩
  case low =>
    have hevent := (pendingEvent_of_not_hQualifies hq).trans
      (vInterrupt_of_supervisor (topInterrupt_of_none_ready hnone) (supervisorInterrupt_of_highest hlow hpriv))
    rw [hstep, afterBoundary_of_some hevent]
    rfl
  case nothing => rw [hstep, afterBoundary_of_nothingTaken h]

end Sys2Proof.Machine

namespace Sys2Proof.Machine

/-! ### The fetch checks of C-mode (R90, R104) -/

/-- Two checks in a row that raise the same are one check. -/
theorem require_and (a b : Bool) (e : Exc) (addr : Word) {α : Type} (f : Except Stop α) :
    (require a e addr >>= fun _ => require b e addr >>= fun _ => f) = (require (a && b) e addr >>= fun _ => f) := by
  cases a <;> rfl

/-- The first four checks, in the statements' words (R90 items 1 to 4). -/
theorem Cap.not_barred_iff (c : Cap) :
    (c.valid && (c.isPlain && (c.canExecute &&
      decide (c.base.toNat ≤ c.cursor.toNat ∧ c.cursor.toNat + 3 ≤ c.last.toNat)))) = true ↔ ¬ c.Barred := by
  have hbounds : (c.base.toNat ≤ c.cursor.toNat ∧ c.cursor.toNat + 3 ≤ c.last.toNat) ↔
      ((c.base.toNat : Int) ≤ c.cursor.toNat ∧ (c.cursor.toNat : Int) ≤ (c.last.toNat : Int) - 3) := by omega
  simp only [Bool.and_eq_true, decide_eq_true_eq, Cap.isPlain_iff, Cap.canExecute, hbounds, Cap.Barred,
    ← Bool.not_eq_true]
  tauto

/-- The fetch address in C-mode: an access fault where the capability is barred from `pc`, then the alignment (R90). -/
theorem fetchAddressC_cap {s : State} {c : Cap} (h : s.pc = .cap c) :
    fetchAddressC s = (do
      require (!decide c.Barred) .instrAccess c.cursor
      require (alignedTo c.cursor 4) .instrMisaligned c.cursor
      .ok c.cursor) := by
  have hall : (!decide c.Barred) = (c.valid && (c.isPlain && (c.canExecute &&
      decide (c.base.toNat ≤ c.cursor.toNat ∧ c.cursor.toNat + 3 ≤ c.last.toNat)))) := by
    rw [Bool.eq_iff_iff, c.not_barred_iff]
    simp only [Bool.not_eq_true', decide_eq_false_iff_not]
  simp only [fetchAddressC, h, hall, require_and]

/-- The bytes that a fetch gets an instruction from (R90, R104). -/
theorem fetchable_iff_codeAt (s : State) (a : Word) :
    (s.plat.isMemRange a 4 && s.mem.fetchable a 4) = true ↔ CodeAt s a := by
  rw [Bool.and_eq_true, isMemRange_iff, fetchable_iff]

/-- The exception of a fetch through a capability that cannot be executed: 0 for a misaligned cursor, 1 for the rest (R90, D1). -/
def fetchFault (c : Cap) : Exc := if ¬ c.Barred ∧ c.cursor.toNat % 4 ≠ 0 then .instrMisaligned else .instrAccess

theorem fetchFault_access {c : Cap} (h : c.Barred ∨ c.cursor.toNat % 4 = 0) : fetchFault c = .instrAccess :=
  if_neg fun ⟨hbarred, hmis⟩ => h.elim hbarred hmis

theorem fetchFault_misaligned {c : Cap} (hbarred : ¬ c.Barred) (hmis : c.cursor.toNat % 4 ≠ 0) :
    fetchFault c = .instrMisaligned := if_pos ⟨hbarred, hmis⟩

theorem fetchFault_tval (c : Cap) (addr : Word) (insn : BitVec 32) : (fetchFault c).tval addr insn = addr := by
  rw [fetchFault]
  split <;> rfl

theorem fetchFault_tinst (c : Cap) (insn : BitVec 32) : (fetchFault c).tinst insn = 0 := by
  rw [fetchFault]
  split <;> rfl

/-- No fetch in C-mode gets an instruction through a capability that cannot be executed (R90, R104). -/
theorem fetch_of_cannotExecute {s : State} {c : Cap} (hs : s.inCMode = true) (hpc : s.pc = .cap c)
    (h : CannotExecute s c) : fetch s = .error (.raise (fetchFault c) c.cursor) := by
  rw [fetch, if_pos hs, fetchAddressC_cap hpc]
  by_cases hbarred : c.Barred
  · rw [fetchFault_access (.inl hbarred), decide_eq_true hbarred]
    rfl
  · rw [decide_eq_false hbarred]
    by_cases hmis : c.cursor.toNat % 4 ≠ 0
    · rw [fetchFault_misaligned hbarred hmis, (alignedTo_false _ _).mpr hmis]
      rfl
    · have haligned : c.cursor.toNat % 4 = 0 := not_not.mp hmis
      have hcode : ¬ CodeAt s c.cursor := (h.resolve_left hbarred).resolve_left hmis
      have hfetch : (s.plat.isMemRange c.cursor 4 && s.mem.fetchable c.cursor 4) = false :=
        Bool.eq_false_of_not_eq_true ((fetchable_iff_codeAt s _).not.mpr hcode)
      rw [fetchFault_access (.inr haligned), (alignedTo_iff _ _).mpr haligned]
      simp only [Bool.not_false, require_true, except_ok_bind, hfetch, require_false, except_error_bind]

/-! ### A handler that cannot be executed (R361) -/

/-- A trap into mode ID 3 leaves the registers, memory, the schedule and the platform (R355, R360). -/
theorem TrapRecorded.keeps {s t : State} {interrupt : Bool} {code tval tval2 tinst : Word}
    (h : TrapRecorded s t interrupt code tval tval2 tinst) :
    t.regs = s.regs ∧ t.mem = s.mem ∧ t.inputs = s.inputs ∧ t.plat = s.plat := by
  obtain ⟨-, -, -, -, -, -, hregs, hmem, -, -, hinputs, hplat, -⟩ := h
  exact ⟨hregs, hmem, hinputs, hplat⟩

/-- A trap into mode ID 3 with CAPSTONE_EN set ends in C-mode (R22, R356). -/
theorem TrapRecorded.inCMode {s t : State} {interrupt : Bool} {code tval tval2 tinst : Word}
    (h : TrapRecorded s t interrupt code tval tval2 tinst) (hen : s.capstoneEn = true) : t.inCMode = true := by
  obtain ⟨-, -, -, -, -, hp, -, -, hen', -⟩ := h
  exact t.inCMode_iff.mpr ⟨hen'.trans hen, hp⟩

/-- Whether a capability can be executed is a matter of memory, which no trap changes. -/
theorem TrapRecorded.cannotExecute_iff {s t : State} {interrupt : Bool} {code tval tval2 tinst : Word}
    (h : TrapRecorded s t interrupt code tval tval2 tinst) (c : Cap) : CannotExecute t c ↔ CannotExecute s c := by
  obtain ⟨-, hmem, -, hplat⟩ := h.keeps
  simp only [CannotExecute, CodeAt, AllMem, hmem, hplat]

/-- A trap into C-mode leaves MIE clear and `cis`, `cid` and `cih` as they were, so it lets no interrupt in (R360, R372, R373). -/
theorem TrapRecorded.nothingTaken {s t : State} {interrupt : Bool} {code tval tval2 tinst : Word}
    (h : TrapRecorded s t interrupt code tval tval2 tinst) (hq : ¬ HQualifies s) : NothingTaken t := by
  obtain ⟨hcsr, -, hmie, -, -, hp, -, -, hen, -, -, -, hcih, -⟩ := h
  refine ⟨?_, fun _ => .inl hmie, fun hlow => absurd hp hlow⟩
  rw [HQualifies, hen, hcih, hcsr]
  exact hq

/-- What a trap into C-mode leaves of a `pc` capability, by the case of `ctvec` (R360). -/
def HandlerEntered (s t : State) (d : Cap) : Prop :=
  (∀ h, s.ccsr.ctvec = .cap h → t.pc = .cap h ∧ t.ccsr.cepc = .cap d) ∧
    (∀ h, s.ccsr.ctvec = .int h → t.pc = .cap { d with cursor := h } ∧ t.ccsr.cepc = .int d.cursor ∧
      t.ccsr.ctvec = .int h)

/-- A trap into C-mode whose handler cannot be executed leaves a `pc` that cannot be executed, and a `ctvec` that leads there again (R360, R361). -/
theorem livelocked_of_takeTrapC {s : State} (interrupt : Bool) (code tval tval2 tinst : Word) (hs : UnusableHandler s) :
    ∃ t, takeTrapC interrupt code tval tval2 tinst s = .ok t ∧ Livelocked t ∧
      TrapRecorded s t interrupt code tval tval2 tinst ∧ ∀ d, s.pc = .cap d → HandlerEntered s t d := by
  rcases hs with ⟨d, hd, hcannot⟩ | ⟨n, c, hn, hc, hcannot⟩
  · obtain ⟨t, htrap, hrec, -, hcepc, hpc, hctvec⟩ := takeTrapC_installs s interrupt code tval tval2 tinst hd
    have hcannot' : CannotExecute t d := (hrec.cannotExecute_iff d).mpr hcannot
    have hagain : UnusableHandler t := by
      by_cases ht : d.type = .nonLinear
      · exact .inl ⟨d, by rw [hctvec, if_pos ht], hcannot'⟩
      · exact .inr ⟨d.cursor, d, by rw [hctvec, if_neg ht], hpc, hcannot'⟩
    refine ⟨t, htrap, ⟨hagain, d, hpc, hcannot'⟩, hrec, fun c hc => ⟨fun h hh => ?_, fun h hh => ?_⟩⟩
    · cases hd.symm.trans hh
      exact ⟨hpc, hcepc.trans hc⟩
    · cases hd.symm.trans hh
  · obtain ⟨t, htrap, hrec, -, hcepc, hpc, hctvec⟩ := takeTrapC_redirects s interrupt code tval tval2 tinst hn hc
    have hcannot' : CannotExecute t { c with cursor := n } := (hrec.cannotExecute_iff _).mpr hcannot
    refine ⟨t, htrap, ⟨.inr ⟨n, _, hctvec.trans hn, hpc, hcannot'⟩, _, hpc, hcannot'⟩, hrec, fun d hd => ?_⟩
    cases hc.symm.trans hd
    refine ⟨fun h hh => ?_, fun h hh => ?_⟩
    · cases hn.symm.trans hh
    · cases hn.symm.trans hh
      exact ⟨hpc, hcepc, hctvec.trans hn⟩

/-! ### The livelock (R361) -/

/-- A livelocked state in C-mode with no event to come and no interrupt to take. -/
structure Stalled (s : State) : Prop where
  inCMode : s.inCMode = true
  inputs : s.inputs = []
  nothingTaken : NothingTaken s
  livelocked : Livelocked s

/-- One turn of the livelock: the fault of the fetch through `d` is taken into the handler (R360, R361). -/
structure Refaults (s t : State) (d : Cap) : Prop where
  pc : s.pc = .cap d
  cannotExecute : CannotExecute s d
  recorded : TrapRecorded s t false (fetchFault d).code d.cursor 0 0
  entered : HandlerEntered s t d

/-- A step of the livelock is one more turn of it. -/
theorem Stalled.refaults {s : State} (hs : Stalled s) :
    ∃ t d, step s = .next t ∧ Stalled t ∧ Refaults s t d := by
  obtain ⟨hen, hp⟩ := s.inCMode_iff.mp hs.inCMode
  obtain ⟨hunusable, d, hpc, hcannot⟩ := hs.livelocked
  obtain ⟨t, htrap, hlive, hrec, hentered⟩ := livelocked_of_takeTrapC false (fetchFault d).code d.cursor 0 0 hunusable
  have hquiet : Quiet s := ⟨.inl hp, by rw [boundary_of_nil hs.inputs]; exact hs.nothingTaken⟩
  have hnext : step s = .next t := by
    rw [step_of_quiet hquiet, boundary_of_nil hs.inputs, runInstruction, fetch_of_cannotExecute hs.inCMode hpc hcannot]
    simp only [stopOutcome]
    rw [takeException_machine hp, takeTrapTop_capstone hen, fetchFault_tval, fetchFault_tinst, htrap]
    rfl
  have hnothing : NothingTaken t := hrec.nothingTaken hs.nothingTaken.1
  obtain ⟨-, -, hinputs, -⟩ := hrec.keeps
  exact ⟨t, d, hnext, ⟨hrec.inCMode hen, hinputs.trans hs.inputs, hnothing, hlive⟩,
    hpc, hcannot, hrec, hentered d hpc⟩

/-- One step more at the end of a run. -/
theorem run_succ {M : Host.Core} {n : Nat} {s r : M.State} (h : M.run n s = .next r) :
    M.run (n + 1) s = M.step r := by
  induction n generalizing s with
  | zero =>
    cases h
    rw [Host.Core.run]
    cases M.step r <;> rfl
  | succ n ih =>
    rw [Host.Core.run] at h ⊢
    split at h
    · next s' hs => exact ih h
    · cases h
    · cases h

/-- The livelock lasts for any number of steps, and leaves the registers and memory as they were. -/
theorem Stalled.stays {s : State} (hs : Stalled s) (n : Nat) :
    ∃ r : State, Host.Core.run core n s = .next r ∧ Stalled r ∧ r.regs = s.regs ∧ r.mem = s.mem := by
  induction n with
  | zero => exact ⟨s, rfl, hs, rfl, rfl⟩
  | succ n ih =>
    obtain ⟨r, hrun, hr, hregs, hmem⟩ := ih
    obtain ⟨t, d, hstep, ht, hrefault⟩ := hr.refaults
    obtain ⟨hregs', hmem', -⟩ := hrefault.recorded.keeps
    exact ⟨t, (run_succ hrun).trans hstep, ht, hregs'.trans hregs, hmem'.trans hmem⟩

/-- The cause and the data of one turn: 1, or 0 for a misaligned cursor, and the cursor (R90, R352). -/
theorem Refaults.cause {s t : State} {d : Cap} (h : Refaults s t d) :
    t.csr.mtval = d.cursor ∧ (d.Barred ∨ d.cursor.toNat % 4 = 0 → t.csr.mcause = 1) ∧
      (¬ d.Barred → d.cursor.toNat % 4 ≠ 0 → t.csr.mcause = 0) := by
  obtain ⟨hcsr, -⟩ := h.recorded
  have hcause : t.csr.mcause = 0 ||| (fetchFault d).code := by rw [hcsr]; rfl
  refine ⟨by rw [hcsr], fun haccess => ?_, fun hbarred hmis => ?_⟩
  · rw [hcause, fetchFault_access haccess]; rfl
  · rw [hcause, fetchFault_misaligned hbarred hmis]; rfl

/-- Settles O59: a trap into an unusable handler leads there again, so the run stays in it, by induction on its length. -/
theorem unusableHandlerLivelocks : Obligations.UnusableHandlerLivelocks := by
  refine ⟨fun s t interrupt code tval tval2 tinst hs htrap => ?entry, fun s hc hinputs hnothing hlive n => ?forever⟩
  case entry =>
    obtain ⟨t', htrap', hlive, -⟩ := livelocked_of_takeTrapC interrupt code tval tval2 tinst hs
    cases htrap'.symm.trans htrap
    exact hlive
  case forever =>
    obtain ⟨r, hrun, hr, hregs, hmem⟩ := Stalled.stays ⟨hc, hinputs, hnothing, hlive⟩ n
    obtain ⟨t, d, hstep, ht, hrefault⟩ := hr.refaults
    obtain ⟨hmtval, haccess, hmis⟩ := hrefault.cause
    obtain ⟨hregs', hmem', -⟩ := hrefault.recorded.keeps
    obtain ⟨-, hmpie, hmie, hlevel, -⟩ := hrefault.recorded
    rw [(r.inCMode_iff.mp hr.inCMode).2] at hlevel
    exact ⟨r, t, d, hrun, (run_succ hrun).trans hstep, hr.livelocked, ht.livelocked, hregs, hmem, hregs'.trans hregs,
      hmem'.trans hmem, hrefault.pc, hrefault.cannotExecute, hmtval, haccess, hmis, hrefault.entered.1,
      hrefault.entered.2, hmie, hmpie, hlevel⟩

end Sys2Proof.Machine

namespace Sys2Proof.Machine

/-! ### The state after reset (R400 to R408) -/

/-- Register 0 reads as `cnull` as ever; every other register holds `Int(0)` (R32, log 2). -/
theorem State.reset_capValue (r : Reg) : State.reset.capValue r = if r = 0 then .cap cnull else .int 0 := by
  have hstored : State.reset.stored r = .int 0 := Vector.getElem_replicate ..
  rw [State.capValue, hstored]

/-- A capability that reset leaves in a register is the `cnull` of register 0. -/
theorem State.reset_capValue_eq_cap {r : Reg} {c : Cap} (h : State.reset.capValue r = .cap c) : c = cnull := by
  rw [State.reset_capValue] at h
  split at h
  · exact (Value.cap.inj h).symm
  · cases h

/-- Every CCSR holds `cnull` (R404, log 3): the four named ones and the sixteen of `cpmp`. -/
theorem Ccsrs.reset_values : Ccsrs.reset.values = List.replicate 20 (.cap cnull) := by
  rw [Ccsrs.values, Ccsrs.reset, Vector.toList_replicate]
  rfl

/-- No memory slot holds a capability (R408). -/
theorem State.reset_slotCap (a : Word) : State.reset.mem.slotCap a = none := tableGet_nil _

/-- The run has stored over no byte yet (R82). -/
theorem State.reset_mark (a : Word) : State.reset.mem.mark a = none := tableGet_nil _

/-- So every byte is defined for an integer load (R408). -/
theorem State.reset_defined (a : Word) : State.reset.mem.defined a = true := by
  rw [Memory.defined, State.reset_mark]
  rfl

/-- Settles O1: what a register, a CCSR and memory hold after reset; the other fields are the reset state's own. -/
theorem resetLeavesNoValidCapability : Obligations.ResetLeavesNoValidCapability := by
  refine ⟨rfl, rfl, rfl, rfl, fun r c h => ?register, fun v hv c h => ?ccsr, Value.vacant_cap cnull, rfl, ?mie, ?mprv,
    rfl, rfl, rfl, rfl, rfl, fun a => ⟨State.reset_slotCap a, State.reset_defined a⟩⟩
  case register =>
    rw [State.reset_capValue_eq_cap h]
    rfl
  case ccsr =>
    have hmem : v ∈ List.replicate 20 (.cap cnull) := Ccsrs.reset_values ▸ hv
    have hc : Value.cap c = .cap cnull := h.symm.trans (List.eq_of_mem_replicate hmem)
    rw [Value.cap.inj hc]
    rfl
  case mie => decide
  case mprv => decide

end Sys2Proof.Machine

namespace Sys2Proof.Machine

/-! ### What an instruction may make of a capability (R26, R34, R107) -/

/-- `c` carries on `d`: valid only if `d` is, with no more authority, granting access only if `d` does, and non-linear if `d` is. Every instruction but CAPENTER, MREV and REVOKE makes capabilities of others so; MREV does too, and REVOKE keeps the first two. -/
structure Cap.DerivedFrom (c d : Cap) : Prop where
  valid : c.valid = true → d.valid = true
  within : c.within d
  access : c.type ≠ .revocation → d.type ≠ .revocation
  nonLinear : d.type = .nonLinear → c.type = .nonLinear

theorem permLe_refl (p : BitVec 3) : permLe p p = true := by simp [permLe]

theorem permLe_trans {p q r : BitVec 3} (h : permLe p q = true) (k : permLe q r = true) : permLe p r = true := by
  revert p q r; decide

theorem Cap.within_refl (c : Cap) : c.within c := ⟨Nat.le_refl _, Nat.le_refl _, permLe_refl _⟩

theorem Cap.within.trans {c d e : Cap} (h : c.within d) (k : d.within e) : c.within e := by
  obtain ⟨hbase, hlast, hperms⟩ := h
  obtain ⟨kbase, klast, kperms⟩ := k
  exact ⟨kbase.trans hbase, hlast.trans klast, permLe_trans hperms kperms⟩

theorem Cap.DerivedFrom.trans {c d e : Cap} (h : c.DerivedFrom d) (k : d.DerivedFrom e) : c.DerivedFrom e :=
  ⟨k.valid ∘ h.valid, h.within.trans k.within, k.access ∘ h.access, h.nonLinear ∘ k.nonLinear⟩

theorem Cap.DerivedFrom.refl (c : Cap) : c.DerivedFrom c := ⟨id, c.within_refl, id, id⟩

/-- Setting the cursor hands on all the authority (R162 to R164). -/
theorem Cap.derivedFrom_cursor (c : Cap) (a : Word) : ({ c with cursor := a } : Cap).DerivedFrom c :=
  ⟨id, c.within_refl, id, id⟩

/-- A new type, where the old one was neither non-linear nor, unless the new one is too, a revocation capability. -/
theorem Cap.derivedFrom_type {c d : Cap} (hvalid : c.valid = d.valid) (hbase : c.base = d.base) (hlast : c.last = d.last)
    (hperms : c.perms = d.perms) (haccess : d.type ≠ .revocation)
    (hlinear : d.type = .nonLinear → c.type = .nonLinear) : c.DerivedFrom d :=
  ⟨fun h => hvalid ▸ h, ⟨hbase ▸ Nat.le_refl _, hlast ▸ Nat.le_refl _, hperms ▸ permLe_refl _⟩, fun _ => haccess, hlinear⟩

/-- A part of the region (R166 to R168). -/
theorem Cap.derivedFrom_region {c d : Cap} (hvalid : c.valid = d.valid) (htype : c.type = d.type)
    (hperms : c.perms = d.perms) (hbase : d.base.toNat ≤ c.base.toNat) (hlast : c.last.toNat ≤ d.last.toNat) :
    c.DerivedFrom d :=
  ⟨fun h => hvalid ▸ h, ⟨hbase, hlast, hperms ▸ permLe_refl _⟩, fun h => htype ▸ h, fun h => htype ▸ h⟩

/-! ### What a base instruction leaves -/

/-- A trap is taken, for an exception or for an interrupt: into C-mode, into M-mode or into S-mode (R360, R362, R363). -/
inductive Trapped (s : State) : State → Prop
  | intoC (interrupt : Bool) (code tval tval2 tinst : Word) (t : State) (hen : s.capstoneEn = true)
      (h : takeTrapC interrupt code tval tval2 tinst s = .ok t) : Trapped s t
  | intoM (interrupt : Bool) (code tval tval2 tinst : Word) (hen : s.capstoneEn = false) :
      Trapped s (takeTrapM interrupt code tval tval2 tinst s)
  | intoS (interrupt : Bool) (code tval : Word) : Trapped s (takeTrapS interrupt code tval s)

theorem Trapped.of_takeTrapTop {s t : State} {interrupt : Bool} {code tval tval2 tinst : Word}
    (h : takeTrapTop interrupt code tval tval2 tinst s = .ok t) : Trapped s t := by
  unfold takeTrapTop at h
  split at h
  · next hen => exact .intoC _ _ _ _ _ t hen h
  · next hen =>
    cases h
    exact .intoM _ _ _ _ _ (Bool.eq_false_of_not_eq_true hen)

/-- Taking an exception is one of the three traps (R356). -/
theorem Trapped.of_takeException {s t : State} {e : Exc} {addr : Word} {insn : BitVec 32}
    (h : takeException e addr insn s = .ok t) : Trapped s t := by
  unfold takeException at h
  split at h
  · cases h
    exact .intoS ..
  · exact .of_takeTrapTop h

/-- What a base instruction leaves that raises nothing. A write of register 0 stands for no write. -/
inductive BaseEffect (s : State) : State → Prop
  | writes (rd : Reg) (v : Word) : BaseEffect s (s.setReg rd (.int v)).advance
  | loads (rd : Reg) (v : Word) : BaseEffect s ((s.setReg rd (.int v)).draw).advance
  | stores (ea v : Word) (n : Nat) (hn : n ≤ 8) : BaseEffect s (s.setMem (s.mem.writeInt ea n v)).advance
  | jumps (rd : Reg) (link target : Word) (pc : Value) (hpc : pc = s.pc.withCursor target ∨ pc = .int target) :
      BaseEffect s ((s.setPc pc).setReg rd (.int link))
  | accessesCsr (u : State) (rd : Reg) (v : Word) (csr : Csrs) (hu : u = s ∨ u = s.draw)
      (hcsr : csr = s.csr ∨ ∃ n w, csr = writeCsr s.csr n w) : BaseEffect s ((u.setCsr csr).setReg rd (.int v)).advance
  | returnsM (p : Priv) : BaseEffect s (returnM p s)
  | returnsC (p : Priv) (hen : s.capstoneEn = true) : BaseEffect s (returnC p s)
  | returnsS : BaseEffect s (returnS s)

theorem jumpTo_effect {s t : State} {target : Word} (h : jumpTo s target = .ok t) :
    ∃ pc, t = s.setPc pc ∧ (pc = s.pc.withCursor target ∨ pc = .int target) := by
  unfold jumpTo at h
  split at h
  · cases h; exact ⟨_, rfl, .inl rfl⟩
  · split at h
    · cases h; exact ⟨_, rfl, .inr rfl⟩
    · cases h

theorem branch_effect {s t : State} {taken : Bool} {imm : BitVec 13} (h : branch s taken imm = .ok t) :
    BaseEffect s t := by
  unfold branch at h
  split at h
  · obtain ⟨pc, rfl, hpc⟩ := jumpTo_effect h
    exact .jumps 0 0 _ pc hpc
  · cases h
    exact .writes 0 0

theorem jumpAndLink_effect {s t : State} {rd : Reg} {target : Word} (h : jumpAndLink s rd target = .ok t) :
    BaseEffect s t := by
  obtain ⟨u, hu, h⟩ := except_bind_ok h
  obtain ⟨pc, rfl, hpc⟩ := jumpTo_effect hu
  cases h
  exact .jumps rd _ target pc hpc

theorem load_effect {s t : State} {rd rs1 : Reg} {imm : BitVec 12} {n : Nat} {signed : Bool}
    (h : load s rd rs1 imm n signed = .ok t) : BaseEffect s t := by
  obtain ⟨ea, -, h⟩ := except_bind_ok h
  cases h
  exact .loads rd _

theorem store_effect {s t : State} {rs1 rs2 : Reg} {imm : BitVec 12} {n : Nat} (hn : n ≤ 8)
    (h : store s rs1 rs2 imm n = .ok t) : BaseEffect s t := by
  obtain ⟨⟨ea, v⟩, -, h⟩ := except_bind_ok h
  cases h
  exact .stores ea v n hn

theorem csrOp_effect {s t : State} {rd : Reg} {csr : BitVec 12} {read write : Bool} {new : Word → Word}
    (h : csrOp s rd csr read write new = .ok t) : BaseEffect s t := by
  obtain ⟨c, -, h⟩ := except_bind_ok h
  have hread : (if read then noteCsrRead s c else s) = s ∨ (if read then noteCsrRead s c else s) = s.draw := by
    unfold noteCsrRead
    split
    · split
      · exact .inr rfl
      · exact .inl rfl
    · exact .inl rfl
  dsimp only at h
  generalize (if read then noteCsrRead s c else s) = u at h hread
  cases write with
  | true =>
    cases h
    exact .accessesCsr u rd _ _ hread (.inr ⟨c, _, rfl⟩)
  | false =>
    cases h
    have hcsr : u.csr = s.csr := by rcases hread with rfl | rfl <;> rfl
    exact .accessesCsr u rd _ u.csr hread (.inl hcsr)

theorem mret_effect {s t : State} (h : exec .mret s = .next t) : Trapped s t ∨ BaseEffect s t := by
  rcases finish_next h with h | ⟨_, _, -, h⟩
  · obtain ⟨_, -, h⟩ := except_bind_ok h
    obtain ⟨p, -, h⟩ := except_bind_ok h
    cases h
    split
    · exact .inr (.returnsC p ‹_›)
    · exact .inr (.returnsM p)
  · exact .inl (.of_takeException h)

/-- An instruction whose checks lead to one known effect has that effect, or an exception was taken. -/
theorem effect_of_finish {i : Instr} {s t : State} {body : Except Stop State} {E : Prop} (h : finish i s body = .next t)
    (hbody : body = .ok t → E) : Trapped s t ∨ E := by
  rcases finish_next h with h | ⟨_, _, -, h⟩
  · exact .inr (hbody h)
  · exact .inl (.of_takeException h)

theorem effect_of_adjustedOp {i : Instr} {s t : State} {body : Except Stop State} {E : Prop}
    (h : adjustedOp i s body = .next t) (hbody : body = .ok t → E) : Trapped s t ∨ E :=
  effect_of_finish h fun h => by
    obtain ⟨_, -, h⟩ := except_bind_ok h
    exact hbody h

/-- A check before the effect changes nothing of it. -/
theorem effect_of_require {b : Bool} {e : Exc} {a : Word} {t : State} {body : Except Stop State} {E : Prop}
    (hbody : body = .ok t → E) (h : (require b e a >>= fun _ => body) = .ok t) : E := by
  obtain ⟨_, -, h⟩ := except_bind_ok h
  exact hbody h

/-- All that a base instruction can answer and go on (R282, R241, R249, R254). -/
theorem exec_base {i : Instr} {s t : State} (hi : isCapstone i = false) (h : exec i s = .next t) :
    Trapped s t ∨ BaseEffect s t := by
  match i, h with
  | .addi .., h | .slti .., h | .sltiu .., h | .xori .., h | .ori .., h | .andi .., h | .slli .., h | .srli .., h
  | .srai .., h | .add .., h | .sub .., h | .sll .., h | .slt .., h | .sltu .., h | .xor .., h | .srl .., h
  | .sra .., h | .or .., h | .and .., h | .addiw .., h | .slliw .., h | .srliw .., h | .sraiw .., h | .addw .., h
  | .subw .., h | .sllw .., h | .srlw .., h | .sraw .., h | .lui .., h | .auipc .., h =>
    cases h; exact .inr (.writes ..)
  | .fence .., h => cases h; exact .inr (.writes 0 0)
  | .beq .., h | .bne .., h | .blt .., h | .bge .., h | .bltu .., h | .bgeu .., h => exact effect_of_finish h branch_effect
  | .jal .., h | .jalr .., h => exact effect_of_finish h jumpAndLink_effect
  | .lb .., h | .lh .., h | .lw .., h | .ld .., h | .lbu .., h | .lhu .., h | .lwu .., h =>
    exact effect_of_adjustedOp h load_effect
  | .sb .., h | .sh .., h | .sw .., h | .sd .., h => exact effect_of_adjustedOp h (store_effect (by decide))
  | .ecall, h | .ebreak, h => exact effect_of_adjustedOp h (by rintro ⟨⟩)
  | .mret, h => exact mret_effect h
  | .sret, h => exact effect_of_finish h (effect_of_require (by rintro ⟨⟩; exact .returnsS))
  | .wfi, h | .sfenceVma .., h => exact effect_of_finish h (effect_of_require (by rintro ⟨⟩; exact .writes 0 0))
  | .csrrw .., h | .csrrs .., h | .csrrc .., h | .csrrwi .., h | .csrrsi .., h | .csrrci .., h =>
    exact effect_of_finish h csrOp_effect

end Sys2Proof.Machine

namespace Sys2Proof.Machine

/-! ### What a C-mode instruction leaves -/

/-- The state after SwapCEff, the region being ready (R376). -/
def State.swapped (s : State) (B : Word) : State :=
  ((s.setMem (s.mem.saveCEff B s.ceff)).installCEff (s.mem.readCEff s.draws B)).draw

/-- CALL before its switch of domains: the capability in `cra`, `pc` after the CALL (R214). -/
def callReady (s : State) (rs1 : Reg) : State := (callMove s rs1).advance

/-- RETURN before its switch of domains: the capability taken out of `x[rd]`, `pc` at the entry (R216, R217). -/
def retReady (s : State) (rd : Reg) (entry : Word) : State := (s.setReg rd (.cap cnull)).setPc (s.pc.withCursor entry)

/-- The end of a synchronous RETURN: the capability goes back sealed to the register that the CALL named, or to `cih` (R216). -/
def State.handBack (s : State) (c : Cap) : State :=
  if c.type = .sealedReturn ∧ c.reg ≠ 0 then s.setReg c.reg (.cap { c with type := .sealed })
  else s.setCcsr { s.ccsr with cih := .cap { c with type := .sealed } }

/-- The start of an asynchronous RETURN: the capability goes to `cih` sealed (R217). -/
def State.keepHandler (s : State) (c : Cap) : State :=
  s.setCcsr { s.ccsr with cih := .cap { c with type := .sealed, async := false } }

/-- The end of an asynchronous RETURN: the posted interrupts (R217, D31). -/
def State.postInts (s : State) (posted : Word) : State :=
  s.setCsr { s.csr with mip := (s.csr.mip ||| posted) &&& irqMask }

/-- What a C-mode instruction leaves that raises nothing, in C-mode. -/
inductive CModeEffect (s : State) : State → Prop
  | moves (rd rs1 : Reg) : CModeEffect s (s.movc rd rs1).advance
  | derives (rd rs1 : Reg) (f : Cap → Cap) (c : Cap) (hc : s.capOf? rs1 = some c) (hf : (f c).DerivedFrom c) :
      CModeEffect s ((s.movc rd rs1).modifyCap rd f).advance
  | rewrites (r : Reg) (f : Cap → Cap) (c : Cap) (hc : s.capOf? r = some c) (hf : (f c).DerivedFrom c) :
      CModeEffect s (s.modifyCap r f).advance
  | reads (rd : Reg) (v : Word) : CModeEffect s (s.setReg rd (.int v)).advance
  | splits (rd rs1 : Reg) (c : Cap) (val : Word) (hc : s.capOf? rs1 = some c) (hne : rs1 ≠ rd)
      (hbase : c.base.toNat ≤ val.toNat) (hlast : val.toNat < c.last.toNat) :
      CModeEffect s ((s.setReg rd (.cap (c.splitHigh val))).setReg rs1 (.cap (c.splitLow val))).advance
  | remembers (rd rs1 : Reg) (c : Cap) (hc : s.capOf? rs1 = some c) (ht : c.type = .linear) :
      CModeEffect s ((s.setReg rd (.cap { c with type := .revocation, born := s.revClock })).tickRevClock).advance
  | revokes (rs1 : Reg) (r : Cap) (hr : s.capOf? rs1 = some r) (hv : r.valid = true) :
      CModeEffect s ((s.revokeAll r).setReg rs1 (.cap (revokeResult s r))).advance
  | loadsCap (rd : Reg) (ea : Word) (v : Value) (ha : ea.toNat % 16 = 0) (hv : v = s.mem.readSlot s.draws ea) :
      CModeEffect s (if v.movesOut then (s.setReg rd v).draw.setMem ((s.setReg rd v).draw.mem.writeSlot ea (.cap cnull))
        else (s.setReg rd v).draw).advance
  | storesCap (rs1 rs2 : Reg) (c : Cap) (ea : Word) (hc : s.capOf? rs1 = some c) (ha : ea.toNat % 16 = 0) :
      CModeEffect s (stcRegisters (s.setMem (s.mem.writeSlot ea (s.capValue rs2))) rs1 rs2 c (s.capValue rs2)).advance
  | links (rd rs1 : Reg) (c : Cap) (a : Word) (hc : s.capOf? rs1 = some c) :
      CModeEffect s (if rs1 ≠ rd ∧ c.type ≠ .nonLinear then
          ((s.setReg rd (nextPc s)).setPc (.cap { c with cursor := a })).setReg rs1 (.cap cnull)
        else (s.setReg rd (nextPc s)).setPc (.cap { c with cursor := a }))
  | jumpsTo (rd : Reg) (c : Cap) (a : Word) (hc : s.capOf? rd = some c) :
      CModeEffect s (if c.type ≠ .nonLinear then (s.setPc (.cap { c with cursor := a })).setReg rd (.cap cnull)
        else s.setPc (.cap { c with cursor := a }))
  | calls (rd rs1 : Reg) (d : Cap) (hd : callTarget s rs1 = .cap d) (hv : d.valid = true) (ht : d.type = .sealed)
      (hB : d.base.toNat % 16 = 0) :
      CModeEffect s (((callReady s rs1).swapped d.base).modifyCap cra fun c => c.called rd)
  | returnsSync (rd : Reg) (c : Cap) (entry : Word) (hc : s.capOf? rd = some c) (hv : c.valid = true)
      (ht : c.type = .sealed ∨ c.type = .sealedReturn) (hB : c.base.toNat % 16 = 0) :
      CModeEffect s (((retReady s rd entry).swapped c.base).handBack c)
  | returnsAsync (rd : Reg) (c : Cap) (entry posted : Word) (p : Priv) (hc : s.capOf? rd = some c) (hv : c.valid = true)
      (ht : c.type = .sealed ∨ c.type = .sealedReturn) (hB : c.base.toNat % 16 = 0) :
      CModeEffect s (((retReady (s.keepHandler c) rd entry).exchanged c.base p).postInts posted)
  | exchanges (rd rs1 : Reg) (n : CcsrName) (c : Cap) (hc : s.capOf? rs1 = some c) :
      CModeEffect s (ccsrExchange s rd rs1 n c).advance

/-! ### The C-mode instructions, one after the other -/

section Instructions

variable {s t : State}

/-- The effect of a C-mode instruction comes after its mode check and its resource check. -/
theorem effect_of_capstoneOp {i : Instr} {body : Except Stop State} (h : capstoneOp i s body = .next t)
    (hbody : body = .ok t → CModeEffect s t) : Trapped s t ∨ (s.inCMode = true ∧ CModeEffect s t) := by
  rcases capstoneOp_next h with ⟨hs, h⟩ | ⟨_, _, h⟩
  · exact .inr ⟨hs, hbody h⟩
  · exact .inl (.of_takeException h)

theorem cincoffset_effect {rd rs1 rs2 : Reg} (h : exec (.cincoffset rd rs1 rs2) s = .next t) :
    Trapped s t ∨ (s.inCMode = true ∧ CModeEffect s t) := effect_of_capstoneOp h fun h => by
  obtain ⟨c, hc, h⟩ := except_bind_ok h
  obtain ⟨v, -, h⟩ := except_bind_ok h
  obtain ⟨_, -, h⟩ := except_bind_ok h
  cases h
  exact .derives rd rs1 _ c (requireCap_ok hc) (c.derivedFrom_cursor _)

theorem cincoffsetimm_effect {rd rs1 : Reg} {imm : BitVec 12} (h : exec (.cincoffsetimm rd rs1 imm) s = .next t) :
    Trapped s t ∨ (s.inCMode = true ∧ CModeEffect s t) := effect_of_capstoneOp h fun h => by
  obtain ⟨c, hc, h⟩ := except_bind_ok h
  obtain ⟨_, -, h⟩ := except_bind_ok h
  cases h
  exact .derives rd rs1 _ c (requireCap_ok hc) (c.derivedFrom_cursor _)

theorem scc_effect {rd rs1 rs2 : Reg} (h : exec (.scc rd rs1 rs2) s = .next t) :
    Trapped s t ∨ (s.inCMode = true ∧ CModeEffect s t) := effect_of_capstoneOp h fun h => by
  obtain ⟨c, hc, h⟩ := except_bind_ok h
  obtain ⟨v, -, h⟩ := except_bind_ok h
  obtain ⟨_, -, h⟩ := except_bind_ok h
  cases h
  exact .derives rd rs1 _ c (requireCap_ok hc) (c.derivedFrom_cursor _)

theorem shrunk_derivedFrom {c : Cap} {lo hi : Word} (hlt : lo.toNat < hi.toNat)
    (hin : c.base.toNat ≤ lo.toNat ∧ hi.toNat ≤ c.last.toNat) : (c.shrunk lo hi).DerivedFrom c := by
  rw [Cap.shrunk_eq c hlt]
  exact Cap.derivedFrom_region rfl rfl rfl hin.1 hin.2

theorem shrink_effect {rd rs1 rs2 : Reg} (h : exec (.shrink rd rs1 rs2) s = .next t) :
    Trapped s t ∨ (s.inCMode = true ∧ CModeEffect s t) := effect_of_capstoneOp h fun h => by
  obtain ⟨c, hc, h⟩ := except_bind_ok h
  obtain ⟨lo, -, h⟩ := except_bind_ok h
  obtain ⟨hi, -, h⟩ := except_bind_ok h
  obtain ⟨_, -, h⟩ := except_bind_ok h
  obtain ⟨_, hlt, h⟩ := except_bind_ok h
  obtain ⟨_, hin, h⟩ := except_bind_ok h
  cases h
  exact .rewrites rd _ c (requireCap_ok hc)
    (shrunk_derivedFrom (of_decide_eq_true (require_ok hlt)) (of_decide_eq_true (require_ok hin)))

/-- SHRINKTO's region, which may be empty, lies in the old one (R167). -/
theorem shrinkto_derivedFrom {c : Cap} {imm : BitVec 12}
    (hin : c.base.toNat ≤ c.cursor.toNat ∧ c.cursor.toNat + imm.toNat ≤ c.last.toNat)
    (hzero : ¬ (imm = 0 ∧ c.cursor = 0)) :
    ({ c with base := c.cursor, last := c.cursor + imm.setWidth 64 - 1 } : Cap).DerivedFrom c := by
  refine Cap.derivedFrom_region rfl rfl rfl hin.1 ?_
  have hpos : imm.toNat ≠ 0 ∨ c.cursor.toNat ≠ 0 := by
    by_contra hno
    simp only [not_or, not_not] at hno
    exact hzero ⟨BitVec.eq_of_toNat_eq hno.1, BitVec.eq_of_toNat_eq hno.2⟩
  have hlast := c.last.isLt
  have hlast_eq : (c.cursor + imm.setWidth 64 - 1).toNat = c.cursor.toNat + imm.toNat - 1 := by
    have hw : (imm.setWidth 64).toNat = imm.toNat := by
      rw [BitVec.toNat_setWidth, Nat.mod_eq_of_lt (by omega)]
    have hone : (1 : Word).toNat = 1 := rfl
    rw [BitVec.toNat_sub, BitVec.toNat_add, hw, hone]
    omega
  show (c.cursor + imm.setWidth 64 - 1).toNat ≤ c.last.toNat
  omega

theorem shrinkto_effect {rd rs1 : Reg} {imm : BitVec 12} (h : exec (.shrinkto rd rs1 imm) s = .next t) :
    Trapped s t ∨ (s.inCMode = true ∧ CModeEffect s t) := effect_of_capstoneOp h fun h => by
  obtain ⟨c, hc, h⟩ := except_bind_ok h
  obtain ⟨_, -, h⟩ := except_bind_ok h
  obtain ⟨_, hin, h⟩ := except_bind_ok h
  obtain ⟨_, hzero, h⟩ := except_bind_ok h
  cases h
  exact .derives rd rs1 _ c (requireCap_ok hc)
    (shrinkto_derivedFrom (of_decide_eq_true (require_ok hin)) (by simpa [imp_iff_not_or] using require_ok hzero))

theorem split_effect {rd rs1 rs2 : Reg} (h : exec (.split rd rs1 rs2) s = .next t) :
    Trapped s t ∨ (s.inCMode = true ∧ CModeEffect s t) := effect_of_capstoneOp h fun h => by
  obtain ⟨c, hc, h⟩ := except_bind_ok h
  obtain ⟨val, -, h⟩ := except_bind_ok h
  obtain ⟨_, -, h⟩ := except_bind_ok h
  obtain ⟨_, -, h⟩ := except_bind_ok h
  obtain ⟨_, hin, h⟩ := except_bind_ok h
  obtain ⟨hbase, hlast⟩ := of_decide_eq_true (require_ok hin)
  split at h
  · cases h
    exact .reads 0 0
  · next hne =>
    cases h
    exact .splits rd rs1 c val (requireCap_ok hc) hne hbase hlast

theorem tightenPerms_le {imm : BitVec 5} {p : BitVec 3}
    (h : (decide (7 < imm.toNat) || permLe (imm.setWidth 3) p) = true) : permLe (tightenPerms imm) p = true := by
  unfold tightenPerms
  split
  · simp [permLe]
  · next hle => simpa [hle] using h

theorem tighten_effect {rd rs1 : Reg} {imm : BitVec 5} (h : exec (.tighten rd rs1 imm) s = .next t) :
    Trapped s t ∨ (s.inCMode = true ∧ CModeEffect s t) := effect_of_capstoneOp h fun h => by
  obtain ⟨c, hc, h⟩ := except_bind_ok h
  obtain ⟨_, -, h⟩ := except_bind_ok h
  obtain ⟨_, hperms, h⟩ := except_bind_ok h
  cases h
  exact .derives rd rs1 _ c (requireCap_ok hc)
    ⟨id, ⟨Nat.le_refl _, Nat.le_refl _, tightenPerms_le (require_ok hperms)⟩, id, id⟩

theorem delin_effect {rd rs1 rs2 : Reg} (h : exec (.delin rd rs1 rs2) s = .next t) :
    Trapped s t ∨ (s.inCMode = true ∧ CModeEffect s t) := effect_of_capstoneOp h fun h => by
  obtain ⟨c, hc, h⟩ := except_bind_ok h
  obtain ⟨_, ht, h⟩ := except_bind_ok h
  have hlinear : c.type = .linear := of_decide_eq_true (require_ok ht)
  cases h
  exact .rewrites rd _ c (requireCap_ok hc)
    (Cap.derivedFrom_type rfl rfl rfl rfl (by rw [hlinear]; decide) fun _ => rfl)

theorem init_effect {rd rs1 rs2 : Reg} (h : exec (.init rd rs1 rs2) s = .next t) :
    Trapped s t ∨ (s.inCMode = true ∧ CModeEffect s t) := effect_of_capstoneOp h fun h => by
  obtain ⟨c, hc, h⟩ := except_bind_ok h
  obtain ⟨v, -, h⟩ := except_bind_ok h
  obtain ⟨_, ht, h⟩ := except_bind_ok h
  obtain ⟨_, -, h⟩ := except_bind_ok h
  have huninit : c.type = .uninitialised := of_decide_eq_true (require_ok ht)
  cases h
  exact .derives rd rs1 _ c (requireCap_ok hc)
    (Cap.derivedFrom_type rfl rfl rfl rfl (by rw [huninit]; decide) fun h => by rw [huninit] at h; cases h)

theorem seal_effect {rd rs1 rs2 : Reg} (h : exec (.seal rd rs1 rs2) s = .next t) :
    Trapped s t ∨ (s.inCMode = true ∧ CModeEffect s t) := effect_of_capstoneOp h fun h => by
  obtain ⟨c, hc, h⟩ := except_bind_ok h
  obtain ⟨_, ht, h⟩ := except_bind_ok h
  obtain ⟨_, -, h⟩ := except_bind_ok h
  obtain ⟨_, -, h⟩ := except_bind_ok h
  obtain ⟨_, -, h⟩ := except_bind_ok h
  obtain ⟨_, -, h⟩ := except_bind_ok h
  have hlinear : c.type = .linear := of_decide_eq_true (require_ok ht)
  cases h
  exact .derives rd rs1 _ c (requireCap_ok hc)
    (Cap.derivedFrom_type rfl rfl rfl rfl (by rw [hlinear]; decide) fun h => by rw [hlinear] at h; cases h)

theorem drop_effect {rd rs1 rs2 : Reg} (h : exec (.drop rd rs1 rs2) s = .next t) :
    Trapped s t ∨ (s.inCMode = true ∧ CModeEffect s t) := effect_of_capstoneOp h fun h => by
  obtain ⟨c, hc, h⟩ := except_bind_ok h
  cases h
  exact .rewrites rs1 _ c (requireCap_ok hc) ⟨by rintro ⟨⟩, c.within_refl, id, id⟩

theorem lcc_effect {rd rs1 : Reg} {imm : BitVec 5} (h : exec (.lcc rd rs1 imm) s = .next t) :
    Trapped s t ∨ (s.inCMode = true ∧ CModeEffect s t) := effect_of_capstoneOp h fun h => by
  obtain ⟨c, -, h⟩ := except_bind_ok h
  obtain ⟨_, -, h⟩ := except_bind_ok h
  cases h
  exact .reads rd _

theorem mrev_effect {rd rs1 rs2 : Reg} (h : exec (.mrev rd rs1 rs2) s = .next t) :
    Trapped s t ∨ (s.inCMode = true ∧ CModeEffect s t) := effect_of_capstoneOp h fun h => by
  obtain ⟨c, hc, h⟩ := except_bind_ok h
  obtain ⟨_, -, h⟩ := except_bind_ok h
  obtain ⟨_, ht, h⟩ := except_bind_ok h
  cases h
  exact .remembers rd rs1 c (requireCap_ok hc) (of_decide_eq_true (require_ok ht))

theorem revoke_effect {rd rs1 rs2 : Reg} (h : exec (.revoke rd rs1 rs2) s = .next t) :
    Trapped s t ∨ (s.inCMode = true ∧ CModeEffect s t) := effect_of_capstoneOp h fun h => by
  obtain ⟨r, hr, h⟩ := except_bind_ok h
  obtain ⟨_, hv, h⟩ := except_bind_ok h
  obtain ⟨_, -, h⟩ := except_bind_ok h
  cases h
  exact .revokes rs1 r (requireCap_ok hr) (require_ok hv)

theorem authorizeLoad_aligned {c : Cap} {ea : Word} {n : Nat} {u : Unit} (h : authorizeLoad s c ea n = .ok u) :
    ea.toNat % n = 0 := by
  unfold authorizeLoad at h
  obtain ⟨_, -, h⟩ := except_bind_ok h
  obtain ⟨_, -, h⟩ := except_bind_ok h
  obtain ⟨_, -, h⟩ := except_bind_ok h
  obtain ⟨_, -, h⟩ := except_bind_ok h
  obtain ⟨_, -, h⟩ := except_bind_ok h
  obtain ⟨_, -, h⟩ := except_bind_ok h
  exact (alignedTo_iff ea n).mp (require_ok h)

theorem authorizeStore_aligned {c : Cap} {imm : BitVec 12} {ea : Word} {n : Nat} {u : Unit}
    (h : authorizeStore s c imm ea n = .ok u) : ea.toNat % n = 0 := by
  unfold authorizeStore at h
  obtain ⟨_, -, h⟩ := except_bind_ok h
  obtain ⟨_, -, h⟩ := except_bind_ok h
  obtain ⟨_, -, h⟩ := except_bind_ok h
  obtain ⟨_, -, h⟩ := except_bind_ok h
  obtain ⟨_, -, h⟩ := except_bind_ok h
  obtain ⟨_, -, h⟩ := except_bind_ok h
  obtain ⟨_, -, h⟩ := except_bind_ok h
  exact (alignedTo_iff ea n).mp (require_ok h)

theorem ldc_effect {rd rs1 : Reg} {imm : BitVec 12} (h : exec (.ldc rd rs1 imm) s = .next t) :
    Trapped s t ∨ (s.inCMode = true ∧ CModeEffect s t) := effect_of_capstoneOp h fun h => by
  obtain ⟨c, -, h⟩ := except_bind_ok h
  obtain ⟨_, ha, h⟩ := except_bind_ok h
  obtain ⟨_, -, h⟩ := except_bind_ok h
  obtain ⟨_, -, h⟩ := except_bind_ok h
  cases h
  exact .loadsCap rd _ _ (authorizeLoad_aligned ha) rfl

theorem stc_effect {rs1 rs2 : Reg} {imm : BitVec 12} (h : exec (.stc rs1 rs2 imm) s = .next t) :
    Trapped s t ∨ (s.inCMode = true ∧ CModeEffect s t) := effect_of_capstoneOp h fun h => by
  obtain ⟨c, hc, h⟩ := except_bind_ok h
  obtain ⟨_, ha, h⟩ := except_bind_ok h
  obtain ⟨_, -, h⟩ := except_bind_ok h
  cases h
  exact .storesCap rs1 rs2 c _ (requireCap_ok hc) (authorizeStore_aligned ha)

theorem cjalr_effect {rd rs1 : Reg} {imm : BitVec 12} (h : exec (.cjalr rd rs1 imm) s = .next t) :
    Trapped s t ∨ (s.inCMode = true ∧ CModeEffect s t) := effect_of_capstoneOp h fun h => by
  obtain ⟨c, hc, h⟩ := except_bind_ok h
  cases h
  exact .links rd rs1 c _ (requireCap_ok hc)

theorem cbnz_effect {rd rs1 : Reg} {imm : BitVec 12} (h : exec (.cbnz rd rs1 imm) s = .next t) :
    Trapped s t ∨ (s.inCMode = true ∧ CModeEffect s t) := effect_of_capstoneOp h fun h => by
  obtain ⟨c, hc, h⟩ := except_bind_ok h
  obtain ⟨v, -, h⟩ := except_bind_ok h
  split at h
  · cases h
    exact .reads 0 0
  · cases h
    exact .jumpsTo rd c _ (requireCap_ok hc)

theorem requireValueCap_ok {v : Value} {c : Cap} (h : requireValueCap v = .ok c) : v = .cap c := by
  cases v with
  | cap d => cases h; rfl
  | int n => cases h

theorem call_effect {rd rs1 rs2 : Reg} (h : exec (.call rd rs1 rs2) s = .next t) :
    Trapped s t ∨ (s.inCMode = true ∧ CModeEffect s t) := effect_of_capstoneOp h fun h => by
  obtain ⟨d, hd, h⟩ := except_bind_ok h
  obtain ⟨_, hv, h⟩ := except_bind_ok h
  obtain ⟨_, ht, h⟩ := except_bind_ok h
  obtain ⟨_, -, h⟩ := except_bind_ok h
  obtain ⟨u, hu, h⟩ := except_bind_ok h
  obtain ⟨⟨hB, -⟩, hu⟩ := State.swapCEff_ok (orStuck_ok hu)
  have heffect := CModeEffect.calls rd rs1 d (requireValueCap_ok hd) (require_ok hv) (of_decide_eq_true (require_ok ht)) hB
  cases h
  rw [hu]
  exact heffect

theorem returnSync_ok {rd : Reg} {c : Cap} {entry : Word} (h : returnSync rd c entry s = .ok t) :
    c.base.toNat % 16 = 0 ∧ t = ((retReady s rd entry).swapped c.base).handBack c := by
  obtain ⟨u, hu, h⟩ := except_bind_ok h
  rw [State.setReg_pc] at hu
  obtain ⟨⟨hB, -⟩, hu⟩ := State.swapCEff_ok (orStuck_ok hu)
  cases h
  rw [hu]
  exact ⟨hB, rfl⟩

theorem returnAsync_ok {rd : Reg} {c : Cap} {entry posted : Word} (h : returnAsync rd c entry posted s = .ok t) :
    c.base.toNat % 16 = 0 ∧ ∃ p, t = ((retReady (s.keepHandler c) rd entry).exchanged c.base p).postInts posted := by
  obtain ⟨u, hu, h⟩ := except_bind_ok h
  rw [State.setReg_pc] at hu
  obtain ⟨⟨hB, -⟩, p, -, hu⟩ := State.exchangeDomain_ok (orStuck_ok hu)
  cases h
  rw [hu]
  exact ⟨hB, p, rfl⟩

theorem ret_effect {rd rs1 rs2 : Reg} (h : exec (.ret rd rs1 rs2) s = .next t) :
    Trapped s t ∨ (s.inCMode = true ∧ CModeEffect s t) := effect_of_capstoneOp h fun h => by
  obtain ⟨c, hc, h⟩ := except_bind_ok h
  obtain ⟨entry, -, h⟩ := except_bind_ok h
  obtain ⟨_, hv, h⟩ := except_bind_ok h
  obtain ⟨_, ht, h⟩ := except_bind_ok h
  obtain ⟨_, -, h⟩ := except_bind_ok h
  split at h
  · obtain ⟨hB, p, rfl⟩ := returnAsync_ok h
    exact .returnsAsync rd c entry _ p (requireCap_ok hc) (require_ok hv) (of_decide_eq_true (require_ok ht)) hB
  · obtain ⟨hB, rfl⟩ := returnSync_ok h
    exact .returnsSync rd c entry (requireCap_ok hc) (require_ok hv) (of_decide_eq_true (require_ok ht)) hB

theorem ccsrrw_effect {rd rs1 : Reg} {imm : BitVec 12} (h : exec (.ccsrrw rd rs1 imm) s = .next t) :
    Trapped s t ∨ (s.inCMode = true ∧ CModeEffect s t) := effect_of_capstoneOp h fun h => by
  obtain ⟨c, hc, h⟩ := except_bind_ok h
  obtain ⟨n, -, h⟩ := except_bind_ok h
  cases h
  exact .exchanges rd rs1 n c (requireCap_ok hc)

end Instructions

/-- All that a C-mode instruction can answer and go on: an exception taken, or in C-mode its effect (R140, R355). -/
theorem exec_cModeOnly {i : Instr} {s t : State} (hi : cModeOnly i = true) (h : exec i s = .next t) :
    Trapped s t ∨ (s.inCMode = true ∧ CModeEffect s t) := by
  match i, h with
  | .revoke .., h => exact revoke_effect h
  | .shrink .., h => exact shrink_effect h
  | .tighten .., h => exact tighten_effect h
  | .delin .., h => exact delin_effect h
  | .lcc .., h => exact lcc_effect h
  | .scc .., h => exact scc_effect h
  | .split .., h => exact split_effect h
  | .seal .., h => exact seal_effect h
  | .mrev .., h => exact mrev_effect h
  | .init .., h => exact init_effect h
  | .drop .., h => exact drop_effect h
  | .cincoffset .., h => exact cincoffset_effect h
  | .call .., h => exact call_effect h
  | .ret .., h => exact ret_effect h
  | .shrinkto .., h => exact shrinkto_effect h
  | .cincoffsetimm .., h => exact cincoffsetimm_effect h
  | .ldc .., h => exact ldc_effect h
  | .stc .., h => exact stc_effect h
  | .cjalr .., h => exact cjalr_effect h
  | .cbnz .., h => exact cbnz_effect h
  | .ccsrrw .., h => exact ccsrrw_effect h
  | .movc rd rs1 rs2, h =>
    rcases cModeOp_next h with ⟨hs, h⟩ | ⟨_, _, h⟩
    · cases h
      exact .inr ⟨hs, .moves rd rs1⟩
    · exact .inl (.of_takeException h)

/-- What CAPENTER leaves (R232): `CAPSTONE_EN` set, and three capabilities, of which none is linear and the one over all of memory may be a revocation capability. -/
structure Entered (s t : State) : Prop where
  disabled : s.capstoneEn = false
  machine : s.priv = .machine
  genesis : ∃ pc x10 x11 clock, (pc.type = .nonLinear ∧ x10.type = .nonLinear ∧ x11.type ∈ [CapType.nonLinear, .revocation]) ∧
    t = ({ s.withGenesis pc x10 x11 clock with capstoneEn := true } : State).advance

theorem capenter_effect {rd rs1 rs2 : Reg} {s t : State} (h : exec (.capenter rd rs1 rs2) s = .next t) :
    Trapped s t ∨ Entered s t := by
  rcases finish_next h with h | ⟨_, _, -, h⟩
  · obtain ⟨_, hen, h⟩ := except_bind_ok h
    obtain ⟨_, hp, h⟩ := except_bind_ok h
    refine .inr ⟨by simpa using require_ok hen, of_decide_eq_true (require_ok hp), ?_⟩
    cases h
    split
    · exact ⟨_, _, _, _, ⟨rfl, rfl, List.mem_cons_of_mem _ (List.mem_singleton.mpr rfl)⟩, rfl⟩
    · exact ⟨_, _, _, _, ⟨rfl, rfl, List.mem_cons_self⟩, rfl⟩
  · exact .inl (.of_takeException h)

/-- All that an instruction can answer and go on. -/
theorem exec_effect {i : Instr} {s t : State} (h : exec i s = .next t) :
    Trapped s t ∨ BaseEffect s t ∨ (s.inCMode = true ∧ CModeEffect s t) ∨ Entered s t := by
  cases hbase : isCapstone i with
  | false => exact (exec_base hbase h).imp_right .inl
  | true =>
    cases hmode : cModeOnly i with
    | true => exact (exec_cModeOnly hmode h).imp_right fun h => .inr (.inl h)
    | false =>
      match i, h with
      | .capenter .., h => exact (capenter_effect h).imp_right fun h => .inr (.inr h)

/-! ### All that a step can be -/

/-- What a step leaves of the state after the boundary's events: an H-interrupt delivered, a trap taken, or an instruction's effect (R374). -/
inductive StepEffect (s : State) : State → Prop
  | delivers (i : Irq) (c : Cap) (hen : s.capstoneEn = true) (hcih : s.ccsr.cih = .cap c) (hv : c.valid = true)
      (ht : c.type = .sealed) (hB : c.base.toNat % 16 = 0) : StepEffect s (s.delivered i c)
  | traps (t : State) (h : Trapped s t) : StepEffect s t
  | base (t : State) (h : BaseEffect s t) : StepEffect s t
  | cMode (t : State) (hs : s.inCMode = true) (h : CModeEffect s t) : StepEffect s t
  | enters (t : State) (h : Entered s t) : StepEffect s t

theorem StepEffect.of_exec {i : Instr} {s t : State} (h : exec i s = .next t) : StepEffect s t := by
  rcases exec_effect h with h | h | ⟨hs, h⟩ | h
  · exact .traps t h
  · exact .base t h
  · exact .cMode t hs h
  · exact .enters t h

theorem StepEffect.of_pendingEvent {s t : State} (h : pendingEvent s = some (.ok t)) : StepEffect s t := by
  rcases pendingEvent_some h with ⟨i, c, hd, h⟩ | ⟨i, -, h⟩ | ⟨i, -, h⟩
  · obtain ⟨hen, -, hcih, hv, ht, -⟩ := hDeliverable_some hd
    obtain ⟨⟨hB, -⟩, rfl⟩ := hDeliver_ok h
    exact .delivers i c hen hcih hv ht hB
  · exact .traps t (.of_takeTrapTop h)
  · exact .traps t (h ▸ .intoS ..)

/-- All that a step can answer and go on (R374). -/
theorem step_effect {s t : State} (h : step s = .next t) : StepEffect (boundary s) t := by
  obtain ⟨-, hevent | ⟨-, ⟨e, a, w, htrap⟩ | ⟨w, i, -, -, hexec⟩⟩⟩ := step_next h
  · exact .of_pendingEvent hevent
  · exact .traps t (.of_takeException htrap)
  · exact .of_exec hexec

/-- A property that the boundary's events and every effect keep is kept by every step. -/
theorem keptByStep_of {Inv : State → Prop} (hboundary : ∀ s, Inv s → Inv (boundary s))
    (heffect : ∀ s t, Inv s → StepEffect s t → Inv t) : KeptByStep Inv :=
  fun s t hs h => heffect _ t (hboundary s hs) (step_effect h)

end Sys2Proof.Machine

namespace Sys2Proof.Machine

/-! ### The exchanges of contexts, field by field (R376, R378) -/

@[simp] theorem State.swapped_regs (s : State) (B : Word) : (s.swapped B).regs = s.regs := rfl
@[simp] theorem State.swapped_capValue (s : State) (B : Word) (r : Reg) : (s.swapped B).capValue r = s.capValue r := rfl
@[simp] theorem State.swapped_capOf? (s : State) (B : Word) (r : Reg) : (s.swapped B).capOf? r = s.capOf? r := rfl
@[simp] theorem State.swapped_pc (s : State) (B : Word) : (s.swapped B).pc = s.mem.readSlot s.draws B := rfl
@[simp] theorem State.swapped_priv (s : State) (B : Word) : (s.swapped B).priv = .machine := rfl
@[simp] theorem State.swapped_capstoneEn (s : State) (B : Word) : (s.swapped B).capstoneEn = s.capstoneEn := rfl
@[simp] theorem State.swapped_ccsr (s : State) (B : Word) : (s.swapped B).ccsr = { s.ccsr with
    ctvec := s.mem.readSlot s.draws (ctxAt B 16), cscratch := s.mem.readSlot s.draws (ctxAt B 32) } := rfl
@[simp] theorem State.swapped_revClock (s : State) (B : Word) : (s.swapped B).revClock = s.revClock := rfl
@[simp] theorem State.swapped_mem (s : State) (B : Word) : (s.swapped B).mem = s.mem.saveCEff B s.ceff := rfl
@[simp] theorem State.swapped_inputs (s : State) (B : Word) : (s.swapped B).inputs = s.inputs := rfl
@[simp] theorem State.swapped_plat (s : State) (B : Word) : (s.swapped B).plat = s.plat := rfl

/-- The CSRs after a context's C-effective registers are loaded, each word filtered as its fields allow (R376). -/
def Csrs.loaded (c : Csrs) (e : CEff) : Csrs :=
  { c with
    mstatus := loadMstatus e.mstatus, mideleg := e.mideleg, medeleg := legalMedeleg e.medeleg
    mip := e.mip &&& irqMask, mie := e.mie &&& irqMask }

@[simp] theorem State.swapped_csr (s : State) (B : Word) :
    (s.swapped B).csr = s.csr.loaded (s.mem.readCEff s.draws B) := rfl

@[simp] theorem State.exchanged_regs (s : State) (B : Word) (p : Priv) :
    (s.exchanged B p).regs = (s.mem.readDomain s.draws B).regs := by
  simp [State.exchanged, State.installDomain]
@[simp] theorem State.exchanged_pc (s : State) (B : Word) (p : Priv) :
    (s.exchanged B p).pc = s.mem.readSlot s.draws B := by
  simp [State.exchanged, State.installDomain, Memory.readDomain, Memory.readCEff]
@[simp] theorem State.exchanged_priv (s : State) (B : Word) (p : Priv) : (s.exchanged B p).priv = p := by
  simp [State.exchanged, State.installDomain]
@[simp] theorem State.exchanged_capstoneEn (s : State) (B : Word) (p : Priv) :
    (s.exchanged B p).capstoneEn = s.capstoneEn := by
  simp [State.exchanged, State.installDomain]
@[simp] theorem State.exchanged_ccsr (s : State) (B : Word) (p : Priv) : (s.exchanged B p).ccsr = { s.ccsr with
    ctvec := s.mem.readSlot s.draws (ctxAt B 16), cscratch := s.mem.readSlot s.draws (ctxAt B 32)
    cepc := s.mem.readSlot s.draws (ctxAt B 352), cpmp := (s.mem.readDomain s.draws B).cpmp } := by
  simp [State.exchanged, State.installDomain, Memory.readDomain, Memory.readCEff]
@[simp] theorem State.exchanged_revClock (s : State) (B : Word) (p : Priv) :
    (s.exchanged B p).revClock = s.revClock := by
  simp [State.exchanged, State.installDomain]
@[simp] theorem State.exchanged_inputs (s : State) (B : Word) (p : Priv) : (s.exchanged B p).inputs = s.inputs := by
  simp [State.exchanged, State.installDomain]
@[simp] theorem State.exchanged_plat (s : State) (B : Word) (p : Priv) : (s.exchanged B p).plat = s.plat := by
  simp [State.exchanged, State.installDomain]

/-- The domain-scoped CSRs outside the C-effective ones, replaced by those of a domain context (R378). -/
def Csrs.inDomain (c : Csrs) (d : Domain) : Csrs :=
  { c with
    offsetmmu := d.offsetmmu, mcause := d.mcause, mtval := d.mtval, mtval2 := d.mtval2, mtinst := d.mtinst
    stvec := d.stvec, scause := d.scause, stval := d.stval, sepc := d.sepc, sscratch := d.sscratch, satp := d.satp }

@[simp] theorem State.exchanged_csr (s : State) (B : Word) (p : Priv) :
    (s.exchanged B p).csr = (s.csr.inDomain (s.mem.readDomain s.draws B)).loaded (s.mem.readCEff s.draws B) := by
  simp [State.exchanged, State.installDomain, Csrs.loaded, Csrs.inDomain, Memory.readDomain]

@[simp] theorem State.delivered_pc (s : State) (i : Irq) (c : Cap) :
    (s.delivered i c).pc = s.mem.readSlot s.draws c.base := by
  simp [State.delivered, State.installCEff, Memory.readCEff]
@[simp] theorem State.delivered_priv (s : State) (i : Irq) (c : Cap) : (s.delivered i c).priv = .machine := by
  simp [State.delivered, State.installCEff]
@[simp] theorem State.delivered_capstoneEn (s : State) (i : Irq) (c : Cap) :
    (s.delivered i c).capstoneEn = s.capstoneEn := by
  simp [State.delivered, State.installCEff, State.scrub]
@[simp] theorem State.delivered_ccsr (s : State) (i : Irq) (c : Cap) : (s.delivered i c).ccsr =
    { ctvec := s.mem.readSlot s.draws (ctxAt c.base 16), cscratch := s.mem.readSlot s.draws (ctxAt c.base 32)
      cih := .cap cnull, cepc := .cap cnull, cpmp := Vector.replicate 16 (.cap cnull) } := by
  simp [State.delivered, State.installCEff, State.scrub, Memory.readCEff]
@[simp] theorem State.delivered_revClock (s : State) (i : Irq) (c : Cap) : (s.delivered i c).revClock = s.revClock := by
  simp [State.delivered, State.installCEff, State.scrub]
@[simp] theorem State.delivered_inputs (s : State) (i : Irq) (c : Cap) : (s.delivered i c).inputs = s.inputs := by
  simp [State.delivered, State.installCEff, State.scrub]
@[simp] theorem State.delivered_plat (s : State) (i : Irq) (c : Cap) : (s.delivered i c).plat = s.plat := by
  simp [State.delivered, State.installCEff, State.scrub]

/-- The CSRs after Scrub (R379, D18). -/
def Csrs.scrubbed (c : Csrs) : Csrs :=
  { c with
    offsetmmu := 0, mcause := 0, mtval := 0, mtval2 := 0, mtinst := 0, stvec := 0, scause := 0, stval := 0
    sepc := 0, sscratch := 0, satp := 0 }

@[simp] theorem State.delivered_csr (s : State) (i : Irq) (c : Cap) :
    (s.delivered i c).csr = s.csr.scrubbed.loaded (s.mem.readCEff s.draws c.base) := by
  simp [State.delivered, State.installCEff, State.scrub, Csrs.loaded, Csrs.scrubbed]

/-- The registers of a domain that has just been entered by an interrupt (R375, R379). -/
theorem State.delivered_capValue (s : State) (i : Irq) (c : Cap) (r : Reg) : (s.delivered i c).capValue r =
    if r = 0 then .cap cnull else if r = 10 then .int i.code else if r = 1 then .cap c.delivered else .int 0 := by
  have hscrub : ∀ u : State, u.regs = Vector.replicate 31 (.int 0) →
      u.capValue r = if r = 0 then .cap cnull else .int 0 := by
    intro u hu
    simp [State.capValue, State.stored, hu]
  simp only [State.delivered, State.setReg_capValue]
  rw [State.setCcsr_capValue, hscrub _ rfl]
  by_cases h0 : r = 0
  · subst h0; rfl
  · have h0' : r ≠ 0#5 := h0
    simp [h0']

/-! ### The steps of CALL and RETURN around the switch, field by field (R214, R216, R217) -/

@[simp] theorem callMove_pc (s : State) (rs1 : Reg) : (callMove s rs1).pc = s.pc := by
  unfold callMove; split <;> simp
@[simp] theorem callMove_priv (s : State) (rs1 : Reg) : (callMove s rs1).priv = s.priv := by
  unfold callMove; split <;> simp
@[simp] theorem callMove_capstoneEn (s : State) (rs1 : Reg) : (callMove s rs1).capstoneEn = s.capstoneEn := by
  unfold callMove; split <;> simp
@[simp] theorem callMove_csr (s : State) (rs1 : Reg) : (callMove s rs1).csr = s.csr := by
  unfold callMove; split <;> simp
@[simp] theorem callMove_revClock (s : State) (rs1 : Reg) : (callMove s rs1).revClock = s.revClock := by
  unfold callMove; split <;> simp
@[simp] theorem callMove_mem (s : State) (rs1 : Reg) : (callMove s rs1).mem = s.mem := by
  unfold callMove; split <;> simp
@[simp] theorem callMove_draws (s : State) (rs1 : Reg) : (callMove s rs1).draws = s.draws := by
  unfold callMove; split <;> simp
@[simp] theorem callMove_inputs (s : State) (rs1 : Reg) : (callMove s rs1).inputs = s.inputs := by
  unfold callMove; split <;> simp
@[simp] theorem callMove_plat (s : State) (rs1 : Reg) : (callMove s rs1).plat = s.plat := by
  unfold callMove; split <;> simp
@[simp] theorem callMove_ccsr (s : State) (rs1 : Reg) :
    (callMove s rs1).ccsr = { s.ccsr with cih := if rs1 = 0 then .cap cnull else s.ccsr.cih } := by
  unfold callMove; split <;> simp

@[simp] theorem State.handBack_pc (s : State) (c : Cap) : (s.handBack c).pc = s.pc := by
  unfold State.handBack; split <;> simp
@[simp] theorem State.handBack_priv (s : State) (c : Cap) : (s.handBack c).priv = s.priv := by
  unfold State.handBack; split <;> simp
@[simp] theorem State.handBack_capstoneEn (s : State) (c : Cap) : (s.handBack c).capstoneEn = s.capstoneEn := by
  unfold State.handBack; split <;> simp
@[simp] theorem State.handBack_csr (s : State) (c : Cap) : (s.handBack c).csr = s.csr := by
  unfold State.handBack; split <;> simp
@[simp] theorem State.handBack_revClock (s : State) (c : Cap) : (s.handBack c).revClock = s.revClock := by
  unfold State.handBack; split <;> simp
@[simp] theorem State.handBack_mem (s : State) (c : Cap) : (s.handBack c).mem = s.mem := by
  unfold State.handBack; split <;> simp
@[simp] theorem State.handBack_inputs (s : State) (c : Cap) : (s.handBack c).inputs = s.inputs := by
  unfold State.handBack; split <;> simp
@[simp] theorem State.handBack_plat (s : State) (c : Cap) : (s.handBack c).plat = s.plat := by
  unfold State.handBack; split <;> simp

end Sys2Proof.Machine

namespace Sys2Proof.Machine

/-! ### What each effect leaves of the machine's frame -/

/-- A trap leaves the registers, memory and the rest of the frame (R355). -/
theorem Trapped.frame {s t : State} (h : Trapped s t) : TrapFrame s t := by
  cases h with
  | intoC _ _ _ _ _ _ _ h => exact takeTrapC_frame h
  | intoM => constructor <;> rfl
  | intoS => constructor <;> rfl

/-- `CAPSTONE_EN`, the platform and the schedule are as before (R8, R21). -/
structure KeepsMachine (s t : State) : Prop where
  capstoneEn : t.capstoneEn = s.capstoneEn
  inputs : t.inputs = s.inputs
  plat : t.plat = s.plat

theorem KeepsMachine.of_onlyRegs {s t : State} (h : OnlyRegs s t) : KeepsMachine s t := by
  obtain ⟨-, hen, -, -, -, hinputs, hplat⟩ := h.control
  exact ⟨hen, hinputs, hplat⟩

theorem KeepsMachine.trans {s t u : State} (h : KeepsMachine s t) (k : KeepsMachine t u) : KeepsMachine s u :=
  ⟨k.capstoneEn.trans h.capstoneEn, k.inputs.trans h.inputs, k.plat.trans h.plat⟩

theorem Trapped.keepsMachine {s t : State} (h : Trapped s t) : KeepsMachine s t :=
  ⟨h.frame.capstoneEn, h.frame.inputs, h.frame.plat⟩

theorem BaseEffect.keepsMachine {s t : State} (h : BaseEffect s t) : KeepsMachine s t := by
  cases h with
  | accessesCsr u rd v csr hu _ => rcases hu with rfl | rfl <;> constructor <;> simp
  | returnsM => constructor <;> rfl
  | returnsC => constructor <;> rfl
  | returnsS => constructor <;> rfl
  | _ => constructor <;> simp

theorem ccsrExchange_onlyRegs (s : State) (rd rs1 : Reg) (n : CcsrName) (c : Cap) :
    OnlyRegs { s with ccsr := (ccsrExchange s rd rs1 n c).ccsr } (ccsrExchange s rd rs1 n c) := by
  unfold ccsrExchange
  dsimp only
  split
  · split <;> constructor <;> simp [SameControl]
  · constructor <;> simp [SameControl]

theorem CModeEffect.keepsMachine {s t : State} (h : CModeEffect s t) : KeepsMachine s t := by
  cases h with
  | revokes rs1 r => constructor <;> simp <;> rfl
  | loadsCap => constructor <;> split <;> simp
  | storesCap rs1 rs2 c ea =>
    have hregs := KeepsMachine.of_onlyRegs (stcRegisters_onlyRegs (s.setMem (s.mem.writeSlot ea (s.capValue rs2))) rs1 rs2 c
      (s.capValue rs2))
    exact ⟨hregs.capstoneEn, hregs.inputs, hregs.plat⟩
  | links => constructor <;> split <;> simp
  | jumpsTo => constructor <;> split <;> simp
  | exchanges rd rs1 n c =>
    have hregs := KeepsMachine.of_onlyRegs (ccsrExchange_onlyRegs s rd rs1 n c)
    exact ⟨hregs.capstoneEn, hregs.inputs, hregs.plat⟩
  | calls => constructor <;> simp [callReady]
  | returnsSync => constructor <;> simp [retReady]
  | returnsAsync => constructor <;> simp [State.postInts, retReady, State.keepHandler]
  | _ => constructor <;> simp

theorem Entered.capstoneEn {s t : State} (h : Entered s t) : t.capstoneEn = true := by
  obtain ⟨pc, x10, x11, clock, -, rfl⟩ := h.genesis
  rfl

theorem Entered.frame {s t : State} (h : Entered s t) :
    t.mem = s.mem ∧ t.ccsr = s.ccsr ∧ t.csr = s.csr ∧ t.inputs = s.inputs ∧ t.plat = s.plat := by
  obtain ⟨pc, x10, x11, clock, -, rfl⟩ := h.genesis
  simp [State.withGenesis]

/-! ### What each effect leaves of memory -/

/-- The memory a base instruction leaves: the one before it, or an integer store's (R86). -/
theorem BaseEffect.mem {s t : State} (h : BaseEffect s t) :
    t.mem = s.mem ∨ ∃ ea v n, n ≤ 8 ∧ t.mem = s.mem.writeInt ea n v := by
  cases h with
  | stores ea v n hn => exact .inr ⟨ea, v, n, hn, rfl⟩
  | accessesCsr u rd v csr hu _ => left; rcases hu with rfl | rfl <;> simp
  | returnsM => exact .inl rfl
  | returnsC => exact .inl rfl
  | returnsS => exact .inl rfl
  | _ => left; simp

@[simp] theorem stcRegisters_mem (s : State) (rs1 rs2 : Reg) (c : Cap) (v : Value) :
    (stcRegisters s rs1 rs2 c v).mem = s.mem := (stcRegisters_onlyRegs s rs1 rs2 c v).mem

@[simp] theorem ccsrExchange_mem (s : State) (rd rs1 : Reg) (n : CcsrName) (c : Cap) :
    (ccsrExchange s rd rs1 n c).mem = s.mem := (ccsrExchange_onlyRegs s rd rs1 n c).mem

theorem BaseEffect.memWf {s t : State} (h : BaseEffect s t) (hs : s.MemWf) : t.MemWf := by
  rcases h.mem with hmem | ⟨ea, v, n, -, hmem⟩
  · rw [State.MemWf, hmem]
    exact hs
  · rw [State.MemWf, hmem]
    exact Memory.writeInt_wf ea n v hs

theorem CModeEffect.memWf {s t : State} (h : CModeEffect s t) (hs : s.MemWf) : t.MemWf := by
  unfold State.MemWf at *
  cases h with
  | revokes => simpa using Memory.mapCaps_wf _ hs
  | loadsCap rd ea v =>
    split
    · simpa using Memory.writeSlot_wf ea (.cap cnull) hs
    · simpa using hs
  | storesCap rs1 rs2 c ea => simpa using Memory.writeSlot_wf ea (s.capValue rs2) hs
  | links => split <;> simpa using hs
  | jumpsTo => split <;> simpa using hs
  | calls rd rs1 d => simpa [callReady] using Memory.saveCEff_wf d.base _ hs
  | returnsSync rd c => simpa [retReady] using Memory.saveCEff_wf c.base _ hs
  | returnsAsync rd c =>
    simpa [State.postInts, retReady, State.keepHandler] using
      Memory.clearMoved_wf _ _ (Memory.saveCEff_wf c.base _ hs)
  | _ => simpa using hs

/-- Every effect of a step keeps the memory's canonical form (R82). -/
theorem StepEffect.memWf {s t : State} (h : StepEffect s t) (hs : s.MemWf) : t.MemWf := by
  cases h with
  | delivers i c => simpa [State.MemWf] using Memory.saveDomain_wf c.base s.domain hs
  | traps _ h => rw [State.MemWf, h.frame.mem]; exact hs
  | base _ h => exact h.memWf hs
  | cMode _ _ h => exact h.memWf hs
  | enters _ h => rw [State.MemWf, h.frame.1]; exact hs

/-- Settles O53: the boundary leaves memory alone, and each effect that stores does so by the primitives, which keep the form. -/
theorem memoryStaysCanonical : Obligations.MemoryStaysCanonical :=
  keptByStep_of (fun s hs => by rw [State.MemWf, boundary_mem]; exact hs) fun _ _ hs h => h.memWf hs

/-! ### Who writes CAPSTONE_EN, and who makes capabilities (R21, R33, R34) -/

theorem exec_keepsMachine {i : Instr} {s t : State} (h : exec i s = .next t) :
    KeepsMachine s t ∨ (Entered s t ∧ ∃ rd rs1 rs2, i = .capenter rd rs1 rs2) := by
  cases hbase : isCapstone i with
  | false =>
    rcases exec_base hbase h with h | h
    · exact .inl h.keepsMachine
    · exact .inl h.keepsMachine
  | true =>
    cases hmode : cModeOnly i with
    | true =>
      rcases exec_cModeOnly hmode h with h | ⟨-, h⟩
      · exact .inl h.keepsMachine
      · exact .inl h.keepsMachine
    | false =>
      match i, h with
      | .capenter rd rs1 rs2, h =>
        rcases capenter_effect h with h | h
        · exact .inl h.keepsMachine
        · exact .inr ⟨h, rd, rs1, rs2, rfl⟩

theorem StepEffect.machine {s t : State} (h : StepEffect s t) :
    (s.capstoneEn = true → t.capstoneEn = true) ∧ t.plat = s.plat ∧ t.inputs = s.inputs := by
  have keeps {t : State} (h : KeepsMachine s t) :
      (s.capstoneEn = true → t.capstoneEn = true) ∧ t.plat = s.plat ∧ t.inputs = s.inputs :=
    ⟨fun hen => h.capstoneEn.trans hen, h.plat, h.inputs⟩
  cases h with
  | delivers => simp
  | traps _ h => exact keeps h.keepsMachine
  | base _ h => exact keeps h.keepsMachine
  | cMode _ _ h => exact keeps h.keepsMachine
  | enters _ h =>
    obtain ⟨-, -, -, hinputs, hplat⟩ := h.frame
    exact ⟨fun _ => h.capstoneEn, hplat, hinputs⟩

/-- A register after a write reads as before or as what was written. -/
theorem State.setReg_capValue_or (s : State) (r q : Reg) (v : Value) :
    (s.setReg r v).capValue q = s.capValue q ∨ (s.setReg r v).capValue q = v := by
  rw [State.setReg_capValue]
  split
  · exact .inr rfl
  · exact .inl rfl

/-- A base instruction writes integers to registers only (R33, R282). -/
theorem BaseEffect.capValue {s t : State} (h : BaseEffect s t) (r : Reg) :
    t.capValue r = s.capValue r ∨ ∃ v, t.capValue r = .int v := by
  have written {u : State} (hu : u.capValue r = s.capValue r) (rd : Reg) (v : Word) :
      (u.setReg rd (.int v)).capValue r = s.capValue r ∨ ∃ w, (u.setReg rd (.int v)).capValue r = .int w :=
    (u.setReg_capValue_or rd r _).imp (·.trans hu) fun h => ⟨v, h⟩
  cases h with
  | writes rd v => exact written rfl rd v
  | loads rd v => exact written rfl rd v
  | jumps rd link _ pc => exact written (s.setPc_capValue pc r) rd link
  | accessesCsr u rd v csr hu _ => exact written (by rcases hu with rfl | rfl <;> rfl) rd v
  | _ => exact .inl rfl

/-- A base instruction leaves in a slot what it held, or an integer (R33, R86). -/
theorem BaseEffect.slotCap {s t : State} (h : BaseEffect s t) (hs : s.mem.sorted) (a : Word) :
    t.mem.slotCap a = s.mem.slotCap a ∨ t.mem.slotCap a = none := by
  rcases h.mem with hmem | ⟨ea, v, n, hn, hmem⟩
  · exact .inl (by rw [hmem])
  · rw [hmem, Memory.writeInt, Memory.storeBytes_slotCap ea v a n hn hs]
    split
    · exact .inr rfl
    · exact .inl rfl

theorem State.capValue_of_regs {s t : State} (h : t.regs = s.regs) (r : Reg) : t.capValue r = s.capValue r := by
  simp only [State.capValue, State.stored, h]

/-- Settles O58: an instruction keeps the machine's frame unless it is CAPENTER taking effect, and the base instructions' effects are integer writes. -/
theorem onlyCapenterAndCapstoneInstructions : Obligations.OnlyCapenterAndCapstoneInstructions := by
  refine ⟨fun i s t h => ?enables, fun i s t hi hs h => ?base, fun s t h => ?step⟩
  case enables =>
    rcases exec_keepsMachine h with h | ⟨h, rd, rs1, rs2, hi⟩
    · exact .inl h.capstoneEn
    · exact .inr ⟨rd, rs1, rs2, hi, h.disabled, h.machine, h.capstoneEn⟩
  case base =>
    rcases exec_base hi h with h | h
    · exact ⟨fun r => .inl (State.capValue_of_regs h.frame.regs r), fun a => .inl (by rw [h.frame.mem])⟩
    · exact ⟨h.capValue, h.slotCap hs.sorted⟩
  case step =>
    obtain ⟨hen, hplat, hinputs⟩ := (step_effect h).machine
    rw [boundary_capstoneEn] at hen
    exact ⟨hen, hplat.trans (boundary_plat s), hinputs.trans (boundary_inputs s)⟩

end Sys2Proof.Machine

namespace Sys2Proof.Machine

/-! ### A property of every capability in the system (R34) -/

/-- A property of capabilities that every invalid one has, and that a capability hands on to one of no more authority. -/
structure Heritable (P : Cap → Prop) : Prop where
  invalid : ∀ c : Cap, c.valid = false → P c
  within : ∀ c d : Cap, d.valid = true → P d → c.within d → P c

theorem Heritable.cnull {P : Cap → Prop} (hP : Heritable P) : P cnull := hP.invalid _ rfl

/-- What keeps validity and authority from growing keeps the property. -/
theorem Heritable.of_within {P : Cap → Prop} (hP : Heritable P) {c d : Cap} (h : P d) (hvalid : c.valid = d.valid)
    (hwithin : c.within d) : P c := by
  cases hv : d.valid with
  | true => exact hP.within c d hv h hwithin
  | false => exact hP.invalid c (hvalid.trans hv)

theorem Heritable.of_derived {P : Cap → Prop} (hP : Heritable P) {c d : Cap} (h : P d) (hcd : c.DerivedFrom d) : P c := by
  cases hv : c.valid with
  | true => exact hP.within c d (hcd.valid hv) h hcd.within
  | false => exact hP.invalid c hv

/-- The capability that a value is, if it is one, has the property. -/
def Value.All (P : Cap → Prop) (v : Value) : Prop := ∀ c, v = .cap c → P c

/-- Every CCSR holds an integer or a capability with the property. -/
structure Ccsrs.All (P : Cap → Prop) (c : Ccsrs) : Prop where
  ctvec : c.ctvec.All P
  cih : c.cih.All P
  cepc : c.cepc.All P
  cscratch : c.cscratch.All P
  cpmp : ∀ k : Fin 16, (c.cpmp[k]).All P

/-- Every capability held in memory has the property. -/
def Memory.All (P : Cap → Prop) (m : Memory) : Prop := ∀ e ∈ m.caps, P e.2

/-- Every capability in the system has the property. -/
structure State.CapsAll (P : Cap → Prop) (s : State) : Prop where
  regs : ∀ r, (s.capValue r).All P
  pc : s.pc.All P
  ccsr : s.ccsr.All P
  mem : s.mem.All P

theorem Value.all_int (P : Cap → Prop) (n : Word) : (Value.int n).All P := fun _ h => nomatch h

theorem Value.all_cap {P : Cap → Prop} {c : Cap} (h : P c) : (Value.cap c).All P := fun _ hd => Value.cap.inj hd ▸ h

/-- Every value held in the register file is that of a register. -/
theorem State.exists_capValue_of_mem {s : State} {v : Value} (h : v ∈ s.regs.toList) : ∃ r, s.capValue r = v := by
  obtain ⟨i, hi, hv⟩ := List.getElem_of_mem h
  have hi' : i < 31 := by simpa using hi
  have hr : (BitVec.ofNat 5 (i + 1)).toNat = i + 1 := by simp; omega
  have hne : BitVec.ofNat 5 (i + 1) ≠ 0 := by
    intro e
    rw [e] at hr
    cases hr
  refine ⟨BitVec.ofNat 5 (i + 1), ?_⟩
  rw [State.capValue_of_ne _ hne, ← hv]
  simp [State.stored, hr]

theorem Ccsrs.all_iff (P : Cap → Prop) (c : Ccsrs) : c.All P ↔ ∀ v ∈ c.values, v.All P := by
  constructor
  · intro h v hv
    simp only [Ccsrs.values, List.mem_append, List.mem_cons, List.not_mem_nil, or_false] at hv
    rcases hv with (rfl | rfl | rfl | rfl) | hv
    · exact h.ctvec
    · exact h.cih
    · exact h.cepc
    · exact h.cscratch
    · obtain ⟨k, hk, rfl⟩ := List.getElem_of_mem hv
      exact h.cpmp ⟨k, by simpa using hk⟩
  · intro h
    have hnamed : ∀ v ∈ [c.ctvec, c.cih, c.cepc, c.cscratch], v.All P := fun v hv => h v (List.mem_append_left _ hv)
    exact ⟨hnamed _ (by simp), hnamed _ (by simp), hnamed _ (by simp), hnamed _ (by simp),
      fun k => h _ (List.mem_append_right _ (by simp))⟩

/-- The property of the statements' list of all capabilities (R175, D32). -/
theorem State.capsAll_iff {P : Cap → Prop} (hP : Heritable P) (s : State) : s.CapsAll P ↔ ∀ c ∈ s.allCaps, P c := by
  have hvalues : (∀ c ∈ s.allCaps, P c) ↔ (∀ v ∈ s.regs.toList ++ s.pc :: s.ccsr.values, v.All P) ∧ s.mem.All P := by
    unfold State.allCaps
    rw [List.forall_mem_append, List.forall_mem_map]
    refine and_congr_left fun _ => ?_
    simp only [List.mem_filterMap]
    constructor
    · rintro h v hv c rfl
      exact h c ⟨_, hv, rfl⟩
    · rintro h c ⟨v, hv, hc⟩
      cases v with
      | cap d => exact h _ hv c (congrArg Value.cap (Option.some.inj hc))
      | int n => cases hc
  rw [hvalues]
  constructor
  · intro h
    refine ⟨fun v hv => ?_, h.mem⟩
    rcases List.mem_append.mp hv with hv | hv
    · obtain ⟨r, rfl⟩ := State.exists_capValue_of_mem hv
      exact h.regs r
    · rcases List.mem_cons.mp hv with rfl | hv
      · exact h.pc
      · exact (s.ccsr.all_iff P).mp h.ccsr v hv
  · rintro ⟨h, hmem⟩
    refine ⟨fun r => ?_, h _ (by simp), (s.ccsr.all_iff P).mpr fun v hv => h v (by simp [hv]), hmem⟩
    by_cases hr : r = 0
    · subst hr
      exact Value.all_cap hP.cnull
    · rw [State.capValue_of_ne _ hr]
      exact h _ (List.mem_append_left _ (by simp [State.stored]))

/-! ### Each update of the state keeps it -/

section Updates

variable {P : Cap → Prop} {s : State}

theorem State.CapsAll.setReg (h : s.CapsAll P) {v : Value} (hv : v.All P) (r : Reg) : (s.setReg r v).CapsAll P := by
  refine ⟨fun q => ?_, by simpa using h.pc, by simpa using h.ccsr, by simpa using h.mem⟩
  rw [State.setReg_capValue]
  split
  · exact hv
  · exact h.regs q

theorem State.CapsAll.setInt (h : s.CapsAll P) (r : Reg) (n : Word) : (s.setReg r (.int n)).CapsAll P :=
  h.setReg (Value.all_int P n) r

theorem State.CapsAll.setPc (h : s.CapsAll P) {v : Value} (hv : v.All P) : (s.setPc v).CapsAll P :=
  ⟨h.regs, hv, h.ccsr, h.mem⟩

theorem State.CapsAll.setMem (h : s.CapsAll P) {m : Memory} (hm : m.All P) : (s.setMem m).CapsAll P :=
  ⟨h.regs, h.pc, h.ccsr, hm⟩

theorem State.CapsAll.setCcsr (h : s.CapsAll P) {c : Ccsrs} (hc : c.All P) : (s.setCcsr c).CapsAll P :=
  ⟨h.regs, h.pc, hc, h.mem⟩

theorem State.CapsAll.setCsr (h : s.CapsAll P) (c : Csrs) : (s.setCsr c).CapsAll P := ⟨h.regs, h.pc, h.ccsr, h.mem⟩

theorem State.CapsAll.setPriv (h : s.CapsAll P) (p : Priv) : (s.setPriv p).CapsAll P := ⟨h.regs, h.pc, h.ccsr, h.mem⟩

theorem State.CapsAll.draw (h : s.CapsAll P) : s.draw.CapsAll P := ⟨h.regs, h.pc, h.ccsr, h.mem⟩

theorem State.CapsAll.tickRevClock (h : s.CapsAll P) : s.tickRevClock.CapsAll P := ⟨h.regs, h.pc, h.ccsr, h.mem⟩

/-- Setting the cursor of a `pc` value keeps the property. -/
theorem Value.All.withCursor (hP : Heritable P) {v : Value} (h : v.All P) (a : Word) : (v.withCursor a).All P := by
  cases v with
  | int n => exact Value.all_int P a
  | cap c => exact Value.all_cap (hP.of_derived (h c rfl) (c.derivedFrom_cursor a))

theorem State.CapsAll.advance (hP : Heritable P) (h : s.CapsAll P) : s.advance.CapsAll P := h.setPc (h.pc.withCursor hP _)

theorem State.CapsAll.cap (h : s.CapsAll P) {r : Reg} {c : Cap} (hc : s.capOf? r = some c) : P c :=
  h.regs r c (State.capValue_of_capOf? hc)

/-- Rewriting the capability of a register in place does nothing to register 0 (R32). -/
theorem State.modifyCap_zero (s : State) (f : Cap → Cap) : s.modifyCap 0 f = s := by
  unfold State.modifyCap
  split <;> rfl

theorem State.CapsAll.modifyCap (h : s.CapsAll P) {r : Reg} {f : Cap → Cap}
    (hf : ∀ c, s.capValue r = .cap c → P (f c)) : (s.modifyCap r f).CapsAll P := by
  by_cases hr : r = 0
  · subst hr
    rwa [State.modifyCap_zero]
  · unfold State.modifyCap
    split
    · next c hc => exact h.setReg (Value.all_cap (hf c ((s.capValue_of_ne hr).trans hc))) r
    · exact h

/-- MOVC brings the capability to `x[rd]`, or leaves it there (R161). -/
theorem State.movc_capValue_target {rd rs1 : Reg} {c : Cap} (hc : s.capOf? rs1 = some c) (hrd : rd ≠ 0) :
    (s.movc rd rs1).capValue rd = .cap c := by
  rw [State.movc_capValue hc]
  split
  · next heq => rw [← heq]; exact State.capValue_of_capOf? hc
  · rw [moveReg, putReg, if_pos ⟨rfl, hrd⟩]

theorem succ_toNat_of_lt {a b : Word} (h : a.toNat < b.toNat) : (a + 1).toNat = a.toNat + 1 := by
  have hlt := b.isLt
  have hone : (1 : Word).toNat = 1 := rfl
  rw [BitVec.toNat_add, hone]
  omega

theorem State.CapsAll.movc (hP : Heritable P) (h : s.CapsAll P) (rd rs1 : Reg) : (s.movc rd rs1).CapsAll P := by
  unfold State.movc
  dsimp only
  split
  · exact h
  · split
    · exact (h.setReg (h.regs rs1) rd).setReg (Value.all_cap hP.cnull) rs1
    · exact h.setReg (h.regs rs1) rd

end Updates

/-! ### Each store keeps it in memory -/

section Stores

variable {P : Cap → Prop} {m : Memory}

theorem Memory.All.storeBytes (h : m.All P) (a v : Word) (n : Nat) : (m.storeBytes a v n).All P := by
  induction n generalizing m a v with
  | zero => exact h
  | succ n ih => exact ih (m := m.storeByte a _) (fun e he => h e (mem_tableErase he)) _ _

theorem Memory.All.writeSlot (h : m.All P) (a : Word) {v : Value} (hv : v.All P) : (m.writeSlot a v).All P := by
  cases v with
  | int n => exact h.storeBytes a n 8
  | cap c =>
    intro e he
    rw [Memory.writeSlot_cap_caps] at he
    rcases mem_tableSet he with rfl | he
    · exact hv c rfl
    · exact h e he

theorem Memory.All.writeSlots (h : m.All P) (a : Word) {l : List Value} (hl : ∀ v ∈ l, v.All P) :
    (m.writeSlots a l).All P := by
  induction l generalizing m a with
  | nil => exact h
  | cons v l ih => exact ih (h.writeSlot a (hl v (by simp))) (a + 16) fun w hw => hl w (by simp [hw])

theorem Memory.All.writeWords (h : m.All P) (a : Word) (l : List Word) : (m.writeWords a l).All P := by
  induction l generalizing m a with
  | nil => exact h
  | cons v l ih => exact ih (h.storeBytes a v 8) (a + 8)

/-- What a slot is read as has the property. -/
theorem Memory.All.readSlot (h : m.All P) (draw : Nat) (a : Word) : (m.readSlot draw a).All P := by
  unfold Memory.readSlot
  split
  · next c hc => exact Value.all_cap (h (_, c) (tableGet_mem hc))
  · exact Value.all_int P _

theorem Memory.All.saveCEff (h : m.All P) (B : Word) {e : CEff} (hpc : e.pc.All P) (hctvec : e.ctvec.All P)
    (hcscratch : e.cscratch.All P) : (m.saveCEff B e).All P := by
  refine (h.writeSlots B fun v hv => ?_).writeWords _ _
  simp only [List.mem_cons, List.not_mem_nil, or_false] at hv
  rcases hv with rfl | rfl | rfl
  · exact hpc
  · exact hctvec
  · exact hcscratch

theorem Memory.All.clearMoved (hP : Heritable P) (h : m.All P) (a : Word) (n : Nat) : (m.clearMoved a n).All P := by
  induction n generalizing m a with
  | zero => exact h
  | succ n ih =>
    unfold Memory.clearMoved
    refine ih ?_ _
    split
    · split
      · exact h
      · exact h.writeSlot a (Value.all_cap hP.cnull)
    · exact h

theorem Memory.All.mapCaps (h : m.All P) {f : Cap → Cap} (hf : ∀ c, P c → P (f c)) : (m.mapCaps f).All P := by
  intro e he
  obtain ⟨c, hc, hfc⟩ := mem_tableMap.mp he
  exact hfc ▸ hf c (h _ hc)

end Stores

/-! ### Each exchange of contexts keeps it -/

section Exchanges

variable {P : Cap → Prop} {s : State}

theorem State.CapsAll.saveCEff (h : s.CapsAll P) (B : Word) : (s.mem.saveCEff B s.ceff).All P :=
  h.mem.saveCEff B h.pc h.ccsr.ctvec h.ccsr.cscratch

theorem State.CapsAll.swapped (h : s.CapsAll P) (B : Word) : (s.swapped B).CapsAll P where
  regs := h.regs
  pc := h.mem.readSlot _ _
  ccsr := ⟨h.mem.readSlot _ _, h.ccsr.cih, h.ccsr.cepc, h.mem.readSlot _ _, h.ccsr.cpmp⟩
  mem := h.saveCEff B

/-- Every register of a context read from memory (R50, R378). -/
theorem Memory.All.readDomain {m : Memory} (h : m.All P) (draw : Nat) (B : Word) :
    (∀ i (hi : i < 31), ((m.readDomain draw B).regs[i]).All P) ∧ ∀ k : Fin 16, ((m.readDomain draw B).cpmp[k]).All P := by
  refine ⟨fun i hi => ?_, fun k => ?_⟩
  · simpa [Memory.readDomain] using h.readSlot draw _
  · simpa [Memory.readDomain] using h.readSlot draw _

theorem State.CapsAll.exchanged (hP : Heritable P) (h : s.CapsAll P) (B : Word) (p : Priv) : (s.exchanged B p).CapsAll P := by
  obtain ⟨hregs, hcpmp⟩ := h.mem.readDomain (s.draws) B
  refine ⟨fun r => ?_, ?_, ?_, ?_⟩
  · by_cases hr : r = 0
    · subst hr
      exact Value.all_cap hP.cnull
    · rw [State.capValue_of_ne _ hr]
      simpa only [State.stored, State.exchanged_regs] using hregs _ _
  · simpa using h.mem.readSlot s.draws B
  · rw [State.exchanged_ccsr]
    exact ⟨h.mem.readSlot _ _, h.ccsr.cih, h.mem.readSlot _ _, h.mem.readSlot _ _, hcpmp⟩
  · rw [State.exchanged_mem]
    exact (h.saveCEff B).clearMoved hP _ _

theorem State.CapsAll.saveDomain (h : s.CapsAll P) (B : Word) : (s.mem.saveDomain B s.domain).All P := by
  refine (((h.saveCEff B).writeWords _ _).writeSlots _ fun v hv => ?_).writeWords _ _
  rcases List.mem_append.mp hv with hv | hv
  · obtain ⟨k, hk, rfl⟩ := List.getElem_of_mem hv
    exact h.ccsr.cpmp ⟨k, by simpa using hk⟩
  · rcases List.mem_cons.mp hv with rfl | hv
    · exact h.ccsr.cepc
    · obtain ⟨r, rfl⟩ := State.exists_capValue_of_mem (s := s) hv
      exact h.regs r

theorem Ccsrs.all_cpmp_replicate (hP : Heritable P) (k : Fin 16) :
    ((Vector.replicate 16 (Value.cap Machine.cnull))[k]).All P := by
  simpa using Value.all_cap hP.cnull

theorem State.CapsAll.delivered (hP : Heritable P) (h : s.CapsAll P) (i : Irq) {c : Cap} (hc : P c) :
    (s.delivered i c).CapsAll P := by
  refine ⟨fun r => ?_, ?_, ?_, ?_⟩
  · rw [State.delivered_capValue]
    split
    · exact Value.all_cap hP.cnull
    · split
      · exact Value.all_int P _
      · split
        · exact Value.all_cap (hP.of_within hc rfl c.within_refl)
        · exact Value.all_int P _
  · simpa using h.mem.readSlot s.draws c.base
  · rw [State.delivered_ccsr]
    exact ⟨h.mem.readSlot _ _, Value.all_cap hP.cnull, Value.all_cap hP.cnull, h.mem.readSlot _ _,
      Ccsrs.all_cpmp_replicate hP⟩
  · rw [State.delivered_mem]
    exact h.saveDomain c.base

end Exchanges

end Sys2Proof.Machine

namespace Sys2Proof.Machine

/-! ### Each effect of a step keeps a property of all capabilities -/

section Effects

variable {P : Cap → Prop} {s t : State}

/-- A trap into C-mode moves the capabilities of `ctvec` and `pc` (R360). -/
theorem State.CapsAll.takeTrapC (hP : Heritable P) (h : s.CapsAll P) {interrupt : Bool} {code tval tval2 tinst : Word}
    (ht : takeTrapC interrupt code tval tval2 tinst s = .ok t) : t.CapsAll P := by
  unfold Machine.takeTrapC at ht
  dsimp only at ht
  obtain ⟨hctvec, hcih, hcepc, hcscratch, hcpmp⟩ := h.ccsr
  split at ht
  · rename_i d hd
    have hnew : (if d.type = .nonLinear then Value.cap d else .int d.cursor).All P := by
      split
      · exact hd ▸ hctvec
      · exact Value.all_int P _
    have hccsr : Ccsrs.All P { s.ccsr with
        cepc := s.pc, ctvec := if d.type = .nonLinear then .cap d else .int d.cursor } :=
      ⟨hnew, hcih, h.pc, hcscratch, hcpmp⟩
    cases ht
    exact (((h.setCcsr hccsr).setPc (hd ▸ hctvec)).setCsr _).setPriv _
  · rename_i n p hn hp
    have hccsr : Ccsrs.All P { s.ccsr with cepc := .int p.cursor } :=
      ⟨hctvec, hcih, Value.all_int P _, hcscratch, hcpmp⟩
    cases ht
    have hpc : (s.pc.withCursor n).All P := h.pc.withCursor hP n
    rw [hp] at hpc
    exact (((h.setCcsr hccsr).setPc hpc).setCsr _).setPriv _
  · cases ht

theorem Trapped.capsAll (hP : Heritable P) (h : Trapped s t) (hs : s.CapsAll P) : t.CapsAll P := by
  cases h with
  | intoC _ _ _ _ _ _ _ h => exact hs.takeTrapC hP h
  | intoM => exact ((hs.setCsr _).setPc (Value.all_int P _)).setPriv _
  | intoS => exact ((hs.setCsr _).setPc (Value.all_int P _)).setPriv _

/-- MRET in C-mode moves the capabilities of `cepc`, `pc` and `ctvec` (R265). -/
theorem State.CapsAll.returnC (hP : Heritable P) (h : s.CapsAll P) (p : Priv) : (returnC p s).CapsAll P := by
  obtain ⟨hctvec, hcih, hcepc, hcscratch, hcpmp⟩ := h.ccsr
  have hctvec' : (mretCtvec s).All P := by
    unfold mretCtvec
    split
    · exact h.pc.withCursor hP _
    · next heq => exact heq ▸ hctvec
  have hcepc' : (mretCepc s).All P := by
    unfold mretCepc
    split
    · next heq =>
      split
      · exact heq ▸ hcepc
      · exact Value.all_int P _
    · exact Value.all_int P _
  have hpc' : (mretPc p s).All P := by
    unfold mretPc
    split
    · next heq => exact heq ▸ hcepc
    · split
      · exact h.pc.withCursor hP _
      · exact Value.all_int P _
  have hccsr : Ccsrs.All P { s.ccsr with ctvec := mretCtvec s, cepc := mretCepc s } :=
    ⟨hctvec', hcih, hcepc', hcscratch, hcpmp⟩
  exact (((h.setCcsr hccsr).setPc hpc').setCsr _).setPriv _

theorem BaseEffect.capsAll (hP : Heritable P) (h : BaseEffect s t) (hs : s.CapsAll P) : t.CapsAll P := by
  cases h with
  | writes rd v => exact (hs.setInt rd v).advance hP
  | loads rd v => exact (hs.setInt rd v).draw.advance hP
  | stores ea v n => exact (hs.setMem (hs.mem.storeBytes ea v n)).advance hP
  | jumps rd link target pc hpc =>
    have hpc' : pc.All P := by
      rcases hpc with rfl | rfl
      · exact hs.pc.withCursor hP target
      · exact Value.all_int P _
    exact (hs.setPc hpc').setInt rd link
  | accessesCsr u rd v csr hu _ =>
    have hu' : u.CapsAll P := by
      rcases hu with rfl | rfl
      · exact hs
      · exact hs.draw
    exact ((hu'.setCsr csr).setInt rd v).advance hP
  | returnsM p => exact ((hs.setCsr _).setPc (Value.all_int P _)).setPriv _
  | returnsC p => exact hs.returnC hP p
  | returnsS => exact ((hs.setCsr _).setPc (Value.all_int P _)).setPriv _

theorem Ccsrs.All.get {c : Ccsrs} (h : c.All P) (n : CcsrName) : (c.get n).All P := by
  obtain ⟨hctvec, hcih, hcepc, hcscratch, hcpmp⟩ := h
  cases n with
  | ctvec => exact hctvec
  | cih => exact hcih
  | cepc => exact hcepc
  | cscratch => exact hcscratch
  | cpmp k => exact hcpmp k

theorem Ccsrs.All.put {c : Ccsrs} (h : c.All P) (n : CcsrName) {v : Value} (hv : v.All P) : (c.put n v).All P := by
  obtain ⟨hctvec, hcih, hcepc, hcscratch, hcpmp⟩ := h
  cases n with
  | ctvec => exact ⟨hv, hcih, hcepc, hcscratch, hcpmp⟩
  | cih => exact ⟨hctvec, hv, hcepc, hcscratch, hcpmp⟩
  | cepc => exact ⟨hctvec, hcih, hv, hcscratch, hcpmp⟩
  | cscratch => exact ⟨hctvec, hcih, hcepc, hv, hcpmp⟩
  | cpmp k =>
    refine ⟨hctvec, hcih, hcepc, hcscratch, fun j => ?_⟩
    show ((c.cpmp.set k v)[j.val]).All P
    rw [Vector.getElem_set]
    split
    · exact hv
    · exact hcpmp j

/-- CCSRRW exchanges the values of a register and a CCSR, or leaves `cnull` (R230). -/
theorem State.CapsAll.ccsrExchange (hP : Heritable P) (h : s.CapsAll P) (rd rs1 : Reg) (n : CcsrName) {c : Cap} (hc : P c) :
    (ccsrExchange s rd rs1 n c).CapsAll P := by
  have hnull : (Value.cap cnull).All P := Value.all_cap hP.cnull
  have hold := h.ccsr.get n
  have hleft : (if ccsrReadable n then (s.ccsr.get n).afterRead else s.ccsr.get n).All P := by
    split
    · cases hv : s.ccsr.get n with
      | int w => exact hnull
      | cap d =>
        simp only [Value.afterRead]
        split
        · exact hv ▸ hold
        · exact hnull
    · exact hold
  have hresult : (if ccsrReadable n then s.ccsr.get n else .cap cnull).All P := by
    split
    · exact hold
    · exact hnull
  have hput : (s.setCcsr (s.ccsr.put n (.cap c))).CapsAll P := h.setCcsr (h.ccsr.put n (Value.all_cap hc))
  unfold Machine.ccsrExchange
  dsimp only
  split
  · split
    · exact (hput.setReg hnull rs1).setReg hresult rd
    · exact hput.setReg hresult rd
  · exact (h.setCcsr (h.ccsr.put n hleft)).setReg hresult rd

/-- REVOKE clears `valid` bits, wherever a capability is held (R175). -/
theorem State.CapsAll.revokeAll (hP : Heritable P) (h : s.CapsAll P) (r : Cap) : (s.revokeAll r).CapsAll P := by
  have hcap : ∀ c, P c → P (revokedCap r c) := by
    intro c hc
    unfold revokedCap
    split
    · exact hP.invalid _ rfl
    · exact hc
  have hvalue : ∀ v : Value, v.All P → (revokedValue r v).All P := by
    intro v hv
    cases v with
    | int n => exact hv
    | cap c => exact Value.all_cap (hcap c (hv c rfl))
  obtain ⟨hctvec, hcih, hcepc, hcscratch, hcpmp⟩ := h.ccsr
  refine ⟨fun q => ?_, hvalue _ h.pc, ⟨hvalue _ hctvec, hvalue _ hcih, hvalue _ hcepc, hvalue _ hcscratch, fun k => ?_⟩,
    h.mem.mapCaps hcap⟩
  · rw [State.revokeAll_capValue]
    exact hvalue _ (h.regs q)
  · simpa [Ccsrs.map] using hvalue _ (hcpmp k)

theorem State.CapsAll.setCih (h : s.CapsAll P) {v : Value} (hv : v.All P) :
    (s.setCcsr { s.ccsr with cih := v }).CapsAll P := by
  obtain ⟨hctvec, -, hcepc, hcscratch, hcpmp⟩ := h.ccsr
  have hccsr : Ccsrs.All P { s.ccsr with cih := v } := ⟨hctvec, hv, hcepc, hcscratch, hcpmp⟩
  exact h.setCcsr hccsr

theorem State.CapsAll.callReady (hP : Heritable P) (h : s.CapsAll P) (rs1 : Reg) : (callReady s rs1).CapsAll P := by
  unfold Machine.callReady callMove
  split
  · have hmoved := (h.setReg h.ccsr.cih cra).setCih (Value.all_cap hP.cnull)
    rw [State.setReg_ccsr] at hmoved
    exact hmoved.advance hP
  · exact (h.movc hP cra rs1).advance hP

theorem State.CapsAll.retReady (hP : Heritable P) (h : s.CapsAll P) (rd : Reg) (entry : Word) :
    (retReady s rd entry).CapsAll P :=
  (h.setReg (Value.all_cap hP.cnull) rd).setPc (h.pc.withCursor hP entry)

theorem State.CapsAll.handBack (h : s.CapsAll P) {c : Cap} (hc : P { c with type := .sealed }) :
    (s.handBack c).CapsAll P := by
  unfold State.handBack
  split
  · exact h.setReg (Value.all_cap hc) c.reg
  · exact h.setCih (Value.all_cap hc)

theorem CModeEffect.capsAll (hP : Heritable P) (h : CModeEffect s t) (hs : s.CapsAll P) : t.CapsAll P := by
  have hnull : (Value.cap cnull).All P := Value.all_cap hP.cnull
  cases h with
  | moves rd rs1 => exact (hs.movc hP rd rs1).advance hP
  | derives rd rs1 f c hc hf =>
    by_cases hrd : rd = 0
    · subst hrd
      rw [State.modifyCap_zero]
      exact (hs.movc hP 0 rs1).advance hP
    · refine ((hs.movc hP rd rs1).modifyCap fun d hd => ?_).advance hP
      cases (State.movc_capValue_target hc hrd).symm.trans hd
      exact hP.of_derived (hs.cap hc) hf
  | rewrites r f c hc hf =>
    refine (hs.modifyCap fun d hd => ?_).advance hP
    cases (State.capValue_of_capOf? hc).symm.trans hd
    exact hP.of_derived (hs.cap hc) hf
  | reads rd v => exact (hs.setInt rd v).advance hP
  | splits rd rs1 c val hc hne hbase hlast =>
    have hval := succ_toNat_of_lt hlast
    have hhigh : P (c.splitHigh val) := hP.of_within (hs.cap hc) rfl
      ⟨by show c.base.toNat ≤ (val + 1).toNat; omega, Nat.le_refl _, permLe_refl _⟩
    have hlow : P (c.splitLow val) := hP.of_within (hs.cap hc) rfl
      ⟨Nat.le_refl _, by show val.toNat ≤ c.last.toNat; omega, permLe_refl _⟩
    exact ((hs.setReg (Value.all_cap hhigh) rd).setReg (Value.all_cap hlow) rs1).advance hP
  | remembers rd rs1 c hc =>
    have hmade : P { c with type := .revocation, born := s.revClock } := hP.of_within (hs.cap hc) rfl c.within_refl
    exact (hs.setReg (Value.all_cap hmade) rd).tickRevClock.advance hP
  | revokes rs1 r hr hv =>
    have hresult : P (revokeResult s r) := by
      unfold revokeResult
      split
      · exact hP.of_within (hs.cap hr) rfl r.within_refl
      · exact hP.of_within (hs.cap hr) rfl r.within_refl
    exact ((hs.revokeAll hP r).setReg (Value.all_cap hresult) rs1).advance hP
  | loadsCap rd ea v _ hv =>
    have hload : (s.setReg rd v).draw.CapsAll P := (hs.setReg (hv ▸ hs.mem.readSlot _ _) rd).draw
    split
    · exact (hload.setMem (hload.mem.writeSlot ea hnull)).advance hP
    · exact hload.advance hP
  | storesCap rs1 rs2 c ea hc =>
    have hstored := hs.setMem (hs.mem.writeSlot ea (hs.regs rs2))
    have hmoved : (addressMovedOn (s.setMem (s.mem.writeSlot ea (s.capValue rs2))) rs1 c).CapsAll P := by
      unfold addressMovedOn
      split
      · exact hstored.modifyCap fun d hd => hP.of_derived (hstored.regs rs1 d hd) (d.derivedFrom_cursor _)
      · exact hstored
    rw [stcRegisters_eq]
    split
    · exact (hmoved.setReg hnull rs2).advance hP
    · exact hmoved.advance hP
  | links rd rs1 c a hc =>
    have hjump := (hs.setReg (hs.pc.withCursor hP (s.pc.address + 4)) rd).setPc
      (Value.all_cap (hP.of_derived (hs.cap hc) (c.derivedFrom_cursor a)))
    split
    · exact hjump.setReg hnull rs1
    · exact hjump
  | jumpsTo rd c a hc =>
    have hjump := hs.setPc (Value.all_cap (hP.of_derived (hs.cap hc) (c.derivedFrom_cursor a)))
    split
    · exact hjump.setReg hnull rd
    · exact hjump
  | calls rd rs1 d =>
    have hswap := (hs.callReady hP rs1).swapped d.base
    exact hswap.modifyCap fun c hc => hP.of_within (hswap.regs cra c hc) rfl c.within_refl
  | returnsSync rd c entry hc =>
    exact ((hs.retReady hP rd entry).swapped c.base).handBack (hP.of_within (hs.cap hc) rfl c.within_refl)
  | returnsAsync rd c entry posted p hc =>
    have hkept : (s.keepHandler c).CapsAll P := hs.setCih (Value.all_cap (hP.of_within (hs.cap hc) rfl c.within_refl))
    exact ((hkept.retReady hP rd entry).exchanged hP c.base p).setCsr _
  | exchanges rd rs1 n c hc => exact (hs.ccsrExchange hP rd rs1 n (hs.cap hc)).advance hP

theorem State.CapsAll.boundary (h : s.CapsAll P) : (boundary s).CapsAll P := by
  refine ⟨fun r => ?_, by simpa using h.pc, by simpa using h.ccsr, by simpa using h.mem⟩
  rw [State.capValue_of_regs (boundary_regs s)]
  exact h.regs r

/-- With CAPSTONE_EN set, every effect of a step keeps a property that capabilities hand on (R34). -/
theorem StepEffect.capsAll (hP : Heritable P) (h : StepEffect s t) (hen : s.capstoneEn = true) (hs : s.CapsAll P) :
    t.CapsAll P := by
  cases h with
  | delivers i c _ hcih => exact hs.delivered hP i (hs.ccsr.cih c hcih)
  | traps _ h => exact h.capsAll hP hs
  | base _ h => exact h.capsAll hP hs
  | cMode _ _ h => exact h.capsAll hP hs
  | enters _ h => cases h.disabled.symm.trans hen

end Effects

/-! ### No step forges authority (R34, R160) -/

/-- If valid, the capability lies within a valid capability that `s` held. -/
def BackedBy (s : State) (c : Cap) : Prop := c.valid = true → ∃ d ∈ s.allCaps, d.valid = true ∧ c.within d

theorem heritable_backedBy (s : State) : Heritable (BackedBy s) where
  invalid c hc hv := absurd (hc.symm.trans hv) (by decide)
  within c d hd hback hcd _ := by
    obtain ⟨e, he, hev, hde⟩ := hback hd
    exact ⟨e, he, hev, hcd.trans hde⟩

/-- Settles O57: being backed by the old state holds of the old state's capabilities, and every effect of a step keeps it. -/
theorem noStepForgesAuthority : Obligations.NoStepForgesAuthority := by
  intro s t hen h
  have hP := heritable_backedBy s
  have hs : s.CapsAll (BackedBy s) := (s.capsAll_iff hP).mpr fun c hc hv => ⟨c, hc, hv, c.within_refl⟩
  exact (t.capsAll_iff hP).mp ((step_effect h).capsAll hP (by rw [boundary_capstoneEn]; exact hen) hs.boundary)

/-! ### Before CAPENTER (R35, R141, R409) -/

theorem heritable_invalid : Heritable fun c => c.valid = false where
  invalid _ hc := hc
  within _ _ hd hinvalid := absurd (hd.symm.trans hinvalid) (by decide)

/-- Before CAPENTER a state without capabilities in memory, with an integer `pc`, holds no valid capability at all. -/
structure Uncapped (s : State) : Prop where
  disabled : s.capstoneEn = false
  slots : s.mem.caps = []
  pc : s.pc.isInt = true
  invalid : s.CapsAll fun c => c.valid = false

theorem noValidCapabilityYet_iff (s : State) : s.NoValidCapabilityYet ↔ (s.capstoneEn = false → Uncapped s) := by
  refine forall_congr' fun hen => ?_
  constructor
  · rintro ⟨hslots, hpc, hinvalid⟩
    exact ⟨hen, hslots, hpc, (s.capsAll_iff heritable_invalid).mpr hinvalid⟩
  · rintro ⟨-, hslots, hpc, hinvalid⟩
    exact ⟨hslots, hpc, (s.capsAll_iff heritable_invalid).mp hinvalid⟩

theorem Memory.storeBytes_no_caps {m : Memory} (h : m.caps = []) (a v : Word) (n : Nat) : (m.storeBytes a v n).caps = [] := by
  induction n generalizing m a v with
  | zero => exact h
  | succ n ih =>
    refine ih ?_ _ _
    show tableErase (slotOf a).toNat m.caps = []
    rw [h]
    rfl

theorem Value.isInt_withCursor (v : Value) (a : Word) : (v.withCursor a).isInt = v.isInt := by cases v <;> rfl

/-- A trap taken with CAPSTONE_EN clear enters M-mode or S-mode, with an integer `pc` (R362, R363). -/
theorem Trapped.pc_isInt {s t : State} (h : Trapped s t) (hen : s.capstoneEn = false) : t.pc.isInt = true := by
  cases h with
  | intoC _ _ _ _ _ _ hen' _ => cases hen.symm.trans hen'
  | intoM => rfl
  | intoS => rfl

theorem BaseEffect.pc_isInt {s t : State} (h : BaseEffect s t) (hs : Uncapped s) : t.pc.isInt = true := by
  obtain ⟨hen, -, hpc, -⟩ := hs
  cases h with
  | jumps rd link target pc hpc' =>
    rw [State.setReg_pc, State.setPc_pc]
    rcases hpc' with rfl | rfl
    · rw [Value.isInt_withCursor]
      exact hpc
    · rfl
  | accessesCsr u rd v csr hu _ => rcases hu with rfl | rfl <;> simpa [Value.isInt_withCursor] using hpc
  | returnsM => rfl
  | returnsC _ hen' => cases hen.symm.trans hen'
  | returnsS => rfl
  | _ => simpa [Value.isInt_withCursor] using hpc

theorem BaseEffect.uncapped {s t : State} (h : BaseEffect s t) (hs : Uncapped s) : Uncapped t := by
  refine ⟨h.keepsMachine.capstoneEn.trans hs.disabled, ?_, h.pc_isInt hs, h.capsAll heritable_invalid hs.invalid⟩
  rcases h.mem with hmem | ⟨ea, v, n, -, hmem⟩
  · rw [hmem]
    exact hs.slots
  · rw [hmem]
    exact Memory.storeBytes_no_caps hs.slots ea v n

/-- CAPSTONE_EN is clear after a step only if it was clear before, and then an effect is a trap or a base instruction's (R141). -/
theorem StepEffect.uncapped {s t : State} (h : StepEffect s t) (hs : s.capstoneEn = false → Uncapped s)
    (hen : t.capstoneEn = false) : Uncapped t := by
  cases h with
  | delivers i c hen' =>
    rw [State.delivered_capstoneEn] at hen
    cases hen.symm.trans hen'
  | traps _ h =>
    have hs' := hs (h.frame.capstoneEn.symm.trans hen)
    exact ⟨hen, (congrArg Memory.caps h.frame.mem).trans hs'.slots, h.pc_isInt hs'.disabled,
      h.capsAll heritable_invalid hs'.invalid⟩
  | base _ h => exact h.uncapped (hs (h.keepsMachine.capstoneEn.symm.trans hen))
  | cMode _ hmode h =>
    have hen' := (s.inCMode_iff.mp hmode).1
    cases hen.symm.trans (h.keepsMachine.capstoneEn.trans hen')
  | enters _ h => cases hen.symm.trans h.capstoneEn

theorem Uncapped.boundary {s : State} (h : Uncapped s) : Uncapped (boundary s) :=
  ⟨by simpa using h.disabled, by simpa using h.slots, by simpa using h.pc, h.invalid.boundary⟩

/-- Settles O55: before CAPENTER a step is a trap or a base instruction, neither of which makes a capability. -/
theorem noValidCapabilityBeforeCapenter : Obligations.NoValidCapabilityBeforeCapenter := by
  refine keptByStep_of (fun s hs => ?boundary) fun s t hs h => ?effect
  case boundary =>
    rw [noValidCapabilityYet_iff, boundary_capstoneEn]
    exact fun hen => ((noValidCapabilityYet_iff s).mp hs hen).boundary
  case effect => exact (noValidCapabilityYet_iff t).mpr (h.uncapped ((noValidCapabilityYet_iff s).mp hs))

end Sys2Proof.Machine

namespace Sys2Proof.Machine

/-! ### What a write leaves of each register with fields, bit by bit (R41, R42, R52, R53, R55, R337, R338) -/

theorem word_ext {a b : Word} (h : ∀ n, bitOf a n = bitOf b n) : a = b := BitVec.eq_of_getLsbD_eq fun n _ => h n

/-- A write of `mstatus` (R52). -/
theorem bitOf_writeMstatus (old v : Word) (n : Nat) :
    bitOf (writeMstatus old v) n =
      if n ∈ [1, 3, 5, 7, 8, 17, 18, 19, 20, 21, 22] then bitOf v n
      else if n ∈ [11, 12] then (if bitOf v 11 = false ∧ bitOf v 12 = true then bitOf old n else bitOf v n)
      else decide (n = 33 ∨ n = 35) := by
  rw [writeMstatus, bitOf_mstatusOf]
  refine if_congr Iff.rfl rfl ?_
  obtain ⟨hold0, hold1⟩ := mpp_bits old
  obtain ⟨hnew0, hnew1⟩ := mpp_bits v
  simp only [← mpp_eq_two]
  by_cases h11 : n = 11
  · subst h11
    simp only [if_true, List.mem_cons, true_or]
    split
    · exact hold0
    · exact hnew0
  · by_cases h12 : n = 12
    · subst h12
      simp only [if_true, if_neg h11, List.mem_cons, true_or, or_true]
      split
      · exact hold1
      · exact hnew1
    · simp [h11, h12]

/-- The bits of a CSR that holds interrupt lines (R42, R53). -/
theorem bitOf_lines (v : Word) (n : Nat) : bitOf (v &&& irqMask) n = (decide (n ∈ [1, 3, 5, 7, 9, 11]) && bitOf v n) := by
  rw [bitOf_and, bitOf_irqMask, Bool.and_comm]

/-- Bits [1:0] of a word cleared (R337, R362). -/
theorem bitOf_clearLow (v : Word) (n : Nat) : bitOf (v &&& ~~~(3 : Word)) n = (decide (2 ≤ n) && bitOf v n) := by
  have hmask : bitOf (3 : Word) n = decide (n ∈ [0, 1]) := mask_bits (by decide) (by decide) n
  rw [bitOf_and, bitOf_not, hmask]
  by_cases hn : n < 64
  · have hlow : n ∈ [0, 1] ↔ ¬ 2 ≤ n := by
      simp only [List.mem_cons, List.not_mem_nil, or_false]
      omega
    by_cases h2 : 2 ≤ n <;> simp [hn, hlow, h2]
  · simp [bitOf_ge _ (by omega : 64 ≤ n)]

/-- A write of `mtvec` (R337, log 23). -/
theorem bitOf_writeMtvec (old v : Word) (n : Nat) :
    bitOf (writeMtvec old v) n = if n < 2 ∧ bitOf v 1 = true then bitOf old n else bitOf v n := by
  unfold writeMtvec
  by_cases hmode : bitOf v 1 = true
  · have hmask : bitOf (3 : Word) n = decide (n ∈ [0, 1]) := mask_bits (by decide) (by decide) n
    have hlow : n ∈ [0, 1] ↔ n < 2 := by
      simp only [List.mem_cons, List.not_mem_nil, or_false]
      omega
    rw [if_pos hmode, bitOf_merge, bitOf_not, hmask]
    by_cases hn : n < 64
    · by_cases h2 : n < 2 <;> simp [hn, hlow, h2, hmode]
    · simp [bitOf_ge _ (by omega : 64 ≤ n)]
  · simp [hmode]

/-- Register by register, what a read of a view shows (R338). -/
theorem bitOf_readCsr_views (s : State) (n : Nat) :
    bitOf (readCsr s .sstatus) n = (decide (n ∈ [1, 5, 8, 18, 19, 32, 33, 63]) && bitOf s.csr.mstatus n) ∧
    bitOf (readCsr s .sie) n = (decide (n ∈ [1, 5, 9]) && bitOf s.csr.mie n && bitOf s.csr.mideleg n) ∧
    bitOf (readCsr s .sip) n = (decide (n ∈ [1, 5, 9]) && bitOf s.csr.mip n && bitOf s.csr.mideleg n) := by
  simp only [readCsr, bitOf_and, bitOf_sstatusView, bitOf_sIrqMask]
  exact ⟨Bool.and_comm .., by rw [Bool.and_comm (bitOf s.csr.mie n)], by rw [Bool.and_comm (bitOf s.csr.mip n)]⟩

theorem bitOf_two (n : Nat) : bitOf (2 : Word) n = decide (n = 1) := by
  have hmask : bitOf (2 : Word) n = decide (n ∈ [1]) := mask_bits (by decide) (by decide) n
  rw [hmask]
  simp only [List.mem_singleton]

/-- Settles O35: reads and plain writes are the model's equations; each write with fields is known bit by bit. -/
theorem csrFieldRules : Obligations.CsrFieldRules := by
  intro s v c
  refine ⟨?reads, ?constants, bitOf_readCsr_views s, ?plain, ?ignored, ⟨_, rfl, bitOf_writeMstatus _ v⟩, ⟨_, rfl, ?sstatus⟩,
    ⟨_, rfl, ?mip⟩, ⟨_, rfl, ?sip⟩, ⟨_, rfl, ?sie⟩, ⟨_, bitOf_lines v, rfl, rfl, rfl⟩,
    ⟨_, rfl, delegableBits_legalMedeleg v⟩, ⟨_, rfl, bitOf_clearLow v⟩, ⟨_, rfl, bitOf_writeMtvec _ v⟩⟩
  case reads => exact ⟨rfl, rfl, rfl, rfl, rfl, rfl, rfl, rfl, rfl, rfl, rfl, rfl, rfl, rfl, rfl, rfl, rfl, rfl, rfl,
    rfl, rfl, rfl⟩
  case constants => exact ⟨rfl, rfl, rfl, rfl, rfl, rfl, rfl⟩
  case plain => exact ⟨rfl, rfl, rfl, rfl, rfl, rfl, rfl, rfl, rfl, rfl, rfl, rfl, rfl⟩
  case ignored => exact ⟨rfl, rfl, rfl, rfl, rfl, rfl, rfl, rfl⟩
  case sstatus =>
    intro n
    simp only [bitOf_merge, bitOf_sstatusMask, decide_eq_true_eq]
  case mip =>
    intro n
    simp only [writeMip, bitOf_merge, bitOf_sIrqMask, decide_eq_true_eq]
  case sip =>
    intro n
    simp only [bitOf_merge, bitOf_and, bitOf_two, Bool.and_eq_true, decide_eq_true_eq]
  case sie =>
    intro n
    simp only [bitOf_merge, bitOf_and, bitOf_sIrqMask, Bool.and_eq_true, decide_eq_true_eq]

/-! ### Legal values, bit by bit -/

/-- The bits of `mstatus` that a write can change (R52). -/
def mstatusFields : List Nat := [1, 3, 5, 7, 8, 11, 12, 17, 18, 19, 20, 21, 22]

/-- A legal `mstatus` has its fixed bits outside the fields, and a level in MPP (R52). -/
theorem mstatusLegal_iff (ms : Word) :
    mstatusLegal ms = true ↔ (∀ n, n ∉ mstatusFields → bitOf ms n = decide (n = 33 ∨ n = 35)) ∧ mpp ms ≠ 2 := by
  rw [mstatusLegal, Bool.and_eq_true, decide_eq_true_eq, decide_eq_true_eq]
  refine and_congr_left fun _ => ⟨fun h n hn => ?_, fun h => word_ext fun n => ?_⟩
  · simp only [mstatusFields, List.mem_cons, List.not_mem_nil, or_false, not_or] at hn
    obtain ⟨h1, h3, h5, h7, h8, h11, h12, h17, h18, h19, h20, h21, h22⟩ := hn
    rw [← h, bitOf_mstatusOf, if_neg (by simp [h1, h3, h5, h7, h8, h17, h18, h19, h20, h21, h22]), if_neg h11, if_neg h12]
  · obtain ⟨h11, h12⟩ := mpp_bits ms
    rw [bitOf_mstatusOf]
    split
    · rfl
    · next hw =>
      split
      · next e => subst e; exact h11
      · next e11 =>
        split
        · next e => subst e; exact h12
        · next e12 =>
          refine (h n ?_).symm
          simp only [List.mem_cons, List.not_mem_nil, or_false, not_or] at hw
          simp only [mstatusFields, List.mem_cons, List.not_mem_nil, or_false, not_or]
          tauto

theorem mpp_ne_two_of_level {ms : Word} {p : Priv} (h : LevelBits ms 11 p) : mpp ms ≠ 2 := by
  intro htwo
  have := (mpp_level ms p).mpr h
  rw [htwo] at this
  cases this

/-- A change of fields alone that leaves a level in MPP keeps `mstatus` legal. -/
theorem mstatusLegal_of_sameBits {old new : Word} {but : List Nat} (h : mstatusLegal old = true)
    (hbut : ∀ n ∈ but, n ∈ mstatusFields) (hsame : SameBits old new but) (hmpp : mpp new ≠ 2) : mstatusLegal new = true := by
  obtain ⟨hfixed, -⟩ := (mstatusLegal_iff old).mp h
  exact (mstatusLegal_iff new).mpr ⟨fun n hn => (hsame n fun hb => hn (hbut n hb)).trans (hfixed n hn), hmpp⟩

/-- A change that leaves MPP alone leaves a level there. -/
theorem mpp_ne_two_of_sameBits {old new : Word} {but : List Nat} (h : mstatusLegal old = true)
    (h11 : 11 ∉ but) (h12 : 12 ∉ but) (hsame : SameBits old new but) : mpp new ≠ 2 := by
  obtain ⟨-, hmpp⟩ := (mstatusLegal_iff old).mp h
  rw [Ne, mpp_eq_two] at hmpp ⊢
  rwa [hsame 11 h11, hsame 12 h12]

/-- A change of fields other than MPP keeps `mstatus` legal. -/
theorem mstatusLegal_of_sameMpp {old new : Word} {but : List Nat} (h : mstatusLegal old = true)
    (hbut : ∀ n ∈ but, n ∈ mstatusFields) (h11 : 11 ∉ but) (h12 : 12 ∉ but) (hsame : SameBits old new but) :
    mstatusLegal new = true :=
  mstatusLegal_of_sameBits h hbut hsame (mpp_ne_two_of_sameBits h h11 h12 hsame)

/-- A value put together for `mstatus`, with a level for MPP, is legal (R52). -/
theorem mstatusLegal_mstatusOf (v : Word) {p : BitVec 2} (hp : p ≠ 2) : mstatusLegal (mstatusOf v p) = true := by
  have hmpp : mpp (mstatusOf v p) = p := by
    obtain ⟨h0, h1⟩ := mpp_bits (mstatusOf v p)
    rw [bitOf_mstatusOf, if_neg (by decide), if_pos rfl] at h0
    rw [bitOf_mstatusOf, if_neg (by decide), if_neg (by decide), if_pos rfl] at h1
    refine BitVec.eq_of_getLsbD_eq fun n hn => ?_
    match n, hn with
    | 0, _ => exact h0
    | 1, _ => exact h1
  refine (mstatusLegal_iff _).mpr ⟨fun n hn => ?_, by rw [hmpp]; exact hp⟩
  simp only [mstatusFields, List.mem_cons, List.not_mem_nil, or_false, not_or] at hn
  obtain ⟨h1, h3, h5, h7, h8, h11, h12, h17, h18, h19, h20, h21, h22⟩ := hn
  rw [bitOf_mstatusOf, if_neg (by simp [h1, h3, h5, h7, h8, h17, h18, h19, h20, h21, h22]), if_neg h11, if_neg h12]

theorem mstatusLegal_loadMstatus (v : Word) : mstatusLegal (loadMstatus v) = true := by
  refine mstatusLegal_mstatusOf v ?_
  split
  · decide
  · assumption

theorem mstatusLegal_writeMstatus {old : Word} (h : mstatusLegal old = true) (v : Word) :
    mstatusLegal (writeMstatus old v) = true := by
  refine mstatusLegal_mstatusOf v ?_
  split
  · exact ((mstatusLegal_iff old).mp h).2
  · assumption

theorem mstatusLegal_trapMstatus {ms : Word} (h : mstatusLegal ms = true) (p : Priv) :
    mstatusLegal (trapMstatus ms p) = true := by
  obtain ⟨-, -, hlevel, hsame⟩ := trapMstatus_bits ms p
  exact mstatusLegal_of_sameBits h (by decide) hsame (mpp_ne_two_of_level hlevel)

theorem mstatusLegal_trapSstatus {ms : Word} (h : mstatusLegal ms = true) (p : Priv) :
    mstatusLegal (trapSstatus ms p) = true :=
  mstatusLegal_of_sameMpp h (by decide) (by decide) (by decide) (sameBits_trapSstatus ms p)

theorem mstatusLegal_mretMstatus {ms : Word} (h : mstatusLegal ms = true) (p : Priv) :
    mstatusLegal (mretMstatus ms p) = true := by
  obtain ⟨-, -, hlevel, -, hsame⟩ := mretStatus_mretMstatus ms p
  exact mstatusLegal_of_sameBits h (by decide) hsame (mpp_ne_two_of_level hlevel)

theorem mstatusLegal_sretMstatus {ms : Word} (h : mstatusLegal ms = true) : mstatusLegal (sretMstatus ms) = true :=
  mstatusLegal_of_sameMpp h (by decide) (by decide) (by decide) (sameBits_sretMstatus ms)

theorem mstatusLegal_writeSstatus {ms : Word} (h : mstatusLegal ms = true) (v : Word) :
    mstatusLegal (merge sstatusMask ms v) = true := by
  refine mstatusLegal_of_sameMpp (but := [1, 5, 8, 18, 19]) h (by decide) (by decide) (by decide) fun n hn => ?_
  rw [bitOf_merge, bitOf_sstatusMask, if_neg (by simpa using hn)]

/-- No bit is set but those of the six interrupt lines (R42, R53, D36). -/
abbrev OnlyLines (w : Word) : Prop := w &&& ~~~irqMask = 0

theorem onlyLines_iff (w : Word) : OnlyLines w ↔ ∀ n, n ∉ [1, 3, 5, 7, 9, 11] → bitOf w n = false := by
  have hbit (n : Nat) : bitOf (w &&& ~~~irqMask) n = (bitOf w n && (decide (n < 64) && !decide (n ∈ [1, 3, 5, 7, 9, 11]))) := by
    rw [bitOf_and, bitOf_not, bitOf_irqMask]
  constructor
  · intro h n hn
    by_cases hlt : n < 64
    · have hzero := hbit n
      rw [h, decide_eq_false hn, decide_eq_true hlt, Bool.not_false, Bool.and_true, Bool.and_true] at hzero
      exact hzero.symm.trans (by simp [bitOf])
    · exact bitOf_ge w (by omega)
  · intro h
    refine word_ext fun n => ?_
    rw [hbit]
    by_cases hn : n ∈ [1, 3, 5, 7, 9, 11]
    · rw [decide_eq_true hn]
      simp [bitOf]
    · rw [h n hn]
      simp [bitOf]

theorem onlyLines_and_irqMask (v : Word) : OnlyLines (v &&& irqMask) := by
  rw [OnlyLines, BitVec.and_assoc, BitVec.and_not_self]
  exact BitVec.and_zero

/-- A write through a mask of lines leaves only lines. -/
theorem OnlyLines.merge {mask old : Word} (hmask : OnlyLines mask) (hold : OnlyLines old) (v : Word) :
    OnlyLines (merge mask old v) := by
  rw [onlyLines_iff] at *
  intro n hn
  rw [bitOf_merge, hmask n hn, if_neg Bool.false_ne_true, hold n hn]

theorem onlyLines_and {mask : Word} (h : OnlyLines mask) (v : Word) : OnlyLines (mask &&& v) := by
  rw [onlyLines_iff] at *
  intro n hn
  rw [bitOf_and, h n hn, Bool.false_and]

/-- An event writes the bit of a line (R371). -/
theorem OnlyLines.apply {w : Word} (h : OnlyLines w) (e : IrqEvent) : OnlyLines (e.apply w) := by
  rw [onlyLines_iff] at *
  intro n hn
  have hline : n ≠ e.line.bit := by
    rintro rfl
    revert hn
    cases e.line <;> decide
  rw [bitOf_apply, if_neg hline, h n hn]

theorem legalMedeleg_idem (v : Word) : legalMedeleg (legalMedeleg v) = legalMedeleg v := by
  rw [legalMedeleg, legalMedeleg, BitVec.and_assoc, BitVec.and_self]

/-- Clearing bits [1:0] makes a legal `mepc`, by a CSR write or by a trap (R337, R362). -/
theorem legalMepc_clearLow (v : Word) : legalMepc (v &&& ~~~(3 : Word)) = v &&& ~~~(3 : Word) := by
  rw [legalMepc, BitVec.and_assoc, BitVec.and_self]

/-! ### Legal CSRs (R41, R42, R52, R53, R55, R337) -/

/-- What the statements ask of the CSRs, register by register. -/
structure Csrs.Legal (c : Csrs) : Prop where
  mstatus : mstatusLegal c.mstatus = true
  mip : OnlyLines c.mip
  mie : OnlyLines c.mie
  cis : OnlyLines c.cis
  cid : OnlyLines c.cid
  medeleg : legalMedeleg c.medeleg = c.medeleg
  mepc : legalMepc c.mepc = c.mepc
  mtvec : bitOf c.mtvec 1 = false

theorem csrsLegal_iff (s : State) : (s.StatusLegal ∧ s.CsrsLegal) ↔ s.csr.Legal := by
  constructor
  · rintro ⟨hstatus, hmip, hmie, hcis, hcid, hmedeleg, hmepc, hmtvec⟩
    exact ⟨hstatus, hmip, hmie, hcis, hcid, hmedeleg, hmepc, hmtvec⟩
  · rintro ⟨hstatus, hmip, hmie, hcis, hcid, hmedeleg, hmepc, hmtvec⟩
    exact ⟨hstatus, hmip, hmie, hcis, hcid, hmedeleg, hmepc, hmtvec⟩

/-- A write of any CSR leaves the CSRs legal (R41, R42, R52, R53, R55, R337). -/
theorem Csrs.Legal.write {c : Csrs} (h : c.Legal) (n : CsrName) (v : Word) : (writeCsr c n v).Legal := by
  have hlines : OnlyLines sIrqMask := by decide
  cases n with
  | mstatus => exact { h with mstatus := mstatusLegal_writeMstatus h.mstatus v }
  | sstatus => exact { h with mstatus := mstatusLegal_writeSstatus h.mstatus v }
  | mip => exact { h with mip := hlines.merge h.mip v }
  | sip => exact { h with mip := (onlyLines_and (by decide) _).merge h.mip v }
  | mie => exact { h with mie := onlyLines_and_irqMask v }
  | sie => exact { h with mie := (onlyLines_and hlines _).merge h.mie v }
  | cis => exact { h with cis := onlyLines_and_irqMask v }
  | cid => exact { h with cid := onlyLines_and_irqMask v }
  | medeleg => exact { h with medeleg := legalMedeleg_idem v }
  | mepc => exact { h with mepc := legalMepc_clearLow v }
  | mtvec =>
    refine { h with mtvec := ?_ }
    show bitOf (writeMtvec c.mtvec v) 1 = false
    rw [bitOf_writeMtvec]
    split
    · exact h.mtvec
    · next hmode => simpa using hmode
  | _ => exact { h with }

/-- Loading a context filters each word to a legal one (R376). -/
theorem Csrs.Legal.loaded {c : Csrs} (h : c.Legal) (e : CEff) : (c.loaded e).Legal :=
  { h with
    mstatus := mstatusLegal_loadMstatus _, mip := onlyLines_and_irqMask _, mie := onlyLines_and_irqMask _
    medeleg := legalMedeleg_idem _ }

theorem Csrs.Legal.inDomain {c : Csrs} (h : c.Legal) (d : Domain) : (c.inDomain d).Legal := { h with }

theorem Csrs.Legal.scrubbed {c : Csrs} (h : c.Legal) : c.scrubbed.Legal := { h with }

/-- A trap sets its fields of `mstatus`, and an address without its low bits in `mepc` (R360, R362, R363). -/
theorem Trapped.csrsLegal {s t : State} (h : Trapped s t) (hs : s.csr.Legal) : t.csr.Legal := by
  have htop := mstatusLegal_trapMstatus hs.mstatus s.priv
  cases h with
  | intoC _ _ _ _ _ _ _ h =>
    unfold takeTrapC at h
    dsimp only at h
    split at h
    · cases h; exact { hs with mstatus := htop }
    · cases h; exact { hs with mstatus := htop }
    · cases h
  | intoM => exact { hs with mstatus := htop, mepc := legalMepc_clearLow _ }
  | intoS => exact { hs with mstatus := mstatusLegal_trapSstatus hs.mstatus _ }

theorem BaseEffect.csrsLegal {s t : State} (h : BaseEffect s t) (hs : s.csr.Legal) : t.csr.Legal := by
  cases h with
  | accessesCsr u rd v csr _ hcsr =>
    simp only [State.advance_csr, State.setReg_csr, State.setCsr_csr]
    rcases hcsr with rfl | ⟨n, w, rfl⟩
    · exact hs
    · exact hs.write n w
  | returnsM p => exact { hs with mstatus := mstatusLegal_mretMstatus hs.mstatus p }
  | returnsC p => exact { hs with mstatus := mstatusLegal_mretMstatus hs.mstatus p }
  | returnsS => exact { hs with mstatus := mstatusLegal_sretMstatus hs.mstatus }
  | _ => simpa using hs

theorem stcRegisters_csr (s : State) (rs1 rs2 : Reg) (c : Cap) (v : Value) :
    (stcRegisters s rs1 rs2 c v).csr = s.csr := by
  obtain ⟨-, -, -, hcsr, -⟩ := (stcRegisters_onlyRegs s rs1 rs2 c v).control
  exact hcsr

theorem ccsrExchange_csr (s : State) (rd rs1 : Reg) (n : CcsrName) (c : Cap) :
    (ccsrExchange s rd rs1 n c).csr = s.csr := by
  obtain ⟨-, -, -, hcsr, -⟩ := (ccsrExchange_onlyRegs s rd rs1 n c).control
  exact hcsr

theorem CModeEffect.csrsLegal {s t : State} (h : CModeEffect s t) (hs : s.csr.Legal) : t.csr.Legal := by
  cases h with
  | revokes rs1 r =>
    have hrevoked : (s.revokeAll r).csr.Legal := hs
    simpa using hrevoked
  | loadsCap => split <;> simpa using hs
  | storesCap => simpa [stcRegisters_csr] using hs
  | links => split <;> simpa using hs
  | jumpsTo => split <;> simpa using hs
  | exchanges => simpa [ccsrExchange_csr] using hs
  | calls rd rs1 d => simpa [callReady] using hs.loaded _
  | returnsSync rd c => simpa [retReady] using hs.loaded _
  | returnsAsync rd c =>
    have hloaded := (hs.inDomain (s.mem.readDomain s.draws c.base)).loaded (s.mem.readCEff s.draws c.base)
    have hposted (u : State) (posted : Word) (hu : u.csr.Legal) : (u.postInts posted).csr.Legal :=
      { hu with mip := onlyLines_and_irqMask _ }
    exact hposted _ _ (by simpa [retReady, State.keepHandler] using hloaded)
  | _ => simpa using hs

theorem applyEvent_csrsLegal {s : State} (hs : s.csr.Legal) (e : IrqEvent) : (applyEvent s e).csr.Legal := by
  unfold applyEvent
  split
  · exact { hs with mip := hs.mip.apply e }
  · exact { hs with cis := hs.cis.apply e }

theorem boundary_csrsLegal {s : State} (hs : s.csr.Legal) : (boundary s).csr.Legal := by
  have hfold : ∀ (es : List IrqEvent) (u : State), u.csr.Legal → (es.foldl applyEvent u).csr.Legal := by
    intro es
    induction es with
    | nil => exact fun _ hu => hu
    | cons e es ih => exact fun u hu => ih _ (applyEvent_csrsLegal hu e)
  unfold boundary
  split
  · exact hs
  · exact hfold _ _ hs

theorem StepEffect.csrsLegal {s t : State} (h : StepEffect s t) (hs : s.csr.Legal) : t.csr.Legal := by
  cases h with
  | delivers i c => simpa using hs.scrubbed.loaded _
  | traps _ h => exact h.csrsLegal hs
  | base _ h => exact h.csrsLegal hs
  | cMode _ _ h => exact h.csrsLegal hs
  | enters _ h =>
    obtain ⟨-, -, hcsr, -⟩ := h.frame
    rw [hcsr]
    exact hs

/-- Settles O54: events write lines, and every effect writes CSRs through their field rules. -/
theorem csrsStayLegal : Obligations.CsrsStayLegal := by
  refine keptByStep_of (fun s hs => ?boundary) fun s t hs h => ?effect
  case boundary => exact (csrsLegal_iff _).mpr (boundary_csrsLegal ((csrsLegal_iff s).mp hs))
  case effect => exact (csrsLegal_iff t).mpr (h.csrsLegal ((csrsLegal_iff s).mp hs))

end Sys2Proof.Machine

namespace Sys2Proof.Machine

/-! ### Where the capabilities of a state come from (R107)

`Flow h h'` says that each valid capability held after is derived from one held before, and that two places whose
capabilities come from one place hold nothing that R107 forbids. A flow keeps linear capabilities exclusive, and flows
compose; an instruction's effect is a flow, or a few in a row. -/

/-- No valid capability. -/
def Lacks (o : Option Cap) : Prop := ∀ c, o = some c → c.valid = false

/-- What a place holds after, if valid, is derived from what `o` was. -/
def Inherits (o o' : Option Cap) : Prop := ∀ c, o' = some c → c.valid = true → ∃ d, o = some d ∧ c.DerivedFrom d

/-- What R107 asks of two different places. -/
def Apart (o o' : Option Cap) : Prop :=
  ∀ c d, o = some c → o' = some d → c.valid = true → d.valid = true → c.type ≠ .revocation → d.type ≠ .revocation →
    Aliases c d → c.type = .nonLinear ∧ d.type = .nonLinear

/-- Every capability is non-linear. -/
def AllNonLinear (o : Option Cap) : Prop := ∀ c, o = some c → c.valid = true → c.type = .nonLinear

/-- Linear capabilities are exclusive (R107). -/
def Exclusive (h : Place → Option Cap) : Prop := ∀ p q, p ≠ q → Apart (h p) (h q)

/-- Each place's valid capability comes from the place that `f` names, and places with one origin are apart. -/
def FlowAlong (f : Place → Place) (h h' : Place → Option Cap) : Prop :=
  (∀ p, Inherits (h (f p)) (h' p)) ∧ ∀ p q, p ≠ q → f p = f q → Apart (h' p) (h' q)

def Flow (h h' : Place → Option Cap) : Prop := ∃ f, FlowAlong f h h'

theorem linearExclusive_iff (s : State) : s.LinearExclusive ↔ Exclusive s.capAt := by
  constructor
  · exact fun h p q hne c d hc hd hcv hdv hct hdt hcd => h p q c d hne hc hd hcv hdv hct hdt hcd
  · exact fun h p q c d hne hc hd hcv hdv hct hdt hcd => h p q hne c d hc hd hcv hdv hct hdt hcd

theorem lacks_none : Lacks none := fun _ h => nomatch h

theorem lacks_cnull : Lacks (some cnull) := fun _ h => Option.some.inj h ▸ rfl

theorem Lacks.inherits {o' : Option Cap} (h : Lacks o') (o : Option Cap) : Inherits o o' :=
  fun c hc hv => absurd ((h c hc).symm.trans hv) (by decide)

theorem inherits_refl (o : Option Cap) : Inherits o o := fun c hc _ => ⟨c, hc, .refl c⟩

theorem inherits_of_derived {c d : Cap} (h : c.DerivedFrom d) : Inherits (some d) (some c) :=
  fun _ hc _ => ⟨d, rfl, Option.some.inj hc ▸ h⟩

theorem Inherits.trans {o o' o'' : Option Cap} (h : Inherits o o') (k : Inherits o' o'') : Inherits o o'' := by
  intro c hc hv
  obtain ⟨d, hd, hcd⟩ := k c hc hv
  obtain ⟨e, he, hde⟩ := h d hd (hcd.valid hv)
  exact ⟨e, he, hcd.trans hde⟩

theorem Apart.symm {o o' : Option Cap} (h : Apart o o') : Apart o' o := by
  intro c d hc hd hcv hdv hct hdt hcd
  have hdc : Aliases d c := by
    unfold Aliases at *
    rwa [max_comm, min_comm]
  exact (h d c hd hc hdv hcv hdt hct hdc).symm

theorem Lacks.apart {o : Option Cap} (h : Lacks o) (o' : Option Cap) : Apart o o' :=
  fun c _ hc _ hcv => absurd ((h c hc).symm.trans hcv) (by decide)

theorem AllNonLinear.apart {o o' : Option Cap} (h : AllNonLinear o) (h' : AllNonLinear o') : Apart o o' :=
  fun c d hc hd hcv hdv _ _ _ => ⟨h c hc hcv, h' d hd hdv⟩

theorem AllNonLinear.inherits {o o' : Option Cap} (h : AllNonLinear o) (hi : Inherits o o') : AllNonLinear o' := by
  intro c hc hv
  obtain ⟨d, hd, hcd⟩ := hi c hc hv
  exact hcd.nonLinear (h d hd (hcd.valid hv))

/-- A part of a region meets only what the region meets. -/
theorem Aliases.of_within {c d c' d' : Cap} (h : Aliases c d) (hc : c.within c') (hd : d.within d') : Aliases c' d' := by
  obtain ⟨hcbase, hclast, -⟩ := hc
  obtain ⟨hdbase, hdlast, -⟩ := hd
  unfold Aliases at *
  omega

/-- What is derived from things apart is apart. -/
theorem Apart.inherits {o₁ o₂ o₁' o₂' : Option Cap} (h : Apart o₁ o₂) (h₁ : Inherits o₁ o₁') (h₂ : Inherits o₂ o₂') :
    Apart o₁' o₂' := by
  intro c d hc hd hcv hdv hct hdt hcd
  obtain ⟨c', hc', hcc⟩ := h₁ c hc hcv
  obtain ⟨d', hd', hdd⟩ := h₂ d hd hdv
  obtain ⟨hnc, hnd⟩ := h c' d' hc' hd' (hcc.valid hcv) (hdd.valid hdv) (hcc.access hct) (hdd.access hdt)
    (hcd.of_within hcc.within hdd.within)
  exact ⟨hcc.nonLinear hnc, hdd.nonLinear hnd⟩

section Flows

variable {h h' h'' : Place → Option Cap}

/-- A flow keeps linear capabilities exclusive. -/
theorem Exclusive.flow (hs : Exclusive h) (hf : Flow h h') : Exclusive h' := by
  obtain ⟨f, hinherits, happart⟩ := hf
  intro p q hne
  by_cases hfpq : f p = f q
  · exact happart p q hne hfpq
  · exact (hs _ _ hfpq).inherits (hinherits p) (hinherits q)

theorem Flow.trans (hf : Flow h h') (hg : Flow h' h'') : Flow h h'' := by
  obtain ⟨f, hfi, hfa⟩ := hf
  obtain ⟨g, hgi, hga⟩ := hg
  refine ⟨f ∘ g, fun p => (hfi (g p)).trans (hgi p), fun p q hne hpq => ?_⟩
  by_cases hgpq : g p = g q
  · exact hga p q hne hgpq
  · exact (hfa _ _ hgpq hpq).inherits (hgi p) (hgi q)

/-- Each place keeps what it has, or something derived from it, or loses it. -/
theorem Flow.inPlace (hi : ∀ p, Inherits (h p) (h' p)) : Flow h h' := ⟨id, hi, fun _ _ hne hpq => absurd hpq hne⟩

theorem Flow.refl (h : Place → Option Cap) : Flow h h := .inPlace fun _ => inherits_refl _

/-- `a` receives what `b` held, and `b` what `c` held; what is left in `c` is no more than R107 allows. -/
theorem Flow.rotate {a b c : Place} (hab : a ≠ b) (ha : Inherits (h b) (h' a)) (hb : Inherits (h c) (h' b))
    (hrest : ∀ p, p ≠ a → p ≠ b → Inherits (h p) (h' p)) (hsame : c = b → Apart (h' a) (h' b))
    (hleft : c ≠ a → c ≠ b → Apart (h' b) (h' c)) : Flow h h' := by
  refine ⟨fun p => if p = a then b else if p = b then c else p, fun p => ?origin, ?apart⟩
  case origin =>
    dsimp only
    by_cases hpa : p = a
    · subst hpa
      rwa [if_pos rfl]
    · by_cases hpb : p = b
      · subst hpb
        rwa [if_neg hpa, if_pos rfl]
      · rw [if_neg hpa, if_neg hpb]
        exact hrest p hpa hpb
  case apart =>
    have hone : ∀ p q, p ≠ q → (p = a ∨ (p = b ∧ q ≠ a)) →
        (if p = a then b else if p = b then c else p) = (if q = a then b else if q = b then c else q) →
        Apart (h' p) (h' q) := by
      rintro p q hne (rfl | ⟨rfl, hqa⟩) hpq
      · rw [if_pos rfl, if_neg hne.symm] at hpq
        by_cases hqb : q = b
        · subst hqb
          rw [if_pos rfl] at hpq
          exact hsame hpq.symm
        · rw [if_neg hqb] at hpq
          exact absurd hpq.symm hqb
      · rw [if_neg hab.symm, if_pos rfl, if_neg hqa, if_neg hne.symm] at hpq
        subst hpq
        exact hleft hqa hne.symm
    intro p q hne hpq
    dsimp only at hpq
    by_cases hpa : p = a
    · exact hone p q hne (.inl hpa) hpq
    · by_cases hqa : q = a
      · exact (hone q p hne.symm (.inl hqa) hpq.symm).symm
      · by_cases hpb : p = b
        · exact hone p q hne (.inr ⟨hpb, hqa⟩) hpq
        · by_cases hqb : q = b
          · exact (hone q p hne.symm (.inr ⟨hqb, hpa⟩) hpq.symm).symm
          · rw [if_neg hpa, if_neg hpb, if_neg hqa, if_neg hqb] at hpq
            exact absurd hpq hne

/-- `a` receives what `b` held, of which `b` keeps no more than R107 allows. -/
theorem Flow.move {a b : Place} (ha : Inherits (h b) (h' a)) (hrest : ∀ p, p ≠ a → Inherits (h p) (h' p))
    (hapart : a ≠ b → Apart (h' a) (h' b)) : Flow h h' := by
  by_cases hab : a = b
  · subst hab
    refine .inPlace fun p => ?_
    by_cases hp : p = a
    · exact hp ▸ ha
    · exact hrest p hp
  · exact .rotate hab ha (hrest b (Ne.symm hab)) (fun p hpa _ => hrest p hpa) (fun _ => hapart hab)
      fun _ hbb => absurd rfl hbb

/-- Places and memory slots trade: each place with an offset receives what the slot at that offset held, and each saved one leaves what it held there. -/
theorem Flow.exchange {B : Word} (offset : Place → Option Nat) (saved : Place → Prop)
    (hslot : ∀ a, offset (.slot a) = none) (hlt : ∀ p x, offset p = some x → x < 2 ^ 64)
    (hinj : ∀ p q x, offset p = some x → offset q = some x → p = q)
    (hloaded : ∀ p x, offset p = some x → Inherits (h (.slot (ctxAt B x))) (h' p))
    (hsaved : ∀ p x, offset p = some x → saved p → Inherits (h p) (h' (.slot (ctxAt B x))))
    (hother : ∀ p, offset p = none → (∀ q x, offset q = some x → saved q → p ≠ .slot (ctxAt B x)) → Inherits (h p) (h' p))
    (hleft : ∀ p x, offset p = some x → ¬ saved p → Apart (h' p) (h' (.slot (ctxAt B x)))) : Flow h h' := by
  have horigin : ∀ p, ∃ o, (∃ x, offset p = some x ∧ o = .slot (ctxAt B x)) ∨
      (∃ x, offset o = some x ∧ saved o ∧ p = .slot (ctxAt B x)) ∨
      (offset p = none ∧ o = p ∧ ∀ q x, offset q = some x → saved q → p ≠ .slot (ctxAt B x)) := by
    intro p
    cases hp : offset p with
    | some x => exact ⟨_, .inl ⟨x, rfl, rfl⟩⟩
    | none =>
      by_cases hs : ∃ q x, offset q = some x ∧ saved q ∧ p = .slot (ctxAt B x)
      · obtain ⟨q, x, hq, hsq, hpx⟩ := hs
        exact ⟨q, .inr (.inl ⟨x, hq, hsq, hpx⟩)⟩
      · exact ⟨p, .inr (.inr ⟨rfl, rfl, fun q x hq hsq hpx => hs ⟨q, x, hq, hsq, hpx⟩⟩)⟩
  choose f hf using horigin
  have hsame : ∀ {x y : Nat}, x < 2 ^ 64 → y < 2 ^ 64 → Place.slot (ctxAt B x) = .slot (ctxAt B y) → x = y :=
    fun hx hy hxy => (ctxAt_inj B hx hy).mp (Place.slot.inj hxy)
  have hone : ∀ p q, p ≠ q → (∃ x, offset p = some x) → f p = f q → Apart (h' p) (h' q) := by
    rintro p q hne ⟨x, hp⟩ hpq
    have hfp : f p = .slot (ctxAt B x) := by
      rcases hf p with ⟨y, hy, hfp⟩ | ⟨y, -, -, hpy⟩ | ⟨hnone, -⟩
      · cases hp.symm.trans hy
        exact hfp
      · rw [hpy, hslot] at hp
        cases hp
      · cases hp.symm.trans hnone
    rcases hf q with ⟨y, hy, hfq⟩ | ⟨y, hy, -, -⟩ | ⟨-, hfq, hunsaved⟩
    · cases hsame (hlt p x hp) (hlt q y hy) (hfp.symm.trans (hpq.trans hfq))
      exact absurd (hinj p q x hp hy) hne
    · rw [← hpq, hfp, hslot] at hy
      cases hy
    · have hq : q = .slot (ctxAt B x) := hfq.symm.trans (hpq.symm.trans hfp)
      rw [hq]
      exact hleft p x hp fun hs => hunsaved p x hp hs hq
  refine ⟨f, fun p => ?origin, fun p q hne hpq => ?apart⟩
  case origin =>
    rcases hf p with ⟨x, hp, hfp⟩ | ⟨x, ho, hso, hpx⟩ | ⟨hnone, hfp, hunsaved⟩
    · rw [hfp]
      exact hloaded p x hp
    · rw [hpx] at ho hso ⊢
      exact hsaved _ x ho hso
    · rw [hfp]
      exact hother p hnone hunsaved
  case apart =>
    rcases hf p with ⟨x, hp, -⟩ | ⟨x, hx, -, hpx⟩ | ⟨hp, hfp, -⟩
    · exact hone p q hne ⟨x, hp⟩ hpq
    · rcases hf q with ⟨y, hq, -⟩ | ⟨y, hy, -, hqy⟩ | ⟨hq, hfq, -⟩
      · exact (hone q p hne.symm ⟨y, hq⟩ hpq.symm).symm
      · rw [hpq] at hx
        cases hx.symm.trans hy
        exact absurd (hpx.trans hqy.symm) hne
      · rw [hpq, hfq, hq] at hx
        cases hx
    · rcases hf q with ⟨y, hq, -⟩ | ⟨y, hy, -, hqy⟩ | ⟨hq, hfq, -⟩
      · exact (hone q p hne.symm ⟨y, hq⟩ hpq.symm).symm
      · rw [← hpq, hfp, hp] at hy
        cases hy
      · exact absurd (hfp.symm.trans (hpq.trans hfq)) hne

end Flows

/-! ### What each place holds after an update -/

/-- What a write of `v` leaves in `x[r]`; register 0 holds `cnull` as ever (R32). -/
def Value.inReg (v : Value) (r : Reg) : Option Cap := if r = 0 then some cnull else v.cap?

/-- The place of a CCSR. -/
def CcsrName.place : CcsrName → Place
  | .ctvec => .ctvec
  | .cih => .cih
  | .cepc => .cepc
  | .cscratch => .cscratch
  | .cpmp k => .cpmp k

theorem State.capOf?_eq (s : State) (r : Reg) : s.capOf? r = (s.capValue r).cap? := by
  unfold State.capOf?
  split
  · next h => rw [h]; rfl
  · next h => rw [h]; rfl

theorem State.capAt_reg (s : State) (r : Reg) : s.capAt (.reg r) = (s.capValue r).cap? := s.capOf?_eq r

theorem State.capAt_slot (s : State) {a : Word} (ha : a.toNat % 16 = 0) : s.capAt (.slot a) = s.mem.slotCap a := if_pos ha

theorem State.capAt_ccsr (s : State) (n : CcsrName) : s.capAt n.place = (s.ccsr.get n).cap? := by cases n <;> rfl

/-- Nothing but registers, `pc`, CCSRs and memory holds a capability. -/
theorem State.capAt_congr {s t : State} (hregs : t.regs = s.regs) (hpc : t.pc = s.pc) (hccsr : t.ccsr = s.ccsr)
    (hmem : t.mem = s.mem) : t.capAt = s.capAt := by
  funext p
  cases p with
  | reg r => rw [State.capAt_reg, State.capAt_reg, State.capValue_of_regs hregs]
  | slot a => simp only [State.capAt, hmem]
  | _ => simp only [State.capAt, hpc, hccsr]

theorem State.capAt_setReg (s : State) (r : Reg) (v : Value) :
    (s.setReg r v).capAt = Function.update s.capAt (.reg r) (v.inReg r) := by
  funext p
  by_cases hp : p = .reg r
  · subst hp
    rw [Function.update_self, State.capAt_reg, State.setReg_capValue, Value.inReg]
    by_cases hr : r = 0
    · subst hr
      rfl
    · rw [if_pos ⟨rfl, hr⟩, if_neg hr]
  · rw [Function.update_of_ne hp]
    cases p with
    | reg q =>
      have hqr : q ≠ r := fun h => hp (h ▸ rfl)
      rw [State.capAt_reg, State.capAt_reg, State.setReg_capValue, if_neg fun h => hqr h.1]
    | _ => simp only [State.capAt, State.setReg_pc, State.setReg_ccsr, State.setReg_mem]

theorem State.capAt_setPc (s : State) (v : Value) : (s.setPc v).capAt = Function.update s.capAt .pc v.cap? := by
  funext p
  by_cases hp : p = .pc
  · subst hp
    rw [Function.update_self]
    rfl
  · rw [Function.update_of_ne hp]
    cases p with
    | pc => exact absurd rfl hp
    | _ => rfl

/-- A write of one CCSR leaves the others (R38). -/
theorem Ccsrs.get_put (c : Ccsrs) (n m : CcsrName) (v : Value) : (c.put n v).get m = if m = n then v else c.get m := by
  by_cases h : m = n
  · subst h
    rw [if_pos rfl]
    cases m with
    | cpmp k => exact Vector.getElem_set_self ..
    | _ => rfl
  · rw [if_neg h]
    cases n with
    | cpmp j =>
      cases m with
      | cpmp k =>
        have hne : j.val ≠ k.val := fun hjk => h (congrArg CcsrName.cpmp (Fin.ext hjk.symm))
        exact Vector.getElem_set_ne j.isLt k.isLt hne
      | _ => rfl
    | ctvec =>
      cases m with
      | ctvec => exact absurd rfl h
      | _ => rfl
    | cih =>
      cases m with
      | cih => exact absurd rfl h
      | _ => rfl
    | cepc =>
      cases m with
      | cepc => exact absurd rfl h
      | _ => rfl
    | cscratch =>
      cases m with
      | cscratch => exact absurd rfl h
      | _ => rfl

theorem State.capAt_putCcsr (s : State) (n : CcsrName) (v : Value) :
    (s.setCcsr (s.ccsr.put n v)).capAt = Function.update s.capAt n.place v.cap? := by
  have hccsr : ∀ m : CcsrName, (s.setCcsr (s.ccsr.put n v)).capAt m.place =
      if m = n then v.cap? else s.capAt m.place := by
    intro m
    rw [State.capAt_ccsr, State.capAt_ccsr, State.setCcsr_ccsr, Ccsrs.get_put]
    split <;> rfl
  funext p
  by_cases hp : p = n.place
  · subst hp
    rw [Function.update_self, hccsr, if_pos rfl]
  · have hother : ∀ m : CcsrName, m.place ≠ n.place → (s.setCcsr (s.ccsr.put n v)).capAt m.place = s.capAt m.place :=
      fun m hm => (hccsr m).trans (if_neg fun h => hm (congrArg CcsrName.place h))
    rw [Function.update_of_ne hp]
    cases p with
    | ctvec => exact hother .ctvec hp
    | cih => exact hother .cih hp
    | cepc => exact hother .cepc hp
    | cscratch => exact hother .cscratch hp
    | cpmp k => exact hother (.cpmp k) hp
    | reg | pc | slot => rfl

/-- A slot store changes what one slot holds (R87, R88). -/
theorem State.capAt_writeSlot {s : State} (hs : s.mem.sorted) {ea : Word} (ha : ea.toNat % 16 = 0) (v : Value) :
    (s.setMem (s.mem.writeSlot ea v)).capAt = Function.update s.capAt (.slot ea) v.cap? := by
  have hslot : ∀ a : Word, a.toNat % 16 = 0 →
      (s.mem.writeSlot ea v).slotCap a = if a = ea then v.cap? else s.mem.slotCap a := by
    intro a ha'
    cases v with
    | cap c => rw [Memory.writeSlot_cap_slotCap _ _ _ hs, slotOf_eq_of_aligned ha, slotOf_eq_of_aligned ha']; rfl
    | int n =>
      rw [Memory.writeSlot, Memory.writeInt_slotCap _ _ _ _ (by decide) (by omega) hs, slotOf_eq_of_aligned ha,
        slotOf_eq_of_aligned ha']
      rfl
  funext p
  by_cases hp : p = .slot ea
  · subst hp
    rw [Function.update_self, State.capAt_slot _ ha, State.setMem_mem, hslot ea ha, if_pos rfl]
  · rw [Function.update_of_ne hp]
    cases p with
    | slot a =>
      have hne : a ≠ ea := fun h => hp (h ▸ rfl)
      simp only [State.capAt, State.setMem_mem]
      split
      · next ha' => rw [hslot a ha', if_neg hne]
      · rfl
    | _ => rfl

end Sys2Proof.Machine

namespace Sys2Proof.Machine

/-! ### Each instruction's effect is a flow (R107) -/

section Updates

variable {h : Place → Option Cap}

/-- One place receives something derived from what it held. -/
theorem Flow.update {p : Place} {v : Option Cap} (hv : Inherits (h p) v) : Flow h (Function.update h p v) := by
  refine .inPlace fun q => ?_
  by_cases hq : q = p
  · subst hq
    rwa [Function.update_self]
  · rw [Function.update_of_ne hq]
    exact inherits_refl _

/-- `a` receives what `b` held, and `b` is written too. -/
theorem Flow.moved {a b : Place} {va vb : Option Cap} (ha : Inherits (h b) va) (hb : Inherits (h b) vb)
    (hapart : a ≠ b → Apart va vb) : Flow h (Function.update (Function.update h a va) b vb) := by
  by_cases hab : a = b
  · subst hab
    rw [Function.update_idem]
    exact .update hb
  · refine .move (a := a) (b := b) ?_ (fun p hp => ?_) fun _ => ?_
    · rwa [Function.update_of_ne hab, Function.update_self]
    · by_cases hpb : p = b
      · subst hpb
        rwa [Function.update_self]
      · rw [Function.update_of_ne hpb, Function.update_of_ne hp]
        exact inherits_refl _
    · rw [Function.update_of_ne hab, Function.update_self, Function.update_self]
      exact hapart hab

/-- `a` receives what `b` held, which stays there. -/
theorem Flow.written {a b : Place} {va : Option Cap} (ha : Inherits (h b) va) (hapart : a ≠ b → Apart va (h b)) :
    Flow h (Function.update h a va) := by
  by_cases hab : a = b
  · subst hab
    exact .update ha
  · have hmoved := Flow.moved (a := a) ha (inherits_refl (h b)) hapart
    have hsame : Function.update h a va b = h b := Function.update_of_ne (Ne.symm hab) ..
    rwa [← hsame, Function.update_eq_self] at hmoved

theorem Flow.copied {a b : Place} {va : Option Cap} (ha : Inherits (h b) va) (hb : AllNonLinear (h b)) :
    Flow h (Function.update h a va) := .written ha fun _ => (hb.inherits ha).apart hb

/-- `a` receives what `b` held, and `b` what `c` held, which is written too. -/
theorem Flow.rotated {a b c : Place} {va vb vc : Option Cap} (hab : a ≠ b) (hac : a ≠ c) (hbc : b ≠ c)
    (ha : Inherits (h b) va) (hb : Inherits (h c) vb) (hc : Inherits (h c) vc) (hleft : Apart vb vc) :
    Flow h (Function.update (Function.update (Function.update h b vb) c vc) a va) := by
  have hata : Function.update (Function.update (Function.update h b vb) c vc) a va a = va := Function.update_self ..
  have hatb : Function.update (Function.update (Function.update h b vb) c vc) a va b = vb := by
    rw [Function.update_of_ne hab.symm, Function.update_of_ne hbc, Function.update_self]
  have hatc : Function.update (Function.update (Function.update h b vb) c vc) a va c = vc := by
    rw [Function.update_of_ne hac.symm, Function.update_self]
  refine .rotate (a := a) (b := b) (c := c) hab (by rwa [hata]) (by rwa [hatb]) (fun p hpa hpb => ?_)
    (fun hcb => absurd hcb hbc.symm) fun _ _ => by rwa [hatb, hatc]
  by_cases hpc : p = c
  · subst hpc
    rwa [hatc]
  · rw [Function.update_of_ne hpa, Function.update_of_ne hpc, Function.update_of_ne hpb]
    exact inherits_refl _

/-- The same where `c` is `a`, or keeps what it held. -/
theorem Flow.chained {a b c : Place} {va vb : Option Cap} (hab : a ≠ b) (hbc : b ≠ c)
    (ha : Inherits (h b) va) (hb : Inherits (h c) vb) (hleft : a ≠ c → Apart vb (h c)) :
    Flow h (Function.update (Function.update h b vb) a va) := by
  have hata : Function.update (Function.update h b vb) a va a = va := Function.update_self ..
  have hatb : Function.update (Function.update h b vb) a va b = vb := by
    rw [Function.update_of_ne hab.symm, Function.update_self]
  refine .rotate (a := a) (b := b) (c := c) hab (by rwa [hata]) (by rwa [hatb]) (fun p hpa hpb => ?_)
    (fun hcb => absurd hcb hbc.symm) fun hca _ => ?_
  · rw [Function.update_of_ne hpa, Function.update_of_ne hpb]
    exact inherits_refl _
  · rw [hatb, Function.update_of_ne hca, Function.update_of_ne hbc.symm]
    exact hleft hca.symm

end Updates

/-! ### Values -/

theorem lacks_int (n : Word) : Lacks (Value.int n).cap? := lacks_none

theorem Lacks.inReg {v : Value} (h : Lacks v.cap?) (r : Reg) : Lacks (v.inReg r) := by
  unfold Value.inReg
  split
  · exact lacks_cnull
  · exact h

/-- Register 0 takes nothing up; any other register what is written to it. -/
theorem Value.inherits_inReg (v : Value) (r : Reg) : Inherits v.cap? (v.inReg r) := by
  unfold Value.inReg
  split
  · exact lacks_cnull.inherits _
  · exact inherits_refl _

theorem Inherits.inReg {o : Option Cap} {v : Value} (h : Inherits o v.cap?) (r : Reg) : Inherits o (v.inReg r) :=
  h.trans (v.inherits_inReg r)

theorem Value.inherits_withCursor (v : Value) (a : Word) : Inherits v.cap? (v.withCursor a).cap? := by
  cases v with
  | cap c => exact inherits_of_derived (c.derivedFrom_cursor a)
  | int n => exact lacks_none.inherits _

theorem allNonLinear_cap {c : Cap} (h : c.type = .nonLinear) : AllNonLinear (some c) :=
  fun _ hc _ => Option.some.inj hc ▸ h

theorem Value.allNonLinear {v : Value} (h : v.movesOut = false) : AllNonLinear v.cap? := by
  cases v with
  | cap c => exact allNonLinear_cap (by simpa [Value.movesOut] using h)
  | int n => exact fun _ hc => nomatch hc

/-! ### Register moves -/

section States

variable {s t : State}

theorem State.flow_setReg (s : State) (r : Reg) {v : Value} (hv : Inherits (s.capValue r).cap? v.cap?) :
    Flow s.capAt (s.setReg r v).capAt := by
  rw [State.capAt_setReg]
  exact .update (by rw [State.capAt_reg]; exact hv.inReg r)

theorem State.flow_setInt (s : State) (r : Reg) (n : Word) : Flow s.capAt (s.setReg r (.int n)).capAt :=
  s.flow_setReg r ((lacks_int n).inherits _)

theorem State.flow_setPc (s : State) {v : Value} (hv : Inherits s.pc.cap? v.cap?) : Flow s.capAt (s.setPc v).capAt := by
  rw [State.capAt_setPc]
  exact .update hv

theorem State.flow_setPcInt (s : State) (n : Word) : Flow s.capAt (s.setPc (.int n)).capAt :=
  s.flow_setPc ((lacks_int n).inherits _)

theorem State.flow_advance (s : State) : Flow s.capAt s.advance.capAt := s.flow_setPc (s.pc.inherits_withCursor _)

theorem Flow.advance (h : Flow s.capAt t.capAt) : Flow s.capAt t.advance.capAt := h.trans t.flow_advance

/-- What holds no capability does not matter. -/
theorem Flow.congr {u : State} (h : Flow s.capAt t.capAt) (hregs : u.regs = t.regs) (hpc : u.pc = t.pc)
    (hccsr : u.ccsr = t.ccsr) (hmem : u.mem = t.mem) : Flow s.capAt u.capAt := by
  rwa [State.capAt_congr hregs hpc hccsr hmem]

theorem State.flow_movc (s : State) (rd rs1 : Reg) : Flow s.capAt (s.movc rd rs1).capAt := by
  unfold State.movc
  by_cases hr : rs1 = rd
  · rw [if_pos hr]
    exact .refl _
  · rw [if_neg hr]
    have hsource : Inherits (s.capAt (.reg rs1)) ((s.capValue rs1).inReg rd) := by
      rw [State.capAt_reg]
      exact Value.inherits_inReg _ rd
    dsimp only
    split
    · rw [State.capAt_setReg, State.capAt_setReg]
      exact .moved hsource ((lacks_cnull.inReg (v := .cap cnull) rs1).inherits _)
        fun _ => ((lacks_cnull.inReg (v := .cap cnull) rs1).apart _).symm
    · next hstays =>
      rw [State.capAt_setReg]
      refine .copied hsource ?_
      rw [State.capAt_reg]
      exact Value.allNonLinear (Bool.eq_false_of_not_eq_true hstays)

/-- A capability rewritten in place into one derived from it. -/
theorem State.flow_modifyCap (s : State) (r : Reg) {f : Cap → Cap}
    (hf : ∀ c, s.capValue r = .cap c → (f c).DerivedFrom c) : Flow s.capAt (s.modifyCap r f).capAt := by
  by_cases hr : r = 0
  · subst hr
    rw [State.modifyCap_zero]
    exact .refl _
  · unfold State.modifyCap
    rw [← State.capValue_of_ne _ hr]
    split
    · next c hc =>
      refine s.flow_setReg r ?_
      rw [hc]
      exact inherits_of_derived (hf c hc)
    · exact .refl _

/-- A capability moved to `x[rd]` and rewritten there. -/
theorem State.flow_derive {rd rs1 : Reg} {f : Cap → Cap} {c : Cap} (hc : s.capOf? rs1 = some c)
    (hf : (f c).DerivedFrom c) : Flow s.capAt ((s.movc rd rs1).modifyCap rd f).capAt := by
  by_cases hrd : rd = 0
  · subst hrd
    rw [State.modifyCap_zero]
    exact s.flow_movc 0 rs1
  · refine (s.flow_movc rd rs1).trans (State.flow_modifyCap _ rd fun d hd => ?_)
    cases (State.movc_capValue_target hc hrd).symm.trans hd
    exact hf

/-! ### Traps and their return -/

theorem State.capAt_setCcsr_two (s : State) (n m : CcsrName) (v w : Value) :
    (s.setCcsr ((s.ccsr.put n v).put m w)).capAt =
      Function.update (Function.update s.capAt n.place v.cap?) m.place w.cap? := by
  rw [← s.capAt_putCcsr n v]
  exact State.capAt_putCcsr (s.setCcsr (s.ccsr.put n v)) m w

/-- What a trap into C-mode leaves in `ctvec` of the capability it takes from there (R360, D50). -/
def Cap.leftByTrap (d : Cap) : Value := if d.type = .nonLinear then .cap d else .int d.cursor

theorem Cap.leftByTrap_apart (d : Cap) : Inherits (some d) d.leftByTrap.cap? ∧ Apart (some d) d.leftByTrap.cap? := by
  unfold Cap.leftByTrap
  split
  · next hn => exact ⟨inherits_refl _, (allNonLinear_cap hn).apart (allNonLinear_cap hn)⟩
  · exact ⟨(lacks_int _).inherits _, ((lacks_int _).apart _).symm⟩

/-- A trap into C-mode moves `pc` to `cepc` and `ctvec` to `pc`, or keeps the capability in `pc` (R360, D50). -/
theorem takeTrapC_flow {interrupt : Bool} {code tval tval2 tinst : Word}
    (ht : takeTrapC interrupt code tval tval2 tinst s = .ok t) : Flow s.capAt t.capAt := by
  unfold takeTrapC at ht
  dsimp only at ht
  split at ht
  · rename_i d hd
    cases ht
    have hctvec : s.capAt .ctvec = some d := congrArg Value.cap? hd
    have hflow : Flow s.capAt ((s.setCcsr ((s.ccsr.put .cepc s.pc).put .ctvec d.leftByTrap)).setPc (.cap d)).capAt := by
      rw [State.capAt_setPc, State.capAt_setCcsr_two]
      refine .rotate (a := .cepc) (b := .pc) (c := .ctvec) (by decide) ?_ ?_ (fun p hpa hpb => ?_) (by rintro ⟨⟩) ?_
      · exact inherits_refl _
      · rw [hctvec]
        exact inherits_refl _
      · rw [Function.update_of_ne hpb]
        by_cases hp : p = .ctvec
        · subst hp
          rw [hctvec]
          exact d.leftByTrap_apart.1
        · rw [Function.update_of_ne (a' := CcsrName.ctvec.place) hp, Function.update_of_ne (a' := CcsrName.cepc.place) hpa]
          exact inherits_refl _
      · exact fun _ _ => d.leftByTrap_apart.2
    exact hflow.congr rfl rfl rfl rfl
  · rename_i n p hn hp
    cases ht
    have hcepc : Flow s.capAt (s.setCcsr (s.ccsr.put .cepc (.int p.cursor))).capAt := by
      rw [State.capAt_putCcsr]
      exact .update ((lacks_int _).inherits _)
    have hpc : Inherits (s.setCcsr (s.ccsr.put .cepc (.int p.cursor))).pc.cap? (some { p with cursor := n }) := by
      rw [State.setCcsr_pc, hp]
      exact inherits_of_derived (p.derivedFrom_cursor n)
    exact (hcepc.trans (State.flow_setPc _ (v := .cap { p with cursor := n }) hpc)).congr rfl rfl rfl rfl
  · cases ht

theorem Trapped.flow (h : Trapped s t) : Flow s.capAt t.capAt := by
  cases h with
  | intoC _ _ _ _ _ _ _ h => exact takeTrapC_flow h
  | intoM => exact (s.flow_setPcInt _).congr rfl rfl rfl rfl
  | intoS => exact (s.flow_setPcInt _).congr rfl rfl rfl rfl

/-- What MRET leaves in `cepc` is derived from what it held and apart from what `pc` receives of it (R265). -/
theorem mretCepc_inherits (s : State) : Inherits s.ccsr.cepc.cap? (mretCepc s).cap? ∧
    Apart s.ccsr.cepc.cap? (mretCepc s).cap? := by
  unfold mretCepc
  split
  · next c hc =>
    rw [hc]
    split
    · next hn => exact ⟨inherits_refl _, (allNonLinear_cap hn).apart (allNonLinear_cap hn)⟩
    · exact ⟨(lacks_int _).inherits _, ((lacks_int _).apart _).symm⟩
  · exact ⟨(lacks_int _).inherits _, ((lacks_int _).apart _).symm⟩

/-- With an integer in `cepc`, `pc` keeps its capability unless it has moved to `ctvec`, where it stays as a copy if non-linear (R265, D15). -/
theorem mretPc_keeps {p : Priv} {n : Word} (hcepc : s.ccsr.cepc = .int n) : Inherits s.pc.cap? (mretPc p s).cap? ∧
    (s.ccsr.ctvec.isInt = true → Lacks (mretPc p s).cap? ∨ AllNonLinear s.pc.cap?) := by
  unfold mretPc
  rw [hcepc]
  dsimp only
  split
  · next hpc =>
    refine ⟨s.pc.inherits_withCursor n, fun hint => .inr (Value.allNonLinear ?_)⟩
    simpa [mretLent, hint] using hpc.2
  · exact ⟨(lacks_int n).inherits _, fun _ => .inl (lacks_int n)⟩

/-- MRET's three moves of capabilities, in `ctvec`, `cepc` and `pc` (R265). -/
def State.mretMoved (s : State) (p : Priv) : State :=
  (s.setCcsr ((s.ccsr.put .ctvec (mretCtvec s)).put .cepc (mretCepc s))).setPc (mretPc p s)

theorem State.capAt_mretMoved (s : State) (p : Priv) : (s.mretMoved p).capAt =
    Function.update (Function.update (Function.update s.capAt .ctvec (mretCtvec s).cap?) .cepc (mretCepc s).cap?)
      .pc (mretPc p s).cap? := by
  rw [State.mretMoved, State.capAt_setPc, State.capAt_setCcsr_two]
  rfl

/-- Neither `ctvec` nor `pc`: as before, or in `cepc` no more than before. -/
theorem State.mretMoved_other (s : State) (p : Priv) {q : Place} (hc : q ≠ .ctvec) (hp : q ≠ .pc) :
    Inherits (s.capAt q) ((s.mretMoved p).capAt q) := by
  rw [State.capAt_mretMoved, Function.update_of_ne hp]
  by_cases hq : q = .cepc
  · subst hq
    exact (mretCepc_inherits s).1
  · rw [Function.update_of_ne hq, Function.update_of_ne hc]
    exact inherits_refl _

/-- An integer in `ctvec`: `pc` goes to `ctvec`, and a capability in `cepc` to `pc` (R265). -/
theorem State.mretMoved_flow_ctvecInt {n : Word} (p : Priv) (hv : s.ccsr.ctvec = .int n) :
    Flow s.capAt (s.mretMoved p).capAt := by
  have hctvec : Inherits s.pc.cap? (mretCtvec s).cap? := by
    rw [mretCtvec, hv]
    exact s.pc.inherits_withCursor n
  cases he : s.ccsr.cepc with
  | cap c =>
    have hpc : mretPc p s = s.ccsr.cepc := by rw [mretPc, he]
    refine .rotate (a := .ctvec) (b := .pc) (c := .cepc) (by decide) hctvec ?_
      (fun q hqc hqp => s.mretMoved_other p hqc hqp) (by rintro ⟨⟩) fun _ _ => ?_
    · show Inherits s.ccsr.cepc.cap? (mretPc p s).cap?
      rw [hpc]
      exact inherits_refl _
    · show Apart (mretPc p s).cap? (mretCepc s).cap?
      rw [hpc]
      exact (mretCepc_inherits s).2
  | int a =>
    obtain ⟨hpc, hcopy⟩ := mretPc_keeps (p := p) he
    refine .move (a := .ctvec) (b := .pc) hctvec (fun q hq => ?_) fun _ => ?_
    · by_cases hqp : q = .pc
      · subst hqp
        exact hpc
      · exact s.mretMoved_other p hq hqp
    · show Apart (mretCtvec s).cap? (mretPc p s).cap?
      rcases hcopy (by rw [hv]; rfl) with hlacks | hnl
      · exact (hlacks.apart _).symm
      · exact (hnl.inherits hctvec).apart (hnl.inherits hpc)

/-- A capability in `ctvec` stays there; one in `cepc` goes to `pc` (R265). -/
theorem State.mretMoved_flow_ctvecCap {d : Cap} (p : Priv) (hv : s.ccsr.ctvec = .cap d) :
    Flow s.capAt (s.mretMoved p).capAt := by
  have hrest : ∀ q, q ≠ .pc → Inherits (s.capAt q) ((s.mretMoved p).capAt q) := by
    intro q hq
    by_cases hqc : q = .ctvec
    · subst hqc
      show Inherits s.ccsr.ctvec.cap? (mretCtvec s).cap?
      rw [mretCtvec, hv]
      exact inherits_refl _
    · exact s.mretMoved_other p hqc hq
  cases he : s.ccsr.cepc with
  | cap c =>
    have hpc : mretPc p s = s.ccsr.cepc := by rw [mretPc, he]
    refine .move (a := .pc) (b := .cepc) ?_ hrest fun _ => ?_
    · show Inherits s.ccsr.cepc.cap? (mretPc p s).cap?
      rw [hpc]
      exact inherits_refl _
    · show Apart (mretPc p s).cap? (mretCepc s).cap?
      rw [hpc]
      exact (mretCepc_inherits s).2
  | int a =>
    refine .inPlace fun q => ?_
    by_cases hq : q = .pc
    · subst hq
      exact (mretPc_keeps he).1
    · exact hrest q hq

theorem returnC_flow (p : Priv) (s : State) : Flow s.capAt (returnC p s).capAt := by
  have hflow : Flow s.capAt (s.mretMoved p).capAt := by
    cases hv : s.ccsr.ctvec with
    | int n => exact s.mretMoved_flow_ctvecInt p hv
    | cap d => exact s.mretMoved_flow_ctvecCap p hv
  exact hflow.congr rfl rfl rfl rfl

theorem BaseEffect.flow (h : BaseEffect s t) (hs : s.MemWf) : Flow s.capAt t.capAt := by
  cases h with
  | writes rd v => exact (s.flow_setInt rd v).advance
  | loads rd v => exact Flow.advance (t := (s.setReg rd (.int v)).draw) ((s.flow_setInt rd v).congr rfl rfl rfl rfl)
  | stores ea v n hn =>
    refine Flow.advance (.inPlace fun p => ?_)
    cases p with
    | slot a =>
      simp only [State.capAt, State.setMem_mem, Memory.writeInt]
      split
      · rw [Memory.storeBytes_slotCap ea v a n hn hs.sorted]
        split
        · exact lacks_none.inherits _
        · exact inherits_refl _
      · exact inherits_refl _
    | _ => exact inherits_refl _
  | jumps rd link target pc hpc =>
    refine (s.flow_setPc ?_).trans (State.flow_setInt _ rd link)
    rcases hpc with rfl | rfl
    · exact s.pc.inherits_withCursor target
    · exact (lacks_int target).inherits _
  | accessesCsr u rd v csr hu _ =>
    have hread : Flow s.capAt (u.setCsr csr).capAt := by
      rcases hu with rfl | rfl
      · exact (Flow.refl u.capAt).congr rfl rfl rfl rfl
      · exact (Flow.refl s.capAt).congr rfl rfl rfl rfl
    exact (hread.trans (State.flow_setInt _ rd v)).advance
  | returnsM p => exact (s.flow_setPcInt _).congr rfl rfl rfl rfl
  | returnsC p => exact returnC_flow p s
  | returnsS => exact (s.flow_setPcInt _).congr rfl rfl rfl rfl

end States

end Sys2Proof.Machine

namespace Sys2Proof.Machine

/-! ### The C-mode instructions that switch no context -/

section States

variable {s t : State}

theorem lacks_cnullInReg (r : Reg) : Lacks ((Value.cap cnull).inReg r) := Lacks.inReg (v := .cap cnull) lacks_cnull r

theorem Memory.cap?_readSlot (m : Memory) (draw : Nat) (a : Word) : (m.readSlot draw a).cap? = m.slotCap a := by
  unfold Memory.readSlot
  split
  · next h => exact h.symm
  · next h => exact h.symm

theorem State.capAt_reg_of {r : Reg} {c : Cap} (h : s.capOf? r = some c) : s.capAt (.reg r) = some c := h

/-- SPLIT's two parts meet in no byte (R168). -/
theorem Cap.split_apart {c : Cap} {val : Word} (hlast : val.toNat < c.last.toNat) :
    Apart (some (c.splitHigh val)) (some (c.splitLow val)) := by
  rintro _ _ ⟨⟩ ⟨⟩ _ _ _ _ halias
  have hval := succ_toNat_of_lt hlast
  have hmeet : (val + 1).toNat ≤ val.toNat := (le_max_left ..).trans (halias.trans (min_le_right ..))
  omega

theorem split_flow {rd rs1 : Reg} {c : Cap} {val : Word} (hc : s.capOf? rs1 = some c)
    (hbase : c.base.toNat ≤ val.toNat) (hlast : val.toNat < c.last.toNat) :
    Flow s.capAt ((s.setReg rd (.cap (c.splitHigh val))).setReg rs1 (.cap (c.splitLow val))).capAt := by
  have hval := succ_toNat_of_lt hlast
  have hhigh : (c.splitHigh val).DerivedFrom c := Cap.derivedFrom_region rfl rfl rfl
    (by show c.base.toNat ≤ (val + 1).toNat; omega) (Nat.le_refl _)
  have hlow : (c.splitLow val).DerivedFrom c := Cap.derivedFrom_region rfl rfl rfl
    (Nat.le_refl _) (by show val.toNat ≤ c.last.toNat; omega)
  rw [State.capAt_setReg, State.capAt_setReg]
  refine .moved ?_ ?_ fun _ => (Cap.split_apart hlast).inherits (Value.inherits_inReg _ rd) (Value.inherits_inReg _ rs1)
  · rw [State.capAt_reg_of hc]
    exact (inherits_of_derived hhigh).inReg (v := .cap (c.splitHigh val)) rd
  · rw [State.capAt_reg_of hc]
    exact (inherits_of_derived hlow).inReg (v := .cap (c.splitLow val)) rs1

/-- MREV makes a revocation capability of a linear one, which stays (R174). -/
theorem mrev_flow {rd rs1 : Reg} {c : Cap} (hc : s.capOf? rs1 = some c) (ht : c.type = .linear) :
    Flow s.capAt ((s.setReg rd (.cap { c with type := .revocation, born := s.revClock })).tickRevClock).capAt := by
  have hderived : Cap.DerivedFrom { c with type := .revocation, born := s.revClock } c :=
    Cap.derivedFrom_type rfl rfl rfl rfl (by rw [ht]; decide) fun h => by rw [ht] at h; cases h
  have happart : Apart (some { c with type := .revocation, born := s.revClock }) (s.capAt (.reg rs1)) := by
    rintro _ _ ⟨⟩ _ _ _ hrevocation
    exact absurd rfl hrevocation
  have hflow : Flow s.capAt (s.setReg rd (.cap { c with type := .revocation, born := s.revClock })).capAt := by
    rw [State.capAt_setReg]
    refine .written (b := .reg rs1) ?_ fun _ => happart.inherits (Value.inherits_inReg _ rd) (inherits_refl _)
    rw [State.capAt_reg_of hc]
    exact (inherits_of_derived hderived).inReg (v := .cap { c with type := .revocation, born := s.revClock }) rd
  exact hflow.congr rfl rfl rfl rfl

/-- LDC moves a slot's capability to a register, or copies a non-linear one (R200). -/
theorem ldc_flow {rd : Reg} {ea : Word} {v : Value} (hs : s.MemWf) (ha : ea.toNat % 16 = 0)
    (hv : v = s.mem.readSlot s.draws ea) :
    Flow s.capAt (if v.movesOut then (s.setReg rd v).draw.setMem ((s.setReg rd v).draw.mem.writeSlot ea (.cap cnull))
      else (s.setReg rd v).draw).capAt := by
  have hslot : s.capAt (.slot ea) = v.cap? := by rw [State.capAt_slot _ ha, hv, Memory.cap?_readSlot]
  have hload : Inherits (s.capAt (.slot ea)) (v.inReg rd) := hslot ▸ v.inherits_inReg rd
  have hreg : (s.setReg rd v).draw.capAt = Function.update s.capAt (.reg rd) (v.inReg rd) :=
    (State.capAt_congr rfl rfl rfl rfl).trans (s.capAt_setReg rd v)
  split
  · have hsorted : (s.setReg rd v).draw.mem.sorted := by
      rw [State.draw_mem, State.setReg_mem]
      exact hs.sorted
    rw [State.capAt_writeSlot hsorted ha, hreg]
    exact .moved hload (lacks_cnull.inherits _) fun _ => (lacks_cnull.apart _).symm
  · next hstays =>
    rw [hreg]
    exact .copied hload (hslot ▸ Value.allNonLinear (Bool.eq_false_of_not_eq_true hstays))

/-- STC's register writes take nothing up that their registers did not hold (R201). -/
theorem stcRegisters_inherits {rs1 rs2 : Reg} {c : Cap} (hc : s.capOf? rs1 = some c) (v : Value) (r : Reg) :
    Inherits (s.capValue r).cap? ((stcRegisters s rs1 rs2 c v).capValue r).cap? := by
  have hmoved : Inherits (s.capValue r).cap? ((addressMovedOn s rs1 c).capValue r).cap? := by
    rw [addressMovedOn_capValue hc]
    split
    · unfold putReg
      split
      · next hr =>
        rw [hr.1, State.capValue_of_capOf? hc]
        exact inherits_of_derived (c.derivedFrom_cursor _)
      · exact inherits_refl _
    · exact inherits_refl _
  rw [stcRegisters_capValue]
  split
  · unfold putReg
    split
    · exact lacks_cnull.inherits _
    · exact hmoved
  · exact hmoved

/-- A stored capability whose type is not 1 has left its register (R201). -/
theorem stcRegisters_lacks {rs1 rs2 : Reg} {c : Cap} {v : Value} (hv : v.movesOut = true) :
    Lacks ((stcRegisters s rs1 rs2 c v).capValue rs2).cap? := by
  by_cases hr : rs2 = 0
  · subst hr
    exact lacks_cnull
  · rw [stcRegisters_capValue, if_pos hv, putReg, if_pos ⟨rfl, hr⟩]
    exact lacks_cnull

theorem stc_flow {rs1 rs2 : Reg} {c : Cap} {ea : Word} (hs : s.MemWf) (hc : s.capOf? rs1 = some c)
    (ha : ea.toNat % 16 = 0) :
    Flow s.capAt (stcRegisters (s.setMem (s.mem.writeSlot ea (s.capValue rs2))) rs1 rs2 c (s.capValue rs2)).capAt := by
  have hc' : (s.setMem (s.mem.writeSlot ea (s.capValue rs2))).capOf? rs1 = some c := hc
  have hframe := stcRegisters_onlyRegs (s.setMem (s.mem.writeSlot ea (s.capValue rs2))) rs1 rs2 c (s.capValue rs2)
  have hpc := stcRegisters_pc (s.setMem (s.mem.writeSlot ea (s.capValue rs2))) rs1 rs2 c (s.capValue rs2)
  have hreg := stcRegisters_inherits (rs2 := rs2) hc' (s.capValue rs2)
  have hcleared : (s.capValue rs2).movesOut = true → Lacks
      ((stcRegisters (s.setMem (s.mem.writeSlot ea (s.capValue rs2))) rs1 rs2 c (s.capValue rs2)).capValue rs2).cap? :=
    stcRegisters_lacks
  generalize stcRegisters (s.setMem (s.mem.writeSlot ea (s.capValue rs2))) rs1 rs2 c (s.capValue rs2) = t
    at hframe hpc hreg hcleared ⊢
  obtain ⟨⟨-, -, hccsr, -⟩, hmem⟩ := hframe
  have hstored := State.capAt_writeSlot hs.sorted ha (s.capValue rs2)
  have hsame : ∀ p, (∀ r, p ≠ .reg r) →
      t.capAt p = Function.update s.capAt (.slot ea) (s.capValue rs2).cap? p := by
    intro p hp
    rw [← hstored]
    cases p with
    | reg r => exact absurd rfl (hp r)
    | _ => simp only [State.capAt, hccsr, hmem, hpc]
  have hslot : t.capAt (.slot ea) = (s.capValue rs2).cap? := by
    rw [hsame _ (fun r => by rintro ⟨⟩), Function.update_self]
  refine .move (a := .slot ea) (b := .reg rs2) ?_ (fun p hp => ?_) fun _ => ?_
  · rw [hslot, State.capAt_reg]
    exact inherits_refl _
  · cases p with
    | reg r =>
      rw [State.capAt_reg, State.capAt_reg]
      exact hreg r
    | _ =>
      rw [hsame _ (fun r => by rintro ⟨⟩), Function.update_of_ne hp]
      exact inherits_refl _
  · rw [hslot, State.capAt_reg]
    cases hv : (s.capValue rs2).movesOut with
    | true => exact ((hcleared hv).apart _).symm
    | false =>
      have hnl := Value.allNonLinear hv
      exact hnl.apart (hnl.inherits (hreg rs2))

/-- CJALR moves `pc` to `x[rd]` and the capability of `x[rs1]` to `pc` (R211). -/
theorem cjalr_flow {rd rs1 : Reg} {c : Cap} (a : Word) (hc : s.capOf? rs1 = some c) :
    Flow s.capAt (if rs1 ≠ rd ∧ c.type ≠ .nonLinear then
        ((s.setReg rd (nextPc s)).setPc (.cap { c with cursor := a })).setReg rs1 (.cap cnull)
      else (s.setReg rd (nextPc s)).setPc (.cap { c with cursor := a })).capAt := by
  have hlink : Inherits (s.capAt .pc) ((nextPc s).inReg rd) := (s.pc.inherits_withCursor _).inReg rd
  have hjump : Inherits (s.capAt (.reg rs1)) (Value.cap { c with cursor := a }).cap? := by
    rw [State.capAt_reg_of hc]
    exact inherits_of_derived (c.derivedFrom_cursor a)
  have hlinked : ((s.setReg rd (nextPc s)).setPc (.cap { c with cursor := a })).capAt =
      Function.update (Function.update s.capAt .pc (Value.cap { c with cursor := a }).cap?) (.reg rd)
        ((nextPc s).inReg rd) := by
    rw [State.capAt_setPc, State.capAt_setReg, Function.update_comm (by rintro ⟨⟩)]
  split
  · next hmoves =>
    have hne : Place.reg rd ≠ .reg rs1 := fun h => hmoves.1 (Place.reg.inj h).symm
    rw [State.capAt_setReg, hlinked, Function.update_comm hne]
    exact .rotated (by rintro ⟨⟩) hne (by rintro ⟨⟩) hlink hjump ((lacks_cnullInReg rs1).inherits _)
      ((lacks_cnullInReg rs1).apart _).symm
  · next hstays =>
    rw [hlinked]
    refine .chained (c := .reg rs1) (by rintro ⟨⟩) (by rintro ⟨⟩) hlink hjump fun hne => ?_
    have hn : c.type = .nonLinear := by
      by_contra hn
      exact hstays ⟨fun h => hne (congrArg Place.reg h.symm), hn⟩
    have hnl : AllNonLinear (s.capAt (.reg rs1)) := State.capAt_reg_of hc ▸ allNonLinear_cap hn
    exact (hnl.inherits hjump).apart hnl

/-- CBNZ moves the capability of `x[rd]` to `pc`, or copies a non-linear one (R212). -/
theorem cbnz_flow {rd : Reg} {c : Cap} (a : Word) (hc : s.capOf? rd = some c) :
    Flow s.capAt (if c.type ≠ .nonLinear then (s.setPc (.cap { c with cursor := a })).setReg rd (.cap cnull)
      else s.setPc (.cap { c with cursor := a })).capAt := by
  have hjump : Inherits (s.capAt (.reg rd)) (Value.cap { c with cursor := a }).cap? := by
    rw [State.capAt_reg_of hc]
    exact inherits_of_derived (c.derivedFrom_cursor a)
  split
  · rw [State.capAt_setReg, State.capAt_setPc]
    exact .moved hjump ((lacks_cnullInReg rd).inherits _) fun _ => ((lacks_cnullInReg rd).apart _).symm
  · next hn =>
    rw [State.capAt_setPc]
    exact .copied hjump (State.capAt_reg_of hc ▸ allNonLinear_cap (not_not.mp hn))

/-- What stays in a CCSR that a register received is apart from it (R230). -/
theorem Value.afterRead_apart (v : Value) : Inherits v.cap? v.afterRead.cap? ∧ Apart v.cap? v.afterRead.cap? := by
  cases v with
  | int n => exact ⟨lacks_cnull.inherits _, (lacks_cnull.apart _).symm⟩
  | cap c =>
    simp only [Value.afterRead]
    by_cases hn : c.type = .nonLinear
    · rw [if_pos hn]
      exact ⟨inherits_refl _, (allNonLinear_cap hn).apart (allNonLinear_cap hn)⟩
    · rw [if_neg hn]
      exact ⟨lacks_cnull.inherits _, (lacks_cnull.apart _).symm⟩

theorem CcsrName.place_ne_reg (n : CcsrName) (r : Reg) : Place.reg r ≠ n.place := by cases n <;> rintro ⟨⟩

/-- CCSRRW exchanges a register and a CCSR (R230). -/
theorem ccsrExchange_flow (rd rs1 : Reg) (n : CcsrName) {c : Cap} (hc : s.capOf? rs1 = some c) :
    Flow s.capAt (ccsrExchange s rd rs1 n c).capAt := by
  have hresult : Inherits (s.capAt n.place) (if ccsrReadable n then s.ccsr.get n else .cap cnull).cap? := by
    rw [State.capAt_ccsr]
    split
    · exact inherits_refl _
    · exact lacks_cnull.inherits _
  have hsource : Inherits (s.capAt (.reg rs1)) (Value.cap c).cap? := State.capAt_reg_of hc ▸ inherits_refl _
  unfold ccsrExchange
  dsimp only
  split
  · split
    · next hmoves =>
      have hne : Place.reg rd ≠ .reg rs1 := fun h => hmoves.2 (Place.reg.inj h).symm
      rw [State.capAt_setReg, State.capAt_setReg, State.capAt_putCcsr]
      exact .rotated (n.place_ne_reg rd) hne (n.place_ne_reg rs1).symm (hresult.inReg rd) hsource
        ((lacks_cnullInReg rs1).inherits _) ((lacks_cnullInReg rs1).apart _).symm
    · next hstays =>
      rw [State.capAt_setReg, State.capAt_putCcsr]
      refine .chained (n.place_ne_reg rd) (n.place_ne_reg rs1).symm (hresult.inReg rd) hsource fun hne => ?_
      have hn : c.type = .nonLinear := by
        by_contra hn
        exact hstays ⟨hn, fun h => hne (congrArg Place.reg h.symm)⟩
      rw [State.capAt_reg_of hc]
      exact (allNonLinear_cap hn).apart (allNonLinear_cap hn)
  · obtain ⟨hkept, happart⟩ := (s.ccsr.get n).afterRead_apart
    rw [State.capAt_setReg, State.capAt_putCcsr, Function.update_comm (n.place_ne_reg rd).symm]
    refine .moved (hresult.inReg rd) ?_ fun _ => Apart.inherits ?_ (Value.inherits_inReg _ rd) (inherits_refl _)
    · rw [State.capAt_ccsr]
      split
      · exact hkept
      · exact inherits_refl _
    · split
      · exact happart
      · exact lacks_cnull.apart _

/-! ### CALL and RETURN before their switch -/

/-- CALL moves the sealed capability to `cra` (R214). -/
theorem callReady_flow (s : State) (rs1 : Reg) : Flow s.capAt (callReady s rs1).capAt := by
  unfold callReady callMove
  refine Flow.advance ?_
  split
  · have hcih : ((s.setReg cra s.ccsr.cih).setCcsr { s.ccsr with cih := .cap cnull }).capAt =
        Function.update (Function.update s.capAt (.reg cra) (s.ccsr.cih.inReg cra)) .cih (Value.cap cnull).cap? := by
      rw [← State.capAt_setReg]
      exact State.capAt_putCcsr (s.setReg cra s.ccsr.cih) .cih (.cap cnull)
    rw [hcih]
    exact .moved (s.ccsr.cih.inherits_inReg cra) (lacks_cnull.inherits _) fun _ => (lacks_cnull.apart _).symm
  · exact s.flow_movc cra rs1

/-- CALL has the sealed capability in `cra` when it switches (R214). -/
theorem callReady_cra {rs1 : Reg} {d : Cap} (hd : callTarget s rs1 = .cap d) :
    (callReady s rs1).capValue cra = .cap d := by
  rw [callTarget_eq] at hd
  unfold callReady callMove
  rw [State.advance_capValue]
  by_cases hr : rs1 = 0
  · rw [if_pos hr] at hd ⊢
    rw [State.setCcsr_capValue, State.setReg_capValue, if_pos ⟨rfl, by decide⟩]
    exact hd
  · rw [if_neg hr] at hd ⊢
    have hcap : s.capOf? rs1 = some d := by rw [State.capOf?_eq, hd]; rfl
    exact State.movc_capValue_target hcap (by decide)

/-- The capability that RETURN takes out of `x[rd]` as it arrives elsewhere: sealed (R216, R217). -/
theorem Cap.derivedFrom_sealed {c d : Cap} (hc : c.type = .sealed ∨ c.type = .sealedReturn) (hvalid : d.valid = c.valid)
    (hbase : d.base = c.base) (hlast : d.last = c.last) (hperms : d.perms = c.perms) : d.DerivedFrom c :=
  Cap.derivedFrom_type hvalid hbase hlast hperms (by rcases hc with h | h <;> rw [h] <;> decide)
    fun h => by rcases hc with h' | h' <;> rw [h'] at h <;> cases h

theorem State.capAt_retReady (s : State) (rd : Reg) (entry : Word) : (retReady s rd entry).capAt =
    Function.update (Function.update s.capAt (.reg rd) ((Value.cap cnull).inReg rd)) .pc (s.pc.withCursor entry).cap? := by
  rw [retReady, State.capAt_setPc, State.capAt_setReg]

/-- What RETURN does to one place after taking the capability out of `x[rd]` and moving `pc` (R216, R217). -/
theorem returned_flow {rd : Reg} {entry : Word} {a : Place} {v : Option Cap} (hpc : a ≠ .pc)
    (ha : Inherits (s.capAt (.reg rd)) v) :
    Flow s.capAt (Function.update (retReady s rd entry).capAt a v) := by
  rw [State.capAt_retReady, Function.update_comm hpc.symm]
  refine (Flow.move (h' := Function.update (Function.update s.capAt (.reg rd) ((Value.cap cnull).inReg rd)) a v)
    (a := a) (b := .reg rd) ?_ (fun p hp => ?_) fun hne => ?_).trans (.update ?_)
  · rwa [Function.update_self]
  · rw [Function.update_of_ne hp]
    by_cases hr : p = .reg rd
    · subst hr
      rw [Function.update_self]
      exact (lacks_cnullInReg rd).inherits _
    · rw [Function.update_of_ne hr]
      exact inherits_refl _
  · rw [Function.update_of_ne hne.symm, Function.update_self (f := s.capAt)]
    exact ((lacks_cnullInReg rd).apart _).symm
  · rw [Function.update_of_ne hpc.symm, Function.update_of_ne (by rintro ⟨⟩)]
    exact s.pc.inherits_withCursor entry

/-- The end of a synchronous RETURN can come before its switch: it writes nothing that the switch reads (R216). -/
theorem State.handBack_swapped (s : State) (B : Word) (c : Cap) :
    (s.swapped B).handBack c = (s.handBack c).swapped B := by
  unfold State.handBack
  split
  · unfold State.setReg
    split <;> rfl
  · rfl

theorem handBack_flow {rd : Reg} {c : Cap} (entry : Word) (hc : s.capOf? rd = some c)
    (ht : c.type = .sealed ∨ c.type = .sealedReturn) : Flow s.capAt ((retReady s rd entry).handBack c).capAt := by
  have hsealed : Inherits (s.capAt (.reg rd)) (Value.cap { c with type := .sealed }).cap? := by
    rw [State.capAt_reg_of hc]
    exact inherits_of_derived (Cap.derivedFrom_sealed ht rfl rfl rfl rfl)
  unfold State.handBack
  split
  · rw [State.capAt_setReg]
    exact returned_flow (by rintro ⟨⟩) (hsealed.inReg c.reg)
  · have hcih := (retReady s rd entry).capAt_putCcsr .cih (.cap { c with type := .sealed })
    exact hcih ▸ returned_flow (by rintro ⟨⟩) hsealed

theorem keepHandler_flow {rd : Reg} {c : Cap} (entry : Word) (hc : s.capOf? rd = some c)
    (ht : c.type = .sealed ∨ c.type = .sealedReturn) :
    Flow s.capAt (retReady (s.keepHandler c) rd entry).capAt := by
  have hsealed : Inherits (s.capAt (.reg rd)) (Value.cap { c with type := .sealed, async := false }).cap? := by
    rw [State.capAt_reg_of hc]
    exact inherits_of_derived (Cap.derivedFrom_sealed ht rfl rfl rfl rfl)
  have hcih : (s.keepHandler c).capAt =
      Function.update s.capAt .cih (Value.cap { c with type := .sealed, async := false }).cap? :=
    s.capAt_putCcsr .cih _
  have hsame : (retReady (s.keepHandler c) rd entry).capAt = Function.update (retReady s rd entry).capAt .cih
      (Value.cap { c with type := .sealed, async := false }).cap? := by
    have hreg : Place.cih ≠ .reg rd := by rintro ⟨⟩
    have hpc : Place.cih ≠ .pc := by rintro ⟨⟩
    rw [State.capAt_retReady, State.capAt_retReady, hcih, Function.update_comm hreg, Function.update_comm hpc]
    rfl
  rw [hsame]
  exact returned_flow (by rintro ⟨⟩) hsealed

end States

end Sys2Proof.Machine

namespace Sys2Proof.Machine

/-! ### The layout of a context, place by place (R50) -/

/-- The offset of a place in a domain context; the first three are the C-effective part (R50). -/
def Place.contextOffset : Place → Option Nat
  | .pc => some 0
  | .ctvec => some 16
  | .cscratch => some 32
  | .cpmp k => some (96 + 16 * k.val)
  | .cepc => some 352
  | .reg r => if r = 0 then none else some (368 + 16 * (r.toNat - 1))
  | .cih | .slot _ => none

/-- The offset of a place in the C-effective part. -/
def Place.ceffOffset (p : Place) : Option Nat := p.contextOffset.filter (· < 48)

theorem Place.ceffOffset_eq {p : Place} {x : Nat} : p.ceffOffset = some x ↔ p.contextOffset = some x ∧ x < 48 := by
  simp [Place.ceffOffset]

theorem Place.contextOffset_reg {r : Reg} {x : Nat} (h : (Place.reg r).contextOffset = some x) :
    r ≠ 0 ∧ x = 368 + 16 * (r.toNat - 1) := by
  by_cases hr : r = 0
  · cases (if_pos hr).symm.trans h
  · exact ⟨hr, Option.some.inj (h.symm.trans (if_neg hr))⟩

theorem Reg.toNat_pos {r : Reg} (h : r ≠ 0) : 0 < r.toNat :=
  Nat.pos_of_ne_zero fun h0 => h (BitVec.eq_of_toNat_eq h0)

/-- Each offset is that of a slot: in the C-effective part or past it. -/
theorem Place.contextOffset_slot {p : Place} {x : Nat} (h : p.contextOffset = some x) :
    x % 16 = 0 ∧ (x < 48 ∨ (96 ≤ x ∧ x < 864)) := by
  cases p with
  | reg r =>
    obtain ⟨-, rfl⟩ := Place.contextOffset_reg h
    have := r.isLt
    omega
  | cpmp k =>
    cases h
    have := k.isLt
    omega
  | pc | ctvec | cscratch | cepc => cases h; decide
  | cih | slot => cases h

theorem Place.contextOffset_lt {p : Place} {x : Nat} (h : p.contextOffset = some x) : x < 2 ^ 64 := by
  have := Place.contextOffset_slot h
  omega

/-- The place whose offset a slot of a domain context is. -/
def contextPlace (x : Nat) : Place :=
  if x = 0 then .pc
  else if x = 16 then .ctvec
  else if x = 32 then .cscratch
  else if x = 352 then .cepc
  else if x < 352 then .cpmp (Fin.ofNat 16 ((x - 96) / 16))
  else .reg (BitVec.ofNat 5 ((x - 352) / 16))

theorem Place.eq_contextPlace {p : Place} {x : Nat} (h : p.contextOffset = some x) : p = contextPlace x := by
  cases p with
  | pc | ctvec | cscratch | cepc => cases h; rfl
  | cpmp k =>
    cases h
    have hlt := k.isLt
    have hk : (96 + 16 * k.val - 96) / 16 = k.val := by omega
    rw [contextPlace, if_neg (by omega), if_neg (by omega), if_neg (by omega), if_neg (by omega), if_pos (by omega), hk]
    exact congrArg Place.cpmp (Fin.ext (Nat.mod_eq_of_lt hlt).symm)
  | reg r =>
    obtain ⟨hr, rfl⟩ := Place.contextOffset_reg h
    have hpos := Reg.toNat_pos hr
    have hk : (368 + 16 * (r.toNat - 1) - 352) / 16 = r.toNat := by omega
    rw [contextPlace, if_neg (by omega), if_neg (by omega), if_neg (by omega), if_neg (by omega), if_neg (by omega), hk,
      BitVec.ofNat_toNat, BitVec.setWidth_eq]
  | cih | slot => cases h

/-- No two places share an offset. -/
theorem Place.contextOffset_inj {p q : Place} {x : Nat} (hp : p.contextOffset = some x) (hq : q.contextOffset = some x) :
    p = q := (Place.eq_contextPlace hp).trans (Place.eq_contextPlace hq).symm

/-- Each slot of a domain context is the offset of a place. -/
theorem exists_contextOffset {x : Nat} (h16 : x % 16 = 0) (hx : x < 48 ∨ (96 ≤ x ∧ x < 864)) :
    ∃ p : Place, p.contextOffset = some x := by
  by_cases h48 : x < 48
  · have hcases : x = 0 ∨ x = 16 ∨ x = 32 := by omega
    rcases hcases with rfl | rfl | rfl
    · exact ⟨.pc, rfl⟩
    · exact ⟨.ctvec, rfl⟩
    · exact ⟨.cscratch, rfl⟩
  · by_cases h352 : x < 352
    · exact ⟨.cpmp ⟨(x - 96) / 16, by omega⟩, congrArg some (by dsimp only; omega)⟩
    · by_cases hcepc : x = 352
      · exact ⟨.cepc, congrArg some hcepc.symm⟩
      · have hreg : (BitVec.ofNat 5 ((x - 352) / 16)).toNat = (x - 352) / 16 := by
          rw [BitVec.toNat_ofNat]
          omega
        have hne : BitVec.ofNat 5 ((x - 352) / 16) ≠ 0 := by
          intro h
          have h0 := hreg.symm.trans (congrArg BitVec.toNat h)
          have hzero : (0 : Reg).toNat = 0 := rfl
          omega
        refine ⟨.reg (BitVec.ofNat 5 ((x - 352) / 16)), (if_neg hne).trans (congrArg some ?_)⟩
        rw [hreg]
        omega

/-! ### What a saved context holds -/

theorem Memory.slotIs.slotCap {m : Memory} {B : Word} {off : Nat} {v : Value} (h : m.slotIs B off v) :
    m.slotCap (ctxAt B off) = v.cap? := by
  cases v with
  | cap c => exact h
  | int n => exact h.1

theorem Domain.slots_cpmp (d : Domain) (k : Fin 16) :
    d.slots[k.val]'(by rw [Domain.slots_length]; omega) = d.cpmp[k] := by
  simp [Domain.slots]

theorem Domain.slots_cepc (d : Domain) : d.slots[16]'(by rw [Domain.slots_length]; decide) = d.cepc := by
  simp [Domain.slots]

theorem Domain.slots_reg (d : Domain) (i : Nat) (hi : i < 31) :
    d.slots[17 + i]'(by rw [Domain.slots_length]; omega) = d.regs[i] := by
  have hnot : ¬ 17 + i < 16 := by omega
  have hsub : 17 + i - 16 = i + 1 := by omega
  simp only [Domain.slots, List.getElem_append, Vector.length_toList, hnot, dif_neg, not_false_eq_true, hsub,
    List.getElem_cons_succ, Vector.getElem_toList]

theorem State.capValue_eq_regs (s : State) {r : Reg} (hr : r ≠ 0) :
    s.capValue r = s.regs[r.toNat - 1]'(by have := r.isLt; omega) := if_neg hr

section Saved

variable {s : State} {B : Word} {x : Nat}

theorem State.capAt_ctxSlot (s : State) (hB : B.toNat % 16 = 0) (h16 : x % 16 = 0) :
    s.capAt (.slot (ctxAt B x)) = s.mem.slotCap (ctxAt B x) :=
  s.capAt_slot (by rw [ctxAt_toNat_mod B hB, h16])

/-- A memory slot: no place for a capability, or the one at some offset. -/
theorem slot_cases (hB : B.toNat % 16 = 0) (a : Word) :
    (∀ s : State, s.capAt (.slot a) = none) ∨ ∃ x < 2 ^ 64, x % 16 = 0 ∧ a = ctxAt B x := by
  by_cases ha : a.toNat % 16 = 0
  · refine .inr ⟨(a - B).toNat, (a - B).isLt, ?_, eq_ctxAt B a⟩
    rw [← ctxAt_toNat_mod B hB, ← eq_ctxAt B a]
    exact ha
  · exact .inl fun s => if_neg ha

/-- Past the three slots of the C-effective part are words, up to offset 96. -/
theorem Memory.saveCEff_slotCap_words (hs : s.mem.sorted) (hB : B.toNat % 16 = 0) (h16 : x % 16 = 0) (h48 : 48 ≤ x)
    (hx : x < 96) (e : CEff) : (s.mem.saveCEff B e).slotCap (ctxAt B x) = none := by
  have himage := Memory.saveCEff_ceffIs e hs hB
  have hcases : x = 48 ∨ x = 64 ∨ x = 80 := by omega
  rcases hcases with rfl | rfl | rfl
  · exact himage.mstatus.1
  · exact himage.medeleg.1
  · exact himage.mie.1

theorem State.slotCap_saveCEff (hs : s.mem.sorted) (hB : B.toNat % 16 = 0) {p : Place} (hp : p.contextOffset = some x)
    (hx : x < 48) : (s.mem.saveCEff B s.ceff).slotCap (ctxAt B x) = s.capAt p := by
  have himage := Memory.saveCEff_ceffIs s.ceff hs hB
  cases p with
  | pc => cases hp; exact himage.pc.slotCap
  | ctvec => cases hp; exact himage.ctvec.slotCap
  | cscratch => cases hp; exact himage.cscratch.slotCap
  | reg r => obtain ⟨-, rfl⟩ := Place.contextOffset_reg hp; omega
  | cpmp k => have := Option.some.inj hp; omega
  | cepc => have := Option.some.inj hp; omega
  | cih | slot => cases hp

theorem State.slotCap_saveDomain (hs : s.mem.sorted) (hB : B.toNat % 16 = 0) {p : Place}
    (hp : p.contextOffset = some x) : (s.mem.saveDomain B s.domain).slotCap (ctxAt B x) = s.capAt p := by
  have himage := Memory.saveDomain_domainIs s.domain hs hB
  cases p with
  | pc => cases hp; exact himage.ceff.pc.slotCap
  | ctvec => cases hp; exact himage.ceff.ctvec.slotCap
  | cscratch => cases hp; exact himage.ceff.cscratch.slotCap
  | cpmp k =>
    cases hp
    rw [(himage.slots k.val (by omega)).slotCap, Domain.slots_cpmp]
    rfl
  | cepc =>
    cases hp
    rw [(himage.slots 16 (by decide)).slotCap, Domain.slots_cepc]
    rfl
  | reg r =>
    obtain ⟨hr, rfl⟩ := Place.contextOffset_reg hp
    have hlt := r.isLt
    have hoff : 368 + 16 * (r.toNat - 1) = 96 + 16 * (17 + (r.toNat - 1)) := by omega
    rw [hoff, (himage.slots (17 + (r.toNat - 1)) (by omega)).slotCap, Domain.slots_reg _ _ (by omega), State.capAt_reg,
      State.capValue_eq_regs s hr]
    rfl
  | cih | slot => cases hp

/-- The slots of a saved domain that are no place's hold words. -/
theorem State.slotCap_saveDomain_words (hs : s.mem.sorted) (hB : B.toNat % 16 = 0) (h16 : x % 16 = 0) (hx : x < 944)
    (hno : ∀ p : Place, p.contextOffset ≠ some x) : (s.mem.saveDomain B s.domain).slotCap (ctxAt B x) = none := by
  have himage := Memory.saveDomain_domainIs s.domain hs hB
  have hout : ¬ (x < 48 ∨ (96 ≤ x ∧ x < 864)) := fun h => (exists_contextOffset h16 h).elim hno
  by_cases h96 : x < 96
  · have hcases : x = 48 ∨ x = 64 ∨ x = 80 := by omega
    rcases hcases with rfl | rfl | rfl
    · exact himage.ceff.mstatus.1
    · exact himage.ceff.medeleg.1
    · exact himage.ceff.mie.1
  · have hoff : x = 864 + 8 * ((x - 864) / 8) := by omega
    rw [hoff]
    exact (himage.words ((x - 864) / 8) (by omega)).1

end Saved

/-! ### The switches of contexts are flows (R376, R378, R375) -/

section Switches

variable {s : State} {B : Word}

theorem State.capAt_swapped {p : Place} {x : Nat} (hp : p.contextOffset = some x) (hx : x < 48) :
    (s.swapped B).capAt p = s.mem.slotCap (ctxAt B x) := by
  cases p with
  | pc =>
    cases hp
    rw [ctxAt_zero]
    exact Memory.cap?_readSlot ..
  | ctvec => cases hp; exact Memory.cap?_readSlot ..
  | cscratch => cases hp; exact Memory.cap?_readSlot ..
  | reg r => obtain ⟨-, rfl⟩ := Place.contextOffset_reg hp; omega
  | cpmp k => have := Option.some.inj hp; omega
  | cepc => have := Option.some.inj hp; omega
  | cih | slot => cases hp

/-- SwapCEff exchanges three places with three slots of the region (R376). -/
theorem swapped_flow (hs : s.mem.sorted) (hB : B.toNat % 16 = 0) : Flow s.capAt (s.swapped B).capAt := by
  refine .exchange (B := B) Place.ceffOffset (fun _ => True) (fun _ => rfl) ?_ ?_ ?loaded ?saved ?other
    fun _ _ _ hsaved => absurd trivial hsaved
  · exact fun p x hp => Place.contextOffset_lt (Place.ceffOffset_eq.mp hp).1
  · exact fun p q x hp hq => Place.contextOffset_inj (Place.ceffOffset_eq.mp hp).1 (Place.ceffOffset_eq.mp hq).1
  case loaded =>
    intro p x hp
    obtain ⟨hp, hx⟩ := Place.ceffOffset_eq.mp hp
    rw [State.capAt_swapped hp hx, s.capAt_ctxSlot hB (Place.contextOffset_slot hp).1]
    exact inherits_refl _
  case saved =>
    intro p x hp _
    obtain ⟨hp, hx⟩ := Place.ceffOffset_eq.mp hp
    rw [State.capAt_ctxSlot _ hB (Place.contextOffset_slot hp).1, State.swapped_mem, State.slotCap_saveCEff hs hB hp hx]
    exact inherits_refl _
  case other =>
    intro p hp hunsaved
    cases p with
    | slot a =>
      rcases slot_cases hB a with hnone | ⟨x, hx, h16, rfl⟩
      · rw [hnone, hnone]
        exact inherits_refl _
      · rw [State.capAt_ctxSlot _ hB h16, State.capAt_ctxSlot _ hB h16, State.swapped_mem]
        by_cases h48 : x < 48
        · obtain ⟨q, hq⟩ := exists_contextOffset h16 (.inl h48)
          exact absurd rfl (hunsaved q x (Place.ceffOffset_eq.mpr ⟨hq, h48⟩) trivial)
        · by_cases h96 : x < 96
          · rw [Memory.saveCEff_slotCap_words hs hB h16 (by omega) h96]
            exact lacks_none.inherits _
          · rw [(Memory.saveCEff_outside s.ceff hs hB hx).2 (by omega)]
            exact inherits_refl _
    | reg | cih | cepc | cpmp => exact inherits_refl _
    | pc | ctvec | cscratch => cases hp

theorem State.exchanged_cpmp (s : State) (B : Word) (level : Priv) (k : Fin 16) :
    (s.exchanged B level).ccsr.cpmp[k] = s.mem.readSlot s.draws (ctxAt B (96 + 16 * k.val)) := by
  rw [State.exchanged_ccsr]
  exact Vector.getElem_ofFn _

theorem State.exchanged_capValue (s : State) (B : Word) (level : Priv) {r : Reg} (hr : r ≠ 0) :
    (s.exchanged B level).capValue r = s.mem.readSlot s.draws (ctxAt B (368 + 16 * (r.toNat - 1))) := by
  rw [State.capValue_eq_regs _ hr]
  simp only [State.exchanged_regs]
  exact Vector.getElem_ofFn _

theorem State.capAt_exchanged {p : Place} {x : Nat} (level : Priv) (hp : p.contextOffset = some x) :
    (s.exchanged B level).capAt p = s.mem.slotCap (ctxAt B x) := by
  cases p with
  | pc =>
    cases hp
    rw [ctxAt_zero, State.capAt, State.exchanged_pc, Memory.cap?_readSlot]
  | ctvec =>
    cases hp
    rw [State.capAt, State.exchanged_ccsr, Memory.cap?_readSlot]
  | cscratch =>
    cases hp
    rw [State.capAt, State.exchanged_ccsr, Memory.cap?_readSlot]
  | cepc =>
    cases hp
    rw [State.capAt, State.exchanged_ccsr, Memory.cap?_readSlot]
  | cpmp k =>
    cases hp
    rw [State.capAt, State.exchanged_cpmp, Memory.cap?_readSlot]
  | reg r =>
    obtain ⟨hr, rfl⟩ := Place.contextOffset_reg hp
    rw [State.capAt_reg, State.exchanged_capValue s B level hr, Memory.cap?_readSlot]
  | cih | slot => cases hp

/-- The loads of an asynchronous RETURN leave no copy of what is not non-linear (R378, D20). -/
theorem clearedCap_apart (o : Option Cap) : Inherits o (o.map clearedCap) ∧ Apart o (o.map clearedCap) := by
  cases o with
  | none => exact ⟨inherits_refl _, lacks_none.apart _⟩
  | some c =>
    rw [Option.map_some, clearedCap]
    split
    · next hn => exact ⟨inherits_refl _, (allNonLinear_cap hn).apart (allNonLinear_cap hn)⟩
    · exact ⟨lacks_cnull.inherits _, (lacks_cnull.apart _).symm⟩

/-- What SaveCEff and LoadDomain leave in a slot past the saved part (R217, R378). -/
theorem State.slotCap_exchanged (hs : s.mem.sorted) (hB : B.toNat % 16 = 0) (level : Priv) {x : Nat} (hx : x < 2 ^ 64) :
    (s.exchanged B level).mem.slotCap (ctxAt B x) =
      if 96 ≤ x ∧ x < 864 then (s.mem.slotCap (ctxAt B x)).map clearedCap
      else (s.mem.saveCEff B s.ceff).slotCap (ctxAt B x) := by
  have hsaved := Memory.saveCEff_sorted B s.ceff hs
  rw [State.exchanged_mem, (Memory.clearMoved_at (off := 96) 48 hsaved hB (by decide) (by decide) hx).2]
  by_cases hin : 96 ≤ x ∧ x < 864
  · rw [if_pos hin, if_pos hin, (Memory.saveCEff_outside s.ceff hs hB hx).2 hin.1]
  · rw [if_neg hin, if_neg hin]

/-- The switch of an asynchronous RETURN loads all places of the context, of which it saves three; the slots of the others lose what is not non-linear (R217, R378). -/
theorem exchanged_flow (hs : s.mem.sorted) (hB : B.toNat % 16 = 0) (level : Priv) :
    Flow s.capAt (s.exchanged B level).capAt := by
  refine .exchange (B := B) Place.contextOffset (fun p => p.ceffOffset ≠ none) (fun _ => rfl)
    (fun p x => Place.contextOffset_lt) (fun p q x => Place.contextOffset_inj) ?loaded ?saved ?other ?left
  case loaded =>
    intro p x hp
    rw [State.capAt_exchanged level hp, s.capAt_ctxSlot hB (Place.contextOffset_slot hp).1]
    exact inherits_refl _
  case saved =>
    intro p x hp hsaved
    obtain ⟨y, hy⟩ := Option.ne_none_iff_exists'.mp hsaved
    obtain ⟨hyp, hlt⟩ := Place.ceffOffset_eq.mp hy
    cases hp.symm.trans hyp
    have hout : ¬ (96 ≤ x ∧ x < 864) := by omega
    rw [State.capAt_ctxSlot _ hB (Place.contextOffset_slot hp).1,
      State.slotCap_exchanged hs hB level (Place.contextOffset_lt hp), if_neg hout, State.slotCap_saveCEff hs hB hp hlt]
    exact inherits_refl _
  case other =>
    intro p hp hunsaved
    cases p with
    | slot a =>
      rcases slot_cases hB a with hnone | ⟨x, hx, h16, rfl⟩
      · rw [hnone, hnone]
        exact inherits_refl _
      · rw [State.capAt_ctxSlot _ hB h16, State.capAt_ctxSlot _ hB h16, State.slotCap_exchanged hs hB level hx]
        split
        · exact (clearedCap_apart _).1
        · by_cases h48 : x < 48
          · obtain ⟨q, hq⟩ := exists_contextOffset h16 (.inl h48)
            have hqsaved : q.ceffOffset ≠ none := by
              rw [Place.ceffOffset_eq.mpr ⟨hq, h48⟩]
              exact Option.some_ne_none x
            exact absurd rfl (hunsaved q x hq hqsaved)
          · by_cases h96 : x < 96
            · rw [Memory.saveCEff_slotCap_words hs hB h16 (by omega) h96]
              exact lacks_none.inherits _
            · rw [(Memory.saveCEff_outside s.ceff hs hB hx).2 (by omega)]
              exact inherits_refl _
    | cih =>
      simp only [State.capAt, State.exchanged_ccsr]
      exact inherits_refl _
    | reg r =>
      by_cases hr : r = 0
      · subst hr
        exact lacks_cnull.inherits _
      · cases (if_neg hr).symm.trans hp
    | pc | ctvec | cscratch | cepc | cpmp => cases hp
  case left =>
    intro p x hp hnot
    obtain ⟨h16, hrange⟩ := Place.contextOffset_slot hp
    have h48 : ¬ x < 48 := fun h48 => by
      cases (not_not.mp hnot).symm.trans (Place.ceffOffset_eq.mpr ⟨hp, h48⟩)
    have hlt := Place.contextOffset_lt hp
    have hpast : 96 ≤ x ∧ x < 864 := by omega
    rw [State.capAt_exchanged level hp, State.capAt_ctxSlot _ hB h16,
      State.slotCap_exchanged hs hB level hlt, if_pos hpast]
    exact (clearedCap_apart _).2

/-- What an H-interrupt's delivery leaves, before the capability of `cih` goes to `cra` (R375). -/
def State.deliveredExceptCap (s : State) (i : Irq) (c : Cap) : Place → Option Cap :=
  Function.update (Function.update (s.delivered i c).capAt (.reg 1) none) .cih s.ccsr.cih.cap?

theorem State.lacks_delivered (i : Irq) {c : Cap} {p : Place} {x : Nat} (hp : p.contextOffset = some x) (hx : ¬ x < 48) :
    Lacks (s.deliveredExceptCap i c p) := by
  unfold State.deliveredExceptCap
  cases p with
  | cpmp k =>
    rw [Function.update_of_ne (by rintro ⟨⟩), Function.update_of_ne (by rintro ⟨⟩), State.capAt]
    simp only [State.delivered_ccsr, Fin.getElem_fin, Vector.getElem_replicate]
    exact lacks_cnull
  | cepc =>
    rw [Function.update_of_ne (by rintro ⟨⟩), Function.update_of_ne (by rintro ⟨⟩), State.capAt]
    simp only [State.delivered_ccsr]
    exact lacks_cnull
  | reg r =>
    rw [Function.update_of_ne (by rintro ⟨⟩)]
    by_cases h1 : r = 1
    · subst h1
      rw [Function.update_self]
      exact lacks_none
    · rw [Function.update_of_ne (fun h => h1 (Place.reg.inj h)), State.capAt_reg, State.delivered_capValue, if_neg h1]
      split
      · exact lacks_cnull
      · split <;> exact lacks_int _
  | pc | ctvec | cscratch => have := Option.some.inj hp; omega
  | cih | slot => cases hp

theorem deliveredExceptCap_flow (hs : s.mem.sorted) (i : Irq) {c : Cap} (hB : c.base.toNat % 16 = 0) :
    Flow s.capAt (s.deliveredExceptCap i c) := by
  have hslotAt : ∀ a, s.deliveredExceptCap i c (.slot a) = (s.delivered i c).capAt (.slot a) := fun a => by
    rw [State.deliveredExceptCap, Function.update_of_ne (by rintro ⟨⟩), Function.update_of_ne (by rintro ⟨⟩)]
  refine .exchange (B := c.base) Place.contextOffset (fun _ => True) (fun _ => rfl)
    (fun p x => Place.contextOffset_lt) (fun p q x => Place.contextOffset_inj) ?loaded ?saved ?other
    fun _ _ _ hsaved => absurd trivial hsaved
  case loaded =>
    intro p x hp
    by_cases h48 : x < 48
    · rw [s.capAt_ctxSlot hB (Place.contextOffset_slot hp).1]
      have hread : s.deliveredExceptCap i c p = s.mem.slotCap (ctxAt c.base x) := by
        cases p with
        | pc =>
          cases hp
          rw [ctxAt_zero, ← Memory.cap?_readSlot _ s.draws, ← State.delivered_pc s i c]
          rfl
        | ctvec =>
          cases hp
          rw [← Memory.cap?_readSlot _ s.draws]
          exact congrArg (fun k : Ccsrs => k.ctvec.cap?) (State.delivered_ccsr s i c)
        | cscratch =>
          cases hp
          rw [← Memory.cap?_readSlot _ s.draws]
          exact congrArg (fun k : Ccsrs => k.cscratch.cap?) (State.delivered_ccsr s i c)
        | reg r => obtain ⟨-, rfl⟩ := Place.contextOffset_reg hp; omega
        | cpmp k => have := Option.some.inj hp; omega
        | cepc => have := Option.some.inj hp; omega
        | cih | slot => cases hp
      rw [hread]
      exact inherits_refl _
    · exact (s.lacks_delivered i hp h48).inherits _
  case saved =>
    intro p x hp _
    rw [hslotAt, State.capAt_ctxSlot _ hB (Place.contextOffset_slot hp).1, State.delivered_mem,
      State.slotCap_saveDomain hs hB hp]
    exact inherits_refl _
  case other =>
    intro p hp hunsaved
    cases p with
    | slot a =>
      rw [hslotAt]
      rcases slot_cases hB a with hnone | ⟨x, hx, h16, rfl⟩
      · rw [hnone, hnone]
        exact inherits_refl _
      · rw [State.capAt_ctxSlot _ hB h16, State.capAt_ctxSlot _ hB h16, State.delivered_mem]
        by_cases h944 : x < 944
        · rw [State.slotCap_saveDomain_words hs hB h16 h944 fun q hq => hunsaved q x hq trivial rfl]
          exact lacks_none.inherits _
        · rw [(Memory.saveDomain_outside s.domain hs hB hx (by omega)).2]
          exact inherits_refl _
    | cih =>
      rw [State.deliveredExceptCap, Function.update_self]
      exact inherits_refl _
    | reg r =>
      by_cases hr : r = 0
      · subst hr
        exact inherits_refl _
      · cases (if_neg hr).symm.trans hp
    | pc | ctvec | cscratch | cepc | cpmp => cases hp

/-- H-interrupt delivery exchanges all places of the context with its slots, and moves the capability of `cih` to `cra` (R375). -/
theorem delivered_flow (hs : s.mem.sorted) (i : Irq) {c : Cap} (hcih : s.ccsr.cih = .cap c) (ht : c.type = .sealed)
    (hB : c.base.toNat % 16 = 0) : Flow s.capAt (s.delivered i c).capAt := by
  have hcap : s.deliveredExceptCap i c .cih = some c := by
    rw [State.deliveredExceptCap, Function.update_self, hcih]
    rfl
  have hcra : (s.delivered i c).capAt (.reg 1) = some c.delivered := by
    rw [State.capAt_reg, State.delivered_capValue]
    rfl
  have hcihAfter : (s.delivered i c).capAt .cih = some cnull := by
    rw [State.capAt, State.delivered_ccsr]
    rfl
  have hmoved : Flow (s.deliveredExceptCap i c) (Function.update (Function.update (s.deliveredExceptCap i c) (.reg 1)
      (some c.delivered)) .cih (some cnull)) := by
    refine .moved ?_ (lacks_cnull.inherits _) fun _ => (lacks_cnull.apart _).symm
    rw [hcap]
    exact inherits_of_derived (Cap.derivedFrom_sealed (.inl ht) rfl rfl rfl rfl)
  have hresult : Function.update (Function.update (s.deliveredExceptCap i c) (.reg 1) (some c.delivered)) .cih
      (some cnull) = (s.delivered i c).capAt := by
    have hne : Place.cih ≠ .reg 1 := by rintro ⟨⟩
    rw [State.deliveredExceptCap, Function.update_comm hne, Function.update_idem, Function.update_idem, ← hcra,
      Function.update_eq_self, ← hcihAfter, Function.update_eq_self]
  rw [← hresult]
  exact (deliveredExceptCap_flow hs i hB).trans hmoved

end Switches

end Sys2Proof.Machine

namespace Sys2Proof.Machine

/-! ### REVOKE and CAPENTER make linear capabilities that alias none (R175, R232) -/

/-- A place may receive what is apart from everything that the others hold. -/
theorem Exclusive.update {h : Place → Option Cap} (hs : Exclusive h) {p : Place} {v : Option Cap}
    (hv : ∀ q, q ≠ p → Apart v (h q)) : Exclusive (Function.update h p v) := by
  have hone : ∀ q, q ≠ p → Apart (Function.update h p v p) (Function.update h p v q) := by
    intro q hq
    rw [Function.update_self, Function.update_of_ne hq]
    exact hv q hq
  intro q r hne
  by_cases hq : q = p
  · subst hq
    exact hone r hne.symm
  · by_cases hr : r = p
    · subst hr
      exact (hone q hq).symm
    · rw [Function.update_of_ne hq, Function.update_of_ne hr]
      exact hs q r hne

/-- Every valid capability is non-linear or a revocation capability: nothing that R107 restricts. -/
def Shared (o : Option Cap) : Prop := ∀ c, o = some c → c.valid = true → c.type = .nonLinear ∨ c.type = .revocation

theorem Lacks.shared {o : Option Cap} (h : Lacks o) : Shared o :=
  fun c hc hv => absurd ((h c hc).symm.trans hv) (by decide)

theorem shared_some {c : Cap} (h : c.type = .nonLinear ∨ c.type = .revocation) : Shared (some c) :=
  fun _ hc _ => Option.some.inj hc ▸ h

theorem exclusive_of_shared {h : Place → Option Cap} (hs : ∀ p, Shared (h p)) : Exclusive h :=
  fun p q _ c d hc hd hcv hdv hct hdt _ =>
    ⟨(hs p c hc hcv).resolve_right hct, (hs q d hd hdv).resolve_right hdt⟩

theorem Shared.update {h : Place → Option Cap} (hs : ∀ p, Shared (h p)) (p : Place) {v : Option Cap} (hv : Shared v) :
    ∀ q, Shared (Function.update h p v q) := by
  intro q
  by_cases hq : q = p
  · subst hq
    rwa [Function.update_self]
  · rw [Function.update_of_ne hq]
    exact hs q

section States

variable {s t : State}

/-- Every place's capability is one of the system's. -/
theorem State.CapsAll.lacks_capAt (h : s.CapsAll fun c => c.valid = false) (hslots : s.mem.caps = []) (p : Place) :
    Lacks (s.capAt p) := by
  have hvalue : ∀ {v : Value}, v.All (fun c => c.valid = false) → Lacks v.cap? := by
    rintro (n | c) hv
    · exact lacks_none
    · exact fun d hd => hv d (congrArg Value.cap (Option.some.inj hd))
  cases p with
  | reg r =>
    rw [State.capAt_reg]
    exact hvalue (h.regs r)
  | pc => exact hvalue h.pc
  | ctvec => exact hvalue h.ccsr.ctvec
  | cih => exact hvalue h.ccsr.cih
  | cepc => exact hvalue h.ccsr.cepc
  | cscratch => exact hvalue h.ccsr.cscratch
  | cpmp k => exact hvalue (h.ccsr.cpmp k)
  | slot a =>
    by_cases ha : a.toNat % 16 = 0
    · have hnone : s.mem.slotCap a = none := by
        unfold Memory.slotCap
        rw [hslots]
        exact tableGet_nil _
      rw [State.capAt_slot _ ha, hnone]
      exact lacks_none
    · have hnone : s.capAt (.slot a) = none := if_neg ha
      rw [hnone]
      exact lacks_none

/-- CAPENTER starts from no valid capability and makes none that is linear (R232). -/
theorem Entered.exclusive (h : Entered s t) (hs : Uncapped s) : Exclusive t.capAt := by
  obtain ⟨pc, x10, x11, clock, ⟨hpc, hx10, hx11⟩, rfl⟩ := h.genesis
  have hmade : ({ s.withGenesis pc x10 x11 clock with capstoneEn := true } : State).capAt =
      Function.update (Function.update (Function.update s.capAt .pc (some pc)) (.reg 10) (some x10)) (.reg 11)
        (some x11) := by
    calc _ = (((s.setPc (.cap pc)).setReg 10 (.cap x10)).setReg 11 (.cap x11)).capAt :=
          State.capAt_congr rfl rfl rfl rfl
      _ = _ := by
          rw [State.capAt_setReg, State.capAt_setReg, State.capAt_setPc]
          rfl
  have hshared : x11.type = .nonLinear ∨ x11.type = .revocation := by simpa using hx11
  refine Exclusive.flow (exclusive_of_shared ?_) (State.flow_advance _)
  rw [hmade]
  exact Shared.update (Shared.update (Shared.update (fun p => (hs.invalid.lacks_capAt hs.slots p).shared) _
    (shared_some (.inl hpc))) _ (shared_some (.inl hx10))) _ (shared_some hshared)

theorem State.capAt_revokeAll (s : State) (r : Cap) (p : Place) :
    (s.revokeAll r).capAt p = (s.capAt p).map (revokedCap r) := by
  have hvalue : ∀ v : Value, (revokedValue r v).cap? = v.cap?.map (revokedCap r) := by rintro (n | c) <;> rfl
  cases p with
  | reg q => rw [State.capAt_reg, State.capAt_reg, State.revokeAll_capValue, hvalue]
  | slot a =>
    simp only [State.capAt, State.revokeAll_mem, Memory.mapCaps_slotCap]
    split <;> rfl
  | cpmp k =>
    have hk : (s.revokeAll r).ccsr.cpmp[k] = revokedValue r s.ccsr.cpmp[k] := by simp [Ccsrs.map]
    rw [State.capAt, hk, hvalue, State.capAt]
  | _ => exact hvalue _

/-- REVOKE's own write is of a region that no valid capability overlaps any more (R175). -/
theorem revoke_exclusive (hs : Exclusive s.capAt) (r : Cap) (rs1 : Reg) {v : Cap} (hbase : v.base = r.base)
    (hlast : v.last = r.last) : Exclusive ((s.revokeAll r).setReg rs1 (.cap v)).capAt := by
  have hrevoked : ∀ p, Inherits (s.capAt p) ((s.revokeAll r).capAt p) := by
    intro p d hd hdv
    rw [State.capAt_revokeAll] at hd
    obtain ⟨c, hc, rfl⟩ := Option.map_eq_some_iff.mp hd
    refine ⟨c, hc, ?_⟩
    unfold revokedCap
    split
    · exact ⟨by rintro ⟨⟩, c.within_refl, id, id⟩
    · exact .refl c
  have hclear : ∀ q, Apart (some v) ((s.revokeAll r).capAt q) := by
    intro q _ d hv hd _ hdv _ hdt halias
    cases hv
    rw [State.capAt_revokeAll] at hd
    obtain ⟨c, hc, rfl⟩ := Option.map_eq_some_iff.mp hd
    by_cases hk : revokes r c = true
    · rw [revokedCap, if_pos hk] at hdv
      cases hdv
    · have hsame : revokedCap r c = c := if_neg hk
      rw [hsame] at hdv hdt halias
      refine absurd ((revokes_iff r c).mpr ⟨hdv, .inl ⟨hdt, ?_⟩⟩) hk
      unfold Aliases at *
      rw [← hbase, ← hlast]
      omega
  rw [State.capAt_setReg]
  exact (hs.flow (.inPlace hrevoked)).update fun q _ =>
    (hclear q).inherits (Value.inherits_inReg (.cap v) rs1) (inherits_refl _)

theorem State.capAt_postInts (s : State) (posted : Word) : (s.postInts posted).capAt = s.capAt :=
  State.capAt_congr rfl rfl rfl rfl

/-- Every effect of a C-mode instruction keeps linear capabilities exclusive (R107). -/
theorem CModeEffect.exclusive (h : CModeEffect s t) (hwf : s.MemWf) (hs : Exclusive s.capAt) : Exclusive t.capAt := by
  cases h with
  | moves rd rs1 => exact hs.flow (s.flow_movc rd rs1).advance
  | derives rd rs1 f c hc hf => exact hs.flow (s.flow_derive hc hf).advance
  | rewrites r f c hc hf =>
    refine hs.flow (Flow.advance (s.flow_modifyCap r fun d hd => ?_))
    cases (State.capValue_of_capOf? hc).symm.trans hd
    exact hf
  | reads rd v => exact hs.flow (s.flow_setInt rd v).advance
  | splits rd rs1 c val hc _ hbase hlast => exact hs.flow (split_flow hc hbase hlast).advance
  | remembers rd rs1 c hc ht => exact hs.flow (mrev_flow hc ht).advance
  | revokes rs1 r =>
    have hresult : (revokeResult s r).base = r.base ∧ (revokeResult s r).last = r.last := by
      unfold revokeResult
      split <;> exact ⟨rfl, rfl⟩
    exact (revoke_exclusive hs r rs1 hresult.1 hresult.2).flow (State.flow_advance _)
  | loadsCap rd ea v ha hv => exact hs.flow (ldc_flow hwf ha hv).advance
  | storesCap rs1 rs2 c ea hc ha => exact hs.flow (stc_flow hwf hc ha).advance
  | links rd rs1 c a hc => exact hs.flow (cjalr_flow a hc)
  | jumpsTo rd c a hc => exact hs.flow (cbnz_flow a hc)
  | calls rd rs1 d hd hv ht hB =>
    have hsorted : (callReady s rs1).mem.sorted := by simpa [callReady] using hwf.sorted
    refine ((hs.flow (callReady_flow s rs1)).flow (swapped_flow hsorted hB)).flow (State.flow_modifyCap _ cra fun c hc => ?_)
    cases (callReady_cra hd).symm.trans hc
    exact Cap.derivedFrom_sealed (.inl ht) rfl rfl rfl rfl
  | returnsSync rd c entry hc hv ht hB =>
    have hsorted : ((retReady s rd entry).handBack c).mem.sorted := by simpa [retReady] using hwf.sorted
    rw [State.handBack_swapped]
    exact (hs.flow (handBack_flow entry hc ht)).flow (swapped_flow hsorted hB)
  | returnsAsync rd c entry posted p hc hv ht hB =>
    have hsorted : (retReady (s.keepHandler c) rd entry).mem.sorted := by
      simpa [retReady, State.keepHandler] using hwf.sorted
    rw [State.capAt_postInts]
    exact (hs.flow (keepHandler_flow entry hc ht)).flow (exchanged_flow hsorted hB p)
  | exchanges rd rs1 n c hc => exact hs.flow (ccsrExchange_flow rd rs1 n hc).advance

/-- Every effect of a step does (R107). -/
theorem StepEffect.exclusive (h : StepEffect s t) (hwf : s.MemWf) (huncapped : s.capstoneEn = false → Uncapped s)
    (hs : Exclusive s.capAt) : Exclusive t.capAt := by
  cases h with
  | delivers i c _ hcih _ ht hB => exact hs.flow (delivered_flow hwf.sorted i hcih ht hB)
  | traps _ h => exact hs.flow h.flow
  | base _ h => exact hs.flow (h.flow hwf)
  | cMode _ _ h => exact h.exclusive hwf hs
  | enters _ h => exact h.exclusive (huncapped h.disabled)

end States

/-- Settles O60: every effect of a step moves capabilities from place to place without doubling a linear one, but REVOKE and CAPENTER, whose new capabilities alias no other. -/
theorem linearCapabilitiesStayExclusive : Obligations.LinearCapabilitiesStayExclusive := by
  refine keptByStep_of ?boundary ?effect
  case boundary =>
    rintro s ⟨hexclusive, hwf, huncapped⟩
    refine ⟨?_, by simpa [State.MemWf] using hwf, ?_⟩
    · rw [linearExclusive_iff, State.capAt_congr (boundary_regs s) (boundary_pc s) (boundary_ccsr s) (boundary_mem s)]
      exact (linearExclusive_iff s).mp hexclusive
    · rw [noValidCapabilityYet_iff, boundary_capstoneEn]
      exact fun hen => ((noValidCapabilityYet_iff s).mp huncapped hen).boundary
  case effect =>
    rintro s t ⟨hexclusive, hwf, huncapped⟩ h
    have huncapped := (noValidCapabilityYet_iff s).mp huncapped
    exact ⟨(linearExclusive_iff t).mpr (h.exclusive hwf huncapped ((linearExclusive_iff s).mp hexclusive)),
      h.memWf hwf, (noValidCapabilityYet_iff t).mpr (h.uncapped huncapped)⟩

/-! ### Reset (R400 to R409) -/

theorem uncapped_reset : Uncapped State.reset where
  disabled := rfl
  slots := rfl
  pc := rfl
  invalid := by
    refine ⟨fun r c hc => ?regs, fun c hc => (nomatch hc), ?ccsr, fun e he => nomatch he⟩
    case regs =>
      rw [State.reset_capValue_eq_cap hc]
      rfl
    case ccsr =>
      refine (Ccsrs.all_iff _ _).mpr fun v hv => ?_
      have hmem : v ∈ List.replicate 20 (.cap cnull) := Ccsrs.reset_values ▸ hv
      rw [List.eq_of_mem_replicate hmem]
      exact Value.all_cap rfl

/-- Settles O56: at reset the memory's tables are empty, and no valid capability is anywhere. -/
theorem invariantsHoldAtReset : Obligations.InvariantsHoldAtReset := by
  refine ⟨?wf, by decide, by decide, (noValidCapabilityYet_iff _).mpr fun _ => uncapped_reset, ?exclusive⟩
  case wf => decide
  case exclusive =>
    exact (linearExclusive_iff _).mpr
      (exclusive_of_shared fun p => (uncapped_reset.invalid.lacks_capAt uncapped_reset.slots p).shared)

end Sys2Proof.Machine

namespace Sys2Proof.Machine

/-! ### Reading memory (R84, R85) -/

/-- Settles O12: what the two reads give, from the laws of the tables they look up. -/
theorem memoryReadPrimitives : Obligations.MemoryReadPrimitives := by
  intro s d a
  refine ⟨fun n hn => ?integer, fun c hc => Memory.readSlot_of_capability d hc,
    fun hc => Memory.readSlot_of_integer d hc, slotOf_toNat a, ?slot⟩
  case integer =>
    have h8 : n ≤ 8 := by omega
    exact ⟨s.mem.readInt_lt d a n h8,
      fun hdefined k hk => s.mem.readInt_byte d a n k hk h8 ((definedRange_iff s a n).mpr hdefined)⟩
  case slot => rw [Memory.slotCap, Memory.slotCap, slotOf_slotOf]

/-! ### The fetch (R90, R91, R104) -/

section Fetch

variable {s : State}

@[simp] theorem boundary_inCMode (s : State) : (boundary s).inCMode = s.inCMode := by
  rw [State.inCMode, boundary_capstoneEn, boundary_priv, State.inCMode]

theorem codeAt_boundary (s : State) (a : Word) : CodeAt (boundary s) a ↔ CodeAt s a := by
  simp only [CodeAt, AllMem, boundary_plat, boundary_mem]

theorem runInstruction_of_fault {e : Exc} {a : Word} (h : fetch s = .error (.raise e a)) :
    runInstruction s = trapOutcome (takeException e a 0 s) := by
  rw [runInstruction, h]
  rfl

/-- The fetch address outside C-mode (R91, log 15). -/
theorem fetch_raw (h : s.inCMode = false) : fetch s = (do
    require (alignedTo s.pc.address 4) .instrMisaligned s.pc.address
    require (s.plat.isMemRange s.pc.address 4 && s.mem.fetchable s.pc.address 4) .instrAccess s.pc.address
    .ok (wordOfBytes (s.mem.byte s.pc.address) (s.mem.byte (s.pc.address + 1)) (s.mem.byte (s.pc.address + 2))
      (s.mem.byte (s.pc.address + 3)))) := by
  rw [fetch, h, fetchAddressRaw]
  cases alignedTo s.pc.address 4 <;> rfl

theorem fetch_raw_misaligned (h : s.inCMode = false) (ha : s.pc.address.toNat % 4 ≠ 0) :
    fetch s = .error (.raise .instrMisaligned s.pc.address) := by
  rw [fetch_raw h, (alignedTo_false _ _).mpr ha]
  rfl

theorem fetch_raw_noCode (h : s.inCMode = false) (ha : s.pc.address.toNat % 4 = 0) (hcode : ¬ CodeAt s s.pc.address) :
    fetch s = .error (.raise .instrAccess s.pc.address) := by
  rw [fetch_raw h, (alignedTo_iff _ _).mpr ha,
    Bool.eq_false_of_not_eq_true (mt (fetchable_iff_codeAt s s.pc.address).mp hcode)]
  rfl

theorem fetch_intInCMode {a : Word} (h : s.inCMode = true) (hpc : s.pc = .int a) :
    fetch s = .error (.raise .instrAccess a) := by
  rw [fetch, if_pos h, fetchAddressC, hpc]
  rfl

/-- Where the checks pass, a fetch reads the four bytes (R90, R91, R104). -/
theorem fetch_of_fetchesFrom {a : Word} (h : FetchesFrom s a) :
    fetch s = .ok (wordOfBytes (s.mem.byte a) (s.mem.byte (a + 1)) (s.mem.byte (a + 2)) (s.mem.byte (a + 3))) := by
  obtain ⟨halign, hcode, hmode⟩ := h
  have haligned := (alignedTo_iff a 4).mpr halign
  have hfetchable := (fetchable_iff_codeAt s a).mpr hcode
  rcases hmode with ⟨hmode, rfl⟩ | ⟨hmode, c, hpc, rfl, hvalid, hplain, hexec, hbase, hlast⟩
  · rw [fetch_raw hmode, haligned, hfetchable]
    rfl
  · have hbarred : ¬ c.Barred := by
      rintro (hinvalid | hother | hnoexec | hout)
      · cases hinvalid.symm.trans hvalid
      · exact hother hplain
      · cases hnoexec.symm.trans hexec
      · omega
    rw [fetch, if_pos hmode, fetchAddressC_cap hpc, decide_eq_false hbarred, haligned]
    simp only [Bool.not_false, require_true, except_ok_bind, hfetchable]

end Fetch

/-- Settles O45: each fault is the fetch's answer in the state the boundary leaves, which keeps `pc` and memory. -/
theorem fetchFaults : Obligations.FetchFaults := by
  intro s hquiet fails
  have hfails {e : Exc} {a : Word} (h : fetch (boundary s) = .error (.raise e a)) : fails e a :=
    (step_of_quiet hquiet).trans (runInstruction_of_fault h)
  refine ⟨fun hmode a hpc => ?raw, fun hmode a hpc => ?integer, fun hmode c hpc => ?capability⟩
  case raw =>
    have hmode' : (boundary s).inCMode = false := by rw [boundary_inCMode, hmode]
    have haddress : (boundary s).pc.address = a := by
      rw [boundary_pc]
      rcases hpc with hpc | ⟨c, hpc, hcursor⟩
      · rw [hpc]
        rfl
      · rw [hpc]
        exact hcursor
    subst haddress
    refine ⟨fun hmis => hfails (fetch_raw_misaligned hmode' hmis), fun halign hcode => ?_⟩
    exact hfails (fetch_raw_noCode hmode' (not_not.mp halign) (mt (codeAt_boundary s _).mp hcode))
  case integer => exact hfails (fetch_intInCMode (by rw [boundary_inCMode, hmode]) (by rw [boundary_pc, hpc]))
  case capability =>
    have hfault (h : CannotExecute (boundary s) c) : fails (fetchFault c) c.cursor :=
      hfails (fetch_of_cannotExecute (by rw [boundary_inCMode, hmode]) (by rw [boundary_pc, hpc]) h)
    refine ⟨fun hbarred => ?_, fun hopen => ⟨fun hmis => ?_, fun halign hcode => ?_⟩⟩
    · rw [← fetchFault_access (.inl hbarred)]
      exact hfault (.inl hbarred)
    · rw [← fetchFault_misaligned hopen hmis]
      exact hfault (.inr (.inl hmis))
    · rw [← fetchFault_access (.inr (not_not.mp halign))]
      exact hfault (.inr (.inr (mt (codeAt_boundary s _).mp hcode)))

/-- The word that a step decodes. -/
theorem decodeWord_fourBytes (s : State) (a : Word) : decode (fourBytes s a) =
    (decodeWord (wordOfBytes (s.mem.byte a) (s.mem.byte (a + 1)) (s.mem.byte (a + 2)) (s.mem.byte (a + 3)))).map
      fun i => (i, []) := by
  rw [decodeWord_eq]
  rfl

/-- Settles O46: with nothing before it, the step fetches, decodes and executes, each in the state the boundary leaves. -/
theorem stepRunsTheDecodedInstruction : Obligations.StepRunsTheDecodedInstruction := by
  refine ⟨fun s a i hquiet hfetch hdecode => ?decodes, fun s a e hquiet hfetch hdecode => ?illegal,
    fun s => boundary_of_nil⟩
  case decodes =>
    rw [decodeWord_fourBytes] at hdecode
    rw [step_of_quiet hquiet, runInstruction, fetch_of_fetchesFrom hfetch]
    dsimp only
    generalize decodeWord (wordOfBytes ..) = r at hdecode ⊢
    cases r with
    | ok j => cases hdecode; rfl
    | error e => cases hdecode
  case illegal =>
    rw [decodeWord_fourBytes] at hdecode
    rw [step_of_quiet hquiet, runInstruction, fetch_of_fetchesFrom hfetch, ← boundary_mem s]
    dsimp only
    generalize decodeWord (wordOfBytes ..) = r at hdecode ⊢
    cases r with
    | ok j => cases hdecode
    | error e => rfl

end Sys2Proof.Machine

namespace Sys2Proof.Machine

/-! ### CCSRRW (R38, R39, R230) -/

theorem CcsrName.ofEncoding_cpmp (k : Fin 16) : CcsrName.ofEncoding (BitVec.ofNat 12 (16 + k.val)) = some (.cpmp k) := by
  revert k
  decide

theorem CcsrName.ofEncoding_none {imm : BitVec 12}
    (h : imm.toNat = 3 ∨ (4 < imm.toNat ∧ imm.toNat < 16) ∨ 31 < imm.toNat) : CcsrName.ofEncoding imm = none := by
  have hne (n : BitVec 12) (hn : imm.toNat ≠ n.toNat) : imm ≠ n := fun heq => hn (congrArg BitVec.toNat heq)
  have h0 := hne 0 (by simp; omega)
  have h1 := hne 1 (by simp; omega)
  have h2 := hne 2 (by simp; omega)
  have h4 := hne 4 (by simp; omega)
  rw [CcsrName.ofEncoding, if_neg h0, if_neg h1, if_neg h2, if_neg h4, dif_neg (by omega)]

section Exchange

variable {s : State} {rd rs1 : Reg} {n : CcsrName} {c : Cap}

theorem ccsrWritable_iff (k : Ccsrs) (n : CcsrName) : ccsrWritable k n = true ↔ n ≠ .cih ∨ k.cih.vacant = true := by
  simp [ccsrWritable]

/-- The registers of a CCSRRW that writes its CCSR: the capability is moved out of `x[rs1]` (R230). -/
theorem ccsrExchange_capValue_written (hw : ccsrWritable s.ccsr n = true) (r : Reg) :
    (ccsrExchange s rd rs1 n c).capValue r =
      moveReg s.capValue rd rs1 c (if ccsrReadable n then s.ccsr.get n else .cap cnull) r := by
  unfold ccsrExchange moveReg
  dsimp only
  rw [if_pos hw, State.setReg_putReg]
  by_cases hmoves : rs1 ≠ rd ∧ c.type ≠ .nonLinear
  · rw [if_pos hmoves, if_pos ⟨hmoves.2, hmoves.1⟩, funext (State.setReg_putReg _ rs1 _)]
    rfl
  · rw [if_neg hmoves, if_neg fun h => hmoves ⟨h.2, h.1⟩]
    rfl

theorem ccsrExchange_ccsr_written (hw : ccsrWritable s.ccsr n = true) :
    (ccsrExchange s rd rs1 n c).ccsr = s.ccsr.put n (.cap c) := by
  unfold ccsrExchange
  dsimp only
  rw [if_pos hw]
  split <;> simp

/-- The one CCSR that a CCSRRW may neither read nor write is `cih` while it is not vacant (R39, D6). -/
theorem ccsrExchange_kept (hv : s.ccsr.cih.vacant = false) :
    (∀ r, (ccsrExchange s rd rs1 .cih c).capValue r = putReg s.capValue rd (.cap cnull) r) ∧
      (ccsrExchange s rd rs1 .cih c).ccsr = s.ccsr := by
  have hw : ¬ ccsrWritable s.ccsr .cih = true := by simp [ccsrWritable_iff, hv]
  unfold ccsrExchange
  dsimp only
  rw [if_neg hw]
  exact ⟨State.setReg_putReg _ rd _, State.setReg_ccsr ..⟩

theorem ccsrExchange_pc : (ccsrExchange s rd rs1 n c).pc = s.pc := by
  unfold ccsrExchange
  dsimp only
  split
  · split <;> simp
  · simp

/-- A CCSRRW that completes: its registers and its CCSRs, and the rest as before. -/
theorem ccsrExchange_done {i : Instr} {regs : Reg → Value} {after : CcsrName → Value}
    (h : exec i s = .next (ccsrExchange s rd rs1 n c).advance)
    (hregs : ∀ r, (ccsrExchange s rd rs1 n c).capValue r = regs r)
    (hccsr : ∀ m, (ccsrExchange s rd rs1 n c).ccsr.get m = after m) :
    ∃ t, exec i s = .next t ∧ (∀ r, t.capValue r = regs r) ∧ (∀ m, t.ccsr.get m = after m) ∧ t.pc = nextPc s ∧
      SameControl s { t with ccsr := s.ccsr } ∧ SameMemory s t := by
  obtain ⟨⟨hpriv, hen, -, hcsr, hclock, hinputs, hplat⟩, -⟩ := ccsrExchange_onlyRegs s rd rs1 n c
  refine ⟨_, h, fun r => ?_, fun m => ?_, ?_, ⟨hpriv, hen, rfl, hcsr, hclock, hinputs, hplat⟩, SameMemory.of_eq ?_⟩
  · rw [State.advance_capValue]
    exact hregs r
  · rw [State.advance_ccsr]
    exact hccsr m
  · rw [State.advance_pc, ccsrExchange_pc]
    rfl
  · rw [State.advance_mem, ccsrExchange_mem]

end Exchange

/-- Settles O31: past its operand checks CCSRRW is its exchange, in which only `cih` is restricted. -/
theorem ccsrrwExchanges : Obligations.CcsrrwExchanges := by
  refine ⟨rfl, rfl, rfl, rfl, CcsrName.ofEncoding_cpmp, fun _ => CcsrName.ofEncoding_none,
    fun _ => ⟨rfl, rfl, rfl, rfl, fun _ => rfl⟩, fun s rd rs1 imm hs => ?_⟩
  intro i done
  have hrun := RunsAs.of_capstoneOp (i := i) hs rfl
  refine ⟨rfl, hrun.raises_of_no_cap, fun src hc => ⟨fun hnone => ?unnamed, fun n hn => ?named⟩⟩
  case unnamed =>
    have hcheck := hrun.cap hc
    rw [requireCcsr, hnone] at hcheck
    exact hcheck
  case named =>
    have hcheck := hrun.cap hc
    rw [requireCcsr, hn] at hcheck
    have hnext : exec i s = .next (ccsrExchange s rd rs1 n src).advance := hcheck.next
    have hwritten (hw : ccsrWritable s.ccsr n = true) :
        done (moveReg s.capValue rd rs1 src (if ccsrReadable n then s.ccsr.get n else .cap cnull))
          (fun m => if m = n then .cap src else s.ccsr.get m) :=
      ccsrExchange_done hnext (ccsrExchange_capValue_written hw) fun m => by
        rw [ccsrExchange_ccsr_written hw, Ccsrs.get_put]
    refine ⟨fun hne => ?other, fun hcih hvacant => ?vacant, fun hcih hheld => ?held⟩
    case other =>
      have hread : ccsrReadable n = true := decide_eq_true hne
      rw [← if_pos (t := s.ccsr.get n) (e := .cap cnull) hread]
      exact hwritten ((ccsrWritable_iff ..).mpr (.inl hne))
    case vacant =>
      subst hcih
      exact hwritten ((ccsrWritable_iff ..).mpr (.inr hvacant))
    case held =>
      subst hcih
      obtain ⟨hregs, hccsr⟩ := ccsrExchange_kept (rd := rd) (rs1 := rs1) (c := src) hheld
      exact ccsrExchange_done hnext hregs fun m => by rw [hccsr]

end Sys2Proof.Machine

namespace Sys2Proof.Machine

/-! ### The switch of C-effective registers (R376) -/

/-- `u` is `s` but for registers, `pc` and `cih`: what CALL and RETURN change around their switch. -/
structure ReadyToSwitch (s u : State) : Prop where
  mem : u.mem = s.mem
  draws : u.draws = s.draws
  priv : u.priv = s.priv
  csr : u.csr = s.csr
  ccsr : u.ccsr = { s.ccsr with cih := u.ccsr.cih }
  capstoneEn : u.capstoneEn = s.capstoneEn
  revClock : u.revClock = s.revClock
  inputs : u.inputs = s.inputs
  plat : u.plat = s.plat

/-- What the switch of CALL and of a synchronous RETURN leaves, registers and `cih` apart (R214, R216). -/
structure Switched (s t : State) (B : Word) (pc : Value) : Prop where
  loaded : CEffLoaded s t B
  mip : t.csr.mip = s.mem.readInt s.draws (ctxAt B 72) 8 &&& 0xaaa
  priv : t.priv = .machine
  saved : CEffSaved s t B pc
  outside : SameOutside s t B 88
  cepc : t.ccsr.cepc = s.ccsr.cepc
  cpmp : t.ccsr.cpmp = s.ccsr.cpmp
  domainOnly : t.csr.domainOnly = s.csr.domainOnly
  hartOnly : t.csr.hartOnly = s.csr.hartOnly
  capstoneEn : t.capstoneEn = s.capstoneEn
  revClock : t.revClock = s.revClock
  inputs : t.inputs = s.inputs
  plat : t.plat = s.plat

section Switch

variable {s t u : State} {B : Word}

theorem ReadyToSwitch.allMem (h : ReadyToSwitch s u) {n : Nat} : AllMem u B n ↔ AllMem s B n := by
  simp only [AllMem, h.plat]

/-- The image that is saved is that of `s`, with the `pc` of `u` (R51). -/
theorem ReadyToSwitch.ceff (h : ReadyToSwitch s u) : u.ceff = { s.ceff with pc := u.pc } := by
  rw [State.ceff, h.csr, h.priv, h.ccsr]
  rfl

/-- The C-effective registers, loaded through their field rules; `mip` may still be changed (R376, D19). -/
theorem ceffLoaded_of {c : Csrs} {m : Word} (hpc : t.pc = s.mem.readSlot s.draws B)
    (hctvec : t.ccsr.ctvec = s.mem.readSlot s.draws (ctxAt B 16))
    (hcscratch : t.ccsr.cscratch = s.mem.readSlot s.draws (ctxAt B 32))
    (hcsr : t.csr = { c.loaded (s.mem.readCEff s.draws B) with mip := m }) : CEffLoaded s t B := by
  refine ⟨hpc, hctvec, hcscratch, ?_, ?_, ?_, ?_⟩
  · rw [hcsr]
    exact loadedStatus_loadMstatus _
  · rw [hcsr]
    rfl
  · rw [hcsr]
    exact delegableBits_legalMedeleg _
  · rw [hcsr]
    rfl

theorem saveCEff_sameOutside (hs : s.mem.sorted) (hB : B.toNat % 16 = 0) {e : CEff}
    (ht : t.mem = s.mem.saveCEff B e) : SameOutside s t B 88 := by
  refine sameOutside_of hB (fun x hx h88 => ?_) fun x hx h96 => ?_
  · rw [ht]
    exact (Memory.saveCEff_outside e hs hB hx).1 h88
  · rw [ht]
    exact (Memory.saveCEff_outside e hs hB hx).2 (by omega)

/-- The switch itself (R376). -/
theorem ReadyToSwitch.swapped (h : ReadyToSwitch s u) (hs : s.MemWf) (hB : B.toNat % 16 = 0) :
    Switched s (u.swapped B) B u.pc := by
  have hmem : (u.swapped B).mem = s.mem.saveCEff B { s.ceff with pc := u.pc } := by
    rw [State.swapped_mem, h.ceff, h.mem]
  have hcsr : (u.swapped B).csr = s.csr.loaded (s.mem.readCEff s.draws B) := by
    rw [State.swapped_csr, h.csr, h.mem, h.draws]
  refine
    { loaded := ceffLoaded_of (c := s.csr) (m := (s.csr.loaded (s.mem.readCEff s.draws B)).mip) ?_ ?_ ?_ hcsr
      mip := ?_
      priv := rfl
      saved := ceffSaved_of (hmem ▸ Memory.saveCEff_ceffIs _ hs.sorted hB) rfl
      outside := saveCEff_sameOutside hs.sorted hB hmem
      cepc := ?_
      cpmp := ?_
      domainOnly := ?_
      hartOnly := ?_
      capstoneEn := h.capstoneEn
      revClock := h.revClock
      inputs := h.inputs
      plat := h.plat }
  · rw [State.swapped_pc, h.mem, h.draws]
  · rw [State.swapped_ccsr, h.mem, h.draws]
  · rw [State.swapped_ccsr, h.mem, h.draws]
  · rw [hcsr]
    rfl
  · rw [State.swapped_ccsr, h.ccsr]
  · rw [State.swapped_ccsr, h.ccsr]
  · rw [hcsr]
    rfl
  · rw [hcsr]
    rfl

theorem State.swapCEff_of (hB : B.toNat % 16 = 0) (hmem : AllMem s B 88) : s.swapCEff B = .ok (s.swapped B) := by
  have hready : contextReady s B ceffBytes = .ok () := contextReady_of hB hmem
  rw [State.swapCEff, hready]
  rfl

theorem State.swapCEff_notMemory (hB : B.toNat % 16 = 0) (hmem : ¬ AllMem s B 88) :
    s.swapCEff B = .error .contextNotMemory := by
  have hnot : contextReady s B ceffBytes = .error .contextNotMemory := contextReady_notMemory hB hmem
  rw [State.swapCEff, hnot, except_error_bind]

end Switch

/-! ### CALL (R214) -/

section Call

variable {s : State} {rs1 : Reg} {d : Cap}

theorem putReg_putReg_self (f : Reg → Value) (r : Reg) (v w : Value) : putReg (putReg f r v) r w = putReg f r w := by
  funext q
  simp only [putReg]
  split <;> rfl

theorem putReg_zero (f : Reg → Value) (v : Value) : putReg f 0 v = f := by
  funext q
  exact if_neg fun h => h.2 rfl

/-- The end of CALL can come before its switch: it writes nothing that the switch reads (R214). -/
theorem State.modifyCap_swapped (s : State) (B : Word) (r : Reg) (f : Cap → Cap) :
    (s.swapped B).modifyCap r f = (s.modifyCap r f).swapped B := by
  have hstored : (s.swapped B).stored r = s.stored r := rfl
  unfold State.modifyCap
  rw [hstored]
  cases s.stored r with
  | cap c =>
    unfold State.setReg
    dsimp only
    split <;> rfl
  | int n => rfl

/-- CALL before its switch, with `cra` as it ends (R214). -/
def called (s : State) (rd rs1 : Reg) : State := (callReady s rs1).modifyCap cra fun c => c.called rd

theorem called_ready (s : State) (rd rs1 : Reg) : ReadyToSwitch s (called s rd rs1) := by
  constructor <;> simp [called, callReady]

theorem called_pc (s : State) (rd rs1 : Reg) : (called s rd rs1).pc = nextPc s := by
  simp [called, callReady, nextPc]

theorem called_cih (s : State) (rd rs1 : Reg) :
    (called s rd rs1).ccsr.cih = if rs1 = 0 then .cap cnull else s.ccsr.cih := by
  simp [called, callReady]

/-- What the move to `cra` leaves in the registers, `cra` apart (R214). -/
theorem callReady_capValue (hd : callTarget s rs1 = .cap d) (ht : d.type = .sealed) (v : Value) :
    putReg (callReady s rs1).capValue cra v = putReg (putReg s.capValue rs1 (.cap cnull)) cra v := by
  rw [callTarget_eq] at hd
  by_cases hr : rs1 = 0
  · subst hr
    have hmoved : (callReady s 0).capValue = putReg s.capValue cra s.ccsr.cih := by
      funext q
      rw [callReady, callMove, if_pos rfl, State.advance_capValue, State.setCcsr_capValue, State.setReg_putReg]
    rw [hmoved, putReg_putReg_self, putReg_zero]
  · rw [if_neg hr] at hd
    have hcap : s.capOf? rs1 = some d := by rw [State.capOf?_eq, hd]; rfl
    have hmoved : (callReady s rs1).capValue =
        fun q => if rs1 = cra then s.capValue q else moveReg s.capValue cra rs1 d (.cap d) q := by
      funext q
      rw [callReady, callMove, if_neg hr, State.advance_capValue, State.movc_capValue hcap]
    rw [hmoved]
    by_cases hcra : rs1 = cra
    · simp only [hcra, if_true, putReg_putReg_self]
    · have hmoves : rs1 ≠ cra ∧ d.type ≠ .nonLinear := ⟨hcra, by rw [ht]; decide⟩
      simp only [hcra, if_false, moveReg, if_pos hmoves]
      exact putReg_putReg_self _ cra _ v

theorem called_capValue (rd : Reg) (hd : callTarget s rs1 = .cap d) (ht : d.type = .sealed) (r : Reg) :
    (called s rd rs1).capValue r = putReg (putReg s.capValue rs1 (.cap cnull)) 1 (.cap (d.called rd)) r := by
  rw [called, State.modifyCap_capValue _ (callReady_cra hd), callReady_capValue hd ht]
  rfl

end Call

/-- Settles O28: CALL's checks, its move to `cra`, and the switch. -/
theorem callSwapsDomains : Obligations.CallSwapsDomains := by
  intro s rd rs1 rs2 hs i d
  have hrun := RunsAs.of_capstoneOp (i := i) hs rfl
  have htarget : callTarget s rs1 = d := callTarget_eq s rs1
  rw [htarget] at hrun
  refine ⟨rfl, fun n hn => ?integer, fun c hc => ?capability⟩
  case integer =>
    rw [hn] at hrun
    exact hrun
  case capability =>
    rw [hc] at hrun
    have hcall : RunsAs i s (do
        require c.valid .invalidCap
        require (decide (c.type = .sealed)) .capType
        require (!c.async) .capType
        let u ← orStuck ((callReady s rs1).swapCEff c.base)
        .ok (u.modifyCap cra fun e => e.called rd)) := hrun
    refine ⟨fun hv => hcall.raises (Bool.eq_false_iff.mp hv), fun hv hwrong => ?type, fun hv ht hsync hB => ?call⟩
    case type =>
      by_cases ht : c.type = .sealed
      · have hasync : c.async = true := hwrong.resolve_left (not_not.mpr ht)
        exact ((hcall.pass hv).pass (decide_eq_true ht)).raises (by rw [hasync]; decide)
      · exact (hcall.pass hv).raises (mt of_decide_eq_true ht)
    case call =>
      have hswitch := ((hcall.pass hv).pass (decide_eq_true ht)).pass (by rw [hsync]; rfl)
      have hplat : (callReady s rs1).plat = s.plat := by simp [callReady]
      refine ⟨fun hno => ?notMemory, fun hmem hwf => ?memory⟩
      case notMemory =>
        rw [State.swapCEff_notMemory hB (by simpa only [AllMem, hplat] using hno)] at hswitch
        exact hswitch.stuck
      case memory =>
        rw [State.swapCEff_of hB (by simpa only [AllMem, hplat] using hmem)] at hswitch
        have hnext : exec i s = .next ((called s rd rs1).swapped c.base) := by
          rw [called, ← State.modifyCap_swapped]
          exact hswitch.next
        have hswitched := (called_ready s rd rs1).swapped hwf hB
        rw [called_pc] at hswitched
        exact ⟨_, hnext, hswitched.loaded, hswitched.mip, hswitched.priv, hswitched.saved, hswitched.outside,
          called_capValue rd (htarget.trans hc) ht, called_cih s rd rs1, hswitched.cepc, hswitched.cpmp,
          hswitched.domainOnly, hswitched.hartOnly, hswitched.capstoneEn, hswitched.revClock, hswitched.inputs,
          hswitched.plat⟩

end Sys2Proof.Machine

namespace Sys2Proof.Machine

/-! ### RETURN (R215 to R217) -/

section Return

variable {s : State} {rd rs1 rs2 : Reg} {c : Cap} {entry : Word}

/-- The checks of RETURN, passed: its two cases (R215). -/
theorem ret_switches (hs : CReady s) (hc : s.capOf? rd = some c) (hentry : s.intOf? rs1 = some entry)
    (hv : c.valid = true) (ht : c.type = .sealedReturn ∨ (c.type = .sealed ∧ s.ccsr.cih.vacant = true)) :
    RunsAs (.ret rd rs1 rs2) s
      (if c.async then returnAsync rd c entry (s.ival rs2) s else returnSync rd c entry s) := by
  have hrun := RunsAs.of_capstoneOp (i := .ret rd rs1 rs2) hs rfl
  have hsealed : c.type = .sealed ∨ c.type = .sealedReturn := ht.symm.imp_left And.left
  have hvacant : (!(decide (c.type = .sealed) && !s.ccsr.cih.vacant)) = true := by
    rcases ht with ht | ⟨-, hcih⟩
    · rw [ht]
      rfl
    · rw [hcih]
      simp
  exact ((((hrun.cap hc).int hentry).pass hv).pass (decide_eq_true hsealed)).pass hvacant

theorem ret_wrongType (hs : CReady s) (hc : s.capOf? rd = some c) (hentry : s.intOf? rs1 = some entry)
    (hv : c.valid = true) (ht : (c.type ≠ .sealed ∧ c.type ≠ .sealedReturn) ∨
      (c.type = .sealed ∧ s.ccsr.cih.vacant = false)) : Raises (.ret rd rs1 rs2) s .capType := by
  have hrun := RunsAs.of_capstoneOp (i := .ret rd rs1 rs2) hs rfl
  have hvalid := ((hrun.cap hc).int hentry).pass hv
  rcases ht with ⟨hsealed, hreturn⟩ | ⟨hsealed, hheld⟩
  · exact hvalid.raises fun h => (of_decide_eq_true h).elim hsealed hreturn
  · refine (hvalid.pass (decide_eq_true (.inl hsealed))).raises ?_
    rw [hheld, decide_eq_true hsealed]
    decide

theorem retReady_ready (s : State) (rd : Reg) (entry : Word) : ReadyToSwitch s (retReady s rd entry) := by
  constructor <;> simp [retReady]

theorem retReady_capValue (s : State) (rd : Reg) (entry : Word) (r : Reg) :
    (retReady s rd entry).capValue r = putReg s.capValue rd (.cap cnull) r := by
  rw [retReady, State.setPc_capValue, State.setReg_putReg]

/-- A synchronous RETURN before its switch, with the capability where it ends (R216). -/
def returned (s : State) (rd : Reg) (entry : Word) (c : Cap) : State := (retReady s rd entry).handBack c

theorem returned_ready (s : State) (rd : Reg) (entry : Word) (c : Cap) : ReadyToSwitch s (returned s rd entry c) := by
  unfold returned State.handBack
  split <;> constructor <;> simp [retReady]

theorem returned_pc (s : State) (rd : Reg) (entry : Word) (c : Cap) :
    (returned s rd entry c).pc = s.pc.withCursor entry := by
  rw [returned, State.handBack_pc]
  rfl

/-- The capability goes back to the register that the CALL named (R216). -/
theorem returned_toReg (ht : c.type = .sealedReturn) (hreg : c.reg ≠ 0) :
    (∀ r, (returned s rd entry c).capValue r =
      putReg (putReg s.capValue rd (.cap cnull)) c.reg (.cap { c with type := .sealed }) r) ∧
    (returned s rd entry c).ccsr.cih = s.ccsr.cih := by
  unfold returned State.handBack
  rw [if_pos ⟨ht, hreg⟩]
  refine ⟨fun r => ?_, ?_⟩
  · rw [State.setReg_putReg, funext (retReady_capValue s rd entry)]
  · simp [retReady]

/-- Or to `cih` (R216). -/
theorem returned_toCih (h : c.type = .sealed ∨ c.reg = 0) :
    (∀ r, (returned s rd entry c).capValue r = putReg s.capValue rd (.cap cnull) r) ∧
    (returned s rd entry c).ccsr.cih = .cap { c with type := .sealed } := by
  have hnot : ¬ (c.type = .sealedReturn ∧ c.reg ≠ 0) := by
    rintro ⟨ht, hreg⟩
    rcases h with hsealed | hzero
    · cases ht.symm.trans hsealed
    · exact hreg hzero
  unfold returned State.handBack
  rw [if_neg hnot]
  refine ⟨fun r => ?_, rfl⟩
  rw [State.setCcsr_capValue, retReady_capValue]

theorem returnSync_eq (hsync : c.async = false) (h : RunsAs (.ret rd rs1 rs2) s
      (if c.async then returnAsync rd c entry (s.ival rs2) s else returnSync rd c entry s)) :
    RunsAs (.ret rd rs1 rs2) s (do
      let u ← orStuck ((retReady s rd entry).swapCEff c.base)
      .ok (u.handBack c)) := by
  rw [hsync, returnSync, State.setReg_pc] at h
  exact h

end Return

/-- Settles O29: RETURN's checks, the capability handed back, and the switch. -/
theorem returnSwapsBack : Obligations.ReturnSwapsBack := by
  intro s rd rs1 rs2 hs i
  have hrun := RunsAs.of_capstoneOp (i := i) hs rfl
  refine ⟨rfl, hrun.raises_of_no_cap_or_int, fun c entry hc hentry => ⟨fun hv => ?invalid,
    fun hv ht => ret_wrongType hs hc hentry hv ht, fun hv ht hsync hB => ?returns⟩⟩
  case invalid => exact ((hrun.cap hc).int hentry).raises (Bool.eq_false_iff.mp hv)
  case returns =>
    have hswitch := returnSync_eq hsync (ret_switches (rs2 := rs2) hs hc hentry hv ht)
    have hready := retReady_ready s rd entry
    refine ⟨fun hno => ?notMemory, fun hmem hwf => ?memory⟩
    case notMemory =>
      rw [State.swapCEff_notMemory hB (mt hready.allMem.mp hno)] at hswitch
      exact hswitch.stuck
    case memory =>
      rw [State.swapCEff_of hB (hready.allMem.mpr hmem)] at hswitch
      have hnext : exec i s = .next ((returned s rd entry c).swapped c.base) := by
        rw [returned, ← State.handBack_swapped]
        exact hswitch.next
      have hswitched := (returned_ready s rd entry c).swapped hwf hB
      rw [returned_pc] at hswitched
      exact ⟨_, hnext, hswitched.loaded, hswitched.mip, hswitched.priv, hswitched.saved, hswitched.outside,
        fun htype hreg => returned_toReg htype hreg, fun h => returned_toCih h, hswitched.cepc, hswitched.cpmp,
        hswitched.domainOnly, hswitched.hartOnly, hswitched.capstoneEn, hswitched.revClock, hswitched.inputs,
        hswitched.plat⟩

/-! ### RETURN, asynchronous (R217) -/

section Resume

variable {s u : State} {B : Word}

/-- The memory that SaveCEff and LoadDomain leave, its image of the C-effective registers kept by the clearing (R378). -/
theorem ReadyToSwitch.exchanged_saved (h : ReadyToSwitch s u) (hs : s.MemWf) (hB : B.toNat % 16 = 0) (p : Priv) :
    (u.exchanged B p).mem.ceffIs B { s.ceff with pc := u.pc } := by
  have hsaved := Memory.saveCEff_sorted B u.ceff (h.mem ▸ hs.sorted : u.mem.sorted)
  have hclear {x : Nat} (hx : x < 96) :=
    Memory.clearMoved_at (B := B) (off := 96) (x := x) 48 hsaved hB (by decide) (by decide) (by omega)
  have hcap {x : Nat} (hx : x < 96) : ((u.mem.saveCEff B u.ceff).clearMoved (ctxAt B 96) 48).slotCap (ctxAt B x) =
      (u.mem.saveCEff B u.ceff).slotCap (ctxAt B x) := (hclear hx).2.trans (if_neg (by omega))
  rw [State.exchanged_mem, ← h.ceff]
  exact (Memory.saveCEff_ceffIs u.ceff (h.mem ▸ hs.sorted) hB).keep (fun x hx => (hclear (by omega)).1 (.inl (by omega)))
    (fun x hx => hcap (by omega)) fun hnone => (hcap (by decide)).trans hnone

/-- What SaveCEff and LoadDomain leave past the 88 saved bytes (R217, R378). -/
theorem ReadyToSwitch.exchanged_bytes (h : ReadyToSwitch s u) (hs : s.MemWf) (hB : B.toNat % 16 = 0) (p : Priv)
    {x : Nat} (hx : x < 2 ^ 64) (h88 : 88 ≤ x) :
    ((x < 96 ∨ 864 ≤ x ∨ ∀ d, s.mem.slotCap (ctxAt B x) = some d → d.type = .nonLinear) →
      (u.exchanged B p).mem.at B x = s.mem.at B x) ∧
    (96 ≤ x → x < 864 → ∀ d, s.mem.slotCap (ctxAt B x) = some d → d.type ≠ .nonLinear →
      (u.exchanged B p).mem.defined (ctxAt B x) = false) := by
  have hsorted : u.mem.sorted := h.mem ▸ hs.sorted
  have hsaved := Memory.saveCEff_sorted B u.ceff hsorted
  obtain ⟨hat, hcap⟩ := Memory.saveCEff_outside u.ceff hsorted hB hx
  have houtside := (Memory.clearMoved_at (B := B) (off := 96) (x := x) 48 hsaved hB (by decide) (by decide) hx).1
  obtain ⟨hkept, hcleared⟩ :=
    Memory.clearMoved_bytes (B := B) (off := 96) (x := x) 48 hsaved hB (by decide) (by decide) hx
  rw [State.exchanged_mem]
  rw [h.mem] at hat hcap houtside hkept hcleared ⊢
  refine ⟨fun hwhere => ?_, fun h96 h864 d hd => ?_⟩
  · by_cases hin : x < 96 ∨ 864 ≤ x
    · exact (houtside (by omega)).trans (hat h88)
    · have hnonLinear := (hwhere.resolve_left fun h => hin (.inl h)).resolve_left fun h => hin (.inr h)
      have h96 : 96 ≤ x := by omega
      exact (hkept (by rwa [hcap h96])).trans (hat h88)
  · exact hcleared h96 (by omega) d ((hcap h96).trans hd)

theorem ReadyToSwitch.exchanged_sameOutside (h : ReadyToSwitch s u) (hs : s.MemWf) (hB : B.toNat % 16 = 0) (p : Priv) :
    SameOutside s (u.exchanged B p) B 864 := by
  have hsorted : u.mem.sorted := h.mem ▸ hs.sorted
  refine sameOutside_of hB (fun x hx h864 => ?_) fun x hx h864 => ?_
  · exact (h.exchanged_bytes hs hB p hx (by omega)).1 (.inr (.inl h864))
  · have hout : ¬ (96 ≤ x ∧ x < 864) := by omega
    rw [State.slotCap_exchanged hsorted hB p hx, if_neg hout, (Memory.saveCEff_outside u.ceff hsorted hB hx).2 (by omega),
      h.mem]

theorem State.exchangeDomain_of {p : Priv} (hB : B.toNat % 16 = 0) (hmem : AllMem s B 944)
    (hp : LevelBits (s.mem.readInt s.draws (ctxAt B 48) 8) 38 p) : s.exchangeDomain B = .ok (s.exchanged B p) := by
  have hready : contextReady s B domainBytes = .ok () := contextReady_of hB hmem
  have hlevel : Priv.ofCode (imagePriv (s.mem.readDomain s.draws B).ceff.mstatus) = some p := (imagePriv_level _ p).mpr hp
  rw [State.exchangeDomain, hready, except_ok_bind]
  dsimp only
  rw [hlevel]
  rfl

theorem State.exchangeDomain_notMemory (hB : B.toNat % 16 = 0) (hmem : ¬ AllMem s B 944) :
    s.exchangeDomain B = .error .contextNotMemory := by
  have hnot : contextReady s B domainBytes = .error .contextNotMemory := contextReady_notMemory hB hmem
  rw [State.exchangeDomain, hnot, except_error_bind]

/-- A saved privilege level of 2 is none (D19). -/
theorem State.exchangeDomain_badPriv (hB : B.toNat % 16 = 0) (hmem : AllMem s B 944)
    (h38 : bitOf (s.mem.readInt s.draws (ctxAt B 48) 8) 38 = false)
    (h39 : bitOf (s.mem.readInt s.draws (ctxAt B 48) 8) 39 = true) : s.exchangeDomain B = .error .badSavedPriv := by
  have hready : contextReady s B domainBytes = .ok () := contextReady_of hB hmem
  have hlevel : Priv.ofCode (imagePriv (s.mem.readDomain s.draws B).ceff.mstatus) = none := by
    cases hp : Priv.ofCode (imagePriv (s.mem.readDomain s.draws B).ceff.mstatus) with
    | none => rfl
    | some p =>
      obtain ⟨hlow, hhigh⟩ := (imagePriv_level _ p).mp hp
      have hmachine : p = .machine := of_decide_eq_true (hhigh.symm.trans h39)
      have huser : p = .user := not_not.mp (of_decide_eq_false (hlow.symm.trans h38))
      cases hmachine.symm.trans huser
  rw [State.exchangeDomain, hready, except_ok_bind]
  dsimp only
  rw [hlevel]

end Resume

section Resumed

variable {s : State} {rd rs1 rs2 : Reg} {c : Cap} {entry : Word}

/-- An asynchronous RETURN before its switch (R217). -/
def resuming (s : State) (rd : Reg) (entry : Word) (c : Cap) : State := retReady (s.keepHandler c) rd entry

theorem resuming_ready (s : State) (rd : Reg) (entry : Word) (c : Cap) : ReadyToSwitch s (resuming s rd entry c) := by
  constructor <;> simp [resuming, retReady, State.keepHandler]

theorem resuming_pc (s : State) (rd : Reg) (entry : Word) (c : Cap) :
    (resuming s rd entry c).pc = s.pc.withCursor entry := rfl

theorem resuming_cih (s : State) (rd : Reg) (entry : Word) (c : Cap) :
    (resuming s rd entry c).ccsr.cih = .cap { c with type := .sealed, async := false } := by
  simp [resuming, retReady, State.keepHandler]

theorem returnAsync_eq (hasync : c.async = true) (h : RunsAs (.ret rd rs1 rs2) s
      (if c.async then returnAsync rd c entry (s.ival rs2) s else returnSync rd c entry s)) :
    RunsAs (.ret rd rs1 rs2) s (do
      let u ← orStuck ((resuming s rd entry c).exchangeDomain c.base)
      .ok (u.postInts (s.ival rs2))) := by
  rw [hasync, if_pos rfl, returnAsync, State.setReg_pc] at h
  exact h

@[simp] theorem State.postInts_mem (s : State) (w : Word) : (s.postInts w).mem = s.mem := rfl
@[simp] theorem State.postInts_ccsr (s : State) (w : Word) : (s.postInts w).ccsr = s.ccsr := rfl
@[simp] theorem State.postInts_pc (s : State) (w : Word) : (s.postInts w).pc = s.pc := rfl
@[simp] theorem State.postInts_priv (s : State) (w : Word) : (s.postInts w).priv = s.priv := rfl
@[simp] theorem State.postInts_capValue (s : State) (w : Word) (r : Reg) : (s.postInts w).capValue r = s.capValue r := rfl
@[simp] theorem State.postInts_capstoneEn (s : State) (w : Word) : (s.postInts w).capstoneEn = s.capstoneEn := rfl
@[simp] theorem State.postInts_revClock (s : State) (w : Word) : (s.postInts w).revClock = s.revClock := rfl
@[simp] theorem State.postInts_inputs (s : State) (w : Word) : (s.postInts w).inputs = s.inputs := rfl
@[simp] theorem State.postInts_plat (s : State) (w : Word) : (s.postInts w).plat = s.plat := rfl

/-- Only the lines of `mip` count, before and after posting (D31, D36). -/
theorem posted_lines (a b m : Word) : ((a &&& m) ||| b) &&& m = (a ||| b) &&& m := by
  ext i
  simp only [BitVec.getElem_and, BitVec.getElem_or]
  cases m[i] <;> simp

end Resumed

/-- Settles O30: RETURN's checks, the handler kept in `cih`, and the switch of whole contexts. -/
theorem asynchronousReturnResumes : Obligations.AsynchronousReturnResumes := by
  intro s rd rs1 rs2 c entry hs i B image hc hentry hv ht hasync hB
  have hswitch := returnAsync_eq hasync (ret_switches (rs2 := rs2) hs hc hentry hv ht)
  have hready := resuming_ready s rd entry c
  have himage : (resuming s rd entry c).mem.readInt (resuming s rd entry c).draws (ctxAt B 48) 8 = image := by
    rw [hready.mem, hready.draws]
  refine ⟨fun hno => ?notMemory, fun hmem h38 h39 => ?badLevel, fun p hmem hp hwf => ?resumes⟩
  case notMemory =>
    rw [State.exchangeDomain_notMemory hB (mt hready.allMem.mp hno)] at hswitch
    exact hswitch.stuck
  case badLevel =>
    rw [State.exchangeDomain_badPriv hB (hready.allMem.mpr hmem) (himage ▸ h38) (himage ▸ h39)] at hswitch
    exact hswitch.stuck
  case resumes =>
    rw [State.exchangeDomain_of hB (hready.allMem.mpr hmem) (himage ▸ hp)] at hswitch
    have hcih := resuming_cih s rd entry c
    have hpc := resuming_pc s rd entry c
    generalize resuming s rd entry c = u at hswitch hready hcih hpc
    have hsorted : u.mem.sorted := hready.mem ▸ hwf.sorted
    have hcsr : ((u.exchanged B p).postInts (s.ival rs2)).csr =
        { ((s.csr.inDomain (s.mem.readDomain s.draws B)).loaded (s.mem.readCEff s.draws B)) with
          mip := ((u.exchanged B p).csr.mip ||| s.ival rs2) &&& irqMask } := by
      rw [State.postInts, State.setCsr_csr, State.exchanged_csr, hready.csr, hready.mem, hready.draws]
    have hsaved : ((u.exchanged B p).postInts (s.ival rs2)).mem.ceffIs B { s.ceff with pc := s.pc.withCursor entry } := by
      rw [State.postInts_mem, ← hpc]
      exact hready.exchanged_saved hwf hB p
    refine ⟨_, hswitch.next, ceffLoaded_of ?pc ?ctvec ?cscratch hcsr, ?priv, ?mip, ?regs, ?cpmp, ?cepc, ?domainOnly,
      ?cih, ceffSaved_of hsaved rfl, ?slots, fun a h88 h864 => ?bytes, ?outside, ?hartOnly, ?capstoneEn, ?revClock,
      ?inputs, ?plat⟩
    case pc => rw [State.postInts_pc, State.exchanged_pc, hready.mem, hready.draws]
    case ctvec => rw [State.postInts_ccsr, State.exchanged_ccsr, hready.mem, hready.draws]
    case cscratch => rw [State.postInts_ccsr, State.exchanged_ccsr, hready.mem, hready.draws]
    case priv => rw [State.postInts_priv, State.exchanged_priv]
    case mip =>
      rw [hcsr, State.exchanged_csr, hready.mem, hready.draws]
      exact posted_lines _ _ _
    case regs =>
      intro r hr
      rw [State.postInts_capValue, State.exchanged_capValue u B p hr, hready.mem, hready.draws]
    case cpmp =>
      intro k
      rw [State.postInts_ccsr, State.exchanged_cpmp, hready.mem, hready.draws]
    case cepc => rw [State.postInts_ccsr, State.exchanged_ccsr, hready.mem, hready.draws]
    case domainOnly =>
      rw [hcsr]
      rfl
    case cih =>
      rw [State.postInts_ccsr, State.exchanged_ccsr]
      exact hcih
    case slots =>
      intro k hk
      have hin : 96 ≤ 96 + 16 * k ∧ 96 + 16 * k < 864 := by omega
      rw [State.postInts_mem, State.slotCap_exchanged hsorted hB p (by omega), if_pos hin, hready.mem]
      rfl
    case bytes =>
      rw [State.postInts_mem]
      obtain ⟨hkept, hcleared⟩ := hready.exchanged_bytes hwf hB p (a - B).isLt h88
      rw [← eq_ctxAt B a] at hkept hcleared
      refine ⟨fun hwhere => ?_, fun d h96 hd hn => hcleared h96 h864 d hd hn⟩
      have hat := hkept (hwhere.imp_right .inr)
      unfold Memory.at at hat
      rw [← eq_ctxAt B a] at hat
      exact Prod.mk.inj hat
    case outside => simpa only [SameOutside, State.postInts_mem] using hready.exchanged_sameOutside hwf hB p
    case hartOnly =>
      rw [hcsr]
      rfl
    case capstoneEn => rw [State.postInts_capstoneEn, State.exchanged_capstoneEn, hready.capstoneEn]
    case revClock => rw [State.postInts_revClock, State.exchanged_revClock, hready.revClock]
    case inputs => rw [State.postInts_inputs, State.exchanged_inputs, hready.inputs]
    case plat => rw [State.postInts_plat, State.exchanged_plat, hready.plat]

end Sys2Proof.Machine

namespace Sys2Proof.Machine

/-! ### H-interrupt delivery (R373, R375, R377, R379) -/

section Delivery

variable {s : State} {line : Irq} {c : Cap} {B : Word}

/-- The highest line that is pending and not delegated is delivered to a handler in `cih` (R373). -/
theorem hDeliverable_of_highest (hen : s.capstoneEn = true)
    (hline : Highest (fun i => bitOf s.csr.cis i.bit = true ∧ bitOf s.csr.cid i.bit = false) line)
    (hcih : s.ccsr.cih = .cap c) (hv : c.valid = true) (ht : c.type = .sealed) (hsync : c.async = false) :
    hDeliverable s = some (line, c) := by
  have hfirst : firstLine (pendingH s.csr) = some line := by
    rw [firstLine_some]
    exact (highest_congr (fun i => pendingH_bit s.csr i) line).mpr hline
  have hhandler : handlerCap s.ccsr.cih = some c := by
    rw [hcih]
    exact if_pos ⟨hv, ht, hsync⟩
  rw [hDeliverable, if_pos hen, hfirst, hhandler]

theorem hDeliver_of (hB : c.base.toNat % 16 = 0) (hmem : AllMem s c.base 944) :
    hDeliver s line c = .ok (s.delivered line c) := by
  have hready : contextReady s c.base domainBytes = .ok () := contextReady_of hB hmem
  rw [hDeliver, hready]
  rfl

theorem hDeliver_notMemory (hB : c.base.toNat % 16 = 0) (hmem : ¬ AllMem s c.base 944) :
    hDeliver s line c = .error .contextNotMemory := by
  have hnot : contextReady s c.base domainBytes = .error .contextNotMemory := contextReady_notMemory hB hmem
  rw [hDeliver, hnot, except_error_bind]

theorem saveDomain_sameOutside {t : State} {d : Domain} (hs : s.mem.sorted) (hB : B.toNat % 16 = 0)
    (ht : t.mem = s.mem.saveDomain B d) : SameOutside s t B 944 := by
  refine sameOutside_of hB (fun x hx h944 => ?_) fun x hx h944 => ?_
  · rw [ht]
    exact (Memory.saveDomain_outside d hs hB hx h944).1
  · rw [ht]
    exact (Memory.saveDomain_outside d hs hB hx (by omega)).2

/-- The eleven words of a saved domain outside the C-effective part (R50, R377). -/
theorem domainIs_words {t : State} (h : t.mem.domainIs B s.domain) :
    ∀ x ∈ [88, 864, 872, 880, 888, 896, 904, 912, 920, 928, 936].zip s.csr.domainOnly, WordHolds t (ctxAt B x.1) x.2 := by
  intro x hx
  rw [wordHolds_iff]
  simp only [Csrs.domainOnly, List.zip_cons_cons, List.zip_nil_right, List.mem_cons, List.not_mem_nil, or_false] at hx
  rcases hx with rfl | rfl | rfl | rfl | rfl | rfl | rfl | rfl | rfl | rfl | rfl
  · exact h.offsetmmu
  · exact h.words 0 (by decide)
  · exact h.words 1 (by decide)
  · exact h.words 2 (by decide)
  · exact h.words 3 (by decide)
  · exact h.words 4 (by decide)
  · exact h.words 5 (by decide)
  · exact h.words 6 (by decide)
  · exact h.words 7 (by decide)
  · exact h.words 8 (by decide)
  · exact h.words 9 (by decide)

theorem domainIs_cpmp {t : State} (h : t.mem.domainIs B s.domain) (k : Fin 16) :
    SlotHolds t (ctxAt B (96 + 16 * k.val)) s.ccsr.cpmp[k] := by
  have hslot := h.slots k.val (by omega)
  rw [Domain.slots_cpmp] at hslot
  exact (slotHolds_iff ..).mpr hslot

theorem domainIs_cepc {t : State} (h : t.mem.domainIs B s.domain) : SlotHolds t (ctxAt B 352) s.ccsr.cepc := by
  have hslot := h.slots 16 (by decide)
  rw [Domain.slots_cepc] at hslot
  exact (slotHolds_iff ..).mpr hslot

theorem domainIs_reg {t : State} (h : t.mem.domainIs B s.domain) {r : Reg} (hr : r ≠ 0) :
    SlotHolds t (ctxAt B (368 + 16 * (r.toNat - 1))) (s.capValue r) := by
  have hlt := r.isLt
  have hslot := h.slots (17 + (r.toNat - 1)) (by omega)
  have hoff : 96 + 16 * (17 + (r.toNat - 1)) = 368 + 16 * (r.toNat - 1) := by omega
  rw [Domain.slots_reg _ _ (by omega), hoff] at hslot
  rw [State.capValue_eq_regs s hr]
  exact (slotHolds_iff ..).mpr hslot

end Delivery

/-- Settles O52: the line that is delivered, and the state that delivery leaves. -/
theorem hInterruptDelivery : Obligations.HInterruptDelivery := by
  intro s₀ line c hmode s hline hcih hv ht hsync hB B
  obtain ⟨hen₀, hpriv⟩ := s₀.inCMode_iff.mp hmode
  have hen : s.capstoneEn = true := (boundary_capstoneEn s₀).trans hen₀
  have hevent : pendingEvent s = some (hDeliver s line c) := by
    rw [pendingEvent, hDeliverable_of_highest hen hline hcih hv ht hsync]
  have hstep : step s₀ = trapOutcome (hDeliver s line c) := by
    rw [step_of_modelled (.inl hpriv), afterBoundary_of_some hevent]
  refine ⟨fun hno => ?notMemory, fun hmem hwf => ?delivers⟩
  case notMemory =>
    rw [hstep, hDeliver_notMemory hB hno]
    rfl
  case delivers =>
    have hnext : step s₀ = .next (s.delivered line c) := by
      rw [hstep, hDeliver_of hB hmem]
      rfl
    have himage : (s.delivered line c).mem.domainIs B s.domain := by
      rw [State.delivered_mem]
      exact Memory.saveDomain_domainIs s.domain hwf.sorted hB
    have hcsr := State.delivered_csr s line c
    have hccsr := State.delivered_ccsr s line c
    refine ⟨_, hnext, ceffLoaded_of (c := s.csr.scrubbed)
      (m := (s.csr.scrubbed.loaded (s.mem.readCEff s.draws B)).mip) (State.delivered_pc s line c) (congrArg Ccsrs.ctvec hccsr)
      (congrArg Ccsrs.cscratch hccsr) hcsr, ?mip, State.delivered_priv s line c, fun r hr => ?registers,
      congrArg Ccsrs.cih hccsr, congrArg Ccsrs.cepc hccsr, fun k => ?cpmp, ?domainOnly, ?hartOnly,
      ceffSaved_of himage.ceff rfl, domainIs_cpmp himage, domainIs_cepc himage, fun r hr => domainIs_reg himage hr,
      domainIs_words himage, saveDomain_sameOutside hwf.sorted hB (State.delivered_mem s line c),
      State.delivered_capstoneEn s line c, State.delivered_revClock s line c, State.delivered_inputs s line c,
      State.delivered_plat s line c⟩
    case mip =>
      rw [hcsr]
      rfl
    case registers =>
      rw [State.delivered_capValue, if_neg hr]
      by_cases h1 : r = 1
      · have h10 : r ≠ 10 := by rw [h1]; decide
        rw [if_neg h10, if_pos h1, if_pos h1]
        rfl
      · rw [if_neg h1, if_neg h1]
        rfl
    case cpmp =>
      rw [hccsr]
      exact Vector.getElem_replicate _
    case domainOnly =>
      rw [hcsr]
      rfl
    case hartOnly =>
      rw [hcsr]
      rfl

end Sys2Proof.Machine
